-- ==== Sys2Proof/Config.lean ====
section
/-! DEFINITION. The fixed sizes and limits of the part, and the one value the manual leaves open: which bytes of a
cut-off configuration write have reached the memory. -/

namespace Sys2Proof.Config

/-- R178: the greatest length a frame may announce. -/
def maxBody : Nat := 200
/-- R179: how many requests may wait at a port. -/
def fifoSize : Nat := 4
/-- R183: how many notices an outbound queue takes; one further place is kept for a reply. -/
def noticePlaces : Nat := 31
/-- R89: the entries of the spoil list. -/
def spoilSize : Nat := 256
/-- R96: the entries of the issue list. -/
def issueSize : Nat := 256
/-- R99: the records of the fault log. -/
def faultSize : Nat := 40
/-- R44: the spoil-list entries of one allowance. -/
def allowanceSize : Nat := 10
/-- R57: the jobs a printer may hold, the one in print included. -/
def printerLoad : Nat := 16
/-- R51: the supervisor's reserved count. -/
def supReserve : Nat := 4
/-- R51: the supervisor's ceiling. -/
def supCeiling : Nat := 8
/-- Serials run from 1 to this (R1). -/
def maxSerial : Nat := 9999999
/-- The greatest size of a pack (R1). -/
def maxPack : Nat := 2000
/-- R126: the upper limit of a session accumulator. -/
def maxMoney : Nat := 99999999
/-- R166: the upper limit of a day total. -/
def maxTotal : Nat := 999999999
/-- The upper limit of the two-byte counts and numbers (R100, R102, R121, R123). -/
def max16 : Nat := 65535
/-- R197: the seconds of a day. -/
def daySeconds : Nat := 86400

/-- R194: a write that was cut off or that failed may leave part of the old image and part of the new. The value
for the `n`-th such write and byte `i` says whether that byte is the new one. It has no body, so that nothing can
be proved about it. DESIGN CHOICE, safe: log entry 20. -/
opaque tornByteIsNew : Nat → Nat → Bool

end Sys2Proof.Config
end

