-- ==== Sys2Proof/Word.lean ====
section
/-! DEFINITION. The byte of the links, the printer lines and the configuration memory, and the fixed-size tables the
state is built from. -/

namespace Sys2Proof

/-- Eight data bits of a character (R175) or one byte of the configuration memory (R192). -/
abbrev Byte := BitVec 8

/-- Place `i` of a table of `n` places. -/
def look {α : Type} {n : Nat} (v : Vector α n) (i : Fin n) : α := v.get i

/-- The table with place `i` set to `x`. Every indexed table of the part (ports, packs, jobs, printers, sessions,
slots) is read through `look` and written through `put`. -/
def put {α : Type} {n : Nat} (v : Vector α n) (i : Fin n) (x : α) : Vector α n := v.set i.val x i.isLt

theorem look_put {α : Type} {n : Nat} (v : Vector α n) (i j : Fin n) (x : α) :
    look (put v i x) j = if i = j then x else look v j := by
  simp only [look, put, Vector.get_eq_getElem, Vector.getElem_set, Fin.ext_iff]

@[simp] theorem look_put_same {α : Type} {n : Nat} (v : Vector α n) (i : Fin n) (x : α) :
    look (put v i x) i = x := by
  simp [look_put]

theorem look_put_other {α : Type} {n : Nat} (v : Vector α n) (i j : Fin n) (x : α) (h : i ≠ j) :
    look (put v i x) j = look v j := by
  simp [look_put, h]

@[simp] theorem look_replicate {α : Type} {n : Nat} (i : Fin n) (x : α) : look (Vector.replicate n x) i = x := by
  simp [look, Vector.get_eq_getElem]

theorem look_map {α β : Type} {n : Nat} (f : α → β) (v : Vector α n) (i : Fin n) :
    look (v.map f) i = f (look v i) := by
  simp [look, Vector.get_eq_getElem]

theorem look_ofFn {α : Type} {n : Nat} (f : Fin n → α) (i : Fin n) : look (Vector.ofFn f) i = f i := by
  simp [look, Vector.get_eq_getElem]

end Sys2Proof
end

