-- ==== Sys2Proof/Syntax.lean ====
section
/-! DEFINITION. The commands of the part, one constructor for each row of spec/opcode_table.json, and the types of
their operands. A request row carries the port it is taken at, the flags and tag of its frame (R177) and the
parameters its rule names, each as the number its bytes hold, so that a value outside its range can be sent and
refused as the rule says. -/

namespace Sys2Proof

/-- The window ports W0 to W11 and the supervisor's port S (R174). -/
inductive Port where
  | win (w : Fin 12)
  | sup
deriving DecidableEq, Repr

/-- The printer lines A and B (R24). -/
inductive Line where
  | a
  | b
deriving DecidableEq, Repr

/-- One character of a link or printer line (R175): its mark bit, whether its stop bit was found low, its byte. -/
structure Char9 where
  mark    : Bool
  framing : Bool
  byte    : Byte
deriving DecidableEq, Repr

/-- The flags and tag of a request frame (R177). -/
structure Header where
  chain : Bool
  quiet : Bool
  tag   : Nat
deriving DecidableEq, Repr

/-- The kinds of fault a printer reports (R25). -/
inductive PrinterKind where
  | jam
  | misfeed
  | coverOpen
  | cutter
  | stockOut
deriving DecidableEq, Repr

/-- The condition of a STATUS response (R25). -/
inductive Condition where
  | idle
  | busy
  | fault (kind : PrinterKind)
deriving DecidableEq, Repr

/-- The outcome of a COUPON report (R25). -/
inductive PrintOutcome where
  | good
  | bad
deriving DecidableEq, Repr

/-- R62: the two ways the supervisor names a job; with a port, the frame's tag names the job. -/
inductive JobName where
  | number (n : Nat)
  | ofPort (port : Nat)
deriving DecidableEq, Repr

/-- R19: the two ways of naming a pack. -/
inductive PackName where
  | serial (n : Nat)
  | index (n : Nat)
deriving DecidableEq, Repr

/-- R195: what SET PARAMETER carries, by the identifier of R190. `other` is an identifier the table does not list,
with whatever bytes follow it (log entry 9). -/
inductive ParamChange where
  | linkRate (code : Nat)
  | printersPresent (mask : Nat)
  | windowsPresent (mask : Nat)
  | quota (window res ceil : Nat)
  | floor (tender value : Nat)
  | rate (tender value : Nat)
  | refundLimit (value : Nat)
  | voidWindow (value : Nat)
  | authTime (value : Nat)
  | stockLow (value : Nat)
  | stockHandling (value : Nat)
  | other (ident : Nat) (rest : List Byte)
deriving DecidableEq, Repr

/-- The commands. An operand `w : Option Nat` is the window that only the supervisor's form of the request names
(R179); a window's own form has none. -/
inductive Instr where
  -- window requests (R186, codes 01 to 0F)
  | openSession (p : Port) (h : Header) (clerk float : Nat) (w : Option Nat)
  | sell (p : Port) (h : Header) (kind coupons fare tender : Nat) (texts : List (List Byte)) (w : Option Nat)
  | cancel (p : Port) (h : Header) (ofPort : Option Nat)
  | voidTicket (p : Port) (h : Header) (serial : Nat)
  | refund (p : Port) (h : Header) (serial amount tender : Nat) (w : Option Nat)
  | closeSession (p : Port) (h : Header) (w : Option Nat)
  | declare (p : Port) (h : Header) (session cash card warrant voucher docs : Nat)
  | ackFault (p : Port) (h : Header) (number : Nat)
  | loadPack (p : Port) (h : Header) (serial printer : Nat)
  | unloadPack (p : Port) (h : Header) (printer : Nat)
  | queryJob (p : Port) (h : Header) (by' : Option JobName)
  | queryPrinter (p : Port) (h : Header) (printer : Nat)
  | querySession (p : Port) (h : Header) (number : Option Nat)
  | queryPack (p : Port) (h : Header) (by' : PackName)
  | queryOffice (p : Port) (h : Header)
  -- supervisor requests (R186, codes 20 to 36)
  | receivePack (p : Port) (h : Header) (first last : Nat)
  | returnPack (p : Port) (h : Header) (serial : Nat)
  | writeOff (p : Port) (h : Header) (serial count : Nat)
  | serviceOut (p : Port) (h : Header) (printer : Nat)
  | serviceIn (p : Port) (h : Header) (printer : Nat)
  | assignPrinters (p : Port) (h : Header) (window primary : Nat) (alternate : Option Nat)
  | testPrint (p : Port) (h : Header) (printer : Nat) (texts : List (List Byte))
  | hold (p : Port) (h : Header) (window : Nat)
  | release (p : Port) (h : Header) (window : Nat)
  | answer (p : Port) (h : Header) (window serial decision : Nat)
  | faultRead (p : Port) (h : Header) (retire : Nat) (number : Option Nat)
  | closeFault (p : Port) (h : Header) (number remedy : Nat)
  | spoilRead (p : Port) (h : Header) (retire : Nat)
  | recount (p : Port) (h : Header) (session : Nat)
  | cashUpReport (p : Port) (h : Header) (session retire : Nat)
  | forceClose (p : Port) (h : Header) (session : Nat)
  | dayClose (p : Port) (h : Header)
  | dayOpen (p : Port) (h : Header)
  | dayReport (p : Port) (h : Header) (sect : Nat) (start : Option Nat)
  | setTime (p : Port) (h : Header) (reading : Nat)
  | setParameter (p : Port) (h : Header) (change : ParamChange)
  | saveParameters (p : Port) (h : Header)
  | restart (p : Port) (h : Header)
  -- link events (R178, R179, R183, R185)
  | badRequest (p : Port) (body : List Byte)
  | receiveFrame (p : Port) (chars : List Char9)
  | strayCharacter (p : Port) (c : Char9)
  | interCharacterTimeout (p : Port)
  | portBreak (p : Port)
  | transmitFrame (p : Port)
  -- line engine actions (R26, R31)
  | poll (l : Line)
  | print (l : Line)
  | sense (l : Line)
  -- printer responses (R25, R27)
  | status (l : Line) (condition : Condition)
  | coupon (l : Line) (serial : Nat) (outcome : PrintOutcome)
  | serial (l : Line) (serial : Nat)
  | badResponse (l : Line) (chars : List Char9)
  | exchangeTimeout (l : Line)
  -- timers, line break, configuration memory, clock
  | couponTimerExpiry (printer : Fin 8)
  | senseTimerExpiry (printer : Fin 8)
  | authorisationExpiry (w : Fin 12)
  | lineRestartBreakEnd (l : Line)
  | saveComplete (good : Bool)
  | clockTick
  -- reset and supplies (R199, R200)
  | resetAssert
  | resetRelease
  | coldStart
  | powerFail
  | backupSupplyLoss
  -- further link events (R178, R185)
  | frameInProgressDiscarded (p : Port) (c : Char9)
  | lineReturnsHigh (p : Port)
deriving DecidableEq, Repr

end Sys2Proof
end

