-- ==== Sys2Proof/WellFormed.lean ====
section
/-! DEFINITION. Which commands are well formed: each operand of a request fits the bytes R177 gives it, a request has
the form of its port (R179), and the body is within the 200 bytes of R176. -/

namespace Sys2Proof

/-- A field of one byte (R177). -/
def fits1 (n : Nat) : Bool := n < 256
/-- A field of two bytes. -/
def fits2 (n : Nat) : Bool := n < 65536
/-- A field of four bytes. -/
def fits4 (n : Nat) : Bool := n < 4294967296

/-- R177: a window's tag has 32 bits. -/
def Header.wf (h : Header) : Bool := fits4 h.tag

/-- R179: the field that only the supervisor's form of a request has. -/
def formOf (p : Port) (w : Option Nat) : Bool :=
  match p, w with
  | .win _, none => true
  | .sup, some n => fits1 n
  | _, _ => false

/-- An optional field (R177). -/
def optFits (f : Nat → Bool) (o : Option Nat) : Bool :=
  match o with
  | none => true
  | some n => f n

/-- The bytes that a list of text fields takes after its count byte (R177). -/
def textBytes : List (List Byte) → Nat
  | [] => 0
  | t :: ts => 1 + t.length + textBytes ts

/-- Text fields that can be sent: at most 255 of them, each of at most 255 characters (R177). -/
def textsFit (ts : List (List Byte)) : Bool := fits1 ts.length && ts.all fun t => fits1 t.length

/-- R195: the value of each parameter fits the width that the image of R192 gives it. -/
def ParamChange.wf : ParamChange → Bool
  | .linkRate c => fits1 c
  | .printersPresent m => fits1 m
  | .windowsPresent m => fits2 m
  | .quota w r c => fits1 w && fits1 r && fits1 c
  | .floor t v => fits1 t && fits2 v
  | .rate t v => fits1 t && fits2 v
  | .refundLimit v => fits4 v
  | .voidWindow v => fits2 v
  | .authTime v => fits2 v
  | .stockLow v => fits2 v
  | .stockHandling v => fits1 v
  | .other i rest => fits1 i && !(decide (1 ≤ i) && decide (i ≤ 11)) && decide (7 + rest.length ≤ Config.maxBody)

/-- R62: the naming of a job fits one byte. -/
def JobName.wf : JobName → Bool
  | .number n => fits1 n
  | .ofPort n => fits1 n

/-- R19: the naming of a pack. -/
def PackName.wf : PackName → Bool
  | .serial n => fits4 n
  | .index n => fits1 n

/-- A well-formed command. -/
def wellFormed : Instr → Bool
  | .openSession p h clerk float w => h.wf && fits2 clerk && fits4 float && formOf p w
  | .sell p h kind coupons fare tender texts w =>
      h.wf && fits1 kind && fits1 coupons && fits4 fare && fits1 tender && textsFit texts && formOf p w
        && decide (14 + textBytes texts + w.toList.length ≤ Config.maxBody)
  | .cancel p h o => h.wf && formOf p o
  | .voidTicket _ h serial => h.wf && fits4 serial
  | .refund p h serial amount tender w => h.wf && fits4 serial && fits4 amount && fits1 tender && formOf p w
  | .closeSession p h w => h.wf && formOf p w
  | .declare _ h n a b c d docs => h.wf && fits2 n && fits4 a && fits4 b && fits4 c && fits4 d && fits2 docs
  | .ackFault _ h n => h.wf && fits2 n
  | .loadPack _ h serial printer => h.wf && fits4 serial && fits1 printer
  | .unloadPack _ h printer => h.wf && fits1 printer
  | .queryJob p h b =>
      h.wf && match p, b with
        | .win _, none => true
        | .sup, some j => j.wf
        | _, _ => false
  | .queryPrinter _ h printer => h.wf && fits1 printer
  | .querySession p h n => h.wf && optFits fits2 n && (p != .sup || n.isSome)
  | .queryPack _ h b => h.wf && b.wf
  | .queryOffice _ h => h.wf
  | .receivePack _ h a b => h.wf && fits4 a && fits4 b
  | .returnPack _ h serial => h.wf && fits4 serial
  | .writeOff _ h serial n => h.wf && fits4 serial && fits2 n
  | .serviceOut _ h printer => h.wf && fits1 printer
  | .serviceIn _ h printer => h.wf && fits1 printer
  | .assignPrinters _ h w a b => h.wf && fits1 w && fits1 a && optFits fits1 b
  | .testPrint _ h printer texts =>
      h.wf && fits1 printer && textsFit texts && decide (8 + textBytes texts ≤ Config.maxBody)
  | .hold _ h w => h.wf && fits1 w
  | .release _ h w => h.wf && fits1 w
  | .answer _ h w serial d => h.wf && fits1 w && fits4 serial && fits1 d
  | .faultRead _ h retire n => h.wf && fits1 retire && optFits fits2 n
  | .closeFault _ h n remedy => h.wf && fits2 n && fits1 remedy
  | .spoilRead _ h retire => h.wf && fits1 retire
  | .recount _ h n => h.wf && fits2 n
  | .cashUpReport _ h n retire => h.wf && fits2 n && fits1 retire
  | .forceClose _ h n => h.wf && fits2 n
  | .dayClose _ h => h.wf
  | .dayOpen _ h => h.wf
  | .dayReport _ h sect start => h.wf && fits1 sect && optFits fits1 start && (decide (sect = 1) == start.isSome)
  | .setTime _ h t => h.wf && fits4 t
  | .setParameter _ h c => h.wf && c.wf
  | .saveParameters _ h => h.wf
  | .restart _ h => h.wf
  | .badRequest _ body => decide (body.length ≤ Config.maxBody)
  | .receiveFrame _ _ => true
  | .strayCharacter _ _ => true
  | .interCharacterTimeout _ => true
  | .portBreak _ => true
  | .transmitFrame _ => true
  | .poll _ => true
  | .print _ => true
  | .sense _ => true
  | .status _ _ => true
  | .coupon _ s _ => fits4 s
  | .serial _ s => fits4 s
  | .badResponse _ _ => true
  | .exchangeTimeout _ => true
  | .couponTimerExpiry _ => true
  | .senseTimerExpiry _ => true
  | .authorisationExpiry _ => true
  | .lineRestartBreakEnd _ => true
  | .saveComplete _ => true
  | .clockTick => true
  | .resetAssert => true
  | .resetRelease => true
  | .coldStart => true
  | .powerFail => true
  | .backupSupplyLoss => true
  | .frameInProgressDiscarded _ _ => true
  | .lineReturnsHigh _ => true

end Sys2Proof
end

