-- ==== Sys2Proof/Decode.lean ====
section
/-! DEFINITION. The encoding of request frames (R176, R177, R186, R195) in both directions: the body bytes of a request
command, the request that a port reads from a body, the characters of a frame; and the table decoder the host asks
for, which answers none because no row of the opcode table has bits. -/

namespace Sys2Proof

/-! ### Numbers, most significant byte first (R177) -/

def be1 (n : Nat) : List Byte := [BitVec.ofNat 8 n]
def be2 (n : Nat) : List Byte := [BitVec.ofNat 8 (n / 256), BitVec.ofNat 8 n]
def be4 (n : Nat) : List Byte :=
  [BitVec.ofNat 8 (n / 16777216), BitVec.ofNat 8 (n / 65536), BitVec.ofNat 8 (n / 256), BitVec.ofNat 8 n]

/-- A range with negative values is held in four bytes, two's complement (R177). -/
def beInt (z : Int) : List Byte := be4 (z % 4294967296).toNat

def take1 : List Byte → Option (Nat × List Byte)
  | a :: r => some (a.toNat, r)
  | [] => none

def take2 : List Byte → Option (Nat × List Byte)
  | a :: b :: r => some (a.toNat * 256 + b.toNat, r)
  | _ => none

def take4 : List Byte → Option (Nat × List Byte)
  | a :: b :: c :: d :: r => some (((a.toNat * 256 + b.toNat) * 256 + c.toNat) * 256 + d.toNat, r)
  | _ => none

/-- An optional field: a presence byte, 0 for absent and 1 for present, then the field (R177). Another presence byte
fits no length (log entry 8). -/
def takeOpt (f : List Byte → Option (Nat × List Byte)) (bs : List Byte) : Option (Option Nat × List Byte) :=
  match take1 bs with
  | some (0, r) => some (none, r)
  | some (1, r) => (f r).map fun x => (some x.1, x.2)
  | _ => none

def encOpt (f : Nat → List Byte) (o : Option Nat) : List Byte :=
  match o with
  | none => be1 0
  | some n => be1 1 ++ f n

/-- `n` text fields, each a byte giving its number of characters and then its characters (R177). -/
def takeTexts : Nat → List Byte → Option (List (List Byte) × List Byte)
  | 0, r => some ([], r)
  | n + 1, r =>
    match take1 r with
    | none => none
    | some (k, r1) =>
      if r1.length < k then none
      else match takeTexts n (r1.drop k) with
        | none => none
        | some (ts, r2) => some (r1.take k :: ts, r2)

def encTexts : List (List Byte) → List Byte
  | [] => []
  | t :: ts => be1 t.length ++ t ++ encTexts ts

/-- A text list: its count byte, then the fields. -/
def takeTextList (bs : List Byte) : Option (List (List Byte) × List Byte) :=
  match take1 bs with
  | some (n, r) => takeTexts n r
  | none => none

/-- The field that only the supervisor's form has (R179). -/
def takeForm (p : Port) (bs : List Byte) : Option (Option Nat × List Byte) :=
  match p with
  | .win _ => some (none, bs)
  | .sup => (take1 bs).map fun x => (some x.1, x.2)

def encForm (w : Option Nat) : List Byte :=
  match w with
  | none => []
  | some n => be1 n

/-! ### The request catalogue (R186) -/

/-- The request code of a request row. -/
def requestCode : Instr → Option Nat
  | .openSession .. => some 0x01
  | .sell .. => some 0x02
  | .cancel .. => some 0x03
  | .voidTicket .. => some 0x04
  | .refund .. => some 0x05
  | .closeSession .. => some 0x06
  | .declare .. => some 0x07
  | .ackFault .. => some 0x08
  | .loadPack .. => some 0x09
  | .unloadPack .. => some 0x0A
  | .queryJob .. => some 0x0B
  | .queryPrinter .. => some 0x0C
  | .querySession .. => some 0x0D
  | .queryPack .. => some 0x0E
  | .queryOffice .. => some 0x0F
  | .receivePack .. => some 0x20
  | .returnPack .. => some 0x21
  | .writeOff .. => some 0x22
  | .serviceOut .. => some 0x23
  | .serviceIn .. => some 0x24
  | .assignPrinters .. => some 0x25
  | .testPrint .. => some 0x26
  | .hold .. => some 0x27
  | .release .. => some 0x28
  | .answer .. => some 0x29
  | .faultRead .. => some 0x2A
  | .closeFault .. => some 0x2B
  | .spoilRead .. => some 0x2C
  | .recount .. => some 0x2D
  | .cashUpReport .. => some 0x2E
  | .forceClose .. => some 0x2F
  | .dayClose .. => some 0x30
  | .dayOpen .. => some 0x31
  | .dayReport .. => some 0x32
  | .setTime .. => some 0x33
  | .setParameter .. => some 0x34
  | .saveParameters .. => some 0x35
  | .restart .. => some 0x36
  | _ => none

/-- The parameters of SET PARAMETER (R195): identifier, index where the table gives one, value as the image holds
it. -/
def encChange : ParamChange → List Byte
  | .linkRate c => be1 1 ++ be1 c
  | .printersPresent m => be1 2 ++ be1 m
  | .windowsPresent m => be1 3 ++ be2 m
  | .quota w r c => be1 4 ++ be1 w ++ be1 r ++ be1 c
  | .floor t v => be1 5 ++ be1 t ++ be2 v
  | .rate t v => be1 6 ++ be1 t ++ be2 v
  | .refundLimit v => be1 7 ++ be4 v
  | .voidWindow v => be1 8 ++ be2 v
  | .authTime v => be1 9 ++ be2 v
  | .stockLow v => be1 10 ++ be2 v
  | .stockHandling v => be1 11 ++ be1 v
  | .other i rest => be1 i ++ rest

/-- The parameter bytes of a request row, in the order its rule names them (R177; log entry 6). -/
def encodeParams : Instr → List Byte
  | .openSession _ _ clerk float w => be2 clerk ++ be4 float ++ encForm w
  | .sell _ _ kind coupons fare tender texts w =>
      be1 kind ++ be1 coupons ++ be4 fare ++ be1 tender ++ be1 texts.length ++ encTexts texts ++ encForm w
  | .cancel _ _ o => encForm o
  | .voidTicket _ _ serial => be4 serial
  | .refund _ _ serial amount tender w => be4 serial ++ be4 amount ++ be1 tender ++ encForm w
  | .closeSession _ _ w => encForm w
  | .declare _ _ n a b c d docs => be2 n ++ be4 a ++ be4 b ++ be4 c ++ be4 d ++ be2 docs
  | .ackFault _ _ n => be2 n
  | .loadPack _ _ serial printer => be4 serial ++ be1 printer
  | .unloadPack _ _ printer => be1 printer
  | .queryJob _ _ none => []
  | .queryJob _ _ (some (.number n)) => be1 0 ++ be1 n
  | .queryJob _ _ (some (.ofPort n)) => be1 1 ++ be1 n
  | .queryPrinter _ _ printer => be1 printer
  | .querySession (.win _) _ n => encOpt be2 n
  | .querySession .sup _ n => match n with
      | none => []
      | some x => be2 x
  | .queryPack _ _ (.serial n) => be1 0 ++ be4 n
  | .queryPack _ _ (.index n) => be1 1 ++ be1 n
  | .receivePack _ _ a b => be4 a ++ be4 b
  | .returnPack _ _ serial => be4 serial
  | .writeOff _ _ serial n => be4 serial ++ be2 n
  | .serviceOut _ _ printer => be1 printer
  | .serviceIn _ _ printer => be1 printer
  | .assignPrinters _ _ w a b => be1 w ++ be1 a ++ encOpt be1 b
  | .testPrint _ _ printer texts => be1 printer ++ be1 texts.length ++ encTexts texts
  | .hold _ _ w => be1 w
  | .release _ _ w => be1 w
  | .answer _ _ w serial d => be1 w ++ be4 serial ++ be1 d
  | .faultRead _ _ retire n => be1 retire ++ encOpt be2 n
  | .closeFault _ _ n remedy => be2 n ++ be1 remedy
  | .spoilRead _ _ retire => be1 retire
  | .recount _ _ n => be2 n
  | .cashUpReport _ _ n retire => be2 n ++ be1 retire
  | .forceClose _ _ n => be2 n
  | .dayReport _ _ sect start => be1 sect ++ encForm start
  | .setTime _ _ t => be4 t
  | .setParameter _ _ c => encChange c
  | _ => []

/-- The port and the header of a request row. -/
def requestHead : Instr → Option (Port × Header)
  | .openSession p h _ _ _ => some (p, h)
  | .sell p h _ _ _ _ _ _ => some (p, h)
  | .cancel p h _ => some (p, h)
  | .voidTicket p h _ => some (p, h)
  | .refund p h _ _ _ _ => some (p, h)
  | .closeSession p h _ => some (p, h)
  | .declare p h _ _ _ _ _ _ => some (p, h)
  | .ackFault p h _ => some (p, h)
  | .loadPack p h _ _ => some (p, h)
  | .unloadPack p h _ => some (p, h)
  | .queryJob p h _ => some (p, h)
  | .queryPrinter p h _ => some (p, h)
  | .querySession p h _ => some (p, h)
  | .queryPack p h _ => some (p, h)
  | .queryOffice p h => some (p, h)
  | .receivePack p h _ _ => some (p, h)
  | .returnPack p h _ => some (p, h)
  | .writeOff p h _ _ => some (p, h)
  | .serviceOut p h _ => some (p, h)
  | .serviceIn p h _ => some (p, h)
  | .assignPrinters p h _ _ _ => some (p, h)
  | .testPrint p h _ _ => some (p, h)
  | .hold p h _ => some (p, h)
  | .release p h _ => some (p, h)
  | .answer p h _ _ _ => some (p, h)
  | .faultRead p h _ _ => some (p, h)
  | .closeFault p h _ _ => some (p, h)
  | .spoilRead p h _ => some (p, h)
  | .recount p h _ => some (p, h)
  | .cashUpReport p h _ _ => some (p, h)
  | .forceClose p h _ => some (p, h)
  | .dayClose p h => some (p, h)
  | .dayOpen p h => some (p, h)
  | .dayReport p h _ _ => some (p, h)
  | .setTime p h _ => some (p, h)
  | .setParameter p h _ => some (p, h)
  | .saveParameters p h => some (p, h)
  | .restart p h => some (p, h)
  | _ => none

/-- The flags byte (R177): bit 0 CHAIN, bit 1 QUIET, the rest zero. -/
def flagsByte (h : Header) : Nat := h.chain.toNat + 2 * h.quiet.toNat

/-- The body of a request frame (R177): code, flags, tag, parameters. Empty for a command that is no request. -/
def requestBody (i : Instr) : List Byte :=
  match requestCode i, requestHead i with
  | some c, some (_, h) => be1 c ++ be1 (flagsByte h) ++ be4 h.tag ++ encodeParams i
  | _, _ => []

/-! ### Reading a body (check 1 of R179) -/

/-- A request whose parameters end with the frame. -/
def finish (x : Option (Instr × List Byte)) : Option Instr :=
  match x with
  | some (i, []) => some i
  | _ => none

/-- R195, from the bytes after the header. The identifier fixes the length; an identifier the table does not list
takes whatever follows it (log entry 9). -/
def takeChange (bs : List Byte) : Option (ParamChange × List Byte) := do
  let (i, r) ← take1 bs
  match i with
  | 1 => let (c, r) ← take1 r; pure (.linkRate c, r)
  | 2 => let (m, r) ← take1 r; pure (.printersPresent m, r)
  | 3 => let (m, r) ← take2 r; pure (.windowsPresent m, r)
  | 4 => let (w, r) ← take1 r; let (a, r) ← take1 r; let (b, r) ← take1 r; pure (.quota w a b, r)
  | 5 => let (t, r) ← take1 r; let (v, r) ← take2 r; pure (.floor t v, r)
  | 6 => let (t, r) ← take1 r; let (v, r) ← take2 r; pure (.rate t v, r)
  | 7 => let (v, r) ← take4 r; pure (.refundLimit v, r)
  | 8 => let (v, r) ← take2 r; pure (.voidWindow v, r)
  | 9 => let (v, r) ← take2 r; pure (.authTime v, r)
  | 10 => let (v, r) ← take2 r; pure (.stockLow v, r)
  | 11 => let (v, r) ← take1 r; pure (.stockHandling v, r)
  | _ => pure (.other i r, [])

/-- The parameters of the request with code `code` at port `p`, each port by its own form (R179). -/
def takeParams (p : Port) (h : Header) (code : Nat) (bs : List Byte) : Option (Instr × List Byte) :=
  match code with
  | 0x01 => do
      let (clerk, r) ← take2 bs; let (float, r) ← take4 r; let (w, r) ← takeForm p r
      pure (.openSession p h clerk float w, r)
  | 0x02 => do
      let (kind, r) ← take1 bs; let (coupons, r) ← take1 r; let (fare, r) ← take4 r; let (tender, r) ← take1 r
      let (texts, r) ← takeTextList r; let (w, r) ← takeForm p r
      pure (.sell p h kind coupons fare tender texts w, r)
  | 0x03 => do let (o, r) ← takeForm p bs; pure (.cancel p h o, r)
  | 0x04 => do let (serial, r) ← take4 bs; pure (.voidTicket p h serial, r)
  | 0x05 => do
      let (serial, r) ← take4 bs; let (amount, r) ← take4 r; let (tender, r) ← take1 r; let (w, r) ← takeForm p r
      pure (.refund p h serial amount tender w, r)
  | 0x06 => do let (w, r) ← takeForm p bs; pure (.closeSession p h w, r)
  | 0x07 => do
      let (n, r) ← take2 bs; let (a, r) ← take4 r; let (b, r) ← take4 r; let (c, r) ← take4 r
      let (d, r) ← take4 r; let (docs, r) ← take2 r
      pure (.declare p h n a b c d docs, r)
  | 0x08 => do let (n, r) ← take2 bs; pure (.ackFault p h n, r)
  | 0x09 => do let (serial, r) ← take4 bs; let (printer, r) ← take1 r; pure (.loadPack p h serial printer, r)
  | 0x0A => do let (printer, r) ← take1 bs; pure (.unloadPack p h printer, r)
  | 0x0B =>
      match p with
      | .win _ => some (.queryJob p h none, bs)
      | .sup => do
          let (sel, r) ← take1 bs; let (n, r) ← take1 r
          match sel with
          | 0 => pure (.queryJob p h (some (.number n)), r)
          | 1 => pure (.queryJob p h (some (.ofPort n)), r)
          | _ => none
  | 0x0C => do let (printer, r) ← take1 bs; pure (.queryPrinter p h printer, r)
  | 0x0D =>
      match p with
      | .win _ => do let (n, r) ← takeOpt take2 bs; pure (.querySession p h n, r)
      | .sup => do let (n, r) ← take2 bs; pure (.querySession p h (some n), r)
  | 0x0E => do
      let (sel, r) ← take1 bs
      match sel with
      | 0 => let (n, r) ← take4 r; pure (.queryPack p h (.serial n), r)
      | 1 => let (n, r) ← take1 r; pure (.queryPack p h (.index n), r)
      | _ => none
  | 0x0F => some (.queryOffice p h, bs)
  | 0x20 => do let (a, r) ← take4 bs; let (b, r) ← take4 r; pure (.receivePack p h a b, r)
  | 0x21 => do let (serial, r) ← take4 bs; pure (.returnPack p h serial, r)
  | 0x22 => do let (serial, r) ← take4 bs; let (n, r) ← take2 r; pure (.writeOff p h serial n, r)
  | 0x23 => do let (printer, r) ← take1 bs; pure (.serviceOut p h printer, r)
  | 0x24 => do let (printer, r) ← take1 bs; pure (.serviceIn p h printer, r)
  | 0x25 => do
      let (w, r) ← take1 bs; let (a, r) ← take1 r; let (b, r) ← takeOpt take1 r; pure (.assignPrinters p h w a b, r)
  | 0x26 => do let (printer, r) ← take1 bs; let (texts, r) ← takeTextList r; pure (.testPrint p h printer texts, r)
  | 0x27 => do let (w, r) ← take1 bs; pure (.hold p h w, r)
  | 0x28 => do let (w, r) ← take1 bs; pure (.release p h w, r)
  | 0x29 => do
      let (w, r) ← take1 bs; let (serial, r) ← take4 r; let (d, r) ← take1 r; pure (.answer p h w serial d, r)
  | 0x2A => do let (retire, r) ← take1 bs; let (n, r) ← takeOpt take2 r; pure (.faultRead p h retire n, r)
  | 0x2B => do let (n, r) ← take2 bs; let (remedy, r) ← take1 r; pure (.closeFault p h n remedy, r)
  | 0x2C => do let (retire, r) ← take1 bs; pure (.spoilRead p h retire, r)
  | 0x2D => do let (n, r) ← take2 bs; pure (.recount p h n, r)
  | 0x2E => do let (n, r) ← take2 bs; let (retire, r) ← take1 r; pure (.cashUpReport p h n retire, r)
  | 0x2F => do let (n, r) ← take2 bs; pure (.forceClose p h n, r)
  | 0x30 => some (.dayClose p h, bs)
  | 0x31 => some (.dayOpen p h, bs)
  | 0x32 => do
      let (sect, r) ← take1 bs
      match sect with
      | 1 => let (start, r) ← take1 r; pure (.dayReport p h 1 (some start), r)
      | _ => pure (.dayReport p h sect none, r)
  | 0x33 => do let (t, r) ← take4 bs; pure (.setTime p h t, r)
  | 0x34 => do let (c, r) ← takeChange bs; pure (.setParameter p h c, r)
  | 0x35 => some (.saveParameters p h, bs)
  | 0x36 => some (.restart p h, bs)
  | _ => none

/-- The request that port `p` reads from a body, or none where check 1 of R179 refuses it BAD_REQUEST: a body shorter
than 6 bytes, a flag bit above 1, a code outside the catalogue, or a length that disagrees with its parameters. -/
def parseRequest (p : Port) (body : List Byte) : Option Instr :=
  match body with
  | code :: flags :: t3 :: t2 :: t1 :: t0 :: params =>
    if flags.toNat < 4 then
      finish (takeParams p
        { chain := flags.toNat % 2 = 1, quiet := flags.toNat / 2 = 1,
          tag := ((t3.toNat * 256 + t2.toNat) * 256 + t1.toNat) * 256 + t0.toNat } code.toNat params)
    else none
  | _ => none

/-! ### Frames (R176) -/

/-- The sum of bytes modulo 256. -/
def sumBytes : List Byte → Byte
  | [] => 0
  | b :: bs => b + sumBytes bs

/-- A character with the mark bit clear, or set, and a good stop bit. -/
def plainChar (b : Byte) : Char9 := { mark := false, framing := false, byte := b }
def markedChar (b : Byte) : Char9 := { mark := true, framing := false, byte := b }

/-- The characters of a frame of the given kind: lead, length, body, check (R176). -/
def frameChars (kind : Nat) (body : List Byte) : List Char9 :=
  let len := BitVec.ofNat 8 body.length
  markedChar (BitVec.ofNat 8 kind) :: (len :: body ++ [-(len + sumBytes body)]).map plainChar

/-- The characters of the REQUEST frame with this body. -/
def requestFrame (body : List Byte) : List Char9 := frameChars 1 body

/-! ### The host's table decoder -/

/-- No row of spec/opcode_table.json has bits, so no word spells a command. -/
def decodeTableWord (_nbits _w : Nat) : Option Instr := none

end Sys2Proof
end

