-- ==== Sys2Proof/Machine/State.lean ====
section
/-! DEFINITION. The state of the part as plain data: every record, queue, list, marker, timer and parameter the spec
gives it, the queue of commands that wait, and the state just after reset. -/

namespace Sys2Proof.Machine

/-! ### Names -/

/-- W0 to W11 as 0 to 11 (R177). -/
abbrev Window := Fin 12
/-- P0 to P7 as 0 to 7 (R177). -/
abbrev PrinterId := Fin 8
/-- The index of a pack record (R1). -/
abbrev PackIx := Fin 32
/-- A job number (R49). -/
abbrev JobNo := Fin 64
/-- The index of a session record (R121). -/
abbrev SessionIx := Fin 24

/-- The means of payment, in the order of R177. -/
inductive Tender where
  | cash
  | card
  | warrant
  | voucher
deriving DecidableEq, Repr

/-- One value for each tender. -/
structure PerTender (α : Type) where
  cash    : α
  card    : α
  warrant : α
  voucher : α
deriving DecidableEq, Repr

/-- The ticket kinds, numbered from 0 (R25, R49). -/
inductive TicketKind where
  | single
  | returnTrip
  | season
  | reservation
  | excess
  | test
deriving DecidableEq, Repr

/-! ### Stock register (R1, R2) -/

inductive PackState where
  | inStore
  | loading
  | loaded
  | partUsed
  | exhausted
  | returned
deriving DecidableEq, Repr

/-- A pack record in use (R1). `inPrint` is the in-print serials list; in-print is its length. -/
structure Pack where
  first    : Nat
  last     : Nat
  next     : Nat
  issued   : Nat
  spoiled  : Nat
  returned : Nat
  inPrint  : List Nat
  state    : PackState
  printer  : Option PrinterId
  prior    : Option PackState
  day      : Nat
  time     : Nat
deriving DecidableEq, Repr

/-! ### Printer contexts and line engines (R24, R26, R33, R34) -/

inductive PrinterState where
  | absent
  | probe
  | unloaded
  | sensing
  | ready
  | printing
  | draining
  | outOfService
  | faulted
deriving DecidableEq, Repr

/-- The pending line command of a printer context (R33). -/
inductive LineCommand where
  | none
  | print (k : Nat)
  | sense
deriving DecidableEq, Repr

/-- The sense under way (R31, R33). -/
inductive Sense where
  | none
  | load
  | startUp
  | resync
deriving DecidableEq, Repr

/-- A printer context (R33). `allowance` is the drawn count while an allowance is held. -/
structure Printer where
  state       : PrinterState
  queue       : List JobNo
  job         : Option JobNo
  outstanding : Option Nat
  command     : LineCommand
  unconfirmed : Bool
  declined    : Nat
  couponTimer : Bool
  senseTimer  : Bool
  sense       : Sense
  outOfService : Bool
  allowance   : Option Nat
  waiting     : Bool
  misses      : Nat
  reported    : Option PrinterKind
deriving DecidableEq, Repr

/-- The command an exchange carries (R25). -/
inductive Sent where
  | poll
  | print (k : Nat)
  | sense
deriving DecidableEq, Repr

/-- An exchange in progress on a line (R24): the printer addressed, the command, the characters sent. -/
structure Exchange where
  printer : PrinterId
  command : Sent
  chars   : List Char9
deriving DecidableEq, Repr

/-- A line engine: its round-robin position (R26), whether the restart break is under way (R32), its exchange. -/
structure LineEngine where
  position : Fin 4
  breaking : Bool
  exchange : Option Exchange
deriving DecidableEq, Repr

/-! ### Job table (R49) -/

inductive JobState where
  | queued
  | printing
deriving DecidableEq, Repr

/-- A job record in use (R49). -/
structure Job where
  port       : Port
  window     : Option Window
  tag        : Nat
  session    : Option Nat
  kind       : TicketKind
  coupons    : Nat
  fare       : Nat
  tender     : Option Tender
  texts      : List (List Byte)
  urgent     : Bool
  state      : JobState
  printer    : PrinterId
  nextCoupon : Nat
  good       : List Nat
  bad        : Nat
  skip       : Nat
  restarts   : Nat
  diverted   : Bool
  admitted   : Nat
deriving DecidableEq, Repr

/-! ### Serial accounting (R89, R96) -/

inductive SpoilCause where
  | printBad
  | skipped
  | abandoned
  | voided
  | test
  | writtenOff
deriving DecidableEq, Repr

/-- An entry of the spoil list (R89). -/
structure SpoilEntry where
  first   : Nat
  count   : Nat
  cause   : SpoilCause
  printer : Option PrinterId
  session : Option Nat
  fault   : Option Nat
  day     : Nat
  time    : Nat
deriving DecidableEq, Repr

inductive IssueState where
  | issued
  | refundPending
  | refunded
  | voided
deriving DecidableEq, Repr

/-- An entry of the issue list (R96). -/
structure IssueEntry where
  serials : List Nat
  kind    : TicketKind
  fare    : Nat
  tender  : Tender
  session : Nat
  window  : Window
  printer : PrinterId
  time    : Nat
  state   : IssueState
deriving DecidableEq, Repr

/-! ### Fault log (R100, R101, R107) -/

/-- The fault kinds, following the rows of R101 from left to right (R177). -/
inductive FaultKind where
  | jam
  | misfeed
  | coverOpen
  | cutter
  | stockOut
  | noResponse
  | couponTimeout
  | headFault
  | serialOrder
  | serialSkip
  | stockLow
  | lineError
  | spoilListFull
  | configDefaulted
  | recordsLost
deriving DecidableEq, Repr

inductive Severity where
  | stop
  | note
  | office
deriving DecidableEq, Repr

inductive FaultState where
  | opened
  | acknowledged
  | cleared
  | closed
deriving DecidableEq, Repr

/-- A fault record in use (R100), with its place in the log (R105). `sessionOver` is the model's own: the affected
session has been retired, so that its number names it no more (R93, R160; log entry 48). No byte of a reply carries it. -/
structure FaultRecord where
  place     : Nat
  number    : Nat
  printer   : Option PrinterId
  severity  : Severity
  firstKind : FaultKind
  latest    : FaultKind
  state     : FaultState
  present   : Bool
  day       : Nat
  time      : Nat
  latestTime : Nat
  repeats   : Nat
  window    : Option Window
  session   : Option Nat
  sessionOver : Bool
  blanks    : Nat
  unlisted  : Bool
  detail    : Option Nat
  remedy    : Option Nat
deriving DecidableEq, Repr

/-! ### Session table (R121, R134, R146) -/

inductive SessionState where
  | opened
  | closing
  | counting
  | reconciled
deriving DecidableEq, Repr

/-- The declaration group of R146. -/
structure Declaration where
  amounts    : PerTender Nat
  docs       : Nat
  declaredBy : Port
  time       : Nat
deriving DecidableEq, Repr

/-- R152. -/
inductive TenderClass where
  | balanced
  | short
  | overs
  | limit
deriving DecidableEq, Repr

/-- R153. -/
inductive DocClass where
  | stockOk
  | stockShort
  | stockOver
deriving DecidableEq, Repr

/-- R154. -/
inductive SessionOutcome where
  | balanced
  | short
  | overs
  | refer
deriving DecidableEq, Repr

/-- The results of one tender (R146). -/
structure TenderResult where
  expected  : Int
  variance  : Int
  tolerance : Nat
  verdict   : TenderClass
deriving DecidableEq, Repr

/-- The results group of R146. -/
structure CashUp where
  tenders  : PerTender TenderResult
  expectedDocs : Nat
  docs     : DocClass
  outcome  : SessionOutcome
deriving DecidableEq, Repr

/-- A session record in use (R121). -/
structure Session where
  number   : Nat
  window   : Window
  clerk    : Nat
  state    : SessionState
  forced   : Bool
  float    : Nat
  openedAt : Nat
  closedAt : Option Nat
  sales    : PerTender Nat
  refunds  : PerTender Nat
  clamped  : PerTender Bool
  tickets  : Nat
  coupons  : Nat
  voids    : Nat
  voidsAmount : Nat
  refundsCount : Nat
  spoiltVoided : Nat
  spoiltAbandoned : Nat
  spoiltBad : Nat
  declaration : Option Declaration
  results  : Option CashUp
  recounts : Nat
deriving DecidableEq, Repr

inductive AuthKind where
  | refund
  | lateVoid
deriving DecidableEq, Repr

/-- A pending authorisation slot (R134); `duration` is the time its expiry timer was set to run for (R137). -/
structure AuthSlot where
  kind     : AuthKind
  serial   : Nat
  found    : Bool
  amount   : Nat
  tender   : Tender
  session  : Nat
  raised   : Nat
  duration : Nat
deriving DecidableEq, Repr

/-- What an AUTHORISATION ANSWER says (R139). -/
inductive AuthAnswer where
  | approved
  | declined
  | expired
  | withdrawn
deriving DecidableEq, Repr

/-! ### Office block (R163, R166) -/

inductive OfficeMode where
  | opened
  | night
deriving DecidableEq, Repr

/-- The totals of R166. -/
structure Summary where
  sales     : PerTender Nat
  refunds   : PerTender Nat
  declared  : PerTender Nat
  variance  : PerTender Int
  retiredBalanced : Nat
  retiredShort    : Nat
  retiredOver     : Nat
  retiredRefer    : Nat
  tickets   : Nat
  coupons   : Nat
  printBad  : Nat
  skipped   : Nat
  abandoned : Nat
  voided    : Nat
  test      : Nat
  writtenOff : Nat
  packsReceived  : Nat
  packsReturned  : Nat
  packsExhausted : Nat
  stopFaults   : Nat
  noteFaults   : Nat
  officeFaults : Nat
deriving DecidableEq, Repr

/-- A pack line of the day report (R163). -/
structure PackLine where
  first    : Nat
  last     : Nat
  issued   : Nat
  spoiled  : Nat
  returned : Nat
  state    : PackState
deriving DecidableEq, Repr

/-- The day report (R163, R169). -/
structure DayReport where
  totals : Summary
  day    : Nat
  time   : Nat
  lines  : List PackLine
deriving DecidableEq, Repr

/-! ### Configuration block (R190) -/

inductive LinkRate where
  | r19200
  | r38400
  | r57600
  | r115200
deriving DecidableEq, Repr

/-- A window's printer pair (R187). -/
structure Pair where
  primary   : PrinterId
  alternate : Option PrinterId
deriving DecidableEq, Repr

/-- A window's quota (R51). -/
structure Quota where
  res  : Nat
  ceil : Nat
deriving DecidableEq, Repr

/-- The running parameter set (R190). A present set is the bit mask of R192. -/
structure Params where
  linkRate   : LinkRate
  printers   : BitVec 8
  windows    : BitVec 12
  pairs      : Vector Pair 12
  quotas     : Vector Quota 12
  floors     : PerTender Nat
  rates      : PerTender Nat
  refundLimit : Nat
  voidWindow : Nat
  authTime   : Nat
  stockLow   : Nat
  stockHandling : Bool
deriving DecidableEq, Repr

/-! ### Results, replies and notices (R74, R118, R139, R155, R177, R181, R189, R203) -/

/-- The result codes of R181. -/
inductive ResultCode where
  | done
  | referred
  | badRequest
  | notPermitted
  | flushed
  | noSession
  | sessionState
  | noSlot
  | noPrinter
  | tagInUse
  | notFound
  | tooLate
  | pending
  | held
  | officeClosed
  | outOfRange
  | overlap
  | tableFull
  | printerState
  | packState
  | serialMismatch
  | noResponse
  | queueNotEmpty
  | listFull
  | exceedsFare
  | tenderMismatch
  | already
  | limit
  | sessionsRemain
  | stillOpen
  | busy
  | notReady
deriving DecidableEq, Repr

/-- The port status of a reply (R177, R184). -/
structure PortStatus where
  overrun    : Bool
  line       : Bool
  noticeLost : Bool
deriving DecidableEq, Repr

/-- A job as QUERY PRINTER shows it (R48): its number, and its tag where the reply may give it. -/
structure JobRef where
  number : JobNo
  tag    : Option Nat
deriving DecidableEq, Repr

/-- The job in print as QUERY PRINTER shows it (R48). -/
structure JobInPrint where
  job         : JobRef
  coupons     : Nat
  coupon      : Option Nat
  unconfirmed : Bool
deriving DecidableEq, Repr

/-- The results of QUERY PRINTER (R48). -/
structure PrinterView where
  printer   : PrinterId
  state     : PrinterState
  outOfService : Bool
  waiting   : Bool
  pack      : Option (PackIx × Nat × Nat)
  inPrint   : Option JobInPrint
  queue     : List JobRef
  command   : LineCommand
  sense     : Sense
  misses    : Nat
  reported  : Option PrinterKind
  allowance : Option Nat
  fault     : Option Nat
deriving DecidableEq, Repr

/-- The results of QUERY JOB (R62); the text fields are not returned. -/
structure JobView where
  number   : JobNo
  port     : Port
  window   : Option Window
  tag      : Nat
  session  : Option Nat
  kind     : TicketKind
  coupons  : Nat
  fare     : Nat
  tender   : Option Tender
  admitted : Nat
  state    : JobState
  printer  : PrinterId
  position : Option Nat
  nextCoupon : Nat
  good     : List Nat
  bad      : Nat
  skip     : Nat
  restarts : Nat
  diverted : Bool
deriving DecidableEq, Repr

/-- What a window sees of an authorisation slot (R143). -/
structure SlotBrief where
  kind   : AuthKind
  serial : Nat
  amount : Nat
  tender : Tender
  raised : Nat
deriving DecidableEq, Repr

/-- What a window sees of a session (R143): no accumulator, clamped marker, voids amount, spoiled-coupon count,
declaration or result. -/
structure SessionBrief where
  number   : Nat
  window   : Window
  clerk    : Nat
  state    : SessionState
  forced   : Bool
  float    : Nat
  openedAt : Nat
  closedAt : Option Nat
  tickets  : Nat
  coupons  : Nat
  voids    : Nat
  refundsCount : Nat
  live     : Nat
  recounts : Nat
  slot     : Option SlotBrief
deriving DecidableEq, Repr

/-- What QUERY OFFICE tells every port (R172). -/
structure OfficeView where
  mode       : OfficeMode
  day        : Nat
  clock      : Nat
  clockSet   : Bool
  recordsLostOpen : Bool
  inUse      : Nat
  reserved   : Nat
  ceiling    : Nat
  sharedFree : Nat
  unreserved : Nat
  overwritten : Bool
deriving DecidableEq, Repr

/-- What QUERY OFFICE tells port S in addition (R172). -/
structure OfficeExtra where
  packs     : Nat
  sessions  : Nat
  jobs      : Nat
  used      : Nat
  reserved  : Nat
  waiting   : Nat
  issues    : Nat
  faults    : Nat
  notClosed : Nat
  report    : Bool
  night     : Bool
deriving DecidableEq, Repr

/-- The results or figures a reply carries, by the request's rule (R181). -/
inductive Results where
  | none
  | opened (session : Nat)
  | sold (job : JobNo) (printer : PrinterId) (position inUse : Nat)
  | cancelled (printer : PrinterId)
  | voided (serials : List Nat) (fare : Nat) (tender : Tender) (entries : Nat)
  | referred (serial : Nat) (kind : AuthKind) (authTime : Nat)
  | refunded (serial amount : Nat) (tender : Tender) (session : Nat)
  | closed (session : Nat) (state : SessionState) (live : Nat)
  | forceClosed (state : SessionState)
  | declared (session : Nat) (state : SessionState) (recounts : Nat) (full : Option (Declaration × CashUp))
  | acknowledged (fault : Nat) (state : FaultState)
  | loaded (pack : PackIx) (printer : PrinterId) (serial : Nat)
  | mismatch (expected sensed : Nat)
  | unloaded (pack : PackIx) (state : PackState) (remaining : Nat)
  | job (view : JobView)
  | printer (view : PrinterView)
  | sessionBrief (view : SessionBrief)
  | session (record : Session) (live : Nat) (slot : Option AuthSlot)
  | pack (index : PackIx) (record : Pack) (inUse : Nat)
  | office (view : OfficeView) (extra : Option OfficeExtra)
  | received (pack : PackIx) (size : Nat)
  | returned (pack : PackIx) (blanks : Nat)
  | writtenOff (pack : PackIx) (first count remaining : Nat)
  | service (state : PrinterState)
  | assigned (replaced : Pair)
  | tested (job : JobNo) (printer : PrinterId) (position : Nat)
  | answered (window : Window) (serial : Nat) (approve : Bool)
  | faultRead (record : Option FaultRecord) (inUse notClosed closed : Nat)
  | faultClosed (fault : Nat)
  | spoils (entries : List SpoilEntry) (used reserved unreserved : Nat)
  | recounted (session : Nat) (state : SessionState) (recounts : Nat)
  | cashUp (record : Session) (live : Nat)
  | dayClosed (day time lines packs : Nat)
  | dayOpened (day : Nat)
  | running (totals : Summary) (day : Nat)
  | final (totals : Summary) (day time lines : Nat)
  | packLines (lines : List PackLine) (total : Nat)
  | nightFigures (totals : Summary) (night : Bool) (day : Nat)
  | timeSet (replaced : Nat)
  | parameter (replaced : ParamChange)
deriving DecidableEq, Repr

/-- A reply frame (R177). -/
structure Reply where
  code    : Nat
  result  : ResultCode
  tag     : Nat
  status  : PortStatus
  results : Results
deriving DecidableEq, Repr

/-- The causes of a restart (R203). -/
inductive RestartCause where
  | power
  | resetInput
  | request
deriving DecidableEq, Repr

/-- A notice (R189), with the fields its rule names. -/
inductive Notice where
  | jobIssued (tag : Nat) (job : JobNo) (serials : List Nat) (printer : PrinterId)
  | jobDiverted (tag : Nat) (job : JobNo) (source target : PrinterId)
  | jobHeld (tag : Nat) (job : JobNo) (printer : PrinterId) (fault : Option Nat)
  | jobFailed (tag : Nat) (job : JobNo) (printer : PrinterId) (fault restarts : Nat)
  | jobCancelled (tag : Nat) (job : JobNo) (printer : PrinterId)
  | faultRaised (fault : Nat) (printer : Option PrinterId) (kind : FaultKind) (severity : Severity)
      (state : FaultState) (repeats : Nat) (detail : Option Nat) (window : Option Window)
  | faultCleared (fault : Nat) (printer : Option PrinterId) (latest : FaultKind) (repeats blanks : Nat)
  | sessionCountDue (session : Nat) (window : Window) (clerk : Nat) (closedAt : Option Nat) (forced : Bool)
  | cashUpReady (session : Nat) (window : Window) (clerk : Nat) (forced : Bool) (recounts : Nat) (declaredBy : Port)
      (docs : Nat) (results : CashUp)
  | authorisationWanted (window : Window) (slot : AuthSlot) (entry : Option IssueEntry)
  | authorisationAnswer (serial : Nat) (kind : AuthKind) (answer : AuthAnswer) (session : Nat)
  | hold (time : Nat)
  | release (time : Nat)
  | portReset (window : Window)
  | restarted (cold : Bool) (cause : RestartCause) (lost defaulted : Bool) (mode : OfficeMode) (day clock : Nat)
      (clockSet : Bool) (rate : LinkRate)
deriving DecidableEq, Repr

/-- A frame of an outbound queue (R183). -/
inductive OutFrame where
  | reply (r : Reply)
  | notice (n : Notice)
deriving DecidableEq, Repr

/-! ### Ports (R174) -/

/-- The receiver (R174, R178): idle, in a frame with the bytes received so far (the lead first), or held idle since a
break until the line returns high (R185). -/
inductive Receiver where
  | idle
  | inFrame (got : List Byte)
  | lineLow
deriving DecidableEq, Repr

/-- R180. -/
inductive Previous where
  | none
  | accepted
  | refused
deriving DecidableEq, Repr

/-- The operation that a deferred request waits for (R182). -/
inductive HandOp where
  | load (p : PrinterId)
  | save
deriving DecidableEq, Repr

/-- A deferred request in hand (R182); `broken` is set by a break, after which no reply is placed (R185). -/
structure Hand where
  op     : HandOp
  code   : Nat
  tag    : Nat
  quiet  : Bool
  broken : Bool
deriving DecidableEq, Repr

/-- The volatile state of one port (R174), with the characters of the frame last begun on its transmit side. -/
structure PortState where
  receiver   : Receiver
  fifo       : List (List Byte)
  hand       : Option Hand
  outq       : List OutFrame
  overrun    : Bool
  line       : Bool
  noticeLost : Bool
  previous   : Previous
  sending    : List Char9
deriving DecidableEq, Repr

/-! ### The whole state -/

structure State where
  -- ports (R174); place 12 is S
  ports       : Vector PortState 13
  holds       : Vector Bool 12
  -- stock register
  packs       : Vector (Option Pack) 32
  -- printer controller
  printers    : Vector Printer 8
  lineA       : LineEngine
  lineB       : LineEngine
  -- job table
  jobs        : Vector (Option Job) 64
  -- serial accounting
  spoils      : List SpoilEntry
  issues      : List IssueEntry
  -- fault log
  faults      : List FaultRecord
  faultCounter : Nat
  overwritten : Bool
  freeReported : Nat
  -- session table
  sessions    : Vector (Option Session) 24
  sessionCounter : Nat
  slots       : Vector (Option AuthSlot) 12
  -- office block
  mode        : OfficeMode
  day         : Nat
  clock       : Nat
  clockSet    : Bool
  running     : Summary
  report      : Option DayReport
  night       : Bool
  -- configuration block
  params      : Params
  presentPrinters : BitVec 8
  presentWindows  : BitVec 12
  save        : Option (List Byte)
  memory      : Option (List Byte)
  -- supply, reset, validity (R199, R200)
  powered     : Bool
  resetLow    : Bool
  coldPending : Bool
  valid       : Bool
  -- the model's own: for each coming restart, whether the memory's image cannot be read although it is there, an input
  -- (log entry 50); free values drawn so far; and the commands that wait
  readFails   : List Bool
  freeIndex   : Nat
  pending     : List Instr
deriving DecidableEq, Repr

/-! ### Faults and refusals of the model -/

/-- No command of the part stops the model: what the spec calls a fault is a fault record (R99), and what it calls a
refusal is a result code (R181). -/
inductive Fault : Type
deriving DecidableEq, Repr

/-- Why a command has no meaning. -/
inductive Refusal where
  /-- Asked for by the host: raised by an arm of exec that has no meaning yet. No arm raises it. Safe. -/
  | notModelled (mnemonic : String)
deriving DecidableEq, Repr

/-! ### Reset -/

/-- A tender table with one value throughout. -/
def allTenders {α : Type} (x : α) : PerTender α := { cash := x, card := x, warrant := x, voucher := x }

/-- The totals at zero (R166). -/
def zeroSummary : Summary :=
  { sales := allTenders 0, refunds := allTenders 0, declared := allTenders 0, variance := allTenders 0,
    retiredBalanced := 0, retiredShort := 0, retiredOver := 0, retiredRefer := 0, tickets := 0, coupons := 0,
    printBad := 0, skipped := 0, abandoned := 0, voided := 0, test := 0, writtenOff := 0,
    packsReceived := 0, packsReturned := 0, packsExhausted := 0, stopFaults := 0, noteFaults := 0, officeFaults := 0 }

/-- The printer at the next line address on the same line, address 3 followed by address 0 (R191). -/
def nextOnLine : PrinterId → PrinterId
  | 0 => 1
  | 1 => 2
  | 2 => 3
  | 3 => 0
  | 4 => 5
  | 5 => 6
  | 6 => 7
  | 7 => 4

/-- The default printer pair of window Wn: primary P(n/2), alternate the next on the line (R191). -/
def defaultPair (w : Window) : Pair :=
  let p : PrinterId := ⟨w.val / 2, by omega⟩
  { primary := p, alternate := some (nextOnLine p) }

/-- The defaults of R190 and R191. -/
def defaultParams : Params :=
  { linkRate := .r38400, printers := BitVec.allOnes 8, windows := BitVec.allOnes 12,
    pairs := Vector.ofFn defaultPair, quotas := Vector.replicate 12 { res := 2, ceil := 8 },
    floors := { cash := 100, card := 0, warrant := 0, voucher := 0 },
    rates := { cash := 20, card := 0, warrant := 0, voucher := 0 },
    refundLimit := 5000, voidWindow := 300, authTime := 120, stockLow := 25, stockHandling := false }

/-- A printer context as a restart leaves it (R33). -/
def restPrinter (st : PrinterState) : Printer :=
  { state := st, queue := [], job := none, outstanding := none, command := .none, unconfirmed := false, declined := 0,
    couponTimer := false, senseTimer := false, sense := .none, outOfService := false, allowance := none,
    waiting := false, misses := 0, reported := none }

/-- A line engine as a restart leaves it: the break under way (R32). The position is the one after which the lowest
address comes first. DEDUCED, safe: log entry 5. -/
def restLine : LineEngine := { position := 3, breaking := true, exchange := none }

/-- A port as a restart leaves it (R174), with these frames in its outbound queue. The receiver is idle also where the
receive line is still low after a break (log entry 52). -/
def restPort (frames : List OutFrame) : PortState :=
  { receiver := .idle, fifo := [], hand := none, outq := frames, overrun := false, line := false, noticeLost := false,
    previous := .none, sending := [] }

/-- The fault record that a raise at a records-lost start makes, in its place (R100, R101, R120). -/
def officeRecord (place number : Nat) (kind : FaultKind) (state : FaultState) (present : Bool) : FaultRecord :=
  { place := place, number := number, printer := none, severity := .office, firstKind := kind, latest := kind,
    state := state, present := present, day := 1, time := 0, latestTime := 0, repeats := 1, window := none,
    session := none, sessionOver := false, blanks := 0, unlisted := false, detail := none, remedy := none }

/-- What each present port's queue holds right after a records-lost start on default parameters (R118, R203). -/
def firstFrames : List OutFrame :=
  [.notice (.restarted true .power true true .opened 1 0 false .r38400),
   .notice (.faultRaised 1 none .recordsLost .office .opened 1 none none),
   .notice (.faultRaised 2 none .configDefaulted .office .cleared 1 none none)]

/-- The part right after a cold start that found the validity marker lost (R202) and a configuration memory that
holds no image (R193). Why this start: DESIGN CHOICE, unsafe, log entry 4. A test shows that COLD_START gives it. -/
def State.reset : State :=
  { ports := Vector.replicate 13 (restPort firstFrames)
    holds := Vector.replicate 12 false
    packs := Vector.replicate 32 none
    printers := Vector.replicate 8 (restPrinter .probe)
    lineA := restLine
    lineB := restLine
    jobs := Vector.replicate 64 none
    spoils := []
    issues := []
    faults := [officeRecord 0 1 .recordsLost .opened true, officeRecord 1 2 .configDefaulted .cleared false]
    faultCounter := 3
    overwritten := false
    freeReported := 256
    sessions := Vector.replicate 24 none
    sessionCounter := 1
    slots := Vector.replicate 12 none
    mode := .opened
    day := 1
    clock := 0
    clockSet := false
    running := { zeroSummary with officeFaults := 2 }
    report := none
    night := false
    params := defaultParams
    presentPrinters := BitVec.allOnes 8
    presentWindows := BitVec.allOnes 12
    save := none
    memory := some (List.replicate 81 255)
    powered := true
    resetLow := false
    coldPending := false
    valid := true
    readFails := []
    freeIndex := 0
    pending := [] }

end Sys2Proof.Machine
end

