-- ==== Sys2Proof/Machine/Flags.lean ====
section
/-! DEFINITION. The markers of a port and what a reply reports of them: the result codes (R181), the previous-result
marker (R180) and the port status (R184). -/

namespace Sys2Proof.Machine

/-- The result codes in decimal: DONE 0, REFERRED 1, the refusals from 16 to 45 (R181). -/
def resultValue : ResultCode → Nat
  | .done => 0x00
  | .referred => 0x01
  | .badRequest => 0x10
  | .notPermitted => 0x11
  | .flushed => 0x12
  | .noSession => 0x13
  | .sessionState => 0x14
  | .noSlot => 0x15
  | .noPrinter => 0x16
  | .tagInUse => 0x17
  | .notFound => 0x18
  | .tooLate => 0x19
  | .pending => 0x1A
  | .held => 0x1B
  | .officeClosed => 0x1C
  | .outOfRange => 0x1D
  | .overlap => 0x1E
  | .tableFull => 0x1F
  | .printerState => 0x20
  | .packState => 0x21
  | .serialMismatch => 0x22
  | .noResponse => 0x23
  | .queueNotEmpty => 0x24
  | .listFull => 0x25
  | .exceedsFare => 0x26
  | .tenderMismatch => 0x27
  | .already => 0x28
  | .limit => 0x29
  | .sessionsRemain => 0x2A
  | .stillOpen => 0x2B
  | .busy => 0x2C
  | .notReady => 0x2D

/-- R180: REFUSED if the result code is 16 or above, ACCEPTED if it is DONE or REFERRED. -/
def previousOf (rc : ResultCode) : Previous := if 16 ≤ resultValue rc then .refused else .accepted

/-- The markers as a reply reports them (R181, R184). -/
def statusOf (q : PortState) : PortStatus :=
  { overrun := q.overrun, line := q.line, noticeLost := q.noticeLost }

/-- The markers cleared: reported in a reply, or by a break (R181, R184, R185). -/
def clearMarkers (q : PortState) : PortState := { q with overrun := false, line := false, noticeLost := false }

def isReply : OutFrame → Bool
  | .reply _ => true
  | .notice _ => false

def isNotice : OutFrame → Bool
  | .reply _ => false
  | .notice _ => true

/-- R179: whether an outbound queue holds a reply. -/
def hasReply (q : List OutFrame) : Bool := q.any isReply

/-- R183: how many notices an outbound queue holds. -/
def noticeCount (q : List OutFrame) : Nat := q.countP isNotice

/-- R183: a reply joins at the newest end in the place kept for it, reporting the markers and clearing them. -/
def withReply (code : Nat) (rc : ResultCode) (tag : Nat) (res : Results) (q : PortState) : PortState :=
  { clearMarkers q with
    outq := q.outq ++ [.reply { code := code, result := rc, tag := tag, status := statusOf q, results := res }] }

/-- R183: a notice joins at the newest end when fewer than 31 notices are queued; otherwise it is dropped and
NOTICE_LOST is set. -/
def withNotice (n : Notice) (q : PortState) : PortState :=
  if noticeCount q.outq < Config.noticePlaces then { q with outq := q.outq ++ [.notice n] }
  else { q with noticeLost := true }

/-- R179, R184: a body joins the request FIFO if fewer than four requests wait; otherwise it is discarded and OVERRUN
is set. -/
def withRequest (body : List Byte) (q : PortState) : PortState :=
  if q.fifo.length < Config.fifoSize then { q with fifo := q.fifo ++ [body] } else { q with overrun := true }

end Sys2Proof.Machine
end

