-- ==== Sys2Proof/Machine/Operands.lean ====
section
/-! DEFINITION. What the numbers of a request stand for (R177) and whether they lie in the ranges its rule gives. -/

namespace Sys2Proof.Machine

/-- W0 to W11 as 0 to 11. -/
def toWindow (n : Nat) : Option Window := if h : n < 12 then some ⟨n, h⟩ else none

/-- P0 to P7 as 0 to 7. -/
def toPrinter (n : Nat) : Option PrinterId := if h : n < 8 then some ⟨n, h⟩ else none

/-- W0 to W11 as 0 to 11 and S as 12. -/
def toPort (n : Nat) : Option Port := if h : n < 12 then some (.win ⟨n, h⟩) else if n = 12 then some .sup else none

/-- CASH 0, CARD 1, WARRANT 2, VOUCHER 3. -/
def toTender : Nat → Option Tender
  | 0 => some .cash
  | 1 => some .card
  | 2 => some .warrant
  | 3 => some .voucher
  | _ => none

/-- SINGLE 0, RETURN 1, SEASON 2, RESERVATION 3, EXCESS 4, TEST 5 (R25). -/
def toTicketKind : Nat → Option TicketKind
  | 0 => some .single
  | 1 => some .returnTrip
  | 2 => some .season
  | 3 => some .reservation
  | 4 => some .excess
  | 5 => some .test
  | _ => none

/-- A flag or a two-valued field: 0 or 1. Another byte is out of range. DESIGN CHOICE, unsafe: log entry 7. -/
def toFlag : Nat → Option Bool
  | 0 => some false
  | 1 => some true
  | _ => none

/-- The link rates of R192. -/
def toLinkRate : Nat → Option LinkRate
  | 0 => some .r19200
  | 1 => some .r38400
  | 2 => some .r57600
  | 3 => some .r115200
  | _ => none

def linkRateCode : LinkRate → Nat
  | .r19200 => 0
  | .r38400 => 1
  | .r57600 => 2
  | .r115200 => 3

/-- A serial from 1 to 9,999,999. -/
def serialOk (n : Nat) : Bool := decide (1 ≤ n) && decide (n ≤ Config.maxSerial)

/-- A session or fault number from 1 to 65,535. -/
def numberOk (n : Nat) : Bool := decide (1 ≤ n) && decide (n ≤ Config.max16)

/-- R53: the coupon counts each kind accepts in SELL; TEST is not accepted. -/
def couponsOk (k : TicketKind) (n : Nat) : Bool :=
  match k with
  | .single => n == 1
  | .returnTrip => n == 2
  | .season => n == 1 || n == 2
  | .reservation => decide (1 ≤ n) && decide (n ≤ 4)
  | .excess => n == 1
  | .test => false

/-- R53: at most 6 text fields, each of 1 to 24 characters with codes 32 to 126. -/
def textsOk (ts : List (List Byte)) : Bool :=
  decide (ts.length ≤ 6) && ts.all fun t =>
    decide (1 ≤ t.length) && decide (t.length ≤ 24) && t.all fun c => decide (32 ≤ c.toNat) && decide (c.toNat ≤ 126)

/-- The figure of a tender. -/
def PerTender.of {α : Type} (x : PerTender α) : Tender → α
  | .cash => x.cash
  | .card => x.card
  | .warrant => x.warrant
  | .voucher => x.voucher

/-- The table with the figure of a tender replaced. -/
def PerTender.set {α : Type} (x : PerTender α) (t : Tender) (v : α) : PerTender α :=
  match t with
  | .cash => { x with cash := v }
  | .card => { x with card := v }
  | .warrant => { x with warrant := v }
  | .voucher => { x with voucher := v }

/-- Two tables combined tender by tender. -/
def PerTender.zip {α β γ : Type} (f : α → β → γ) (x : PerTender α) (y : PerTender β) : PerTender γ :=
  { cash := f x.cash y.cash, card := f x.card y.card, warrant := f x.warrant y.warrant,
    voucher := f x.voucher y.voucher }

end Sys2Proof.Machine
end

