-- ==== Sys2Proof/Machine/Ops.lean ====
section
/-! DEFINITION. The named operations over the state: reading and writing one record of each table, sending notices,
taking and answering requests, adding to the day summary. Every meaning is written through them. -/

namespace Sys2Proof.Machine

/-! ### One record of each table -/

/-- W0 to W11 at places 0 to 11, S at place 12. -/
def portIx : Port → Fin 13
  | .win w => ⟨w.val, by omega⟩
  | .sup => 12

/-- The thirteen ports, W0 first and S last. -/
def allPorts : List Port := (List.finRange 12).map .win ++ [.sup]
def allWindows : List Window := List.finRange 12
def allPrinters : List PrinterId := List.finRange 8
def allPacks : List PackIx := List.finRange 32
def allJobs : List JobNo := List.finRange 64
def allSessions : List SessionIx := List.finRange 24

def State.port (s : State) (p : Port) : PortState := look s.ports (portIx p)
def State.setPort (s : State) (p : Port) (q : PortState) : State := { s with ports := put s.ports (portIx p) q }
def State.modPort (s : State) (p : Port) (f : PortState → PortState) : State := s.setPort p (f (s.port p))

def State.printer (s : State) (p : PrinterId) : Printer := look s.printers p
def State.setPrinter (s : State) (p : PrinterId) (c : Printer) : State := { s with printers := put s.printers p c }
def State.modPrinter (s : State) (p : PrinterId) (f : Printer → Printer) : State := s.setPrinter p (f (s.printer p))

def State.line (s : State) : Line → LineEngine
  | .a => s.lineA
  | .b => s.lineB
def State.setLine (s : State) (l : Line) (e : LineEngine) : State :=
  match l with
  | .a => { s with lineA := e }
  | .b => { s with lineB := e }

def State.pack (s : State) (i : PackIx) : Option Pack := look s.packs i
def State.setPack (s : State) (i : PackIx) (k : Option Pack) : State := { s with packs := put s.packs i k }

def State.job (s : State) (j : JobNo) : Option Job := look s.jobs j
def State.setJob (s : State) (j : JobNo) (x : Option Job) : State := { s with jobs := put s.jobs j x }
def State.modJob (s : State) (j : JobNo) (f : Job → Job) : State := s.setJob j ((s.job j).map f)

def State.session (s : State) (i : SessionIx) : Option Session := look s.sessions i
def State.setSession (s : State) (i : SessionIx) (x : Option Session) : State :=
  { s with sessions := put s.sessions i x }

def State.slot (s : State) (w : Window) : Option AuthSlot := look s.slots w
def State.setSlot (s : State) (w : Window) (x : Option AuthSlot) : State := { s with slots := put s.slots w x }

def State.hold (s : State) (w : Window) : Bool := look s.holds w
def State.setHold (s : State) (w : Window) (b : Bool) : State := { s with holds := put s.holds w b }

def State.pair (s : State) (w : Window) : Pair := look s.params.pairs w
def State.quota (s : State) (w : Window) : Quota := look s.params.quotas w

/-! ### Presence (R174, R190) and whether events are taken (R199, R200) -/

def State.windowPresent (s : State) (w : Window) : Bool := s.presentWindows.getLsbD w.val

def State.portPresent (s : State) : Port → Bool
  | .win w => s.windowPresent w
  | .sup => true

def State.printerPresent (s : State) (p : PrinterId) : Bool := s.presentPrinters.getLsbD p.val

/-- R187: whether a printer is one of the window's pair. -/
def Pair.names (q : Pair) (p : PrinterId) : Bool := q.primary == p || q.alternate == some p

/-- The part takes events while the core supply is present (R199) and the reset input is high (R200). -/
def State.live (s : State) : Bool := s.powered && !s.resetLow

/-- An event of the links, lines, timers or blocks: without supply or in reset none is taken. -/
def whenLive (f : State → State) (s : State) : State := if s.live then f s else s

/-! ### Notices (R183, R189) -/

/-- A notice for one port; the port of a window not present gets none (R174). -/
def notify (p : Port) (n : Notice) (s : State) : State :=
  if s.portPresent p then s.modPort p (withNotice n) else s

/-- A notice for several ports joins each port's queue separately (R183). -/
def notifyAll (ps : List Port) (n : Notice) (s : State) : State := ps.foldl (fun t p => notify p n t) s

/-! ### Replies (R179 to R183) -/

/-- A request is answered: the previous-result marker is set from the result (R180), and the reply is placed unless
the request is QUIET and the result is DONE. -/
def answer (p : Port) (h : Header) (code : Nat) (rc : ResultCode) (res : Results) (s : State) : State :=
  s.modPort p fun q =>
    let q := { q with previous := previousOf rc }
    if h.quiet && rc == .done then q else withReply code rc h.tag res q

/-- How a block answers a request it has been given. -/
inductive Verdict where
  /-- refused at a check: the records are left as they stood (R181) -/
  | refuse (rc : ResultCode) (res : Results := .none)
  | done (s : State) (res : Results := .none)
  | referred (s : State) (res : Results)
  /-- the reply is deferred; the request has been put in hand (R182) -/
  | deferred (s : State)
  /-- answered by no reply (RESTART, R182) -/
  | silent (s : State)

/-- R186: codes 20 to 36 are supervisor requests. -/
def supervisorCode (code : Nat) : Bool := decide (0x20 ≤ code) && decide (code ≤ 0x36)

def Port.isWindow : Port → Bool
  | .win _ => true
  | .sup => false

/-- Checks 2 and 3 of R179, then the owning block's answer. -/
def serve (p : Port) (h : Header) (code : Nat) (act : State → Verdict) (s : State) : State :=
  if h.chain && (s.port p).previous == .refused then answer p h code .flushed .none s
  else if supervisorCode code && Port.isWindow p then answer p h code .notPermitted .none s
  else match act s with
    | .refuse rc res => answer p h code rc res s
    | .done t res => answer p h code .done res t
    | .referred t res => answer p h code .referred res t
    | .deferred t => t
    | .silent t => t

/-- R179: a port takes a request when it has none in hand and its outbound queue holds no reply; the port of a window
not present takes none (R174). -/
def State.canTake (s : State) (p : Port) : Bool :=
  s.live && s.portPresent p && (s.port p).hand.isNone && !hasReply (s.port p).outq

/-- What remains of the FIFO when the request with this body is taken: it is the oldest that waits, or it arrives
whole at an idle receiver while none waits and is taken at once. None where the port takes another request first.
DESIGN CHOICE, safe: log entry 1. -/
def State.offered (s : State) (p : Port) (body : List Byte) : Option (List (List Byte)) :=
  match (s.port p).fifo with
  | [] => if (s.port p).receiver == .idle then some [] else none
  | b :: rest => if b == body then some rest else none

/-- The port takes this request, its port checks are applied and the owning block answers it (R179). Where the port
cannot take it now, the step does not come about and nothing changes (log entry 1). -/
def takeRequest (p : Port) (h : Header) (i : Instr) (act : State → Verdict) (s : State) : State :=
  if s.canTake p && wellFormed i then
    match s.offered p (requestBody i) with
    | some rest => serve p h ((requestCode i).getD 0) act (s.modPort p fun q => { q with fifo := rest })
    | none => s
  else s

/-- The end of a deferred operation at one port: its reply, unless a break has come between (R182, R185). -/
def finishPort (op : HandOp) (rc : ResultCode) (res : Results) (p : Port) (s : State) : State :=
  match (s.port p).hand with
  | some h =>
    if h.op == op then
      let t := s.modPort p fun q => { q with hand := none }
      if h.broken then t else answer p { chain := false, quiet := h.quiet, tag := h.tag } h.code rc res t
    else s
  | none => s

/-- The end of a deferred operation, at the port that has it in hand. -/
def finishHand (op : HandOp) (rc : ResultCode) (res : Results) (s : State) : State :=
  allPorts.foldl (fun t p => finishPort op rc res p t) s

/-! ### The day summary (R166, R167) -/

/-- R166: every addition saturates. -/
def satAdd (limit a b : Nat) : Nat := min (a + b) limit

def addTotal (a b : Nat) : Nat := satAdd Config.maxTotal a b

/-- R166, R161: a variance sum is held within its limits on both sides. -/
def addVariance (a b : Int) : Int := max (-(Config.maxTotal : Int)) (min (a + b) Config.maxTotal)

/-- R167: an addition to the running summary; taken in NIGHT it sets the night marker. -/
def addDay (f : Summary → Summary) (s : State) : State :=
  { s with running := f s.running, night := s.night || s.mode == .night }

/-- The fields of a spoil cause. -/
def addSpoils (c : SpoilCause) (n : Nat) (t : Summary) : Summary :=
  match c with
  | .printBad => { t with printBad := addTotal t.printBad n }
  | .skipped => { t with skipped := addTotal t.skipped n }
  | .abandoned => { t with abandoned := addTotal t.abandoned n }
  | .voided => { t with voided := addTotal t.voided n }
  | .test => { t with test := addTotal t.test n }
  | .writtenOff => { t with writtenOff := addTotal t.writtenOff n }

def addFault (v : Severity) (t : Summary) : Summary :=
  match v with
  | .stop => { t with stopFaults := addTotal t.stopFaults 1 }
  | .note => { t with noteFaults := addTotal t.noteFaults 1 }
  | .office => { t with officeFaults := addTotal t.officeFaults 1 }

/-! ### Spoil-list space (R90) and quotas (R51, R52) -/

/-- R90: the sum, over the printers holding an allowance, of 10 less drawn. -/
def State.reserved (s : State) : Nat :=
  (allPrinters.map fun p => match (s.printer p).allowance with
    | some d => Config.allowanceSize - d
    | none => 0).sum

/-- R90: 256 less used less reserved. -/
def State.unreserved (s : State) : Nat := Config.spoilSize - s.spoils.length - s.reserved

/-- R51: the number of jobs whose port field names the port. -/
def State.inUse (s : State) (p : Port) : Nat :=
  allJobs.countP fun j => match s.job j with
    | some x => x.port == p
    | none => false

/-- R51. -/
def State.reservation (s : State) : Port → Nat
  | .win w => (s.quota w).res
  | .sup => Config.supReserve

/-- R51. -/
def State.ceiling (s : State) : Port → Nat
  | .win w => (s.quota w).ceil
  | .sup => Config.supCeiling

/-- R52: 64 less the sum, over all thirteen ports, of the larger of in-use and reserved. -/
def State.sharedFree (s : State) : Nat := 64 - (allPorts.map fun p => max (s.inUse p) (s.reservation p)).sum

/-- R52: whether the port is admitted a job. -/
def State.admits (s : State) (p : Port) : Bool :=
  decide (s.inUse p < s.reservation p) ||
    (decide (s.inUse p < s.ceiling p) && decide (0 < s.sharedFree))

/-! ### Finding records -/

/-- The pack record in use whose range holds the serial (R4). -/
def State.packOf (s : State) (serial : Nat) : Option PackIx :=
  allPacks.find? fun i => match s.pack i with
    | some k => decide (k.first ≤ serial) && decide (serial ≤ k.last)
    | none => false

/-- R1: the unused blanks still in the pack. -/
def Pack.remaining (k : Pack) : Nat := k.last + 1 - k.next

/-- R1. -/
def Pack.size (k : Pack) : Nat := k.last + 1 - k.first

/-- The pack record LOADED naming the printer (R4). -/
def State.loadedAt (s : State) (p : PrinterId) : Option PackIx :=
  allPacks.find? fun i => match s.pack i with
    | some k => k.state == .loaded && k.printer == some p
    | none => false

/-- The pack record LOADING naming the printer (R4). -/
def State.loadingAt (s : State) (p : PrinterId) : Option PackIx :=
  allPacks.find? fun i => match s.pack i with
    | some k => k.state == .loading && k.printer == some p
    | none => false

/-- The record of the pack LOADED naming the printer. -/
def State.loadedPack (s : State) (p : PrinterId) : Option Pack := (s.loadedAt p).bind s.pack

/-- R49: the port's job that holds the tag. -/
def State.jobOfTag (s : State) (p : Port) (tag : Nat) : Option JobNo :=
  allJobs.find? fun j => match s.job j with
    | some x => x.port == p && x.tag == tag
    | none => false

/-- The session record in use that holds the number (R121). -/
def State.sessionOf (s : State) (n : Nat) : Option SessionIx :=
  allSessions.find? fun i => match s.session i with
    | some x => x.number == n
    | none => false

/-- The window's session in a given state (R124). -/
def State.windowSession (s : State) (w : Window) (st : SessionState) : Option SessionIx :=
  allSessions.find? fun i => match s.session i with
    | some x => x.window == w && x.state == st
    | none => false

/-- R121, R124: the jobs in the table whose session is this one. -/
def State.liveJobs (s : State) (n : Nat) : Nat :=
  allJobs.countP fun j => match s.job j with
    | some x => x.session == some n
    | none => false

/-- R97: the issue-list entry whose serials include this one. -/
def State.issueOf (s : State) (serial : Nat) : Option IssueEntry := s.issues.find? fun e => e.serials.contains serial

/-- The fault record in use that holds the number (R102). -/
def State.faultOf (s : State) (n : Nat) : Option FaultRecord := s.faults.find? fun r => r.number == n

/-- The printer's STOP record that is not CLOSED (R103). -/
def State.stopRecord (s : State) (p : PrinterId) : Option FaultRecord :=
  s.faults.find? fun r => r.severity == .stop && r.printer == some p && r.state != .closed

/-- R54, R115: whether a RECORDS_LOST record is OPEN. -/
def State.recordsLostOpen (s : State) : Bool := s.faults.any fun r => r.firstKind == .recordsLost && r.state == .opened

/-- The records in use of a table of optional records. -/
def countUsed {α : Type} {n : Nat} (v : Vector (Option α) n) : Nat :=
  (List.finRange n).countP fun i => (look v i).isSome

/-- The lowest free place of a table (R1, R50, R121). -/
def lowestFree {α : Type} {n : Nat} (v : Vector (Option α) n) : Option (Fin n) :=
  (List.finRange n).find? fun i => (look v i).isNone

end Sys2Proof.Machine
end

