-- ==== Sys2Proof/Machine/FaultLog.lean ====
section
/-! DEFINITION. The fault log (R99 to R106, R114, R117, R118): kinds, fault numbers, raising and merging, the notices,
and the SPOIL_LIST_FULL record. -/

namespace Sys2Proof.Machine

/-! ### Kinds (R101) -/

def severityOf : FaultKind → Severity
  | .jam | .misfeed | .coverOpen | .cutter | .stockOut | .noResponse | .couponTimeout | .headFault | .serialOrder => .stop
  | .serialSkip | .stockLow | .lineError => .note
  | .spoilListFull | .configDefaulted | .recordsLost => .office

/-- The state a record is born in. -/
def bornState : FaultKind → FaultState
  | .serialSkip | .lineError | .configDefaulted => .cleared
  | .stockLow | .spoilListFull => .acknowledged
  | _ => .opened

/-- A record born CLEARED has its condition clear. -/
def bornPresent (k : FaultKind) : Bool := bornState k != .cleared

/-- The fault kind of a printer-reported kind. -/
def ofPrinterKind : PrinterKind → FaultKind
  | .jam => .jam
  | .misfeed => .misfeed
  | .coverOpen => .coverOpen
  | .cutter => .cutter
  | .stockOut => .stockOut

/-- R108: the latest kinds whose condition a printer status IDLE removes. -/
def idleRemoves : FaultKind → Bool
  | .jam | .misfeed | .coverOpen | .cutter => true
  | _ => false

/-- R108: the latest kinds whose condition goes on acknowledgement. -/
def ackRemoves : FaultKind → Bool
  | .couponTimeout | .headFault | .serialOrder | .recordsLost => true
  | _ => false

/-! ### Numbers (R102, R123) -/

/-- The counter advanced: by 1, from 65,535 to 1, again while the number is in use. The fuel is one more than the
numbers in use, so that a free one is always reached. -/
def advanceNumber : Nat → List Nat → Nat → Nat
  | 0, _, v => v
  | fuel + 1, used, v =>
    let w := if Config.max16 ≤ v then 1 else v + 1
    if used.contains w then advanceNumber fuel used w else w

def nextFaultNumber (rs : List FaultRecord) (v : Nat) : Nat :=
  advanceNumber (rs.length + 1) (rs.map fun r => r.number) v

/-- The lowest-numbered free place in the log (R105). -/
def freePlace (rs : List FaultRecord) : Nat :=
  ((List.range Config.faultSize).find? fun i => !(rs.any fun r => r.place == i)).getD 0

/-! ### Raising (R103 to R106) -/

/-- The job in print that a raise naming the printer carries (R103). -/
def State.jobInPrint (s : State) (p : PrinterId) : Option Job := (s.printer p).job.bind s.job

def raiseJob (printer : Option PrinterId) (s : State) : Option Job := printer.bind s.jobInPrint

/-- Whether a raise of this kind for this printer merges into the record: a STOP raise into the printer's STOP record
(R103), another into the record of the same kind (R104), and none into a CLOSED one. -/
def mergesInto (k : FaultKind) (printer : Option PrinterId) (r : FaultRecord) : Bool :=
  r.state != .closed && r.printer == printer &&
    (if severityOf k == .stop then r.severity == .stop else r.firstKind == k)

/-- The record after the merge of a raise (R103, R104). The session of a job in print is in use, so that the raise that
names it finds it not retired. -/
def mergeInto (k : FaultKind) (job : Option Job) (detail : Option Nat) (now : Nat) (r : FaultRecord) : FaultRecord :=
  let r := { r with
    repeats := min 255 (r.repeats + 1), latest := k, latestTime := now,
    detail := if detail.isSome then detail else r.detail,
    window := match job with
      | some x => x.window
      | none => r.window,
    session := match job with
      | some x => x.session
      | none => r.session,
    sessionOver := r.sessionOver && job.isNone }
  if severityOf k == .stop then { r with state := .opened, present := true }
  else if r.state == .cleared && (k == .stockLow || k == .spoilListFull) then
    { r with state := .acknowledged, present := true }
  else r

/-- The record a raise makes (R100, R101, R105). -/
def newRecord (k : FaultKind) (printer : Option PrinterId) (job : Option Job) (detail : Option Nat) (place number : Nat)
    (s : State) : FaultRecord :=
  { place := place, number := number, printer := printer, severity := severityOf k, firstKind := k, latest := k,
    state := bornState k, present := bornPresent k, day := s.day, time := s.clock, latestTime := s.clock, repeats := 1,
    window := job.bind fun x => x.window, session := job.bind fun x => x.session, sessionOver := false, blanks := 0,
    unlisted := false, detail := detail, remedy := none }

/-- Room for one more record: if none is free, the oldest CLOSED record leaves (R105). With no CLOSED record, which
R104 rules out, the oldest record leaves (log entry 29). -/
def makeRoom (rs : List FaultRecord) : List FaultRecord :=
  if rs.length < Config.faultSize then rs
  else if rs.any fun r => r.state == .closed then rs.eraseP fun r => r.state == .closed
  else rs.drop 1

/-- The ports FAULT RAISED goes to (R118). -/
def raisedPorts (printer : Option PrinterId) (s : State) : List Port :=
  .sup :: ((allWindows.filter fun w => match printer with
    | some p => Pair.names (s.pair w) p
    | none => true).map .win)

/-- FAULT RAISED for a record (R118). The state, repeat count, detail value and window are the record's. -/
def sendRaised (k : FaultKind) (r : FaultRecord) (s : State) : State :=
  notifyAll (raisedPorts r.printer s)
    (.faultRaised r.number r.printer k r.severity r.state r.repeats r.detail r.window) s

/-- The records with number `n` changed. -/
def modFault (n : Nat) (f : FaultRecord → FaultRecord) (s : State) : State :=
  { s with faults := s.faults.map fun r => if r.number == n then f r else r }

/-- A raise that finds a record to merge into (R103, R104, R106). -/
def raiseMerge (k : FaultKind) (job : Option Job) (detail : Option Nat) (r : FaultRecord) (s : State) : State :=
  let r' := mergeInto k job detail s.clock r
  let t := addDay (addFault (severityOf k)) (modFault r.number (fun _ => r') s)
  if severityOf k == .stop || r'.state != r.state then sendRaised k r' t else t

/-- A raise that makes a new record (R105, R106). -/
def raiseNew (k : FaultKind) (printer : Option PrinterId) (job : Option Job) (detail : Option Nat) (s : State) : State :=
  let kept := makeRoom s.faults
  let r := newRecord k printer job detail (freePlace kept) s.faultCounter s
  let t := { s with
    faults := kept ++ [r],
    faultCounter := nextFaultNumber (kept ++ [r]) s.faultCounter,
    overwritten := s.overwritten || decide (Config.faultSize ≤ s.faults.length) }
  sendRaised k r (addDay (addFault (severityOf k)) t)

/-- The number of the record that takes a raise (R106, step 1). -/
def raiseNumber (k : FaultKind) (printer : Option PrinterId) (s : State) : Nat :=
  match s.faults.find? (mergesInto k printer) with
  | some r => r.number
  | none => s.faultCounter

/-- A raise is taken (R103 to R106). -/
def raise (k : FaultKind) (printer : Option PrinterId) (detail : Option Nat) (s : State) : State :=
  match s.faults.find? (mergesInto k printer) with
  | some r => raiseMerge k (raiseJob printer s) detail r s
  | none => raiseNew k printer (raiseJob printer s) detail s

/-! ### Clearing (R109, R118) -/

/-- FAULT CLEARED to the supervisor. -/
def sendCleared (r : FaultRecord) (s : State) : State :=
  notify .sup (.faultCleared r.number r.printer r.latest r.repeats r.blanks) s

/-- The record's condition has gone and it was acknowledged: it becomes CLEARED, and FAULT CLEARED is sent. What
follows for a printer is told to the printer controller (Control.lean). -/
def enterCleared (r : FaultRecord) (s : State) : State :=
  sendCleared r (modFault r.number (fun x => { x with state := .cleared, present := false }) s)

/-! ### Spoil-list space (R114) -/

def State.anyWaiting (s : State) : Bool := allPrinters.any fun p => (s.printer p).waiting

def isOpenFull (r : FaultRecord) : Bool := r.firstKind == .spoilListFull && r.state != .closed

/-- A printer begins to wait on space: the SPOIL_LIST_FULL record is raised, or merged if it was CLEARED. -/
def reportWait (s : State) : State :=
  match s.faults.find? isOpenFull with
  | none => raise .spoilListFull none (some s.unreserved) s
  | some r => if r.state == .cleared then raise .spoilListFull none (some s.unreserved) s else s

/-- The log tests the SPOIL_LIST_FULL condition on its inputs: the count last reported, and whether a printer waits. -/
def testFull (s : State) : State :=
  if Config.allowanceSize ≤ s.freeReported && !s.anyWaiting then
    match s.faults.find? isOpenFull with
    | some r => if r.state == .acknowledged then enterCleared r s else s
    | none => s
  else s

/-- R90: used or reserved has fallen, and the log is told the unreserved free count. -/
def reportFree (s : State) : State := { s with freeReported := s.unreserved }

end Sys2Proof.Machine
end

