-- ==== Sys2Proof/Machine/Accounting.lean ====
section
/-! DEFINITION. Serial accounting and the session table's postings: pack movements (R5), stock-low comparison (R17),
runs (R85), spoil entries and their counts (R91 to R93), sales and refunds (R126), the job's leaving (R50, R141), the
issue list (R96, R97) and the authorisation slots (R138). -/

namespace Sys2Proof.Machine

/-! ### Pack movements (R5). A movement whose condition does not hold is not applied. -/

/-- Coupon taken at serial `n`. -/
def takeCoupon (n : Nat) (k : Pack) : Pack :=
  if k.state == .loaded && n == k.next && decide (k.next ≤ k.last) then
    { k with next := k.next + 1, inPrint := k.inPrint ++ [n] }
  else k

/-- Blank spoiled at next. -/
def spoilNext (k : Pack) : Pack :=
  if k.state == .loaded && decide (k.next ≤ k.last) then { k with next := k.next + 1, spoiled := k.spoiled + 1 } else k

/-- Range skipped up to serial `n`. -/
def skipTo (n : Nat) (k : Pack) : Pack :=
  if k.state == .loaded && decide (k.next < n) && decide (n ≤ k.last + 1) then
    { k with spoiled := k.spoiled + (n - k.next), next := n }
  else k

/-- Ticket issued. -/
def issueTicket (k : Pack) : Pack :=
  if k.state == .loaded then { k with issued := k.issued + k.inPrint.length, inPrint := [] } else k

/-- Ticket abandoned. -/
def abandonTicket (k : Pack) : Pack :=
  if k.state == .loaded then { k with spoiled := k.spoiled + k.inPrint.length, inPrint := [] } else k

/-- Ticket voided, `n` blanks. -/
def voidBlanks (n : Nat) (k : Pack) : Pack :=
  if n ≤ k.issued then { k with issued := k.issued - n, spoiled := k.spoiled + n } else k

/-- R17: the raise that follows a fall of a LOADED pack's remaining count from above the threshold. -/
def stockLowAfter (before : Nat) (k : Pack) (s : State) : State :=
  match k.printer with
  | some p =>
    if decide (0 < s.params.stockLow) && decide (s.params.stockLow < before)
        && decide (k.remaining ≤ s.params.stockLow) then
      raise .stockLow (some p) (some k.remaining) s
    else s
  | none => s

/-- A movement applied to a pack, with the stock-low comparison after it (R5, R17). -/
def movePack (i : PackIx) (f : Pack → Pack) (s : State) : State :=
  match s.pack i with
  | some k =>
    let t := s.setPack i (some (f k))
    if k.state == .loaded then stockLowAfter k.remaining (f k) t else t
  | none => s

/-! ### Runs (R85) -/

/-- Insertion into an ascending list. -/
def insertAsc (n : Nat) : List Nat → List Nat
  | [] => [n]
  | m :: r => if n ≤ m then n :: m :: r else m :: insertAsc n r

def ascending : List Nat → List Nat
  | [] => []
  | n :: r => insertAsc n (ascending r)

/-- The runs of consecutive serials of an ascending list: lowest serial and length of each. -/
def runsOf : List Nat → List (Nat × Nat)
  | [] => []
  | n :: r =>
    match runsOf r with
    | [] => [(n, 1)]
    | (m, c) :: rest => if n + 1 == m then (n, c + 1) :: rest else (n, 1) :: (m, c) :: rest

/-! ### Spoil entries (R89, R91, R93) -/

def spoilEntry (first count : Nat) (cause : SpoilCause) (printer : Option PrinterId) (session fault : Option Nat)
    (s : State) : SpoilEntry :=
  { first := first, count := count, cause := cause, printer := printer, session := session, fault := fault,
    day := s.day, time := s.clock }

/-- The two-byte counts saturate at 65,535. -/
def sat16 (a b : Nat) : Nat := satAdd Config.max16 a b

/-- R93, R128, R160: the session that a spoil may be charged to. Under a STOP record whose affected session has been
retired there is none, whichever session holds that number now (log entry 48); the entry keeps the number. -/
def State.chargedSession (s : State) (e : SpoilEntry) : Option Nat :=
  match e.fault.bind s.faultOf with
  | some r => if r.sessionOver && r.session == e.session then none else e.session
  | none => e.session

/-- R93, R128: PRINT_BAD and ABANDONED blanks are charged to a session that is OPEN, CLOSING or COUNTING. -/
def chargeSession (cause : SpoilCause) (n : Nat) (session : Option Nat) (s : State) : State :=
  match session.bind s.sessionOf with
  | none => s
  | some i =>
    match s.session i with
    | none => s
    | some x =>
      if x.state == .reconciled then s
      else match cause with
        | .printBad => s.setSession i (some { x with spoiltBad := sat16 x.spoiltBad n })
        | .abandoned => s.setSession i (some { x with spoiltAbandoned := sat16 x.spoiltAbandoned n })
        | _ => s

/-- R93, R117. -/
def chargeFault (n : Nat) (fault : Option Nat) (s : State) : State :=
  match fault with
  | none => s
  | some f => modFault f (fun r => { r with blanks := sat16 r.blanks n }) s

/-- R93: the counts a spoil makes outside the spoil list, listed or not. -/
def countSpoil (e : SpoilEntry) (s : State) : State :=
  chargeFault e.count e.fault
    (chargeSession e.cause e.count (s.chargedSession e) (addDay (addSpoils e.cause e.count) s))

def listSpoil (e : SpoilEntry) (s : State) : State := { s with spoils := s.spoils ++ [e] }

/-- R91, case 3: the unlisted-spoil marker of the printer's STOP record that is not CLOSED. -/
def markUnlisted (p : PrinterId) (s : State) : State :=
  match s.stopRecord p with
  | some r => modFault r.number (fun x => { x with unlisted := true }) s
  | none => s

/-- R91, cases 2 and 3: unreserved space if there is any. -/
def listUnreserved (p : PrinterId) (e : SpoilEntry) (s : State) : State :=
  if 1 ≤ s.unreserved then listSpoil e s else markUnlisted p s

/-- R91: an entry made for a printer. A draw lowers the reserved count, which is reported (R90); the unreserved free
count does not change with it, so no waiting printer is given anything. -/
def listAt (p : PrinterId) (e : SpoilEntry) (s : State) : State :=
  match (s.printer p).allowance with
  | some d =>
    if d < Config.allowanceSize then
      testFull (reportFree (listSpoil e (s.modPrinter p fun c => { c with allowance := some (d + 1) })))
    else listUnreserved p e s
  | none => listUnreserved p e s

def spoilAt (p : PrinterId) (e : SpoilEntry) (s : State) : State := countSpoil e (listAt p e s)

/-- R92: an entry that is not made for a printer; the request has checked the space. -/
def spoilUnreserved (e : SpoilEntry) (s : State) : State := countSpoil e (listSpoil e s)

/-- One ABANDONED entry for each run of the in-print serials (R85, R88). -/
def spoilRuns (p : PrinterId) (session fault : Option Nat) (runs : List (Nat × Nat)) (s : State) : State :=
  runs.foldl (fun t r => spoilAt p (spoilEntry r.1 r.2 .abandoned (some p) session fault t) t) s

/-! ### Session accumulators (R126, R127) -/

/-- R126: an addition to the sales of a tender. -/
def addSales (t : Tender) (n : Nat) (x : Session) : Session :=
  if x.clamped.of t then x
  else if x.sales.of t + n ≤ Config.maxMoney then { x with sales := x.sales.set t (x.sales.of t + n) }
  else { x with sales := x.sales.set t Config.maxMoney, clamped := x.clamped.set t true }

/-- R126: an addition to the refunds of a tender. -/
def addRefunds (t : Tender) (n : Nat) (x : Session) : Session :=
  if x.clamped.of t then x
  else if x.refunds.of t + n ≤ Config.maxMoney then { x with refunds := x.refunds.set t (x.refunds.of t + n) }
  else { x with refunds := x.refunds.set t Config.maxMoney, clamped := x.clamped.set t true }

/-- R126, R131: a void subtraction, unless the tender is clamped. -/
def subSales (t : Tender) (n : Nat) (x : Session) : Session :=
  if x.clamped.of t then x else { x with sales := x.sales.set t (x.sales.of t - n) }

def modSession (i : SessionIx) (f : Session → Session) (s : State) : State := s.setSession i ((s.session i).map f)

/-- R127: the sale of an issued ticket. -/
def postSale (n : Nat) (t : Tender) (fare coupons : Nat) (s : State) : State :=
  match s.sessionOf n with
  | none => s
  | some i => modSession i (fun x =>
      let x := addSales t fare x
      { x with tickets := sat16 x.tickets 1, coupons := sat16 x.coupons coupons }) s

/-! ### A job leaves the table (R50, R141) -/

/-- R141: a CLOSING session enters COUNTING, and its window and S are told. -/
def enterCounting (i : SessionIx) (s : State) : State :=
  match s.session i with
  | none => s
  | some x =>
    notifyAll [.win x.window, .sup] (.sessionCountDue x.number x.window x.clerk x.closedAt x.forced)
      (s.setSession i (some { x with state := .counting }))

/-- The session table is told that a job of the session has left: a CLOSING session with no job left enters
COUNTING. -/
def jobLeft (n : Nat) (s : State) : State :=
  match s.sessionOf n with
  | none => s
  | some i =>
    match s.session i with
    | none => s
    | some x => if x.state == .closing && s.liveJobs n == 0 then enterCounting i s else s

/-- R50: the record is freed and the session told. -/
def freeJob (j : JobNo) (s : State) : State :=
  match s.job j with
  | none => s
  | some x =>
    let t := s.setJob j none
    match x.session with
    | some n => jobLeft n t
    | none => t

/-! ### The issue list and the authorisation slots (R96, R97, R137, R138) -/

/-- The state of the entry that holds the serial. -/
def setIssueState (serial : Nat) (st : IssueState) (s : State) : State :=
  { s with issues := s.issues.map fun e => if e.serials.contains serial then { e with state := st } else e }

/-- R136 to R138: the slot empties, its timer with it. For a REFUND that is not posted, an entry that was found
returns to ISSUED. -/
def emptySlot (w : Window) (posted : Bool) (s : State) : State :=
  match s.slot w with
  | none => s
  | some a =>
    let t := s.setSlot w none
    if a.kind == .refund && a.found && !posted then setIssueState a.serial .issued t else t

/-- AUTHORISATION ANSWER to the window of the slot (R139). -/
def sendAnswer (w : Window) (a : AuthSlot) (x : AuthAnswer) (s : State) : State :=
  notify (.win w) (.authorisationAnswer a.serial a.kind x a.session) s

/-- R137, R138: a pending authorisation ends with nothing posted, and the window is told why. -/
def endAuthorisation (w : Window) (x : AuthAnswer) (s : State) : State :=
  match s.slot w with
  | none => s
  | some a => sendAnswer w a x (emptySlot w false s)

/-- R138: the pending LATE_VOID authorisations that name a serial of an entry that has left the list are
withdrawn. -/
def withdrawFor (serials : List Nat) (s : State) : State :=
  allWindows.foldl (fun t w => match t.slot w with
    | some a => if a.kind == .lateVoid && serials.contains a.serial then endAuthorisation w .withdrawn t else t
    | none => t) s

/-- An entry that may leave a full list (R96). -/
def mayLeave (x : IssueEntry) : Bool := x.state != .refundPending

/-- R96: a new entry at the newest end; from a full list the oldest entry that is not REFUND_PENDING leaves first. At
most 12 entries are REFUND_PENDING, so that one can leave; were there none, the oldest would (log entry 29). -/
def addIssue (e : IssueEntry) (s : State) : State :=
  if s.issues.length < Config.issueSize then { s with issues := s.issues ++ [e] }
  else match s.issues.find? mayLeave with
    | some x => withdrawFor x.serials { s with issues := s.issues.eraseP mayLeave ++ [e] }
    | none => { s with issues := s.issues.drop 1 ++ [e] }

end Sys2Proof.Machine
end

