-- ==== Sys2Proof/Machine/Control.lean ====
section
/-! DEFINITION. The printer controller: queues (R57, R58), allowances and the wait for space (R44, R45), STOP faults with
abandonment and diversion (R37, R68 to R73), the job start check (R42), what follows when a record's condition goes
(R38, R108, R109), the outcomes of a sense (R9, R10, R36, R39) and of a coupon report (R78 to R86). -/

namespace Sys2Proof.Machine

/-! ### Queues (R57, R58) -/

def State.isUrgent (s : State) (j : JobNo) : Bool :=
  match s.job j with
  | some x => x.urgent
  | none => false

def State.urgentPart (s : State) (q : List JobNo) : List JobNo := q.filter fun j => s.isUrgent j
def State.ordinaryPart (s : State) (q : List JobNo) : List JobNo := q.filter fun j => !s.isUrgent j

/-- R58: a job joins at the tail of its section. -/
def joinTail (j : JobNo) (urgent : Bool) (q : List JobNo) (s : State) : List JobNo :=
  if urgent then s.urgentPart q ++ j :: s.ordinaryPart q else q ++ [j]

/-- R58: a job joins at the head of its section. -/
def joinHead (j : JobNo) (urgent : Bool) (q : List JobNo) (s : State) : List JobNo :=
  if urgent then j :: q else s.urgentPart q ++ j :: s.ordinaryPart q

/-- R57: the jobs of the queue and the job in print. -/
def Printer.load (c : Printer) : Nat := c.queue.length + (if c.job.isSome then 1 else 0)

/-- R57. -/
def Printer.hasRoom (c : Printer) : Bool := decide (c.load < Config.printerLoad)

/-- R55: READY or PRINTING. -/
def Printer.inService (c : Printer) : Bool := c.state == .ready || c.state == .printing

/-- R55, R72: whether the printer can take a job now. -/
def State.canHold (s : State) (p : PrinterId) : Bool := (s.printer p).inService && (s.printer p).hasRoom

/-- The position of a job in a queue, counted from 1 at the head. -/
def positionIn (j : JobNo) : List JobNo → Option Nat
  | [] => none
  | x :: r => if x = j then some 1 else (positionIn j r).map fun n => n + 1

/-! ### The wait for space (R44, R45, R114) -/

/-- The waiting-on-space marker clears, and the log is told. -/
def clearWaiting (p : PrinterId) (s : State) : State :=
  if (s.printer p).waiting then testFull (s.modPrinter p fun c => { c with waiting := false }) else s

/-- The printer begins to wait, and the log is told. -/
def beginWait (p : PrinterId) (s : State) : State :=
  if (s.printer p).waiting then s else reportWait (s.modPrinter p fun c => { c with waiting := true })

/-- R44: the unreserved free count covers an allowance. -/
def State.spaceForAllowance (s : State) : Bool := decide (Config.allowanceSize ≤ s.unreserved)

/-- R44: the allowance becomes held with drawn 0. -/
def takeAllowance (p : PrinterId) (s : State) : State := s.modPrinter p fun c => { c with allowance := some 0 }

/-! ### The end of a load (R10, R11, R22) -/

/-- A LOADING pack returns to its prior state. -/
def revertPack (k : Pack) : Pack := { k with state := k.prior.getD .inStore, prior := none, printer := none }

/-- The load on the printer ends without success: the pack goes back, and the deferred reply is sent. -/
def failLoad (p : PrinterId) (rc : ResultCode) (res : Results) (s : State) : State :=
  let t := match s.loadingAt p with
    | some i => s.setPack i ((s.pack i).map revertPack)
    | none => s
  finishHand (.load p) rc res t

/-! ### Abandonment (R68, R69) -/

/-- R68: the attempt is abandoned; its good coupons become ABANDONED spoils and the job's counts begin again. -/
def abandonAttempt (p : PrinterId) (j : JobNo) (fault : Nat) (s : State) : State :=
  let session := (s.job j).bind fun x => x.session
  let t := match s.loadedAt p with
    | some i => match s.pack i with
      | some k => movePack i abandonTicket (spoilRuns p session (some fault) (runsOf (ascending k.inPrint)) s)
      | none => s
    | none => s
  t.modJob j fun x => { x with restarts := x.restarts + 1, nextCoupon := 1, good := [], bad := 0, skip := 0 }

/-- Whether the job's session is CLOSING. -/
def State.jobClosing (s : State) (x : Job) : Bool :=
  match (x.session.bind s.sessionOf).bind s.session with
  | some y => y.state == .closing
  | none => false

/-- R69: what becomes of the abandoned job. A requeued job is answered back, marked as the abandoned job. -/
def settleAbandoned (p : PrinterId) (j : JobNo) (fault : Nat) (s : State) : State × Option JobNo :=
  match s.job j with
  | none => (s, none)
  | some x =>
    if s.jobClosing x then (freeJob j (notify x.port (.jobCancelled x.tag j p) s), none)
    else if 4 ≤ x.restarts then (freeJob j (notify x.port (.jobFailed x.tag j p fault 4) s), none)
    else
      ((s.modPrinter p fun c => { c with queue := joinHead j x.urgent c.queue s }).modJob j
        (fun y => { y with state := .queued, printer := p }), some j)

/-- The job in print is handed to the job table, which abandons it (step 5 of R37). -/
def abandonJob (p : PrinterId) (fault : Nat) (s : State) : State × Option JobNo :=
  match (s.printer p).job with
  | none => (s, none)
  | some j => settleAbandoned p j fault (abandonAttempt p j fault (s.modPrinter p fun c => { c with job := none }))

/-! ### Diversion (R71 to R73) -/

/-- R72: the other printer of the window's pair. -/
def State.diversionTarget (s : State) (p : PrinterId) (x : Job) : Option PrinterId :=
  x.window.bind fun w => if (s.pair w).primary = p then (s.pair w).alternate else some (s.pair w).primary

/-- R73: the job stays, and its port is told. -/
def heldJob (p : PrinterId) (j : JobNo) (x : Job) (s : State) : State :=
  notify x.port (.jobHeld x.tag j p
    (if (s.printer p).state = .faulted then (s.stopRecord p).map fun r => r.number else none)) s

/-- R72: the job moves, and its port is told. -/
def moveJob (p q : PrinterId) (j : JobNo) (x : Job) (first : Bool) (s : State) : State :=
  let t := s.modPrinter p fun c => { c with queue := c.queue.filter fun y => y != j }
  let t := t.modPrinter q fun c =>
    { c with queue := if first then joinHead j x.urgent c.queue t else joinTail j x.urgent c.queue t }
  let t := t.modJob j fun y => { y with printer := q, diverted := true }
  notify x.port (.jobDiverted x.tag j p q) t

/-- R71: one job of the queue is considered; `took` gathers the printers that have taken one. -/
def divertOne (p : PrinterId) (abandoned : Option JobNo) (st : State × List PrinterId) (j : JobNo) :
    State × List PrinterId :=
  match st.1.job j with
  | none => st
  | some x =>
    if x.urgent then st
    else if x.diverted then (heldJob p j x st.1, st.2)
    else match st.1.diversionTarget p x with
      | some q =>
        if st.1.canHold q then (moveJob p q j x (abandoned == some j) st.1, q :: st.2)
        else (heldJob p j x st.1, st.2)
      | none => (heldJob p j x st.1, st.2)

/-- R71, R72: diversion runs for the printer, and then each READY printer that took a job makes the start check
`start`. Their order is ascending printer number. DESIGN CHOICE, unsafe: log entry 11. -/
def divert (start : PrinterId → State → State) (p : PrinterId) (abandoned : Option JobNo) (s : State) : State :=
  let st := (s.printer p).queue.foldl (divertOne p abandoned) (s, [])
  (allPrinters.filter fun q => st.2.contains q).foldl (fun t q => start q t) st.1

/-! ### STOP faults (R37) -/

/-- Step 2 of R37: the timers stop and the command, the markers and the coupon are cleared. -/
def quiet (p : PrinterId) (s : State) : State :=
  clearWaiting p (s.modPrinter p fun c =>
    { c with
      couponTimer := false, senseTimer := false, command := .none, unconfirmed := false, outstanding := none,
      declined := 0 })

/-- Step 3 of R37: a sense under way ends without a serial. -/
def endSenseByFault (p : PrinterId) (kind : FaultKind) (s : State) : State :=
  let was := (s.printer p).sense
  let t := s.modPrinter p fun c => { c with sense := .none }
  if was = .load then failLoad p (if kind = .noResponse then .noResponse else .printerState) .none t else t

/-- R37, with the start check that the targets of the diversion make. -/
def stopFaultWith (start : PrinterId → State → State) (p : PrinterId) (kind : FaultKind) (detail : Option Nat)
    (s : State) : State :=
  let was := (s.printer p).state
  if was = .absent then s
  else
    let number := raiseNumber kind (some p) s
    let t := endSenseByFault p kind (quiet p (raise kind (some p) detail s))
    if was = .faulted then t
    else
      let r := abandonJob p number (t.modPrinter p fun c => { c with state := .faulted })
      divert start p r.2 r.1

/-! ### The job start check (R42) -/

/-- R63: the head job becomes the job in print. -/
def startJob (p : PrinterId) (j : JobNo) (rest : List JobNo) (s : State) : State :=
  (clearWaiting p (s.modPrinter p fun c =>
    { c with queue := rest, job := some j, state := .printing, command := .print 1 })).modJob j
    fun x => { x with state := .printing, nextCoupon := 1, good := [], bad := 0, skip := 0 }

/-- R42, R18: the check of a READY printer whose queue is not empty. -/
def startOnce (start : PrinterId → State → State) (p : PrinterId) (s : State) : State :=
  let c := s.printer p
  if c.state = .ready then
    match c.queue with
    | [] => s
    | j :: rest =>
      match s.job j, s.loadedPack p with
      | some x, some k =>
        if k.remaining < x.coupons then stopFaultWith start p .stockOut (some k.remaining) s
        else if c.allowance.isSome then startJob p j rest s
        else if s.spaceForAllowance then startJob p j rest (takeAllowance p s)
        else beginWait p s
      | _, _ => s
  else s

/-- The check with the checks that its diversions call for. Each of those takes one more printer from READY to
FAULTED, so that nine levels cover the eight printers. -/
def startCheckFuel : Nat → PrinterId → State → State
  | 0, _, s => s
  | n + 1, p, s => startOnce (startCheckFuel n) p s

/-- R42. -/
def startCheck (p : PrinterId) (s : State) : State := startCheckFuel 9 p s

/-- R37. -/
def stopFault (p : PrinterId) (kind : FaultKind) (detail : Option Nat) (s : State) : State :=
  stopFaultWith startCheck p kind detail s

/-- R42: a READY printer's queue has lost a job. Empty, it stops waiting; with a new head it makes the check. -/
def queueShortened (p : PrinterId) (oldHead : Option JobNo) (s : State) : State :=
  let c := s.printer p
  if c.state = .ready then
    if c.queue.isEmpty then clearWaiting p s
    else if c.queue.head? = oldHead then s
    else startCheck p s
  else s

/-! ### Allowances given to waiting printers (R45) -/

/-- One waiting printer is given its allowance while the space lasts. -/
def giveOne (st : State × List PrinterId) (p : PrinterId) : State × List PrinterId :=
  if (st.1.printer p).waiting && st.1.spaceForAllowance then
    (st.1.modPrinter p fun c => { c with waiting := false, allowance := some 0 }, st.2 ++ [p])
  else st

/-- A printer given its allowance goes on. -/
def goOn (p : PrinterId) (s : State) : State :=
  match (s.printer p).state with
  | .ready => startCheck p s
  | .probe => s.modPrinter p fun c => { c with sense := .startUp, command := .sense }
  | .faulted => s.modPrinter p fun c => { c with command := .sense }
  | _ => s

/-- R45: allowances go to the waiting printers in ascending number; the log is told; each one given goes on.
DESIGN CHOICE, unsafe: log entry 12. -/
def handout (s : State) : State :=
  let st := allPrinters.foldl giveOne (s, [])
  st.2.foldl (fun t p => goOn p t) (testFull st.1)

/-- Space was freed: the count is reported and handed on (R90). -/
def spaceFreed (s : State) : State := handout (reportFree s)

/-- R45: the printer releases its allowance. -/
def releaseAllowance (p : PrinterId) (s : State) : State :=
  match (s.printer p).allowance with
  | none => s
  | some d =>
    let t := s.modPrinter p fun c => { c with allowance := none }
    if d < Config.allowanceSize then spaceFreed t else t

/-! ### A record becomes CLEARED (R38, R108, R109) -/

/-- R38: the resynchronising sense becomes due. -/
def resyncDue (p : PrinterId) (s : State) : State :=
  match s.loadedAt p with
  | some _ =>
    if (s.printer p).allowance.isSome then s.modPrinter p fun c => { c with sense := .resync, command := .sense }
    else if s.spaceForAllowance then
      takeAllowance p (s.modPrinter p fun c => { c with sense := .resync, command := .sense })
    else beginWait p (s.modPrinter p fun c => { c with sense := .resync })
  | none => releaseAllowance p (s.modPrinter p fun c => { c with state := .unloaded })

/-- The printer controller is told that the printer's STOP record has become CLEARED. During a load the sense becomes
due when the load ends. -/
def tellCleared (p : PrinterId) (s : State) : State :=
  if (s.printer p).state = .faulted ∧ (s.printer p).sense = .none then resyncDue p s else s

/-- R109: FAULT CLEARED is sent, then the printer is told. DESIGN CHOICE, unsafe: log entry 37. -/
def recordCleared (r : FaultRecord) (s : State) : State :=
  let t := enterCleared r s
  if r.severity = .stop then
    match r.printer with
    | some p => tellCleared p t
    | none => t
  else t

/-- R108: the condition of one record goes. -/
def removeOne (matching : FaultRecord → Bool) (s : State) (n : Nat) : State :=
  match s.faultOf n with
  | none => s
  | some r =>
    if matching r && r.present then
      match r.state with
      | .opened => modFault n (fun x => { x with present := false }) s
      | .acknowledged => recordCleared r s
      | .cleared => s
      | .closed => s
    else s

/-- R108: an event removes the condition of the records that match, one after another in the order of the list, oldest
first; each has its FAULT CLEARED and its printer's part before the next (DESIGN CHOICE, unsafe: log entry 46). -/
def removeCondition (matching : FaultRecord → Bool) (s : State) : State :=
  ((s.faults.filter matching).map fun r => r.number).foldl (removeOne matching) s

def stopMatches (p : PrinterId) (kinds : FaultKind → Bool) (r : FaultRecord) : Bool :=
  r.severity == .stop && r.printer == some p && kinds r.latest

/-- "Printer status IDLE" (R30). -/
def idleEvent (p : PrinterId) (s : State) : State := removeCondition (stopMatches p idleRemoves) s

/-- "Printer answering again" (R27). -/
def answeringEvent (p : PrinterId) (s : State) : State := removeCondition (stopMatches p (· == .noResponse)) s

/-- "Successful load on p" (R9). -/
def loadEvent (p : PrinterId) (s : State) : State :=
  removeCondition (fun r => stopMatches p (· == .stockOut) r || (r.printer == some p && r.latest == .stockLow)) s

/-- R38: a record that became CLEARED during a load makes the sense due when the load ends. -/
def loadEnded (p : PrinterId) (s : State) : State :=
  match s.stopRecord p with
  | some r => if r.state = .cleared then tellCleared p s else s
  | none => s

/-! ### The end of a sense (R9, R10, R31, R36, R39, R87) -/

/-- R31: the sense ends; its timer stops and nothing of it stays pending, a wait for its allowance included. -/
def endSense (p : PrinterId) (s : State) : State :=
  clearWaiting p (s.modPrinter p fun c =>
    { c with sense := .none, senseTimer := false, command := .none, declined := 0 })

/-- R9. -/
def loadSucceeds (p : PrinterId) (i : PackIx) (sensed : Nat) (s : State) : State :=
  let t := s.setPack i ((s.pack i).map fun k => { k with state := .loaded, prior := none, inPrint := [] })
  let t := if (s.printer p).state = .sensing then
      t.modPrinter p fun c => { c with state := if c.outOfService then .outOfService else .ready }
    else t
  let t := loadEvent p t
  let t := match t.pack i with
    | some k =>
      if decide (0 < t.params.stockLow) && decide (k.remaining ≤ t.params.stockLow) then
        raise .stockLow (some p) (some k.remaining) t
      else t
    | none => t
  let t := finishHand (.load p) .done (.loaded i p sensed) t
  startCheck p (loadEnded p t)

/-- R10. The deferred reply stands before what follows where a resynchronising sense became due during the load (DESIGN
CHOICE, unsafe: log entry 38). -/
def loadMismatch (p : PrinterId) (expected sensed : Nat) (s : State) : State :=
  let t := if (s.printer p).state = .sensing then s.modPrinter p fun c => { c with state := .unloaded } else s
  loadEnded p (failLoad p .serialMismatch (.mismatch expected sensed) t)

/-- The sensed serial of a LOAD sense goes to the stock register. -/
def loadSensed (p : PrinterId) (sensed : Nat) (s : State) : State :=
  match s.loadingAt p with
  | none => s
  | some i =>
    match s.pack i with
    | none => s
    | some k => if sensed = k.next then loadSucceeds p i sensed s else loadMismatch p k.next sensed s

/-- R87: the range the printer has passed is spoiled. -/
def senseSkip (p : PrinterId) (i : PackIx) (k : Pack) (sensed : Nat) (fault : Option Nat) (s : State) : State :=
  let t := movePack i (skipTo sensed) s
  let t := spoilAt p (spoilEntry k.next (sensed - k.next) .skipped (some p) none fault t) t
  raise .serialSkip (some p) (some (sensed - k.next)) t

/-- R36, R39: the printer returns to service, releases its allowance and makes the start check. -/
def senseReturns (p : PrinterId) (resync : Bool) (s : State) : State :=
  let t := s.modPrinter p fun c => { c with state := if resync && c.outOfService then .outOfService else .ready }
  startCheck p (releaseAllowance p t)

/-- R36, R39: a start-up or resynchronising sense has ended with this serial. -/
def serialSensed (p : PrinterId) (resync : Bool) (sensed : Nat) (s : State) : State :=
  match s.loadedAt p with
  | none => s
  | some i =>
    match s.pack i with
    | none => s
    | some k =>
      if sensed = k.next then senseReturns p resync s
      else if k.next < sensed ∧ sensed ≤ k.last then
        let fault := if resync then (s.stopRecord p).map fun r => r.number else none
        senseReturns p resync (senseSkip p i k sensed fault s)
      else if sensed = 0 then stopFault p .stockOut (some k.remaining) s
      else stopFault p .serialOrder (some sensed) s

/-- R31: the sense under way ends with a serial, which goes where its use says. -/
def senseEnds (p : PrinterId) (sensed : Nat) (s : State) : State :=
  match (s.printer p).sense with
  | .none => s
  | .load => loadSensed p sensed (endSense p s)
  | .startUp => serialSensed p false sensed (endSense p s)
  | .resync => serialSensed p true sensed (endSense p s)

/-! ### The last coupon (R43, R66, R67, R83, R84) -/

/-- R43. -/
def printEnds (p : PrinterId) (s : State) : State :=
  let t := releaseAllowance p (s.modPrinter p fun c => { c with job := none })
  match (s.printer p).state with
  | .draining => t.modPrinter p fun c => { c with state := .outOfService }
  | _ => startCheck p (t.modPrinter p fun c => { c with state := .ready })

/-- R66, R83: a ticket is issued. -/
def issueJob (p : PrinterId) (i : PackIx) (j : JobNo) (x : Job) (serials : List Nat) (s : State) : State :=
  match x.session, x.tender, x.window with
  | some n, some t, some w =>
    let s := postSale n t x.fare x.coupons s
    let s := movePack i issueTicket s
    let s := addIssue
      { serials := serials, kind := x.kind, fare := x.fare, tender := t, session := n, window := w, printer := p,
        time := s.clock, state := .issued } s
    let s := addDay (fun d => { d with tickets := addTotal d.tickets 1, coupons := addTotal d.coupons x.coupons }) s
    freeJob j (notify x.port (.jobIssued x.tag j serials p) s)
  | _, _, _ => s

/-- R67, R84: a TEST job completes. -/
def completeTest (p : PrinterId) (i : PackIx) (j : JobNo) (x : Job) (serials : List Nat) (s : State) : State :=
  let s := movePack i abandonTicket s
  let s := spoilAt p (spoilEntry (serials.headD 0) serials.length .test (some p) none none s) s
  freeJob j (notify x.port (.jobIssued x.tag j serials p) s)

/-! ### A coupon report (R64, R78 to R82) -/

/-- What a coupon report concerns: the printer, its pack, the job in print and the coupon reported. -/
structure Report where
  printer : PrinterId
  pack    : PackIx
  job     : JobNo
  record  : Job
  coupon  : Nat
deriving DecidableEq, Repr

/-- The coupon is to be printed, first or again: the pending command becomes PRINT coupon k (R29). -/
def printNext (p : PrinterId) (k : Nat) (s : State) : State :=
  s.modPrinter p fun c => { c with command := .print k, declined := 0 }

/-- R79: the coupon is taken at this serial, which is the pack's next. -/
def couponTaken (r : Report) (serial : Nat) (s : State) : State :=
  let t := movePack r.pack (takeCoupon serial) s
  let t := t.modJob r.job fun x => { x with good := x.good ++ [serial] }
  if r.coupon < r.record.coupons then
    printNext r.printer (r.coupon + 1) (t.modJob r.job fun x => { x with nextCoupon := r.coupon + 1 })
  else
    let serials := r.record.good ++ [serial]
    if r.record.kind = .test then printEnds r.printer (completeTest r.printer r.pack r.job r.record serials t)
    else printEnds r.printer (issueJob r.printer r.pack r.job r.record serials t)

/-- Steps 1 and 2 of R80: the blanks passed are spoiled. -/
def skipRange (r : Report) (next serial : Nat) (s : State) : State :=
  let t := movePack r.pack (skipTo serial) s
  spoilAt r.printer (spoilEntry next (serial - next) .skipped (some r.printer) r.record.session none t) t

/-- The first skip of the attempt is noted (step 3 of R80). -/
def firstSkip (r : Report) (next serial : Nat) (s : State) : State :=
  (raise .serialSkip (some r.printer) (some (serial - next)) s).modJob r.job fun x => { x with skip := 1 }

/-- R80: a skip, then the coupon. -/
def skipThenGood (r : Report) (next serial : Nat) (s : State) : State :=
  let t := skipRange r next serial s
  if r.record.skip = 0 then couponTaken r serial (firstSkip r next serial t)
  else
    let t := movePack r.pack (takeCoupon serial) t
    let t := t.modJob r.job fun x => { x with good := x.good ++ [serial] }
    stopFault r.printer .serialOrder (some serial) t

/-- Step 2 of R81: the blank at next is spoiled. -/
def spoilBad (r : Report) (serial : Nat) (s : State) : State :=
  let t := movePack r.pack spoilNext s
  spoilAt r.printer (spoilEntry serial 1 .printBad (some r.printer) r.record.session none t) t

/-- Step 3 of R81, when no second skip was found. -/
def badPrint (r : Report) (serial : Nat) (s : State) : State :=
  let t := spoilBad r serial s
  if r.record.bad = 0 then printNext r.printer r.coupon (t.modJob r.job fun x => { x with bad := 1 })
  else stopFault r.printer .headFault none t

/-- R81 with a skip. -/
def skipThenBad (r : Report) (next serial : Nat) (s : State) : State :=
  let t := skipRange r next serial s
  if r.record.skip = 0 then badPrint r serial (firstSkip r next serial t)
  else stopFault r.printer .serialOrder (some serial) (spoilBad r serial t)

/-- R78: the report compared with the pack; the first row that matches decides. -/
def accountReport (r : Report) (k : Pack) (serial : Nat) (good : Bool) (s : State) : State :=
  if serial = 0 then badPrint r k.next s
  else if serial = k.next ∧ serial ≤ k.last then
    if good then couponTaken r serial s else badPrint r serial s
  else if k.next < serial ∧ serial ≤ k.last then
    if good then skipThenGood r k.next serial s else skipThenBad r k.next serial s
  else stopFault r.printer .serialOrder (some serial) s

/-- R29: the report of coupon `k`: its timer stops and it is no longer outstanding, and serial accounting compares
it. -/
def couponReport (p : PrinterId) (k serial : Nat) (good : Bool) (s : State) : State :=
  let t := s.modPrinter p fun c =>
    { c with couponTimer := false, outstanding := none, unconfirmed := false, command := .none, declined := 0 }
  match (s.printer p).job, s.loadedAt p with
  | some j, some i =>
    match s.job j, s.pack i with
    | some x, some pk => accountReport { printer := p, pack := i, job := j, record := x, coupon := k } pk serial good t
    | _, _ => t
  | _, _ => t

/-! ### A late report (R86) -/

/-- The blank at next is spoiled, by its outcome. -/
def lateBlank (p : PrinterId) (i : PackIx) (serial : Nat) (good : Bool) (session fault : Option Nat) (s : State) :
    State :=
  let t := movePack i spoilNext s
  spoilAt p (spoilEntry serial 1 (if good then .abandoned else .printBad) (some p) session fault t) t

/-- The blanks passed before a late report are spoiled. -/
def lateSkip (p : PrinterId) (i : PackIx) (next serial : Nat) (session fault : Option Nat) (s : State) : State :=
  let t := movePack i (skipTo serial) s
  let t := spoilAt p (spoilEntry next (serial - next) .skipped (some p) session fault t) t
  raise .serialSkip (some p) (some (serial - next)) t

/-- R86. Where the pack has no blank left at next, no row but the last can be applied (log entry 16). -/
def lateReport (p : PrinterId) (serial : Nat) (good : Bool) (s : State) : State :=
  let record := s.stopRecord p
  let session := record.bind fun r => r.session
  let fault := record.map fun r => r.number
  match s.loadedAt p with
  | none => stopFault p .serialOrder (some serial) s
  | some i =>
    match s.pack i with
    | none => stopFault p .serialOrder (some serial) s
    | some k =>
      if k.last < k.next then stopFault p .serialOrder (some serial) s
      else if serial = 0 then lateBlank p i k.next false session fault s
      else if serial = k.next then lateBlank p i serial good session fault s
      else if k.next < serial ∧ serial ≤ k.last then
        lateBlank p i serial good session fault (lateSkip p i k.next serial session fault s)
      else stopFault p .serialOrder (some serial) s

end Sys2Proof.Machine
end

