-- ==== Sys2Proof/Machine/Sessions.lean ====
section
/-! DEFINITION. The session table and the authorisation slots: OPEN SESSION, CLOSE SESSION, FORCE CLOSE, VOID, REFUND,
ANSWER, the expiry of an authorisation and QUERY SESSION (R121 to R143). -/

namespace Sys2Proof.Machine

/-! ### The window a request is for -/

/-- The port's own window, or the one the supervisor names. -/
def requestWindow (p : Port) (w : Option Nat) : Option Window :=
  match p with
  | .win x => some x
  | .sup => w.bind toWindow

/-- As above; the supervisor's must be configured as present (check 0 of R54, check 1 of R125 and R132). -/
def State.presentWindow (s : State) (p : Port) (w : Option Nat) : Option Window :=
  match p with
  | .win x => some x
  | .sup => (w.bind toWindow).filter fun x => s.windowPresent x

/-- The refusal of a window that has no OPEN session. -/
def noOpenSession (s : State) (w : Window) : Verdict :=
  if (s.windowSession w .closing).isSome then .refuse .sessionState else .refuse .noSession

/-! ### Opening (R121, R123, R125) -/

def State.sessionNumbers (s : State) : List Nat := allSessions.filterMap fun i => (s.session i).map fun x => x.number

/-- R123: the counter after an opening. -/
def nextSessionNumber (s : State) : Nat :=
  advanceNumber (s.sessionNumbers.length + 1) s.sessionNumbers s.sessionCounter

/-- R121: the record that OPEN SESSION makes. -/
def newSession (w : Window) (clerk float : Nat) (s : State) : Session :=
  { number := s.sessionCounter, window := w, clerk := clerk, state := .opened, forced := false, float := float,
    openedAt := s.clock, closedAt := none, sales := allTenders 0, refunds := allTenders 0,
    clamped := allTenders false, tickets := 0, coupons := 0, voids := 0, voidsAmount := 0, refundsCount := 0,
    spoiltVoided := 0, spoiltAbandoned := 0, spoiltBad := 0, declaration := none, results := none, recounts := 0 }

/-- The new record in its place, and the counter moved on. -/
def addSession (i : SessionIx) (w : Window) (clerk float : Nat) (s : State) : State :=
  let t := s.setSession i (some (newSession w clerk float s))
  { t with sessionCounter := nextSessionNumber t }

/-- R125. -/
def openSessionAct (p : Port) (clerk float : Nat) (w : Option Nat) (s : State) : Verdict :=
  match s.presentWindow p w with
  | none => .refuse .outOfRange
  | some x =>
    if s.mode = .night then .refuse .officeClosed
    else if 9999 < clerk ∨ 10000000 < float then .refuse .outOfRange
    else if (s.windowSession x .opened).isSome ∨ (s.windowSession x .closing).isSome then .refuse .already
    else match lowestFree s.sessions with
      | none => .refuse .tableFull
      | some i => .done (addSession i x clerk float s) (.opened s.sessionCounter)

/-- OPEN_SESSION (R125). -/
def execOpenSession (p : Port) (h : Header) (clerk float : Nat) (w : Option Nat) (s : State) :
    Host.Outcome State Fault Refusal :=
  .next (takeRequest p h (.openSession p h clerk float w) (openSessionAct p clerk float w) s)

/-! ### Closing (R70, R140 to R142) -/

/-- A job leaves a printer's queue (R59). -/
def leaveQueue (j : JobNo) (p : PrinterId) (s : State) : State :=
  s.modPrinter p fun c => { c with queue := c.queue.filter fun x => x != j }

/-- R70: one QUEUED job of the session is cancelled. -/
def cancelForClose (n : Nat) (s : State) (j : JobNo) : State :=
  match s.job j with
  | none => s
  | some x =>
    if x.session == some n && x.state == .queued then
      freeJob j (notify x.port (.jobCancelled x.tag j x.printer) (leaveQueue j x.printer s))
    else s

/-- R140: the order of a close. The printers whose queues were shortened look at their heads when every job has been
cancelled. DESIGN CHOICE, unsafe: log entry 13. -/
def closeSession (i : SessionIx) (s : State) : State :=
  match s.session i with
  | none => s
  | some x =>
    let s1 := endAuthorisation x.window .withdrawn s
    let s2 := modSession i (fun y => { y with state := .closing, closedAt := some s.clock }) s1
    let s3 := allJobs.foldl (cancelForClose x.number) s2
    let s4 := jobLeft x.number s3
    allPrinters.foldl (fun t p => queueShortened p (s.printer p).queue.head? t) s4

/-- What the reply to a close says of the session. -/
def closedView (i : SessionIx) (s : State) : Results :=
  match s.session i with
  | some x => .closed x.number x.state (s.liveJobs x.number)
  | none => .none

/-- R140. -/
def closeSessionAct (p : Port) (w : Option Nat) (s : State) : Verdict :=
  match requestWindow p w with
  | none => .refuse .outOfRange
  | some x =>
    match s.windowSession x .opened with
    | none => noOpenSession s x
    | some i => .done (closeSession i s) (closedView i (closeSession i s))

/-- CLOSE_SESSION (R140). -/
def execCloseSession (p : Port) (h : Header) (w : Option Nat) (s : State) : Host.Outcome State Fault Refusal :=
  .next (takeRequest p h (.closeSession p h w) (closeSessionAct p w) s)

/-- R142, the effect: the forced marker, and from OPEN a close. -/
def forceCloseAt (i : SessionIx) (s : State) : State :=
  let t := modSession i (fun y => { y with forced := true }) s
  match s.session i with
  | some x => if x.state = .opened then closeSession i t else t
  | none => t

/-- R142. -/
def forceCloseAct (n : Nat) (s : State) : Verdict :=
  if !numberOk n then .refuse .outOfRange
  else match s.sessionOf n with
    | none => .refuse .notFound
    | some i =>
      match s.session i with
      | none => .refuse .notFound
      | some x =>
        if x.state = .reconciled then .refuse .sessionState
        else if x.forced then .refuse .already
        else
          let t := forceCloseAt i s
          .done t (.forceClosed (match t.session i with
            | some y => y.state
            | none => x.state))

/-- FORCE_CLOSE (R142). -/
def execForceClose (p : Port) (h : Header) (session : Nat) (s : State) : Host.Outcome State Fault Refusal :=
  .next (takeRequest p h (.forceClose p h session) (forceCloseAct session) s)

/-! ### Referral (R135) -/

/-- A referral fills the window's slot, marks the entry of a REFUND that was found, and tells S. -/
def refer (w : Window) (a : AuthSlot) (entry : Option IssueEntry) (s : State) : State :=
  let t := s.setSlot w (some a)
  let t := if a.kind == .refund && a.found then setIssueState a.serial .refundPending t else t
  notify .sup (.authorisationWanted w a entry) t

/-- The slot that a referral fills. -/
def slotFor (kind : AuthKind) (serial amount : Nat) (tender : Tender) (session : Nat) (found : Bool) (s : State) :
    AuthSlot :=
  { kind := kind, serial := serial, found := found, amount := amount, tender := tender, session := session,
    raised := s.clock, duration := s.params.authTime }

/-! ### Voids (R130, R131) -/

/-- R130: the clock reading less the issue time, modulo a day. -/
def ticketAge (s : State) (e : IssueEntry) : Nat := (s.clock + Config.daySeconds - e.time) % Config.daySeconds

/-- Checks 7 of R130 and R132: a pending LATE_VOID of any window names the entry. -/
def State.lateVoidPending (s : State) (e : IssueEntry) : Bool :=
  allWindows.any fun w => match s.slot w with
    | some a => a.kind == .lateVoid && e.serials.contains a.serial
    | none => false

/-- R92: the spoil entries a void of the ticket makes. -/
def voidRuns (e : IssueEntry) : List (Nat × Nat) := runsOf (ascending e.serials)

/-- R92: the blanks of a voided ticket. -/
def spoilVoided (e : IssueEntry) (s : State) : State :=
  let s := (voidRuns e).foldl (fun t r => spoilUnreserved
    (spoilEntry r.1 r.2 .voided none (some e.session) none t) t) s
  let s := match s.packOf (e.serials.headD 0) with
    | some i => movePack i (voidBlanks e.serials.length) s
    | none => s
  setIssueState (e.serials.headD 0) .voided s

/-- R131, steps 2 to 4: what the session takes of a void. -/
def takeVoid (e : IssueEntry) (x : Session) : Session :=
  let y := subSales e.tender e.fare x
  { y with voids := sat16 y.voids 1, voidsAmount := satAdd Config.maxMoney y.voidsAmount e.fare,
           spoiltVoided := sat16 y.spoiltVoided e.serials.length }

/-- R131. -/
def postVoid (e : IssueEntry) (s : State) : State :=
  let t := spoilVoided e s
  match t.sessionOf e.session with
  | some i => modSession i (takeVoid e) t
  | none => t

/-- Checks 5 to 11 of R130, with the window's OPEN session for a window. -/
def voidChecked (own : Option (Window × Session)) (serial : Nat) (s : State) : Verdict :=
  match s.issueOf serial with
  | none => .refuse .notFound
  | some e =>
    if e.state ≠ .issued then .refuse .already
    else if s.lateVoidPending e then .refuse .pending
    else
      let late := decide (s.params.voidWindow < ticketAge s e)
      let post : Verdict :=
        if s.unreserved < (voidRuns e).length then .refuse .listFull
        else .done (postVoid e s) (.voided e.serials e.fare e.tender (voidRuns e).length)
      match own with
      | some (w, x) =>
        if e.session ≠ x.number then .refuse .sessionState
        else if late then
          if (s.slot w).isSome then .refuse .pending
          else .referred (refer w (slotFor .lateVoid serial e.fare e.tender x.number true s) (some e) s)
            (.referred serial .lateVoid s.params.authTime)
        else post
      | none =>
        match (s.sessionOf e.session).bind s.session with
        | some x => if x.state = .opened then post else .refuse .sessionState
        | none => .refuse .sessionState

/-- R130. -/
def voidAct (p : Port) (serial : Nat) (s : State) : Verdict :=
  if s.mode = .night then .refuse .officeClosed
  else match p with
    | .win w =>
      if s.hold w then .refuse .held
      else if !serialOk serial then .refuse .outOfRange
      else match (s.windowSession w .opened).bind s.session with
        | none => noOpenSession s w
        | some x => voidChecked (some (w, x)) serial s
    | .sup => if !serialOk serial then .refuse .outOfRange else voidChecked none serial s

/-- VOID (R130). -/
def execVoidTicket (p : Port) (h : Header) (serial : Nat) (s : State) : Host.Outcome State Fault Refusal :=
  .next (takeRequest p h (.voidTicket p h serial) (voidAct p serial) s)

/-! ### Refunds (R132, R133) -/

/-- R133, steps 1 and 2: what the paying session takes of a refund. -/
def takeRefund (t : Tender) (amount : Nat) (x : Session) : Session :=
  let y := addRefunds t amount x
  { y with refundsCount := sat16 y.refundsCount 1 }

/-- R133. -/
def postRefund (session serial amount : Nat) (t : Tender) (found : Bool) (s : State) : State :=
  let s := match s.sessionOf session with
    | some i => modSession i (takeRefund t amount) s
    | none => s
  if found then setIssueState serial .refunded s else s

/-- The table of R132: posted, or referred. -/
def refundDecided (p : Port) (w : Window) (x : Session) (serial amount : Nat) (t : Tender) (entry : Option IssueEntry)
    (s : State) : Verdict :=
  let post : Verdict := .done (postRefund x.number serial amount t entry.isSome s) (.refunded serial amount t x.number)
  match p with
  | .sup => post
  | .win _ =>
    if entry.isSome ∧ amount ≤ s.params.refundLimit then post
    else if (s.slot w).isSome then .refuse .pending
    else .referred (refer w (slotFor .refund serial amount t x.number entry.isSome s) entry s)
      (.referred serial .refund s.params.authTime)

/-- R132. -/
def refundAct (p : Port) (serial amount tender : Nat) (w : Option Nat) (s : State) : Verdict :=
  match s.presentWindow p w with
  | none => .refuse .outOfRange
  | some x =>
    if s.mode = .night then .refuse .officeClosed
    else if s.hold x then .refuse .held
    else match toTender tender with
      | none => .refuse .outOfRange
      | some t =>
        if !serialOk serial ∨ amount = 0 ∨ 999999 < amount then .refuse .outOfRange
        else match (s.windowSession x .opened).bind s.session with
          | none => noOpenSession s x
          | some y =>
            match s.issueOf serial with
            | none => refundDecided p x y serial amount t none s
            | some e =>
              if e.state ≠ .issued then .refuse .already
              else if s.lateVoidPending e then .refuse .pending
              else if e.fare < amount then .refuse .exceedsFare
              else if t ≠ e.tender then .refuse .tenderMismatch
              else refundDecided p x y serial amount t (some e) s

/-- REFUND (R132). -/
def execRefund (p : Port) (h : Header) (serial amount tender : Nat) (w : Option Nat) (s : State) :
    Host.Outcome State Fault Refusal :=
  .next (takeRequest p h (.refund p h serial amount tender w) (refundAct p serial amount tender w) s)

/-! ### Answers and expiry (R136, R137) -/

/-- R136: what an approval posts. -/
def approve (w : Window) (a : AuthSlot) (s : State) : State :=
  match a.kind with
  | .refund => postRefund a.session a.serial a.amount a.tender a.found (emptySlot w true s)
  | .lateVoid =>
    match s.issueOf a.serial with
    | some e => postVoid e (emptySlot w true s)
    | none => emptySlot w true s

/-- Check 3 of R136: an approved late void needs the spoil entries of its ticket. -/
def lacksVoidSpace (a : AuthSlot) (s : State) : Bool :=
  a.kind == .lateVoid && match s.issueOf a.serial with
    | some e => decide (s.unreserved < (voidRuns e).length)
    | none => false

/-- R136. -/
def answerAct (window serial decision : Nat) (s : State) : Verdict :=
  match toWindow window, toFlag decision with
  | some w, some declined =>
    match s.slot w with
    | none => .refuse .tooLate
    | some a =>
      if a.serial ≠ serial then .refuse .tooLate
      else if declined then
        .done (sendAnswer w a .declined (emptySlot w false s)) (.answered w serial false)
      else if lacksVoidSpace a s then .refuse .listFull
      else .done (sendAnswer w a .approved (approve w a s)) (.answered w serial true)
  | _, _ => .refuse .outOfRange

/-- ANSWER (R136). -/
def execAnswer (p : Port) (h : Header) (window serial decision : Nat) (s : State) :
    Host.Outcome State Fault Refusal :=
  .next (takeRequest p h (.answer p h window serial decision) (answerAct window serial decision) s)

/-- AUTHORISATION_EXPIRY (R137): the slot's timer runs out; of an empty slot none runs (log entry 2). -/
def execAuthorisationExpiry (w : Window) (s : State) : Host.Outcome State Fault Refusal :=
  .next (whenLive (endAuthorisation w .expired) s)

/-! ### QUERY SESSION (R143) -/

/-- What a window sees of a slot. -/
def slotBrief (a : AuthSlot) : SlotBrief :=
  { kind := a.kind, serial := a.serial, amount := a.amount, tender := a.tender, raised := a.raised }

/-- What a window sees of a session: nothing of what the till should hold. -/
def sessionBrief (x : Session) (s : State) : SessionBrief :=
  { number := x.number, window := x.window, clerk := x.clerk, state := x.state, forced := x.forced, float := x.float,
    openedAt := x.openedAt, closedAt := x.closedAt, tickets := x.tickets, coupons := x.coupons, voids := x.voids,
    refundsCount := x.refundsCount, live := s.liveJobs x.number, recounts := x.recounts,
    slot := (s.slot x.window).map slotBrief }

/-- R143, for a number. -/
def querySessionNumbered (p : Port) (n : Nat) (s : State) : Verdict :=
  if !numberOk n then .refuse .outOfRange
  else match (s.sessionOf n).bind s.session with
    | none => .refuse .notFound
    | some x =>
      match p with
      | .win w => if x.window = w then .done s (.sessionBrief (sessionBrief x s)) else .refuse .notPermitted
      | .sup => .done s (.session x (s.liveJobs n) (s.slot x.window))

/-- R143, for a window that gives no number. -/
def querySessionOwn (w : Window) (s : State) : Verdict :=
  match ((s.windowSession w .opened).or (s.windowSession w .closing)).bind s.session with
  | none => .refuse .noSession
  | some x => .done s (.sessionBrief (sessionBrief x s))

/-- R143. -/
def querySessionAct (p : Port) (number : Option Nat) (s : State) : Verdict :=
  match number, p with
  | some n, _ => querySessionNumbered p n s
  | none, .win w => querySessionOwn w s
  | none, .sup => .refuse .badRequest

/-- QUERY_SESSION (R143). -/
def execQuerySession (p : Port) (h : Header) (number : Option Nat) (s : State) : Host.Outcome State Fault Refusal :=
  .next (takeRequest p h (.querySession p h number) (querySessionAct p number) s)

end Sys2Proof.Machine
end

