-- ==== Sys2Proof/Machine/CashUp.lean ====
section
/-! DEFINITION. Cash-up reconciliation: DECLARE, RECOUNT and CASH-UP REPORT with retire (R146 to R161). -/

namespace Sys2Proof.Machine

/-! ### The computation (R149 to R154) -/

/-- R149: the expected amount. The float is expected back in cash. -/
def expectedAmount (x : Session) (t : Tender) : Int :=
  (if t = .cash then (x.float : Int) else 0) + x.sales.of t - x.refunds.of t

/-- R151: the larger of the floor and the rate term. -/
def toleranceOf (a r : Nat) (e : Int) : Nat := max a (e.natAbs * r / 10000)

/-- R152: the first row that applies. -/
def classOf (clamped : Bool) (v : Int) (tol : Nat) : TenderClass :=
  if clamped then .limit
  else if -(tol : Int) ≤ v ∧ v ≤ tol then .balanced
  else if v < -(tol : Int) then .short
  else .overs

/-- The results of one tender. -/
def reconcileTender (q : Params) (x : Session) (declared : PerTender Nat) (t : Tender) : TenderResult :=
  let e := expectedAmount x t
  let v := (declared.of t : Int) - e
  let tol := toleranceOf (q.floors.of t) (q.rates.of t) e
  { expected := e, variance := v, tolerance := tol, verdict := classOf (x.clamped.of t) v tol }

/-- A table filled tender by tender. -/
def perTender {α : Type} (f : Tender → α) : PerTender α :=
  { cash := f .cash, card := f .card, warrant := f .warrant, voucher := f .voucher }

/-- R153: the expected spoiled documents. -/
def expectedDocs (x : Session) : Nat := x.spoiltVoided + x.spoiltAbandoned + x.spoiltBad

/-- R153. -/
def docClassOf (declared expected : Nat) : DocClass :=
  if declared = expected then .stockOk else if declared < expected then .stockShort else .stockOver

/-- Whether any tender has this class. -/
def anyTender (r : PerTender TenderResult) (c : TenderClass) : Bool :=
  r.cash.verdict == c || r.card.verdict == c || r.warrant.verdict == c || r.voucher.verdict == c

/-- R154: the first that applies. -/
def outcomeOf (r : PerTender TenderResult) (d : DocClass) : SessionOutcome :=
  if anyTender r .limit then .refer
  else if anyTender r .short || d == .stockShort then .short
  else if anyTender r .overs || d == .stockOver then .overs
  else .balanced

/-- Step 2 of R148: the results of a declaration. -/
def reconcile (q : Params) (x : Session) (d : Declaration) : CashUp :=
  let r := perTender (reconcileTender q x d.amounts)
  let docs := docClassOf d.docs (expectedDocs x)
  { tenders := r, expectedDocs := expectedDocs x, docs := docs, outcome := outcomeOf r docs }

/-! ### DECLARE (R147, R148, R155) -/

/-- Steps 1 to 3 of R148. -/
def declareSession (q : Params) (d : Declaration) (x : Session) : Session :=
  { x with declaration := some d, results := some (reconcile q x d), state := .reconciled }

/-- R155. -/
def cashUpReady (x : Session) (d : Declaration) (c : CashUp) : Notice :=
  .cashUpReady x.number x.window x.clerk x.forced x.recounts d.declaredBy d.docs c

/-- What the reply to DECLARE carries: the results only to the supervisor. -/
def declareView (p : Port) (x : Session) (d : Declaration) (c : CashUp) : Results :=
  .declared x.number .reconciled x.recounts (match p with
    | .win _ => none
    | .sup => some (d, c))

/-- R148. -/
def postDeclare (i : SessionIx) (x : Session) (d : Declaration) (s : State) : State :=
  notify .sup (cashUpReady x d (reconcile s.params x d)) (s.setSession i (some (declareSession s.params d x)))

/-- Check 3 of R147. -/
def declareBarred (p : Port) (x : Session) : Bool :=
  match p with
  | .win w => x.window != w || x.forced
  | .sup => false

/-- R147. -/
def declareAct (p : Port) (n : Nat) (amounts : PerTender Nat) (docs : Nat) (s : State) : Verdict :=
  if !numberOk n ∨ Config.maxMoney < amounts.cash ∨ Config.maxMoney < amounts.card ∨ Config.maxMoney < amounts.warrant
      ∨ Config.maxMoney < amounts.voucher ∨ 999 < docs then .refuse .outOfRange
  else match s.sessionOf n with
    | none => .refuse .notFound
    | some i =>
      match s.session i with
      | none => .refuse .notFound
      | some x =>
        if declareBarred p x then .refuse .notPermitted
        else if x.state ≠ .counting then .refuse .sessionState
        else
          let d : Declaration := { amounts := amounts, docs := docs, declaredBy := p, time := s.clock }
          .done (postDeclare i x d s) (declareView p x d (reconcile s.params x d))

/-- DECLARE (R147). -/
def execDeclare (p : Port) (h : Header) (session cash card warrant voucher docs : Nat) (s : State) :
    Host.Outcome State Fault Refusal :=
  .next (takeRequest p h (.declare p h session cash card warrant voucher docs)
    (declareAct p session { cash := cash, card := card, warrant := warrant, voucher := voucher } docs) s)

/-! ### RECOUNT (R157) -/

/-- A session sent back to be counted again. -/
def recountSession (x : Session) : Session :=
  { x with recounts := x.recounts + 1, results := none, state := .counting }

/-- R157. -/
def recountAct (n : Nat) (s : State) : Verdict :=
  if !numberOk n then .refuse .outOfRange
  else match s.sessionOf n with
    | none => .refuse .notFound
    | some i =>
      match s.session i with
      | none => .refuse .notFound
      | some x =>
        if x.state ≠ .reconciled then .refuse .sessionState
        else if 2 ≤ x.recounts then .refuse .limit
        else .done (s.setSession i (some (recountSession x))) (.recounted n .counting (x.recounts + 1))

/-- RECOUNT (R157). -/
def execRecount (p : Port) (h : Header) (session : Nat) (s : State) : Host.Outcome State Fault Refusal :=
  .next (takeRequest p h (.recount p h session) (recountAct session) s)

/-! ### CASH-UP REPORT (R159 to R161) -/

/-- R161: 1 to the sessions retired under the outcome. -/
def countOutcome (o : SessionOutcome) (d : Summary) : Summary :=
  match o with
  | .balanced => { d with retiredBalanced := addTotal d.retiredBalanced 1 }
  | .short => { d with retiredShort := addTotal d.retiredShort 1 }
  | .overs => { d with retiredOver := addTotal d.retiredOver 1 }
  | .refer => { d with retiredRefer := addTotal d.retiredRefer 1 }

/-- R161: the session's figures added to the day. -/
def retireInto (x : Session) (dec : Declaration) (c : CashUp) (d : Summary) : Summary :=
  countOutcome c.outcome { d with
    sales := PerTender.zip addTotal d.sales x.sales,
    refunds := PerTender.zip addTotal d.refunds x.refunds,
    declared := PerTender.zip addTotal d.declared dec.amounts,
    variance := PerTender.zip (fun a (r : TenderResult) => addVariance a r.variance) d.variance c.tenders }

/-- R160: the fault records whose affected session is `n` name a session that is retired (log entry 48). -/
def endSession (n : Nat) (s : State) : State :=
  { s with faults := s.faults.map fun r => if r.session = some n then { r with sessionOver := true } else r }

/-- R160: the figures go to the day, and the record is freed. -/
def retireSession (i : SessionIx) (x : Session) (s : State) : State :=
  let t := match x.declaration, x.results with
    | some dec, some c => addDay (retireInto x dec c) s
    | _, _ => s
  endSession x.number (t.setSession i none)

/-- R159, R160. -/
def cashUpReportAct (n retire : Nat) (s : State) : Verdict :=
  match toFlag retire with
  | none => .refuse .outOfRange
  | some out =>
    if !numberOk n then .refuse .outOfRange
    else match s.sessionOf n with
      | none => .refuse .notFound
      | some i =>
        match s.session i with
        | none => .refuse .notFound
        | some x =>
          if !out then .done s (.cashUp x (s.liveJobs n))
          else if x.state ≠ .reconciled then .refuse .sessionState
          else .done (retireSession i x s) (.cashUp x (s.liveJobs n))

/-- CASH_UP_REPORT (R159). -/
def execCashUpReport (p : Port) (h : Header) (session retire : Nat) (s : State) :
    Host.Outcome State Fault Refusal :=
  .next (takeRequest p h (.cashUpReport p h session retire) (cashUpReportAct session retire) s)

end Sys2Proof.Machine
end

