-- ==== Sys2Proof/Machine/Stock.lean ====
section
/-! DEFINITION. The stock register's requests: RECEIVE PACK, LOAD PACK, UNLOAD PACK, RETURN PACK, WRITE OFF and QUERY
PACK (R1 to R20). -/

namespace Sys2Proof.Machine

/-! ### RECEIVE PACK (R6) -/

/-- Whether the ranges first to last and first' to last' share a serial. -/
def meets (a b c d : Nat) : Bool := decide (a ≤ d) && decide (c ≤ b)

/-- Check 2 of R6: a pack record in use holds a serial of the range. -/
def State.packMeets (s : State) (a b : Nat) : Bool :=
  allPacks.any fun i => match s.pack i with
    | some k => meets a b k.first k.last
    | none => false

/-- Check 3 of R6: a spoil or issue entry holds a serial of the range. -/
def State.listsMeet (s : State) (a b : Nat) : Bool :=
  (s.spoils.any fun e => decide (0 < e.count) && meets a b e.first (e.first + e.count - 1)) ||
    s.issues.any fun e => e.serials.any fun n => decide (a ≤ n) && decide (n ≤ b)

/-- The record that RECEIVE PACK makes. -/
def newPack (a b : Nat) (s : State) : Pack :=
  { first := a, last := b, next := a, issued := 0, spoiled := 0, returned := 0, inPrint := [], state := .inStore,
    printer := none, prior := none, day := s.day, time := s.clock }

/-- Check 1 of R6. -/
def rangeOk (a b : Nat) : Bool := serialOk a && serialOk b && decide (a ≤ b) && decide (b + 1 - a ≤ Config.maxPack)

/-- R6. -/
def receivePackAct (a b : Nat) (s : State) : Verdict :=
  if !rangeOk a b then .refuse .outOfRange
  else if s.packMeets a b then .refuse .overlap
  else if s.listsMeet a b then .refuse .overlap
  else match lowestFree s.packs with
    | none => .refuse .tableFull
    | some i =>
      .done (addDay (fun d => { d with packsReceived := addTotal d.packsReceived 1 })
        (s.setPack i (some (newPack a b s)))) (.received i (b + 1 - a))

/-- RECEIVE_PACK (R6). -/
def execReceivePack (p : Port) (h : Header) (first last : Nat) (s : State) : Host.Outcome State Fault Refusal :=
  .next (takeRequest p h (.receivePack p h first last) (receivePackAct first last) s)

/-! ### LOAD PACK (R7, R8) -/

/-- Check 1 of R7 and of R14: a window may handle stock only where the office allows it, at its primary printer. -/
def State.stockBarred (s : State) (p : Port) (printer : Nat) : Bool :=
  match p with
  | .win w => !s.params.stockHandling || (s.pair w).primary.val != printer
  | .sup => false

/-- Check 5 of R7. -/
def State.loadBarred (s : State) (q : PrinterId) : Bool :=
  (match (s.printer q).state with
    | .unloaded | .outOfService | .faulted => false
    | _ => true)
  || (s.loadedAt q).isSome || (s.loadingAt q).isSome || (s.printer q).sense == .resync

/-- R8: the pack enters LOADING, and the sense begins. -/
def beginLoad (i : PackIx) (q : PrinterId) (s : State) : State :=
  let t := s.setPack i ((s.pack i).map fun k =>
    { k with prior := some k.state, state := .loading, printer := some q })
  t.modPrinter q fun c =>
    { c with state := if c.state = .unloaded then .sensing else c.state, command := .sense, sense := .load }

/-- R182: the request stays in hand. -/
def putInHand (p : Port) (h : Header) (code : Nat) (op : HandOp) (s : State) : State :=
  s.modPort p fun q =>
    { q with hand := some { op := op, code := code, tag := h.tag, quiet := h.quiet, broken := false } }

/-- R7. -/
def loadPackAct (p : Port) (h : Header) (serial printer : Nat) (s : State) : Verdict :=
  if s.stockBarred p printer then .refuse .notPermitted
  else if !serialOk serial then .refuse .outOfRange
  else match toPrinter printer with
    | none => .refuse .outOfRange
    | some q =>
      match s.packOf serial with
      | none => .refuse .notFound
      | some i =>
        match s.pack i with
        | none => .refuse .notFound
        | some k =>
          if k.state ≠ .inStore ∧ k.state ≠ .partUsed then .refuse .packState
          else if s.loadBarred q then .refuse .printerState
          else .deferred (putInHand p h 0x09 (.load q) (beginLoad i q s))

/-- LOAD_PACK (R7). -/
def execLoadPack (p : Port) (h : Header) (serial printer : Nat) (s : State) : Host.Outcome State Fault Refusal :=
  .next (takeRequest p h (.loadPack p h serial printer) (loadPackAct p h serial printer) s)

/-! ### UNLOAD PACK (R14) -/

/-- Check 3 of R14. -/
def State.unloadBarred (s : State) (q : PrinterId) : Bool :=
  (match (s.printer q).state with
    | .printing | .draining | .sensing | .probe => true
    | _ => false)
  || (s.printer q).sense == .resync

/-- The pack as it comes out of the printer. No printer it comes out of has a job in print, so that nothing is in
print; a serial that were would count as spoiled (log entry 29). -/
def takenOut (k : Pack) : Pack :=
  { k with state := if k.remaining = 0 then .exhausted else .partUsed, printer := none, inPrint := [],
           spoiled := k.spoiled + k.inPrint.length }

/-- R20: a pack that has become EXHAUSTED is counted. -/
def countExhausted (k : Pack) (s : State) : State :=
  if k.state = .exhausted then addDay (fun d => { d with packsExhausted := addTotal d.packsExhausted 1 }) s else s

/-- R14, the effect. -/
def unloadAt (i : PackIx) (k : Pack) (q : PrinterId) (s : State) : State :=
  let t := countExhausted (takenOut k) (s.setPack i (some (takenOut k)))
  if (s.printer q).state = .ready then clearWaiting q (t.modPrinter q fun c => { c with state := .unloaded }) else t

/-- R14. -/
def unloadPackAct (p : Port) (printer : Nat) (s : State) : Verdict :=
  if s.stockBarred p printer then .refuse .notPermitted
  else match toPrinter printer with
    | none => .refuse .outOfRange
    | some q =>
      if s.unloadBarred q then .refuse .printerState
      else match s.loadedAt q with
        | none => .refuse .packState
        | some i =>
          match s.pack i with
          | none => .refuse .packState
          | some k =>
            if !(s.printer q).queue.isEmpty then .refuse .queueNotEmpty
            else .done (unloadAt i k q s) (.unloaded i (takenOut k).state k.remaining)

/-- UNLOAD_PACK (R14). -/
def execUnloadPack (p : Port) (h : Header) (printer : Nat) (s : State) : Host.Outcome State Fault Refusal :=
  .next (takeRequest p h (.unloadPack p h printer) (unloadPackAct p printer) s)

/-! ### RETURN PACK (R15) -/

def returnedPack (k : Pack) : Pack :=
  { k with returned := k.returned + k.remaining, next := k.last + 1, state := .returned }

/-- R15. -/
def returnPackAct (serial : Nat) (s : State) : Verdict :=
  if !serialOk serial then .refuse .outOfRange
  else match s.packOf serial with
    | none => .refuse .notFound
    | some i =>
      match s.pack i with
      | none => .refuse .notFound
      | some k =>
        match k.state with
        | .returned => .refuse .already
        | .loading | .loaded | .exhausted => .refuse .packState
        | .inStore | .partUsed =>
          .done (addDay (fun d => { d with packsReturned := addTotal d.packsReturned 1 })
            (s.setPack i (some (returnedPack k)))) (.returned i k.remaining)

/-- RETURN_PACK (R15). -/
def execReturnPack (p : Port) (h : Header) (serial : Nat) (s : State) : Host.Outcome State Fault Refusal :=
  .next (takeRequest p h (.returnPack p h serial) (returnPackAct serial) s)

/-! ### WRITE OFF (R16) -/

def writtenOffPack (n : Nat) (k : Pack) : Pack :=
  { k with spoiled := k.spoiled + n, next := k.next + n, state := if k.remaining = n then .exhausted else k.state }

/-- R16, the effect. -/
def writeOffAt (i : PackIx) (k : Pack) (n : Nat) (s : State) : State :=
  let t := spoilUnreserved (spoilEntry k.next n .writtenOff none none none s) s
  countExhausted (writtenOffPack n k) (t.setPack i (some (writtenOffPack n k)))

/-- R16. -/
def writeOffAct (serial n : Nat) (s : State) : Verdict :=
  if !serialOk serial then .refuse .outOfRange
  else match s.packOf serial with
    | none => .refuse .notFound
    | some i =>
      match s.pack i with
      | none => .refuse .notFound
      | some k =>
        if k.state ≠ .inStore ∧ k.state ≠ .partUsed then .refuse .packState
        else if n = 0 ∨ k.remaining < n then .refuse .outOfRange
        else if s.unreserved = 0 then .refuse .listFull
        else .done (writeOffAt i k n s) (.writtenOff i k.next n (k.remaining - n))

/-- WRITE_OFF (R16). -/
def execWriteOff (p : Port) (h : Header) (serial count : Nat) (s : State) : Host.Outcome State Fault Refusal :=
  .next (takeRequest p h (.writeOff p h serial count) (writeOffAct serial count) s)

/-! ### QUERY PACK (R19) -/

/-- The record that the request names; the outer none is a name out of range. -/
def State.packNamed (s : State) : PackName → Option (Option PackIx)
  | .serial n => if serialOk n then some (s.packOf n) else none
  | .index n => if h : n < 32 then some (some ⟨n, h⟩) else none

/-- A window sees only a pack at one of its printers. -/
def State.packHidden (s : State) (p : Port) (k : Pack) : Bool :=
  match p with
  | .sup => false
  | .win w =>
    !((k.state == .loading || k.state == .loaded) && match k.printer with
      | some q => Pair.names (s.pair w) q
      | none => false)

/-- R19. -/
def queryPackAct (p : Port) (name : PackName) (s : State) : Verdict :=
  match s.packNamed name with
  | none => .refuse .outOfRange
  | some none => .refuse .notFound
  | some (some i) =>
    match s.pack i with
    | none => .refuse .notFound
    | some k => if s.packHidden p k then .refuse .notPermitted else .done s (.pack i k (countUsed s.packs))

/-- QUERY_PACK (R19). -/
def execQueryPack (p : Port) (h : Header) (name : PackName) (s : State) : Host.Outcome State Fault Refusal :=
  .next (takeRequest p h (.queryPack p h name) (queryPackAct p name) s)

end Sys2Proof.Machine
end

