-- ==== Sys2Proof/Machine/Configuration.lean ====
section
/-! DEFINITION. The configuration block: the image of the parameter set (R192), SET PARAMETER, SAVE PARAMETERS and the end
of its write (R193 to R196). -/

namespace Sys2Proof.Machine

/-! ### The image (R192) -/

/-- The 80 bytes before the check byte. -/
def imageBytes (q : Params) : List Byte :=
  be1 3 ++ be1 (linkRateCode q.linkRate) ++ be1 q.printers.toNat ++ be2 q.windows.toNat
    ++ (List.finRange 12).flatMap (fun w => be1 (look q.pairs w).primary.val
        ++ be1 (match (look q.pairs w).alternate with
          | some a => a.val
          | none => 255))
    ++ (List.finRange 12).flatMap (fun w => be1 (look q.quotas w).res ++ be1 (look q.quotas w).ceil)
    ++ be2 q.floors.cash ++ be2 q.floors.card ++ be2 q.floors.warrant ++ be2 q.floors.voucher
    ++ be2 q.rates.cash ++ be2 q.rates.card ++ be2 q.rates.warrant ++ be2 q.rates.voucher
    ++ be4 q.refundLimit ++ be2 q.voidWindow ++ be2 q.authTime ++ be2 q.stockLow ++ be1 q.stockHandling.toNat

/-- The image of a parameter set: its bytes and the check byte. -/
def imageOf (q : Params) : List Byte := imageBytes q ++ [-(sumBytes (imageBytes q))]

/-- The number of bytes in an image. -/
def imageSize : Nat := 81

def byteAt (m : List Byte) (i : Nat) : Nat := (m.getD i 0).toNat
def pairAt (m : List Byte) (i : Nat) : Nat := byteAt m i * 256 + byteAt m (i + 1)
def quadAt (m : List Byte) (i : Nat) : Nat := pairAt m i * 65536 + pairAt m (i + 2)

/-- R192: the printer pair of a window, in range. -/
def pairOf (a b : Nat) : Option Pair :=
  match toPrinter a with
  | none => none
  | some p =>
    if b = 255 then some { primary := p, alternate := none }
    else match toPrinter b with
      | some q => if p = q then none else some { primary := p, alternate := some q }
      | none => none

/-- R190: a quota in range. -/
def quotaOk (r c : Nat) : Bool := decide (r ≤ 4) && decide (r ≤ c) && decide (c ≤ 16)

/-- R190: the ranges of the other numbers. -/
def floorOk (n : Nat) : Bool := decide (n ≤ 50000)
def rateOk (n : Nat) : Bool := decide (n ≤ 1000)
def refundLimitOk (n : Nat) : Bool := decide (n ≤ 1000000)
def voidWindowOk (n : Nat) : Bool := decide (n ≤ 3600)
def authTimeOk (n : Nat) : Bool := decide (10 ≤ n) && decide (n ≤ 600)
def stockLowOk (n : Nat) : Bool := decide (n ≤ 500)

/-- The quotas of the image. -/
def quotaAt (m : List Byte) (w : Window) : Quota := { res := byteAt m (29 + 2 * w.val), ceil := byteAt m (30 + 2 * w.val) }

/-- The printer pair of the image, where it is in range. -/
def pairIn (m : List Byte) (w : Window) : Option Pair := pairOf (byteAt m (5 + 2 * w.val)) (byteAt m (6 + 2 * w.val))

/-- R192: the four figures of a tender table, 2 bytes each. -/
def tendersAt (m : List Byte) (i : Nat) : PerTender Nat :=
  { cash := pairAt m i, card := pairAt m (i + 2), warrant := pairAt m (i + 4), voucher := pairAt m (i + 6) }

/-- All four figures of a tender table in range. -/
def tendersOk (f : Nat → Bool) (x : PerTender Nat) : Bool := f x.cash && f x.card && f x.warrant && f x.voucher

/-- R190: every number of a parameter set lies in its range. The numbers that the types bound are not asked. -/
def paramsOk (q : Params) : Bool :=
  allWindows.all (fun w => match (look q.pairs w).alternate with
    | some a => a != (look q.pairs w).primary
    | none => true)
  && allWindows.all (fun w => quotaOk (look q.quotas w).res (look q.quotas w).ceil)
  && tendersOk floorOk q.floors && tendersOk rateOk q.rates && refundLimitOk q.refundLimit
  && voidWindowOk q.voidWindow && authTimeOk q.authTime && stockLowOk q.stockLow

/-- The values of the image, where the fields with named values name one. -/
def imageParams (m : List Byte) : Option Params :=
  match toLinkRate (byteAt m 1), toFlag (byteAt m 79) with
  | some rate, some handling =>
    if byteAt m 3 < 16 ∧ allWindows.all (fun w => (pairIn m w).isSome) then
      some { linkRate := rate, printers := BitVec.ofNat 8 (byteAt m 2), windows := BitVec.ofNat 12 (pairAt m 3),
             pairs := Vector.ofFn fun w => (pairIn m w).getD { primary := 0, alternate := none },
             quotas := Vector.ofFn (quotaAt m), floors := tendersAt m 53, rates := tendersAt m 61,
             refundLimit := quadAt m 69, voidWindow := pairAt m 73, authTime := pairAt m 75, stockLow := pairAt m 77,
             stockHandling := handling }
    else none
  | _, _ => none

/-- R192: the image that the memory holds passes: the memory is there, its format byte is 3, its 81 bytes sum to 0, and
every field is in range. -/
def readImage (memory : Option (List Byte)) : Option Params :=
  match memory with
  | none => none
  | some m =>
    if imageSize ≤ m.length ∧ byteAt m 0 = 3 ∧ sumBytes (m.take imageSize) = 0 then
      (imageParams m).filter paramsOk
    else none

/-- R193: the image that the coming restart reads, where one passes: none from a memory that fails the read, as the next
entry of the input says. With no entry the memory acknowledges every byte (DESIGN CHOICE, unsafe: log entry 50). -/
def State.autoload (s : State) : Option Params := if s.readFails.headD false then none else readImage s.memory

/-! ### SET PARAMETER (R195) -/

/-- The tender table of an index. -/
def floorsWith (t v : Nat) (x : PerTender Nat) : PerTender Nat :=
  match toTender t with
  | some y => x.set y v
  | none => x

/-- Check 1 of R195. -/
def changeOk : ParamChange → Bool
  | .linkRate c => (toLinkRate c).isSome
  | .printersPresent m => decide (m < 256)
  | .windowsPresent m => decide (m < 4096)
  | .quota w r c => (toWindow w).isSome && quotaOk r c
  | .floor t v => (toTender t).isSome && floorOk v
  | .rate t v => (toTender t).isSome && rateOk v
  | .refundLimit v => refundLimitOk v
  | .voidWindow v => voidWindowOk v
  | .authTime v => authTimeOk v
  | .stockLow v => stockLowOk v
  | .stockHandling v => (toFlag v).isSome
  | .other _ _ => false

/-- The figure of an index that is a tender. -/
def tenderFigure (t : Nat) (x : PerTender Nat) : Nat :=
  match toTender t with
  | some y => x.of y
  | none => 0

/-- The value that a change replaces. -/
def replacedBy (q : Params) : ParamChange → ParamChange
  | .linkRate _ => .linkRate (linkRateCode q.linkRate)
  | .printersPresent _ => .printersPresent q.printers.toNat
  | .windowsPresent _ => .windowsPresent q.windows.toNat
  | .quota w r c =>
    match toWindow w with
    | some x => .quota w (look q.quotas x).res (look q.quotas x).ceil
    | none => .quota w r c
  | .floor t _ => .floor t (tenderFigure t q.floors)
  | .rate t _ => .rate t (tenderFigure t q.rates)
  | .refundLimit _ => .refundLimit q.refundLimit
  | .voidWindow _ => .voidWindow q.voidWindow
  | .authTime _ => .authTime q.authTime
  | .stockLow _ => .stockLow q.stockLow
  | .stockHandling _ => .stockHandling q.stockHandling.toNat
  | .other i rest => .other i rest

/-- The running set with the value replaced. -/
def changed (q : Params) : ParamChange → Params
  | .linkRate c => { q with linkRate := (toLinkRate c).getD q.linkRate }
  | .printersPresent m => { q with printers := BitVec.ofNat 8 m }
  | .windowsPresent m => { q with windows := BitVec.ofNat 12 m }
  | .quota w r c =>
    match toWindow w with
    | some x => { q with quotas := put q.quotas x { res := r, ceil := c } }
    | none => q
  | .floor t v => { q with floors := floorsWith t v q.floors }
  | .rate t v => { q with rates := floorsWith t v q.rates }
  | .refundLimit v => { q with refundLimit := v }
  | .voidWindow v => { q with voidWindow := v }
  | .authTime v => { q with authTime := v }
  | .stockLow v => { q with stockLow := v }
  | .stockHandling v => { q with stockHandling := (toFlag v).getD q.stockHandling }
  | .other _ _ => q

/-- Check 2 of R195: a quota changes only in NIGHT with the job table empty. -/
def changeBarred (c : ParamChange) (s : State) : Bool :=
  match c with
  | .quota _ _ _ => s.mode == .opened || decide (0 < countUsed s.jobs)
  | _ => false

/-- R195. -/
def setParameterAct (c : ParamChange) (s : State) : Verdict :=
  if !changeOk c then .refuse .outOfRange
  else if changeBarred c s then .refuse .busy
  else .done { s with params := changed s.params c } (.parameter (replacedBy s.params c))

/-- SET_PARAMETER (R195). -/
def execSetParameter (p : Port) (h : Header) (change : ParamChange) (s : State) :
    Host.Outcome State Fault Refusal :=
  .next (takeRequest p h (.setParameter p h change) (setParameterAct change) s)

/-! ### SAVE PARAMETERS (R194) -/

/-- R194: the write begins, of the set as it stands, and the request stays in hand. -/
def saveParametersAct (p : Port) (h : Header) (s : State) : Verdict :=
  .deferred (putInHand p h 0x35 .save { s with save := some (imageOf s.params) })

/-- SAVE_PARAMETERS (R194). -/
def execSaveParameters (p : Port) (h : Header) (s : State) : Host.Outcome State Fault Refusal :=
  .next (takeRequest p h (.saveParameters p h) (saveParametersAct p h) s)

/-- The memory after a write that was cut off or failed: each byte of the image is the old one or the new one, as the
free value says (log entry 20). -/
def tornMemory (n : Nat) (old new : List Byte) : List Byte :=
  old.mapIdx fun i b => if decide (i < imageSize) && Config.tornByteIsNew n i then new.getD i b else b

/-- R194: a write in hand ends before its end. -/
def cutSave (s : State) : State :=
  match s.save with
  | none => s
  | some new =>
    { s with save := none, memory := s.memory.map fun old => tornMemory s.freeIndex old new,
             freeIndex := s.freeIndex + 1 }

/-- The whole image has been written; the bytes beyond it stay. -/
def writeImage (new : List Byte) (s : State) : State :=
  { s with save := none, memory := some (new ++ (s.memory.getD []).drop imageSize) }

/-- The memory holds the bytes of an image, so that it can acknowledge each of them; an absent one acknowledges none
(R193). -/
def State.memoryTakes (s : State) : Bool :=
  match s.memory with
  | some m => decide (imageSize ≤ m.length)
  | none => false

/-- R194: the write and its read-back end, well or not. A memory that cannot acknowledge every byte gives no good end
(log entry 21). -/
def endSave (good : Bool) (s : State) : State :=
  match s.save with
  | none => s
  | some new =>
    if good && s.memoryTakes then finishHand .save .done .none (writeImage new s)
    else finishHand .save .noResponse .none (cutSave s)

/-- SAVE_COMPLETE (R194). -/
def execSaveComplete (good : Bool) (s : State) : Host.Outcome State Fault Refusal := .next (whenLive (endSave good) s)

end Sys2Proof.Machine
end

