-- ==== Sys2Proof/Machine/Faults.lean ====
section
/-! DEFINITION. The requests on fault records and the spoil list: ACK FAULT, CLOSE FAULT, FAULT READ and SPOIL READ (R94,
R110 to R113). -/

namespace Sys2Proof.Machine

/-! ### ACK FAULT (R110, R111) -/

/-- R111: whether the port may acknowledge the record. -/
def State.mayAcknowledge (s : State) (p : Port) (r : FaultRecord) : Bool :=
  match p with
  | .sup => true
  | .win w =>
    match r.printer, r.window with
    | some _, some x => x == w
    | some q, none => Pair.names (s.pair w) q
    | none, _ => false

/-- R110: an OPEN record is acknowledged. -/
def acknowledge (r : FaultRecord) (s : State) : State :=
  if !r.present || ackRemoves r.latest then recordCleared r s
  else modFault r.number (fun x => { x with state := .acknowledged }) s

/-- R110. -/
def ackFaultAct (p : Port) (n : Nat) (s : State) : Verdict :=
  if !numberOk n then .refuse .outOfRange
  else match s.faultOf n with
    | none => .refuse .notFound
    | some r =>
      if !s.mayAcknowledge p r then .refuse .notPermitted
      else if r.state ≠ .opened then .refuse .already
      else
        let t := acknowledge r s
        .done t (.acknowledged n (match t.faultOf n with
          | some x => x.state
          | none => .cleared))

/-- ACK_FAULT (R110). -/
def execAckFault (p : Port) (h : Header) (number : Nat) (s : State) : Host.Outcome State Fault Refusal :=
  .next (takeRequest p h (.ackFault p h number) (ackFaultAct p number) s)

/-! ### CLOSE FAULT (R112) -/

/-- Check 5 of R112. -/
def State.stopStands (s : State) (r : FaultRecord) : Bool :=
  r.severity == .stop && match r.printer with
    | some q => (s.printer q).state == .faulted
    | none => false

/-- R112. -/
def closeFaultAct (n remedy : Nat) (s : State) : Verdict :=
  if !numberOk n ∨ 255 < remedy then .refuse .outOfRange
  else match s.faultOf n with
    | none => .refuse .notFound
    | some r =>
      match r.state with
      | .closed => .refuse .already
      | .opened | .acknowledged => .refuse .stillOpen
      | .cleared =>
        if s.stopStands r then .refuse .stillOpen
        else .done (modFault n (fun x => { x with state := .closed, remedy := some remedy }) s) (.faultClosed n)

/-- CLOSE_FAULT (R112). -/
def execCloseFault (p : Port) (h : Header) (number remedy : Nat) (s : State) : Host.Outcome State Fault Refusal :=
  .next (takeRequest p h (.closeFault p h number remedy) (closeFaultAct number remedy) s)

/-! ### FAULT READ (R113) -/

/-- The record leaves the log when the retire flag is set. -/
def retireFault (out : Bool) (r : FaultRecord) (s : State) : State :=
  if out then { s with faults := s.faults.filter fun x => x.number != r.number } else s

/-- The reply to FAULT READ: the record, and the counts after the request. -/
def faultReadView (r : Option FaultRecord) (s : State) : Results :=
  .faultRead r s.faults.length (s.faults.countP fun x => x.state != .closed)
    (s.faults.countP fun x => x.state == .closed)

/-- R113. -/
def faultReadAct (retire : Nat) (number : Option Nat) (s : State) : Verdict :=
  match toFlag retire with
  | none => .refuse .outOfRange
  | some out =>
    match number with
    | none =>
      match s.faults.find? fun r => r.state == .closed with
      | none => .done s (faultReadView none s)
      | some r => .done (retireFault out r s) (faultReadView (some r) (retireFault out r s))
    | some n =>
      if !numberOk n then .refuse .outOfRange
      else match s.faultOf n with
        | none => .refuse .notFound
        | some r =>
          if out && r.state != .closed then .refuse .stillOpen
          else .done (retireFault out r s) (faultReadView (some r) (retireFault out r s))

/-- FAULT_READ (R113). -/
def execFaultRead (p : Port) (h : Header) (retire : Nat) (number : Option Nat) (s : State) :
    Host.Outcome State Fault Refusal :=
  .next (takeRequest p h (.faultRead p h retire number) (faultReadAct retire number) s)

/-! ### SPOIL READ (R94) -/

/-- The entries a read returns, the oldest first. -/
def oldestSpoils (s : State) : List SpoilEntry := s.spoils.take 8

/-- The entries returned leave the list, and the space freed is handed on (R90, R45). -/
def retireSpoils (s : State) : State :=
  if s.spoils.isEmpty then s else spaceFreed { s with spoils := s.spoils.drop 8 }

/-- R94. -/
def spoilReadAct (retire : Nat) (s : State) : Verdict :=
  match toFlag retire with
  | none => .refuse .outOfRange
  | some out =>
    let t := if out then retireSpoils s else s
    .done t (.spoils (oldestSpoils s) t.spoils.length t.reserved t.unreserved)

/-- SPOIL_READ (R94). -/
def execSpoilRead (p : Port) (h : Header) (retire : Nat) (s : State) : Host.Outcome State Fault Refusal :=
  .next (takeRequest p h (.spoilRead p h retire) (spoilReadAct retire) s)

end Sys2Proof.Machine
end

