-- ==== Sys2Proof/Machine/Jobs.lean ====
section
/-! DEFINITION. The job table's requests: SELL, TEST PRINT, CANCEL and QUERY JOB (R49 to R62). -/

namespace Sys2Proof.Machine

/-! ### Admission (R50, R53 to R58, R60) -/

/-- R55: the window's primary if it can take the job, else its alternate if it can. -/
def State.route (s : State) (w : Window) : Option PrinterId :=
  if s.canHold (s.pair w).primary then some (s.pair w).primary
  else match (s.pair w).alternate with
    | some q => if s.canHold q then some q else none
    | none => none

/-- R56: the record of a sale that is admitted. -/
def sellJob (p : Port) (w : Window) (tag : Nat) (x : Session) (kind : TicketKind) (coupons fare : Nat) (t : Tender)
    (texts : List (List Byte)) (q : PrinterId) (s : State) : Job :=
  { port := p, window := some w, tag := tag, session := some x.number, kind := kind, coupons := coupons, fare := fare,
    tender := some t, texts := texts, urgent := false, state := .queued, printer := q, nextCoupon := 1, good := [],
    bad := 0, skip := 0, restarts := 0, diverted := false, admitted := s.clock }

/-- R60: the record of a TEST job. -/
def testJob (tag : Nat) (texts : List (List Byte)) (q : PrinterId) (s : State) : Job :=
  { port := .sup, window := none, tag := tag, session := none, kind := .test, coupons := 1, fare := 0, tender := none,
    texts := texts, urgent := true, state := .queued, printer := q, nextCoupon := 1, good := [], bad := 0, skip := 0,
    restarts := 0, diverted := false, admitted := s.clock }

/-- The record comes into use and the job joins the tail of its section (R50, R58). -/
def enqueue (j : JobNo) (x : Job) (s : State) : State :=
  let t := s.setJob j (some x)
  t.modPrinter x.printer fun c => { c with queue := joinTail j x.urgent c.queue t }

/-- The place of a job in its printer's queue, as a reply to an admission gives it. -/
def placeOf (j : JobNo) (q : PrinterId) (s : State) : Nat := (positionIn j (s.printer q).queue).getD 0

/-- R56, R42: admitted, and the printer makes the start check. The reply's figures are those at the admission
(DESIGN CHOICE, unsafe: log entry 10). -/
def admitSale (j : JobNo) (x : Job) (s : State) : Verdict :=
  let t := enqueue j x s
  .done (startCheck x.printer t) (.sold j x.printer (placeOf j x.printer t) (t.inUse x.port))

/-- Checks 5 to 8 of R54. -/
def sellChecked (p : Port) (tag kind coupons fare tender : Nat) (texts : List (List Byte)) (w : Window) (x : Session)
    (s : State) : Verdict :=
  match toTicketKind kind, toTender tender with
  | some k, some t =>
    if !couponsOk k coupons ∨ 999999 < fare ∨ !textsOk texts ∨ tag = 0 then .refuse .outOfRange
    else if (s.jobOfTag p tag).isSome then .refuse .tagInUse
    else if !s.admits p then .refuse .noSlot
    else match s.route w, lowestFree s.jobs with
      | none, _ => .refuse .noPrinter
      | some _, none => .refuse .noSlot
      | some q, some j => admitSale j (sellJob p w tag x k coupons fare t texts q s) s
  | _, _ => .refuse .outOfRange

/-- R54. -/
def sellAct (p : Port) (tag kind coupons fare tender : Nat) (texts : List (List Byte)) (w : Option Nat) (s : State) :
    Verdict :=
  match s.presentWindow p w with
  | none => .refuse .outOfRange
  | some x =>
    if s.mode = .night then .refuse .officeClosed
    else if s.recordsLostOpen then .refuse .notReady
    else if s.hold x then .refuse .held
    else match (s.windowSession x .opened).bind s.session with
      | none => noOpenSession s x
      | some y => sellChecked p tag kind coupons fare tender texts x y s

/-- SELL (R54). -/
def execSell (p : Port) (h : Header) (kind coupons fare tender : Nat) (texts : List (List Byte)) (w : Option Nat)
    (s : State) : Host.Outcome State Fault Refusal :=
  .next (takeRequest p h (.sell p h kind coupons fare tender texts w)
    (sellAct p h.tag kind coupons fare tender texts w) s)

/-- R60. -/
def testPrintAct (tag printer : Nat) (texts : List (List Byte)) (s : State) : Verdict :=
  match toPrinter printer with
  | none => .refuse .outOfRange
  | some q =>
    if !textsOk texts ∨ tag = 0 then .refuse .outOfRange
    else if (s.jobOfTag .sup tag).isSome then .refuse .tagInUse
    else if (s.printer q).state = .absent ∨ (s.printer q).sense = .resync then .refuse .printerState
    else if !s.admits .sup then .refuse .noSlot
    else if !(s.printer q).hasRoom then .refuse .noPrinter
    else match lowestFree s.jobs with
      | none => .refuse .noSlot
      | some j =>
        let t := enqueue j (testJob tag texts q s) s
        .done (startCheck q t) (.tested j q (placeOf j q t))

/-- TEST_PRINT (R60). -/
def execTestPrint (p : Port) (h : Header) (printer : Nat) (texts : List (List Byte)) (s : State) :
    Host.Outcome State Fault Refusal :=
  .next (takeRequest p h (.testPrint p h printer texts) (testPrintAct h.tag printer texts) s)

/-! ### CANCEL (R61) -/

/-- The port whose job is named: the window's own, or the one the supervisor names. -/
def jobPort (p : Port) (n : Option Nat) : Option Port :=
  match p with
  | .win w => some (.win w)
  | .sup => n.bind toPort

/-- R61, the effect on a QUEUED job. -/
def cancelJob (j : JobNo) (x : Job) (s : State) : State :=
  queueShortened x.printer (s.printer x.printer).queue.head? (freeJob j (leaveQueue j x.printer s))

/-- R61. -/
def cancelAct (p : Port) (tag : Nat) (n : Option Nat) (s : State) : Verdict :=
  match jobPort p n with
  | none => .refuse .outOfRange
  | some q =>
    match s.jobOfTag q tag with
    | none => .refuse .notFound
    | some j =>
      match s.job j with
      | none => .refuse .notFound
      | some x =>
        if x.state = .printing then .refuse .tooLate else .done (cancelJob j x s) (.cancelled x.printer)

/-- CANCEL (R61). -/
def execCancel (p : Port) (h : Header) (ofPort : Option Nat) (s : State) : Host.Outcome State Fault Refusal :=
  .next (takeRequest p h (.cancel p h ofPort) (cancelAct p h.tag ofPort) s)

/-! ### QUERY JOB (R62) -/

/-- R62: what the reply tells. -/
def jobView (j : JobNo) (x : Job) (s : State) : JobView :=
  { number := j, port := x.port, window := x.window, tag := x.tag, session := x.session, kind := x.kind,
    coupons := x.coupons, fare := x.fare, tender := x.tender, admitted := x.admitted, state := x.state,
    printer := x.printer,
    position := if x.state = .queued then positionIn j (s.printer x.printer).queue else none,
    nextCoupon := x.nextCoupon, good := x.good, bad := x.bad, skip := x.skip, restarts := x.restarts,
    diverted := x.diverted }

/-- A job number of the table. -/
def toJob (n : Nat) : Option JobNo := if h : n < 64 then some ⟨n, h⟩ else none

/-- The job that is named; the outer none is a name out of range. -/
def State.jobNamed (s : State) (p : Port) (tag : Nat) : Option JobName → Option (Option JobNo)
  | none => some (s.jobOfTag p tag)
  | some (.number n) => (toJob n).map some
  | some (.ofPort n) => (toPort n).map fun q => s.jobOfTag q tag

/-- R62. -/
def queryJobAct (p : Port) (tag : Nat) (name : Option JobName) (s : State) : Verdict :=
  match s.jobNamed p tag name with
  | none => .refuse .outOfRange
  | some none => .refuse .notFound
  | some (some j) =>
    match s.job j with
    | none => .refuse .notFound
    | some x => .done s (.job (jobView j x s))

/-- QUERY_JOB (R62). -/
def execQueryJob (p : Port) (h : Header) (name : Option JobName) (s : State) : Host.Outcome State Fault Refusal :=
  .next (takeRequest p h (.queryJob p h name) (queryJobAct p h.tag name) s)

end Sys2Proof.Machine
end

