-- ==== Sys2Proof/Machine/Frames.lean ====
section
/-! DEFINITION. The frames the part sends: replies and notices on the links (R176, R177, R181, R189) and commands on the
printer lines (R24, R25), as characters. Named values are numbered in the order their rule lists them; how each rule's
figures fill bytes is gathered in log entry 31 (DEDUCED). -/

namespace Sys2Proof.Machine

/-! ### Numbers of named values (R177) -/

/-- A marker's byte: 1 set, 0 clear (DESIGN CHOICE, unsafe: log entry 49). -/
def flagNo (b : Bool) : Nat := b.toNat

def portNo : Port → Nat
  | .win w => w.val
  | .sup => 12

def tenderNo : Tender → Nat
  | .cash => 0
  | .card => 1
  | .warrant => 2
  | .voucher => 3

def ticketNo : TicketKind → Nat
  | .single => 0
  | .returnTrip => 1
  | .season => 2
  | .reservation => 3
  | .excess => 4
  | .test => 5

def packStateNo : PackState → Nat
  | .inStore => 0
  | .loading => 1
  | .loaded => 2
  | .partUsed => 3
  | .exhausted => 4
  | .returned => 5

/-- The prior state's own list: IN_STORE or PART_USED (R1). -/
def priorNo (s : PackState) : Nat := if s = .inStore then 0 else 1

/-- A pack line's own list: EXHAUSTED or RETURNED (R163). -/
def lineStateNo (s : PackState) : Nat := if s = .exhausted then 0 else 1

def printerStateNo : PrinterState → Nat
  | .absent => 0
  | .probe => 1
  | .unloaded => 2
  | .sensing => 3
  | .ready => 4
  | .printing => 5
  | .draining => 6
  | .outOfService => 7
  | .faulted => 8

def senseNo : Sense → Nat
  | .none => 0
  | .load => 1
  | .startUp => 2
  | .resync => 3

def printerKindNo : PrinterKind → Nat
  | .jam => 0
  | .misfeed => 1
  | .coverOpen => 2
  | .cutter => 3
  | .stockOut => 4

def jobStateNo : JobState → Nat
  | .queued => 0
  | .printing => 1

def causeNo : SpoilCause → Nat
  | .printBad => 0
  | .skipped => 1
  | .abandoned => 2
  | .voided => 3
  | .test => 4
  | .writtenOff => 5

def faultKindNo : FaultKind → Nat
  | .jam => 0
  | .misfeed => 1
  | .coverOpen => 2
  | .cutter => 3
  | .stockOut => 4
  | .noResponse => 5
  | .couponTimeout => 6
  | .headFault => 7
  | .serialOrder => 8
  | .serialSkip => 9
  | .stockLow => 10
  | .lineError => 11
  | .spoilListFull => 12
  | .configDefaulted => 13
  | .recordsLost => 14

def severityNo : Severity → Nat
  | .stop => 0
  | .note => 1
  | .office => 2

def faultStateNo : FaultState → Nat
  | .opened => 0
  | .acknowledged => 1
  | .cleared => 2
  | .closed => 3

def sessionStateNo : SessionState → Nat
  | .opened => 0
  | .closing => 1
  | .counting => 2
  | .reconciled => 3

def tenderClassNo : TenderClass → Nat
  | .balanced => 0
  | .short => 1
  | .overs => 2
  | .limit => 3

def docClassNo : DocClass → Nat
  | .stockOk => 0
  | .stockShort => 1
  | .stockOver => 2

def outcomeNo : SessionOutcome → Nat
  | .balanced => 0
  | .short => 1
  | .overs => 2
  | .refer => 3

def authKindNo : AuthKind → Nat
  | .refund => 0
  | .lateVoid => 1

def authAnswerNo : AuthAnswer → Nat
  | .approved => 0
  | .declined => 1
  | .expired => 2
  | .withdrawn => 3

def modeNo : OfficeMode → Nat
  | .opened => 0
  | .night => 1

def causeOfRestartNo : RestartCause → Nat
  | .power => 0
  | .resetInput => 1
  | .request => 2

/-- The running rate in baud. -/
def baud : LinkRate → Nat
  | .r19200 => 19200
  | .r38400 => 38400
  | .r57600 => 57600
  | .r115200 => 115200

/-! ### Fields (R177) -/

def bFlag (b : Bool) : List Byte := be1 (flagNo b)

/-- An optional field: a presence byte, and the field when present. -/
def bOpt {α : Type} (f : α → List Byte) (o : Option α) : List Byte :=
  match o with
  | none => be1 0
  | some x => be1 1 ++ f x

/-- A list: a count byte, and the items. -/
def bList {α : Type} (f : α → List Byte) (l : List α) : List Byte := be1 l.length ++ l.flatMap f

/-- A figure for each tender, in their order. -/
def bTenders {α : Type} (f : α → List Byte) (x : PerTender α) : List Byte :=
  f x.cash ++ f x.card ++ f x.warrant ++ f x.voucher

def bPrinter (p : PrinterId) : List Byte := be1 p.val
def bWindow (w : Window) : List Byte := be1 w.val

def bCommand : LineCommand → List Byte
  | .none => be1 0
  | .print k => be1 1 ++ be1 k
  | .sense => be1 2

/-! ### Results (R181) -/

/-- The four figures of a tender in a report: expected, variance, tolerance, class. -/
def bTenderResult (r : TenderResult) : List Byte :=
  beInt r.expected ++ beInt r.variance ++ be4 r.tolerance ++ be1 (tenderClassNo r.verdict)

/-- R159. -/
def bCashUp (c : CashUp) : List Byte :=
  bTenders bTenderResult c.tenders ++ be4 c.expectedDocs ++ be1 (docClassNo c.docs) ++ be1 (outcomeNo c.outcome)

/-- R146. -/
def bDeclaration (d : Declaration) : List Byte :=
  bTenders be4 d.amounts ++ be2 d.docs ++ be1 (portNo d.declaredBy) ++ be4 d.time

/-- R148: what the supervisor's DECLARE is answered in addition. -/
def bDeclared (d : Declaration) (c : CashUp) : List Byte :=
  let one (amount : Nat) (r : TenderResult) : List Byte :=
    beInt r.expected ++ be4 amount ++ beInt r.variance ++ be4 r.tolerance ++ be1 (tenderClassNo r.verdict)
  one d.amounts.cash c.tenders.cash ++ one d.amounts.card c.tenders.card ++ one d.amounts.warrant c.tenders.warrant
    ++ one d.amounts.voucher c.tenders.voucher ++ be4 c.expectedDocs ++ be2 d.docs ++ be1 (docClassNo c.docs)
    ++ be1 (outcomeNo c.outcome)

/-- The fields of a session record up to its times (R121). -/
def bSessionHead (x : Session) : List Byte :=
  be2 x.number ++ bWindow x.window ++ be2 x.clerk ++ be1 (sessionStateNo x.state) ++ bFlag x.forced ++ be4 x.float
    ++ be4 x.openedAt ++ bOpt be4 x.closedAt

/-- The counts of a session record (R121). -/
def bSessionCounts (x : Session) : List Byte :=
  be2 x.tickets ++ be2 x.coupons ++ be2 x.voids ++ be4 x.voidsAmount ++ be2 x.refundsCount ++ be2 x.spoiltVoided
    ++ be2 x.spoiltAbandoned ++ be2 x.spoiltBad

/-- R134. -/
def bSlot (a : AuthSlot) : List Byte :=
  be1 (authKindNo a.kind) ++ be4 a.serial ++ bFlag a.found ++ be4 a.amount ++ be1 (tenderNo a.tender) ++ be2 a.session
    ++ be4 a.raised

/-- R143, for the supervisor: the fields in the order of R121, then the slot. -/
def bSession (x : Session) (live : Nat) (slot : Option AuthSlot) : List Byte :=
  bSessionHead x ++ bTenders be4 x.sales ++ bTenders be4 x.refunds ++ bTenders bFlag x.clamped ++ bSessionCounts x
    ++ be1 live ++ bOpt bDeclaration x.declaration ++ bOpt bCashUp x.results ++ be1 x.recounts ++ bOpt bSlot slot

/-- R159. -/
def bReport (x : Session) (live : Nat) : List Byte :=
  let one (t : Tender) : List Byte := be4 (x.sales.of t) ++ be4 (x.refunds.of t) ++ bFlag (x.clamped.of t)
  bSessionHead x ++ one .cash ++ one .card ++ one .warrant ++ one .voucher ++ bSessionCounts x ++ be1 live
    ++ be1 x.recounts ++ bOpt bDeclaration x.declaration ++ bOpt bCashUp x.results

/-- R143, for a window. -/
def bSlotBrief (a : SlotBrief) : List Byte :=
  be1 (authKindNo a.kind) ++ be4 a.serial ++ be4 a.amount ++ be1 (tenderNo a.tender) ++ be4 a.raised

def bSessionBrief (x : SessionBrief) : List Byte :=
  be2 x.number ++ bWindow x.window ++ be2 x.clerk ++ be1 (sessionStateNo x.state) ++ bFlag x.forced ++ be4 x.float
    ++ be4 x.openedAt ++ bOpt be4 x.closedAt ++ be2 x.tickets ++ be2 x.coupons ++ be2 x.voids ++ be2 x.refundsCount
    ++ be1 x.live ++ be1 x.recounts ++ bOpt bSlotBrief x.slot

/-- R62. -/
def bJob (v : JobView) : List Byte :=
  be1 v.number.val ++ be1 (portNo v.port) ++ bOpt bWindow v.window ++ be4 v.tag ++ bOpt be2 v.session
    ++ be1 (ticketNo v.kind) ++ be1 v.coupons ++ be4 v.fare ++ bOpt (fun t => be1 (tenderNo t)) v.tender
    ++ be4 v.admitted ++ be1 (jobStateNo v.state) ++ bPrinter v.printer
    ++ (if v.state = .queued then be1 (v.position.getD 0) else [])
    ++ be1 v.nextCoupon ++ bList be4 v.good ++ be1 v.bad ++ be1 v.skip ++ be1 v.restarts ++ bFlag v.diverted

def bJobRef (r : JobRef) : List Byte := be1 r.number.val ++ bOpt be4 r.tag

/-- R48. The coupon outstanding or pending stands behind a presence byte, though R48 does not call it optional (DESIGN
CHOICE, unsafe: log entry 53). -/
def bInPrint (v : JobInPrint) : List Byte :=
  bJobRef v.job ++ be1 v.coupons ++ bOpt be1 v.coupon ++ bFlag v.unconfirmed

/-- R48, with the line and the line address of R24; line A is sent as 0 and line B as 1 (DESIGN CHOICE, unsafe: log
entry 49). The reported fault and the allowance, each of which R33 lets be none, stand behind a presence byte (DESIGN
CHOICE, unsafe: log entry 53). -/
def bPrinterView (v : PrinterView) : List Byte :=
  bPrinter v.printer ++ be1 (v.printer.val / 4) ++ be1 (v.printer.val % 4) ++ be1 (printerStateNo v.state)
    ++ bFlag v.outOfService ++ bFlag v.waiting
    ++ bOpt (fun k : PackIx × Nat × Nat => be1 k.1.val ++ be4 k.2.1 ++ be2 k.2.2) v.pack ++ bOpt bInPrint v.inPrint
    ++ be1 v.queue.length ++ bList bJobRef v.queue ++ bCommand v.command ++ be1 (senseNo v.sense) ++ be1 v.misses
    ++ bOpt (fun k => be1 (printerKindNo k)) v.reported ++ bOpt be1 v.allowance ++ bOpt be2 v.fault

/-- R19. -/
def bPack (i : PackIx) (k : Pack) (inUse : Nat) : List Byte :=
  be1 i.val ++ be4 k.first ++ be4 k.last ++ be4 k.next ++ be2 (k.last + 1 - k.next) ++ be2 k.issued ++ be2 k.spoiled
    ++ be2 k.returned ++ be1 (packStateNo k.state) ++ bOpt bPrinter k.printer
    ++ bOpt (fun x => be1 (priorNo x)) k.prior
    ++ bOpt (fun l : List Nat => be1 l.length ++ bList be4 l) (if k.state = .loaded then some k.inPrint else none)
    ++ be2 k.day ++ be4 k.time ++ be1 inUse

/-- R172. -/
def bOffice (v : OfficeView) : List Byte :=
  be1 (modeNo v.mode) ++ be2 v.day ++ be4 v.clock ++ bFlag v.clockSet ++ bFlag v.recordsLostOpen ++ be1 v.inUse
    ++ be1 v.reserved ++ be1 v.ceiling ++ be1 v.sharedFree ++ be2 v.unreserved ++ bFlag v.overwritten

def bOfficeExtra (v : OfficeExtra) : List Byte :=
  be1 v.packs ++ be1 v.sessions ++ be1 v.jobs ++ be2 v.used ++ be1 v.reserved ++ be1 v.waiting ++ be2 v.issues
    ++ be1 v.faults ++ be1 v.notClosed ++ bFlag v.report ++ bFlag v.night

/-- R100. -/
def bFault (r : FaultRecord) : List Byte :=
  be2 r.number ++ bOpt bPrinter r.printer ++ be1 (severityNo r.severity) ++ be1 (faultKindNo r.firstKind)
    ++ be1 (faultKindNo r.latest) ++ be1 (faultStateNo r.state) ++ bFlag r.present ++ be2 r.day ++ be4 r.time
    ++ be4 r.latestTime ++ be1 r.repeats ++ bOpt bWindow r.window ++ bOpt be2 r.session ++ be2 r.blanks
    ++ bFlag r.unlisted ++ bOpt be4 r.detail ++ bOpt be1 r.remedy

/-- R89. -/
def bSpoil (e : SpoilEntry) : List Byte :=
  be4 e.first ++ be2 e.count ++ be1 (causeNo e.cause) ++ bOpt bPrinter e.printer ++ bOpt be2 e.session
    ++ bOpt be2 e.fault ++ be2 e.day ++ be4 e.time

/-- R166. -/
def bSummary (d : Summary) : List Byte :=
  bTenders be4 d.sales ++ bTenders be4 d.refunds ++ bTenders be4 d.declared ++ bTenders beInt d.variance
    ++ be4 d.retiredBalanced ++ be4 d.retiredShort ++ be4 d.retiredOver ++ be4 d.retiredRefer ++ be4 d.tickets
    ++ be4 d.coupons ++ be4 d.printBad ++ be4 d.skipped ++ be4 d.abandoned ++ be4 d.voided ++ be4 d.test
    ++ be4 d.writtenOff ++ be4 d.packsReceived ++ be4 d.packsReturned ++ be4 d.packsExhausted ++ be4 d.stopFaults
    ++ be4 d.noteFaults ++ be4 d.officeFaults

/-- R163. -/
def bPackLine (l : PackLine) : List Byte :=
  be4 l.first ++ be4 l.last ++ be2 l.issued ++ be2 l.spoiled ++ be2 l.returned ++ be1 (lineStateNo l.state)

/-- The results or figures of a reply, in the order of the request's rule. R16's spoil range is sent as its first serial
and its count (DESIGN CHOICE, unsafe: log entry 49). -/
def bResults : Results → List Byte
  | .none => []
  | .opened n => be2 n
  | .sold j p pos u => be1 j.val ++ bPrinter p ++ be1 pos ++ be1 u
  | .cancelled p => bPrinter p
  | .voided l fare t n => bList be4 l ++ be4 fare ++ be1 (tenderNo t) ++ be1 n
  | .referred n k t => be4 n ++ be1 (authKindNo k) ++ be2 t
  | .refunded n a t x => be4 n ++ be4 a ++ be1 (tenderNo t) ++ be2 x
  | .closed n st live => be2 n ++ be1 (sessionStateNo st) ++ be1 live
  | .forceClosed st => be1 (sessionStateNo st)
  | .declared n st r none => be2 n ++ be1 (sessionStateNo st) ++ be1 r
  | .declared n st r (some (d, c)) => be2 n ++ be1 (sessionStateNo st) ++ be1 r ++ bDeclared d c
  | .acknowledged n st => be2 n ++ be1 (faultStateNo st)
  | .loaded i p n => be1 i.val ++ bPrinter p ++ be4 n
  | .mismatch a b => be4 a ++ be4 b
  | .unloaded i st r => be1 i.val ++ be1 (packStateNo st) ++ be2 r
  | .job v => bJob v
  | .printer v => bPrinterView v
  | .sessionBrief v => bSessionBrief v
  | .session x live slot => bSession x live slot
  | .pack i k n => bPack i k n
  | .office v none => bOffice v
  | .office v (some x) => bOffice v ++ bOfficeExtra x
  | .received i n => be1 i.val ++ be2 n
  | .returned i n => be1 i.val ++ be2 n
  | .writtenOff i a n r => be1 i.val ++ be4 a ++ be2 n ++ be2 r
  | .service st => be1 (printerStateNo st)
  | .assigned q => bPrinter q.primary ++ bOpt bPrinter q.alternate
  | .tested j p pos => be1 j.val ++ bPrinter p ++ be1 pos
  | .answered w n ok => bWindow w ++ be4 n ++ be1 (if ok then 0 else 1)
  | .faultRead r a b c => bOpt bFault r ++ be1 a ++ be1 b ++ be1 c
  | .faultClosed n => be2 n
  | .spoils l a b c => bList bSpoil l ++ be1 l.length ++ be2 a ++ be1 b ++ be2 c
  | .recounted n st r => be2 n ++ be1 (sessionStateNo st) ++ be1 r
  | .cashUp x live => bReport x live
  | .dayClosed d t l n => be2 d ++ be4 t ++ be1 l ++ be1 n
  | .dayOpened d => be2 d
  | .running x d => bSummary x ++ be2 d ++ be1 0
  | .final x d t l => bSummary x ++ be2 d ++ be4 t ++ be1 l ++ be1 1
  | .packLines l n => bList bPackLine l ++ be1 l.length ++ be1 n
  | .nightFigures x b d => bSummary x ++ bFlag b ++ be2 d
  | .timeSet t => be4 t
  | .parameter c => encChange c

/-! ### Reply and notice bodies (R177, R189) -/

/-- R184: OVERRUN bit 0, LINE bit 1, NOTICE_LOST bit 2. -/
def statusByte (s : PortStatus) : Nat := flagNo s.overrun + 2 * flagNo s.line + 4 * flagNo s.noticeLost

def replyBody (r : Reply) : List Byte :=
  be1 r.code ++ be1 (resultValue r.result) ++ be4 r.tag ++ be1 (statusByte r.status) ++ bResults r.results

/-- The code, the tag and the fields of a notice. -/
def noticeParts : Notice → Nat × Nat × List Byte
  | .jobIssued tag j l p => (0x81, tag, be1 j.val ++ bList be4 l ++ bPrinter p)
  | .jobDiverted tag j p q => (0x82, tag, be1 j.val ++ bPrinter p ++ bPrinter q)
  | .jobHeld tag j p f => (0x83, tag, be1 j.val ++ bPrinter p ++ bOpt be2 f)
  | .jobFailed tag j p f n => (0x84, tag, be1 j.val ++ bPrinter p ++ be2 f ++ be1 n)
  | .jobCancelled tag j p => (0x85, tag, be1 j.val ++ be1 0 ++ bPrinter p)
  | .faultRaised n p k v st r d w =>
      (0x86, 0, be2 n ++ bOpt bPrinter p ++ be1 (faultKindNo k) ++ be1 (severityNo v) ++ be1 (faultStateNo st)
        ++ be1 r ++ bOpt be4 d ++ bOpt bWindow w)
  | .faultCleared n p k r b => (0x87, 0, be2 n ++ bOpt bPrinter p ++ be1 (faultKindNo k) ++ be1 r ++ be2 b)
  | .sessionCountDue n w c t f => (0x88, 0, be2 n ++ bWindow w ++ be2 c ++ be4 (t.getD 0) ++ bFlag f)
  | .cashUpReady n w c f r by' docs x =>
      (0x89, 0, be2 n ++ bWindow w ++ be2 c ++ bFlag f ++ be1 r ++ be1 (portNo by')
        ++ bTenders (fun y => beInt y.variance ++ be1 (tenderClassNo y.verdict)) x.tenders
        ++ be4 x.expectedDocs ++ be2 docs ++ be1 (docClassNo x.docs) ++ be1 (outcomeNo x.outcome))
  | .authorisationWanted w a e =>
      (0x8A, 0, bWindow w ++ be1 (authKindNo a.kind) ++ be4 a.serial ++ bFlag a.found ++ be4 a.amount
        ++ be1 (tenderNo a.tender) ++ be2 a.session ++ be4 a.raised ++ be2 a.duration
        ++ match e with
          | none => []
          | some x => bWindow x.window ++ be2 x.session ++ be1 (ticketNo x.kind) ++ be4 x.fare ++ bPrinter x.printer
              ++ be4 x.time)
  | .authorisationAnswer n k x sess => (0x8B, 0, be4 n ++ be1 (authKindNo k) ++ be1 (authAnswerNo x) ++ be2 sess)
  | .hold t => (0x8C, 0, be4 t)
  | .release t => (0x8D, 0, be4 t)
  | .portReset w => (0x8E, 0, bWindow w)
  | .restarted cold cause lost dflt mode day t set rate =>
      (0x8F, 0, be1 (if cold then 0 else 1) ++ be1 (causeOfRestartNo cause) ++ bFlag lost ++ bFlag dflt
        ++ be1 (modeNo mode) ++ be2 day ++ be4 t ++ bFlag set ++ be4 (baud rate))

def noticeBody (n : Notice) : List Byte :=
  let x := noticeParts n
  be1 x.1 ++ be4 x.2.1 ++ x.2.2

/-- The characters of a frame of an outbound queue: REPLY 02, NOTICE 03 (R176). -/
def outChars : OutFrame → List Char9
  | .reply r => frameChars 2 (replyBody r)
  | .notice n => frameChars 3 (noticeBody n)

/-! ### Printer lines (R24, R25) -/

/-- A command frame: the address marked, the command character, the fields, the check. -/
def lineFrame (address : Nat) (body : List Byte) : List Char9 :=
  markedChar (BitVec.ofNat 8 address) :: (body ++ [-(sumBytes body)]).map plainChar

/-- PRINT: k, n, ticket kind, the text fields. -/
def printBody (k : Nat) (x : Job) : List Byte :=
  be1 0x51 ++ be1 k ++ be1 x.coupons ++ be1 (ticketNo x.kind) ++ be1 x.texts.length ++ encTexts x.texts

/-- The characters of the command sent to a printer, for the job in print where it is PRINT. -/
def commandChars (p : PrinterId) (c : Sent) (x : Option Job) : List Char9 :=
  lineFrame (p.val % 4) (match c, x with
    | .print k, some y => printBody k y
    | .print k, none => be1 0x51 ++ be1 k
    | .sense, _ => be1 0x52
    | .poll, _ => be1 0x50)

/-- The characters of a good response frame: the address with its mark bit clear, and the rest as in a command. -/
def responseFrame (address : Nat) (body : List Byte) : List Char9 :=
  (BitVec.ofNat 8 address :: body ++ [-(sumBytes body)]).map plainChar

/-- The body of a STATUS response. -/
def statusBody : Condition → List Byte
  | .idle => be1 0x60 ++ be1 0
  | .busy => be1 0x60 ++ be1 1
  | .fault k => be1 0x60 ++ be1 2 ++ be1 (printerKindNo k)

def couponBody (serial : Nat) (o : PrintOutcome) : List Byte :=
  be1 0x61 ++ be4 serial ++ be1 (match o with
    | .good => 0
    | .bad => 1)

def serialBody (serial : Nat) : List Byte := be1 0x62 ++ be4 serial

/-- A response as its fields say it. -/
inductive Response where
  | status (c : Condition)
  | coupon (serial : Nat) (o : PrintOutcome)
  | serial (serial : Nat)
deriving DecidableEq, Repr

def toPrinterKind : Nat → Option PrinterKind
  | 0 => some .jam
  | 1 => some .misfeed
  | 2 => some .coverOpen
  | 3 => some .cutter
  | 4 => some .stockOut
  | _ => none

/-- The response that a body spells, every field inside its range (R25). -/
def parseResponse (body : List Byte) : Option Response :=
  match body.map fun b => b.toNat with
  | [0x60, 0] => some (.status .idle)
  | [0x60, 1] => some (.status .busy)
  | [0x60, 2, k] => (toPrinterKind k).map fun x => .status (.fault x)
  | [0x61, a, b, c, d, o] =>
    let n := ((a * 256 + b) * 256 + c) * 256 + d
    if n ≤ Config.maxSerial ∧ o ≤ 1 then some (.coupon n (if o = 0 then .good else .bad)) else none
  | [0x62, a, b, c, d] =>
    let n := ((a * 256 + b) * 256 + c) * 256 + d
    if n ≤ Config.maxSerial then some (.serial n) else none
  | _ => none

/-- R25: the number of characters in a complete response frame, its address and check characters counted, from its
code and the character after the code. -/
def responseSize : Nat → Nat → Option Nat
  | 0x60, 0 => some 4
  | 0x60, 1 => some 4
  | 0x60, 2 => some 5
  | 0x61, _ => some 8
  | 0x62, _ => some 7
  | _, _ => none

/-- The characters up to the check character, at which the response is complete and its exchange ends (R24, R25); none
when they stop short of it, or their code or condition is not one R25 gives. -/
def charsToCheck (chars : List Char9) : Option (List Char9) :=
  match chars with
  | _ :: code :: first :: _ =>
    (responseSize code.byte.toNat first.byte.toNat).bind fun n =>
      if n ≤ chars.length then some (chars.take n) else none
  | _ => none

/-- The response that the characters give: none with a framing error or a marked character in its frame, from another
address, with a failed check, or with no frame or fields R25 gives. -/
def readResponse (p : PrinterId) (chars : List Char9) : Option Response :=
  match charsToCheck chars with
  | some (a :: rest) =>
    if (a :: rest).any fun c => c.mark || c.framing then none
    else if a.byte.toNat ≠ p.val % 4 then none
    else if sumBytes (rest.map fun c => c.byte) ≠ 0 then none
    else parseResponse (rest.dropLast.map fun c => c.byte)
  | _ => none

end Sys2Proof.Machine
end

