-- ==== Sys2Proof/Machine/Lines.lean ====
section
/-! DEFINITION. The line engines: POLL, PRINT and SENSE, the printer's responses, misses, the timers of the printer
contexts and the end of the restart break (R24 to R32, R35). -/

namespace Sys2Proof.Machine

/-! ### The arbiter (R26) -/

/-- R24: the printer at an address of a line. -/
def printerAt : Line → Fin 4 → PrinterId
  | .a, n => ⟨n.val, by omega⟩
  | .b, n => ⟨n.val + 4, by omega⟩

/-- R24: the line of a printer. -/
def lineOf (p : PrinterId) : Line := if p.val < 4 then .a else .b

/-- R26: present is anything other than ABSENT. -/
def State.answersAt (s : State) (l : Line) (n : Fin 4) : Bool := (s.printer (printerAt l n)).state != .absent

/-- R26: the next present address after the position, in the order 0, 1, 2, 3, 0. -/
def State.nextAddress (s : State) (l : Line) : Option (Fin 4) :=
  let n := (s.line l).position
  [n + 1, n + 2, n + 3, n].find? fun m => s.answersAt l m

/-- R26: the command the engine picks for a printer. -/
def commandFor (c : Printer) : Sent :=
  if c.unconfirmed then .poll
  else match c.command with
    | .print k => .print k
    | .sense => .sense
    | .none => .poll

/-- The address and printer whose turn it is, when the engine may begin an exchange: the restart break is over (R32)
and the last exchange has ended (R24). -/
def State.turn (s : State) (l : Line) : Option (Fin 4 × PrinterId) :=
  if (s.line l).breaking || (s.line l).exchange.isSome then none
  else (s.nextAddress l).map fun n => (n, printerAt l n)

/-- An exchange begins: the position is recorded and the command frame is sent. -/
def beginExchange (l : Line) (n : Fin 4) (p : PrinterId) (c : Sent) (s : State) : State :=
  s.setLine l { position := n, breaking := false,
                exchange := some { printer := p, command := c, chars := commandChars p c (s.jobInPrint p) } }

/-- A turn that carries the command `c`; where the arbiter picks another, the command does not come about (log
entry 2). -/
def plainTurn (l : Line) (c : Sent) (s : State) : State :=
  match s.turn l with
  | some (n, p) => if commandFor (s.printer p) = c then beginExchange l n p c s else s
  | none => s

/-- POLL (R26). -/
def execPoll (l : Line) (s : State) : Host.Outcome State Fault Refusal := .next (whenLive (plainTurn l .poll) s)

/-- SENSE (R31). -/
def execSense (l : Line) (s : State) : Host.Outcome State Fault Refusal := .next (whenLive (plainTurn l .sense) s)

/-- R18: the remaining count of the printer's pack does not cover the coupons still to be printed. -/
def lacksBlanks (x : Job) (k : Pack) (coupon : Nat) : Bool := decide (k.remaining < x.coupons + 1 - coupon)

/-- R26, R18: a PRINT that the comparison lets go, or the POLL that goes in its place after STOCK_OUT. -/
def printTurn (l : Line) (s : State) : State :=
  match s.turn l with
  | none => s
  | some (n, p) =>
    match commandFor (s.printer p) with
    | .print k =>
      match s.jobInPrint p, s.loadedPack p with
      | some x, some pack =>
        if lacksBlanks x pack k then
          beginExchange l n p .poll (stopFault p .stockOut (some pack.remaining) s)
        else beginExchange l n p (.print k) s
      | _, _ => beginExchange l n p (.print k) s
    | .poll => s
    | .sense => s

/-- PRINT (R26). -/
def execPrint (l : Line) (s : State) : Host.Outcome State Fault Refusal := .next (whenLive (printTurn l) s)

/-! ### The end of an exchange (R27) -/

/-- The exchange ends, answered or not. -/
def endExchange (l : Line) (s : State) : State := s.setLine l { s.line l with exchange := none }

/-- R28: a PRINT whose answer is lost may have been taken. -/
def markUnconfirmed (p : PrinterId) (c : Sent) (s : State) : State :=
  match c with
  | .print k => if (s.printer p).command = .print k then s.modPrinter p fun x => { x with unconfirmed := true } else s
  | .poll => s
  | .sense => s

/-- R27: the miss is counted; the third raises NO_RESPONSE, and during a sense so does every further one (R31). -/
def countMiss (p : PrinterId) (s : State) : State :=
  let n := (s.printer p).misses
  if n < 3 then
    let t := raise .lineError (some p) none (s.modPrinter p fun c => { c with misses := n + 1 })
    if n = 2 then stopFault p .noResponse none t else t
  else if (s.printer p).sense = .none then s
  else stopFault p .noResponse none s

/-- A miss at a printer's exchange. -/
def miss (l : Line) (x : Exchange) (s : State) : State :=
  countMiss x.printer (markUnconfirmed x.printer x.command (endExchange l s))

/-- R27: a good response sets the count to 0; if it was 3, or if the printer is in PROBE (R119; log entry 19), the
printer is answering again. -/
def goodResponse (l : Line) (p : PrinterId) (s : State) : State :=
  let c := s.printer p
  let t := (endExchange l s).modPrinter p fun x => { x with misses := 0 }
  if c.misses = 3 ∨ c.state = .probe then answeringEvent p t else t

/-- With the exchange in progress on the line; without one there is nothing to answer (log entry 42). -/
def onExchange (l : Line) (f : Exchange → State → State) (s : State) : State :=
  match (s.line l).exchange with
  | some x => f x s
  | none => s

/-- EXCHANGE_TIMEOUT (R27). -/
def execExchangeTimeout (l : Line) (s : State) : Host.Outcome State Fault Refusal :=
  .next (whenLive (onExchange l (miss l)) s)

/-! ### STATUS (R28, R30, R31, R35) -/

/-- R30: a reported fault is raised, unless a FAULTED printer with no sense under way reports it again. -/
def statusFault (p : PrinterId) (k : PrinterKind) (s : State) : State :=
  let c := s.printer p
  if c.reported = some k ∧ c.state = .faulted ∧ c.sense = .none then s
  else stopFault p (ofPrinterKind k) none (s.modPrinter p fun x => { x with reported := some k })

/-- The PRINT of coupon `k` was taken: the coupon is outstanding and its timer starts (R28, R29). -/
def couponBegins (p : PrinterId) (k : Nat) (s : State) : State :=
  s.modPrinter p fun c =>
    { c with unconfirmed := false, command := .none, declined := 0, outstanding := some k, couponTimer := true }

/-- STATUS BUSY. -/
def statusBusy (p : PrinterId) (sent : Sent) (s : State) : State :=
  let c := s.printer p
  match sent, c.command with
  | .print k, .print m => if k = m then couponBegins p k s else s
  | .poll, .print k => if c.unconfirmed then couponBegins p k s else s
  | .sense, .sense => s.modPrinter p fun x => { x with command := .none, senseTimer := true }
  | _, _ => s

/-- A declined command; the third in a row raises the fault (R28, R31). -/
def declineOne (p : PrinterId) (kind : FaultKind) (s : State) : State :=
  let n := (s.printer p).declined + 1
  if 3 ≤ n then stopFault p kind none s else s.modPrinter p fun c => { c with declined := n }

/-- R30: the printer reports no fault any more; in PROBE the event is given at any IDLE (R119; log entry 19). -/
def idleReported (p : PrinterId) (s : State) : State :=
  let c := s.printer p
  if c.reported.isSome ∨ c.state = .probe then
    idleEvent p (s.modPrinter p fun x => { x with reported := none })
  else s

/-- R35: the first STATUS IDLE in PROBE decides where the printer goes. -/
def probeDecides (p : PrinterId) (s : State) : State :=
  match s.stopRecord p with
  | some r =>
    let t := s.modPrinter p fun c => { c with state := .faulted }
    if r.state = .cleared then resyncDue p t else t
  | none =>
    match s.loadedAt p with
    | none => s.modPrinter p fun c => { c with state := .unloaded }
    | some _ =>
      if s.spaceForAllowance then
        takeAllowance p (s.modPrinter p fun c => { c with sense := .startUp, command := .sense })
      else beginWait p s

/-- R35: whether a printer in PROBE still awaits its decisive answer. -/
def awaitsDecision (c : Printer) : Bool := c.state == .probe && c.sense == .none && !c.waiting

/-- STATUS IDLE. -/
def statusIdle (p : PrinterId) (sent : Sent) (s : State) : State :=
  let t := idleReported p s
  let c := t.printer p
  if awaitsDecision c then probeDecides p t
  else match sent, c.command with
    | .print k, .print m => if k = m then declineOne p .couponTimeout t else t
    | .sense, .sense => declineOne p .noResponse t
    | .poll, .print _ => if c.unconfirmed then t.modPrinter p fun x => { x with unconfirmed := false } else t
    | _, _ => t

/-- A good STATUS response. R27 comes before what the status says: R28 orders the two for PRINT, and the model takes the
same order for POLL and SENSE (DESIGN CHOICE, unsafe: log entry 51). -/
def takeStatus (l : Line) (c : Condition) (x : Exchange) (s : State) : State :=
  let t := goodResponse l x.printer s
  match c with
  | .idle => statusIdle x.printer x.command t
  | .busy => statusBusy x.printer x.command t
  | .fault k => statusFault x.printer k t

/-- STATUS (R30). -/
def execStatus (l : Line) (condition : Condition) (s : State) : Host.Outcome State Fault Refusal :=
  .next (whenLive (onExchange l (takeStatus l condition)) s)

/-! ### COUPON (R25, R28, R29, R41) -/

/-- R25: when a COUPON is permitted. -/
def couponPermitted (x : Exchange) (s : State) : Bool :=
  x.command == .poll &&
    ((s.printer x.printer).outstanding.isSome || (s.printer x.printer).unconfirmed
      || (s.printer x.printer).state == .faulted)

/-- The coupon a report is about: the one outstanding, or the one whose PRINT was unconfirmed (R28). -/
def reportedCoupon (c : Printer) : Option Nat :=
  match c.outstanding, c.unconfirmed, c.command with
  | some k, _, _ => some k
  | none, true, .print k => some k
  | none, _, _ => none

/-- A good COUPON response: the report of a coupon, or a late report. If it also ends a miss count of 3 (R27), the
printer is answering again before the report is accounted; R28 orders the two for PRINT only (DESIGN CHOICE, unsafe: log
entry 51). -/
def takeCouponReport (l : Line) (serial : Nat) (o : PrintOutcome) (x : Exchange) (s : State) : State :=
  if couponPermitted x s && decide (serial ≤ Config.maxSerial) then
    let t := goodResponse l x.printer s
    match reportedCoupon (s.printer x.printer) with
    | some k => couponReport x.printer k serial (o == .good) t
    | none => lateReport x.printer serial (o == .good) t
  else miss l x s

/-- COUPON (R29); one that R25 does not permit is a miss. -/
def execCoupon (l : Line) (serial : Nat) (outcome : PrintOutcome) (s : State) : Host.Outcome State Fault Refusal :=
  .next (whenLive (onExchange l (takeCouponReport l serial outcome)) s)

/-! ### SERIAL (R25, R31) -/

/-- R25, R31: a SERIAL is permitted in answer to SENSE or POLL while a sense is under way (log entry 18). -/
def serialPermitted (x : Exchange) (s : State) : Bool :=
  (x.command == .poll || x.command == .sense) && (s.printer x.printer).sense != .none

/-- A good SERIAL response ends the sense; what R27 does comes first (DESIGN CHOICE, unsafe: log entry 51). -/
def takeSerial (l : Line) (serial : Nat) (x : Exchange) (s : State) : State :=
  if serialPermitted x s && decide (serial ≤ Config.maxSerial) then
    senseEnds x.printer serial (goodResponse l x.printer s)
  else miss l x s

/-- SERIAL (R31); one that R25 does not permit is a miss. -/
def execSerial (l : Line) (serial : Nat) (s : State) : Host.Outcome State Fault Refusal :=
  .next (whenLive (onExchange l (takeSerial l serial)) s)

/-! ### BAD_RESPONSE (R25, R27) -/

/-- The characters that a printer sends in an exchange: the response they give is taken as its own rule says, which
makes it a miss where R25 does not permit it; characters that give none are a miss. -/
def takeChars (l : Line) (chars : List Char9) (x : Exchange) (s : State) : State :=
  match readResponse x.printer chars with
  | some (.status c) => takeStatus l c x s
  | some (.coupon n o) => takeCouponReport l n o x s
  | some (.serial n) => takeSerial l n x s
  | none => miss l x s

/-- BAD_RESPONSE (R27). Characters that begin with a whole good response have the effect of that response (DEDUCED,
unsafe: log entry 47). -/
def execBadResponse (l : Line) (chars : List Char9) (s : State) : Host.Outcome State Fault Refusal :=
  .next (whenLive (onExchange l (takeChars l chars)) s)

/-! ### Timers and the restart break (R29, R31, R32) -/

/-- COUPON_TIMER_EXPIRY (R29). -/
def execCouponTimerExpiry (printer : Fin 8) (s : State) : Host.Outcome State Fault Refusal :=
  .next (whenLive (fun t =>
    if (t.printer printer).couponTimer then stopFault printer .couponTimeout none t else t) s)

/-- SENSE_TIMER_EXPIRY (R31). -/
def execSenseTimerExpiry (printer : Fin 8) (s : State) : Host.Outcome State Fault Refusal :=
  .next (whenLive (fun t =>
    if (t.printer printer).senseTimer then stopFault printer .noResponse none t else t) s)

/-- LINE_RESTART_BREAK_END (R32): the first printer served is the lowest present address. -/
def execLineRestartBreakEnd (l : Line) (s : State) : Host.Outcome State Fault Refusal :=
  .next (whenLive (fun t =>
    if (t.line l).breaking then t.setLine l { position := 3, breaking := false, exchange := none } else t) s)

end Sys2Proof.Machine
end

