-- ==== Sys2Proof/Machine/Office.lean ====
section
/-! DEFINITION. The office block: DAY CLOSE, DAY OPEN, DAY REPORT, QUERY OFFICE, SET TIME and the clock (R163 to R173,
R197, R198). -/

namespace Sys2Proof.Machine

/-! ### The close (R168, R169, R21) -/

def isFinished (k : Pack) : Bool := k.state == .exhausted || k.state == .returned

def packLine (k : Pack) : PackLine :=
  { first := k.first, last := k.last, issued := k.issued, spoiled := k.spoiled, returned := k.returned,
    state := k.state }

/-- R163: the lines stand in ascending order of first serial. -/
def insertLine (x : PackLine) : List PackLine → List PackLine
  | [] => [x]
  | y :: r => if x.first ≤ y.first then x :: y :: r else y :: insertLine x r

/-- The lines of the packs that the close frees. -/
def closingLines (s : State) : List PackLine :=
  (allPacks.filterMap fun i => match s.pack i with
    | some k => if isFinished k then some (packLine k) else none
    | none => none).foldr insertLine []

/-- R21: the records of finished packs are freed. -/
def freeFinished (v : Vector (Option Pack) 32) : Vector (Option Pack) 32 :=
  v.map fun o => o.filter fun k => !isFinished k

/-- R169. -/
def closeDay (s : State) : State :=
  { s with
    mode := .night,
    report := some { totals := s.running, day := s.day, time := s.clock, lines := closingLines s },
    packs := freeFinished s.packs, running := zeroSummary, night := false }

/-- R168. -/
def dayCloseAct (s : State) : Verdict :=
  if s.mode = .night then .refuse .sessionState
  else if 0 < countUsed s.sessions then .refuse .sessionsRemain
  else if 0 < countUsed s.jobs then .refuse .busy
  else .done (closeDay s) (.dayClosed s.day s.clock (closingLines s).length (countUsed (closeDay s).packs))

/-- DAY_CLOSE (R168). -/
def execDayClose (p : Port) (h : Header) (s : State) : Host.Outcome State Fault Refusal :=
  .next (takeRequest p h (.dayClose p h) dayCloseAct s)

/-! ### The opening (R165, R170) -/

/-- R165. -/
def nextDay (d : Nat) : Nat := if Config.max16 ≤ d then 1 else d + 1

/-- R170. -/
def openDay (s : State) : State :=
  { s with
    day := nextDay s.day, running := zeroSummary, night := false, report := none, sessionCounter := 1, issues := [],
    mode := .opened }

/-- R170. -/
def dayOpenAct (s : State) : Verdict :=
  if s.mode = .opened then .refuse .sessionState else .done (openDay s) (.dayOpened (nextDay s.day))

/-- DAY_OPEN (R170). -/
def execDayOpen (p : Port) (h : Header) (s : State) : Host.Outcome State Fault Refusal :=
  .next (takeRequest p h (.dayOpen p h) dayOpenAct s)

/-! ### DAY REPORT (R171) -/

/-- The section SUMMARY. -/
def summaryView (s : State) : Results :=
  match s.mode, s.report with
  | .night, some r => .final r.totals r.day r.time r.lines.length
  | _, _ => .running s.running s.day

/-- The lines of the report, none where there is no report. -/
def reportLines (s : State) : List PackLine := match s.report with
  | some r => r.lines
  | none => []

/-- R171: the sections are SUMMARY 0, PACKS 1 and NIGHT 2. -/
def dayReportAct (sect : Nat) (start : Option Nat) (s : State) : Verdict :=
  match sect with
  | 0 => .done s (summaryView s)
  | 1 =>
    let from' := start.getD 0
    if 31 < from' then .refuse .outOfRange
    else if s.mode = .opened then .refuse .sessionState
    else .done s (.packLines (((reportLines s).drop from').take 8) (reportLines s).length)
  | 2 => if s.mode = .opened then .refuse .sessionState else .done s (.nightFigures s.running s.night s.day)
  | _ => .refuse .outOfRange

/-- DAY_REPORT (R171). -/
def execDayReport (p : Port) (h : Header) (sect : Nat) (start : Option Nat) (s : State) :
    Host.Outcome State Fault Refusal :=
  .next (takeRequest p h (.dayReport p h sect start) (dayReportAct sect start) s)

/-! ### QUERY OFFICE (R172) -/

/-- What every port is told. -/
def officeView (p : Port) (s : State) : OfficeView :=
  { mode := s.mode, day := s.day, clock := s.clock, clockSet := s.clockSet, recordsLostOpen := s.recordsLostOpen,
    inUse := s.inUse p, reserved := s.reservation p, ceiling := s.ceiling p, sharedFree := s.sharedFree,
    unreserved := s.unreserved, overwritten := s.overwritten }

/-- What port S is told in addition. -/
def officeExtra (s : State) : OfficeExtra :=
  { packs := countUsed s.packs, sessions := countUsed s.sessions, jobs := countUsed s.jobs, used := s.spoils.length,
    reserved := s.reserved, waiting := allPrinters.countP fun p => (s.printer p).waiting, issues := s.issues.length,
    faults := s.faults.length, notClosed := s.faults.countP fun r => r.state != .closed, report := s.report.isSome,
    night := s.night }

/-- R172: a query from S clears the overwritten marker after reporting it. -/
def queryOfficeAct (p : Port) (s : State) : Verdict :=
  match p with
  | .win _ => .done s (.office (officeView p s) none)
  | .sup => .done { s with overwritten := false } (.office (officeView p s) (some (officeExtra s)))

/-- QUERY_OFFICE (R172). -/
def execQueryOffice (p : Port) (h : Header) (s : State) : Host.Outcome State Fault Refusal :=
  .next (takeRequest p h (.queryOffice p h) (queryOfficeAct p) s)

/-! ### The clock (R197, R198) -/

/-- R198. -/
def setTimeAct (reading : Nat) (s : State) : Verdict :=
  if Config.daySeconds ≤ reading then .refuse .outOfRange
  else .done { s with clock := reading, clockSet := true } (.timeSet s.clock)

/-- SET_TIME (R198). -/
def execSetTime (p : Port) (h : Header) (reading : Nat) (s : State) : Host.Outcome State Fault Refusal :=
  .next (takeRequest p h (.setTime p h reading) (setTimeAct reading) s)

/-- CLOCK_TICK (R197): powered or not, and during a reset (R200). -/
def execClockTick (s : State) : Host.Outcome State Fault Refusal :=
  .next { s with clock := (s.clock + 1) % Config.daySeconds }

end Sys2Proof.Machine
end

