-- ==== Sys2Proof/Machine/Ports.lean ====
section
/-! DEFINITION. The link events of a port: characters and frames received, the gap between characters, a break and its
end, a frame sent, and a request refused at check 1 (R174 to R179, R183, R185). -/

namespace Sys2Proof.Machine

/-! ### Receiving (R178) -/

/-- A frame in progress is discarded, or a framing error has arrived: LINE is set (R184). -/
def markLine (r : Receiver) (q : PortState) : PortState := { q with receiver := r, line := true }

/-- R176, R178: a complete frame, lead first, passes: it is a REQUEST, and its length, body and check sum to 0. -/
def framePasses (bytes : List Byte) : Bool :=
  match bytes with
  | lead :: rest => lead == 1 && sumBytes rest == 0
  | [] => false

/-- The body of a complete frame: what stands between the length and the check. -/
def frameBody (bytes : List Byte) : List Byte := (bytes.drop 2).dropLast

/-- The test of a complete frame; one that passes goes to the request FIFO (R179). -/
def testFrame (bytes : List Byte) (q : PortState) : PortState :=
  if framePasses bytes then withRequest (frameBody bytes) { q with receiver := .idle } else markLine .idle q

/-- The announced length, once it has arrived: the frame is whole when it, the lead, the length and the check are
there. -/
def frameWhole (bytes : List Byte) : Bool :=
  match bytes with
  | _ :: n :: rest => rest.length == n.toNat + 1
  | _ => false

/-- A length above 200 has just arrived. -/
def lengthTooLong (bytes : List Byte) : Bool :=
  match bytes with
  | [_, n] => decide (Config.maxBody < n.toNat)
  | _ => false

/-- R178: one character at a port. A framing error comes before the mark bit (log entry 39). -/
def receiveChar (q : PortState) (c : Char9) : PortState :=
  match q.receiver with
  | .lineLow => q
  | .idle =>
    if c.framing then markLine .idle q
    else if c.mark then { q with receiver := .inFrame [c.byte] }
    else q
  | .inFrame got =>
    if c.framing then markLine .idle q
    else if c.mark then markLine (.inFrame [c.byte]) q
    else if lengthTooLong (got ++ [c.byte]) then markLine .idle q
    else if frameWhole (got ++ [c.byte]) then testFrame (got ++ [c.byte]) q
    else { q with receiver := .inFrame (got ++ [c.byte]) }

/-- Characters one after another. -/
def receiveChars (cs : List Char9) (q : PortState) : PortState := cs.foldl receiveChar q

/-- An event at a port: none without supply, in reset (R199, R200) or at a window not present (R174). -/
def atPort (p : Port) (f : PortState → PortState) (s : State) : State :=
  if s.live && s.portPresent p then s.modPort p f else s

/-- RECEIVE_FRAME (R178): the characters of a frame, or a run of characters of any kind (log entry 44). -/
def execReceiveFrame (p : Port) (chars : List Char9) (s : State) : Host.Outcome State Fault Refusal :=
  .next (atPort p (receiveChars chars) s)

/-- STRAY_CHARACTER (R178): a character outside a frame that begins none. -/
def execStrayCharacter (p : Port) (c : Char9) (s : State) : Host.Outcome State Fault Refusal :=
  .next (atPort p (fun q => if q.receiver = .idle ∧ (c.framing ∨ !c.mark) then receiveChar q c else q) s)

/-- Whether a character discards the frame in progress (R178). -/
def discards (q : PortState) (c : Char9) : Bool :=
  match q.receiver with
  | .inFrame got => c.framing || c.mark || lengthTooLong (got ++ [c.byte])
  | .idle => false
  | .lineLow => false

/-- FRAME_IN_PROGRESS_DISCARDED (R178). -/
def execFrameInProgressDiscarded (p : Port) (c : Char9) (s : State) : Host.Outcome State Fault Refusal :=
  .next (atPort p (fun q => if discards q c then receiveChar q c else q) s)

/-- The frame in progress, if any, is given up (R178). -/
def gapPassed (q : PortState) : PortState :=
  match q.receiver with
  | .inFrame _ => markLine .idle q
  | .idle => q
  | .lineLow => q

/-- INTER_CHARACTER_TIMEOUT (R178). -/
def execInterCharacterTimeout (p : Port) (s : State) : Host.Outcome State Fault Refusal :=
  .next (atPort p gapPassed s)

/-! ### A request refused at check 1 (R179) -/

/-- The request code of a body, 0 where it has none. -/
def codeOf (body : List Byte) : Nat :=
  match body with
  | c :: _ => c.toNat
  | [] => 0

/-- The tag of a body, 0 where it is too short to hold one. -/
def tagOf (body : List Byte) : Nat :=
  match body with
  | _ :: _ :: a :: b :: c :: d :: _ => ((a.toNat * 256 + b.toNat) * 256 + c.toNat) * 256 + d.toNat
  | _ => 0

/-- The port takes a request that check 1 refuses. -/
def takeBad (p : Port) (body : List Byte) (s : State) : State :=
  if s.canTake p && decide (body.length ≤ Config.maxBody) && (parseRequest p body).isNone then
    match s.offered p body with
    | some rest =>
      answer p { chain := false, quiet := false, tag := tagOf body } (codeOf body) .badRequest .none
        (s.modPort p fun q => { q with fifo := rest })
    | none => s
  else s

/-- BAD_REQUEST (R179). -/
def execBadRequest (p : Port) (body : List Byte) (s : State) : Host.Outcome State Fault Refusal :=
  .next (takeBad p body s)

/-! ### Breaks (R185) -/

/-- The port at the moment a break takes effect. The receiver is idle and stays so until the line returns high. -/
def breakPort (q : PortState) : PortState :=
  { clearMarkers q with
    receiver := .lineLow, fifo := [], outq := [], previous := .none, sending := [],
    hand := q.hand.map fun h => { h with broken := true } }

/-- A window's break is told to S. -/
def tellBreak (p : Port) (s : State) : State :=
  match p with
  | .win w => notify .sup (.portReset w) s
  | .sup => s

/-- PORT_BREAK (R185). A line that is low already has had its break (log entry 26). -/
def execPortBreak (p : Port) (s : State) : Host.Outcome State Fault Refusal :=
  .next (if s.live && s.portPresent p && (s.port p).receiver != .lineLow then tellBreak p (s.modPort p breakPort) else s)

/-- LINE_RETURNS_HIGH (R185). -/
def execLineReturnsHigh (p : Port) (s : State) : Host.Outcome State Fault Refusal :=
  .next (atPort p (fun q => if q.receiver = .lineLow then { q with receiver := .idle } else q) s)

/-! ### Sending (R183) -/

/-- The oldest frame leaves the queue and is sent. -/
def sendOldest (q : PortState) : PortState :=
  match q.outq with
  | f :: rest => { q with outq := rest, sending := outChars f }
  | [] => q

/-- TRANSMIT_FRAME (R183). -/
def execTransmitFrame (p : Port) (s : State) : Host.Outcome State Fault Refusal := .next (atPort p sendOldest s)

end Sys2Proof.Machine
end

