-- ==== Sys2Proof/Machine/Printers.lean ====
section
/-! DEFINITION. The requests on printers and windows: SERVICE OUT, SERVICE IN, QUERY PRINTER, ASSIGN PRINTERS, HOLD and
RELEASE (R46 to R48, R187, R188). -/

namespace Sys2Proof.Machine

/-! ### SERVICE OUT and SERVICE IN (R46, R47) -/

/-- R46, the effect. -/
def takeOut (q : PrinterId) (s : State) : State :=
  let t := s.modPrinter q fun c => { c with outOfService := true }
  match (s.printer q).state with
  | .ready => divert startCheck q none (clearWaiting q (t.modPrinter q fun c => { c with state := .outOfService }))
  | .printing => divert startCheck q none (t.modPrinter q fun c => { c with state := .draining })
  | .faulted => divert startCheck q none t
  | _ => t

/-- R46. -/
def serviceOutAct (printer : Nat) (s : State) : Verdict :=
  match toPrinter printer with
  | none => .refuse .outOfRange
  | some q =>
    if (s.printer q).state = .absent ∨ (s.printer q).state = .probe then .refuse .printerState
    else if (s.printer q).outOfService then .refuse .already
    else .done (takeOut q s) (.service ((takeOut q s).printer q).state)

/-- SERVICE_OUT (R46). -/
def execServiceOut (p : Port) (h : Header) (printer : Nat) (s : State) : Host.Outcome State Fault Refusal :=
  .next (takeRequest p h (.serviceOut p h printer) (serviceOutAct printer) s)

/-- Check 2 of R47. -/
def State.serviceInBarred (s : State) (q : PrinterId) : Bool :=
  let c := s.printer q
  c.state == .absent || c.state == .probe || c.sense == .resync
    || (c.state == .outOfService && (s.loadingAt q).isSome)

/-- R47, the effect. -/
def takeIn (q : PrinterId) (s : State) : State :=
  let t := s.modPrinter q fun c => { c with outOfService := false }
  match (s.printer q).state with
  | .outOfService =>
    if (s.loadedAt q).isSome then startCheck q (t.modPrinter q fun c => { c with state := .ready })
    else t.modPrinter q fun c => { c with state := .unloaded }
  | .draining => t.modPrinter q fun c => { c with state := .printing }
  | _ => t

/-- R47. -/
def serviceInAct (printer : Nat) (s : State) : Verdict :=
  match toPrinter printer with
  | none => .refuse .outOfRange
  | some q =>
    if s.serviceInBarred q then .refuse .printerState
    else if !(s.printer q).outOfService then .refuse .already
    else .done (takeIn q s) (.service ((takeIn q s).printer q).state)

/-- SERVICE_IN (R47). -/
def execServiceIn (p : Port) (h : Header) (printer : Nat) (s : State) : Host.Outcome State Fault Refusal :=
  .next (takeRequest p h (.serviceIn p h printer) (serviceInAct printer) s)

/-! ### QUERY PRINTER (R48) -/

/-- A job as the asking port sees it: a window gets the tags of its own jobs (log entry 30). -/
def jobRef (p : Port) (s : State) (j : JobNo) : JobRef :=
  { number := j,
    tag := match s.job j with
      | some x => if x.port = p ∨ p = .sup then some x.tag else none
      | none => none }

/-- The coupon outstanding or pending. -/
def couponOf (c : Printer) : Option Nat :=
  match c.outstanding, c.command with
  | some k, _ => some k
  | none, .print k => some k
  | none, _ => none

/-- The pack at the printer: record index, next and remaining. -/
def packAt (q : PrinterId) (s : State) : Option (PackIx × Nat × Nat) :=
  ((s.loadedAt q).or (s.loadingAt q)).bind fun i => (s.pack i).map fun k => (i, k.next, k.remaining)

/-- R48: what the reply tells. -/
def printerView (p : Port) (q : PrinterId) (s : State) : PrinterView :=
  let c := s.printer q
  { printer := q, state := c.state, outOfService := c.outOfService, waiting := c.waiting, pack := packAt q s,
    inPrint := c.job.map fun j =>
      { job := jobRef p s j,
        coupons := match s.job j with
          | some x => x.coupons
          | none => 0,
        coupon := couponOf c, unconfirmed := c.unconfirmed },
    queue := c.queue.map (jobRef p s), command := c.command, sense := c.sense, misses := c.misses,
    reported := c.reported, allowance := c.allowance, fault := (s.stopRecord q).map fun r => r.number }

/-- A window may ask about the printers of its pair. -/
def State.printerHidden (s : State) (p : Port) (q : PrinterId) : Bool :=
  match p with
  | .win w => !Pair.names (s.pair w) q
  | .sup => false

/-- R48. -/
def queryPrinterAct (p : Port) (printer : Nat) (s : State) : Verdict :=
  match toPrinter printer with
  | none => .refuse .outOfRange
  | some q => if s.printerHidden p q then .refuse .notPermitted else .done s (.printer (printerView p q s))

/-- QUERY_PRINTER (R48). -/
def execQueryPrinter (p : Port) (h : Header) (printer : Nat) (s : State) : Host.Outcome State Fault Refusal :=
  .next (takeRequest p h (.queryPrinter p h printer) (queryPrinterAct p printer) s)

/-! ### ASSIGN PRINTERS (R187) -/

/-- The pair that the request names; none where a number is outside its range or the two are one. -/
def pairNamed (primary : Nat) (alternate : Option Nat) : Option Pair :=
  match toPrinter primary, alternate with
  | some a, none => some { primary := a, alternate := none }
  | some a, some n =>
    match toPrinter n with
    | some b => if a = b then none else some { primary := a, alternate := some b }
    | none => none
  | none, _ => none

/-- Check 2 of R187. -/
def State.pairAbsent (s : State) (q : Pair) : Bool :=
  (s.printer q.primary).state == .absent || match q.alternate with
    | some b => (s.printer b).state == .absent
    | none => false

def setPair (w : Window) (q : Pair) (s : State) : State :=
  { s with params := { s.params with pairs := put s.params.pairs w q } }

/-- A window configured as present. -/
def State.windowHere (s : State) (n : Nat) : Option Window := (toWindow n).filter fun w => s.windowPresent w

/-- R187. -/
def assignPrintersAct (window primary : Nat) (alternate : Option Nat) (s : State) : Verdict :=
  match s.windowHere window, pairNamed primary alternate with
  | some w, some q =>
    if s.pairAbsent q then .refuse .printerState else .done (setPair w q s) (.assigned (s.pair w))
  | _, _ => .refuse .outOfRange

/-- ASSIGN_PRINTERS (R187). -/
def execAssignPrinters (p : Port) (h : Header) (window primary : Nat) (alternate : Option Nat) (s : State) :
    Host.Outcome State Fault Refusal :=
  .next (takeRequest p h (.assignPrinters p h window primary alternate) (assignPrintersAct window primary alternate) s)

/-! ### HOLD and RELEASE (R188) -/

/-- R188: the marker set or cleared, and the window told. -/
def holdAct (on : Bool) (window : Nat) (s : State) : Verdict :=
  match s.windowHere window with
  | none => .refuse .outOfRange
  | some w =>
    if s.hold w = on then .refuse .already
    else .done (notify (.win w) (if on then .hold s.clock else .release s.clock) (s.setHold w on))

/-- HOLD (R188). -/
def execHold (p : Port) (h : Header) (window : Nat) (s : State) : Host.Outcome State Fault Refusal :=
  .next (takeRequest p h (.hold p h window) (holdAct true window) s)

/-- RELEASE (R188). -/
def execRelease (p : Port) (h : Header) (window : Nat) (s : State) : Host.Outcome State Fault Refusal :=
  .next (takeRequest p h (.release p h window) (holdAct false window) s)

end Sys2Proof.Machine
end

