-- ==== Sys2Proof/Machine/Restart.lean ====
section
/-! DEFINITION. Restarts, the reset input and the supplies (R22, R32, R88, R98, R119, R120, R144, R173, R193, R199 to
R203). -/

namespace Sys2Proof.Machine

/-! ### The parts of a restart (R201, R202) -/

/-- R202: every retained item takes its initial value; then the marker is intact again. -/
def initialRecords (s : State) : State :=
  { s with
    packs := Vector.replicate 32 none, spoils := [], issues := [], faults := [], faultCounter := 1,
    overwritten := false, sessions := Vector.replicate 24 none, sessionCounter := 1,
    holds := Vector.replicate 12 false, mode := .opened, day := 1, running := zeroSummary, report := none,
    night := false, clock := 0, clockSet := false, valid := true }

/-- R201: the volatile state is cleared. A receive line that is still low after a break is forgotten with it, so that the
same low may be a second break (DESIGN CHOICE, unsafe: log entry 52). -/
def clearVolatile (s : State) : State :=
  { s with
    ports := Vector.replicate 13 (restPort []), jobs := Vector.replicate 64 none,
    slots := Vector.replicate 12 none, lineA := restLine, lineB := restLine }

/-- R193: the running set is that of the image read, or the defaults; the present sets in force are copied from it. The
read has used up its entry of the input. -/
def loadParams (s : State) : State :=
  let q := s.autoload.getD defaultParams
  { s with
    params := q, presentPrinters := q.printers, presentWindows := q.windows, readFails := s.readFails.tail }

/-- R32: every printer context takes its restart values. -/
def resetPrinters (s : State) : State :=
  { s with printers := Vector.ofFn fun p => restPrinter (if s.presentPrinters.getLsbD p.val then .probe else .absent) }

/-- R88: the entries of the pack's in-print blanks. -/
def convertRuns (k : Pack) (s : State) : State :=
  match k.printer with
  | some p => spoilRuns p none none (runsOf (ascending k.inPrint)) s
  | none => s

/-- R22: the changes a restart makes to one pack record. `restartAs` takes the records in ascending order, and with it
the ABANDONED entries of R88 (log entry 45). -/
def adjustPack (s : State) (i : PackIx) : State :=
  match s.pack i with
  | none => s
  | some k =>
    match k.state with
    | .loaded => movePack i abandonTicket (convertRuns k s)
    | .loading => s.setPack i (some (revertPack k))
    | _ => s

/-- R98: every REFUND_PENDING entry becomes ISSUED. -/
def settleIssues (s : State) : State :=
  { s with issues := s.issues.map fun e => if e.state = .refundPending then { e with state := .issued } else e }

/-- R203: RESTARTED is the first frame of each present port's queue. -/
def announce (cold : Bool) (cause : RestartCause) (lost dflt : Bool) (s : State) : State :=
  notifyAll allPorts
    (.restarted cold cause lost dflt s.mode s.day s.clock s.clockSet s.params.linkRate) s

/-- R144: a CLOSING session enters COUNTING. -/
def countClosing (s : State) (i : SessionIx) : State :=
  match s.session i with
  | some x => if x.state = .closing then enterCounting i s else s
  | none => s

/-- R119, adjustment 2: the conditions that go because their printer is not present. -/
def ofAbsentPrinter (s : State) (r : FaultRecord) : Bool :=
  match r.printer with
  | some p => !s.printerPresent p && (r.severity == .stop || r.firstKind == .stockLow)
  | none => false

/-- R119, adjustments 2 and 3. -/
def adjustFaults (s : State) : State := testFull (reportFree (removeCondition (ofAbsentPrinter s) s))

/-- R202: RECORDS_LOST is raised first, then CONFIG_DEFAULTED (R116, R120). -/
def raiseStart (lost dflt : Bool) (s : State) : State :=
  let t := if lost then raise .recordsLost none none s else s
  if dflt then raise .configDefaulted none none t else t

/-- R201: a restart; a write still in hand is cut off (R194). Two orders are the model's: that of the
notices behind RESTARTED (DESIGN CHOICE, unsafe: log entry 36), and that in which several packs are converted, which is
ascending record (DESIGN CHOICE, unsafe: log entry 45). -/
def restartAs (cold : Bool) (cause : RestartCause) (lost : Bool) (s0 : State) : State :=
  let s := cutSave s0
  let dflt := s.autoload.isNone
  let t := resetPrinters (loadParams (clearVolatile (if lost then initialRecords s else s)))
  let t := settleIssues (allPacks.foldl adjustPack t)
  let t := allSessions.foldl countClosing (announce cold cause lost dflt t)
  adjustFaults (raiseStart lost dflt t)

/-- R200: a warm restart. -/
def warmRestart (cause : RestartCause) (s : State) : State := restartAs false cause false s

/-- R199: a cold start tests the validity marker. -/
def coldStart (s : State) : State := restartAs true .power (!s.valid) s

/-! ### The commands (R199, R200) -/

/-- RESTART (R200): no reply. -/
def execRestart (p : Port) (h : Header) (s : State) : Host.Outcome State Fault Refusal :=
  .next (takeRequest p h (.restart p h) (fun t => .silent (warmRestart .request t)) s)

/-- RESET_ASSERT (R200): the part takes no event; a write in hand is cut off (R194). -/
def execResetAssert (s : State) : Host.Outcome State Fault Refusal :=
  .next (if s.resetLow then s else { cutSave s with resetLow := true })

/-- R200: the input is released: a warm restart, or the cold start that a supply applied meanwhile asks for. -/
def releaseReset (s : State) : State :=
  let t := { s with resetLow := false, coldPending := false }
  if !s.powered then t else if s.coldPending then coldStart t else warmRestart .resetInput t

/-- RESET_RELEASE (R200). -/
def execResetRelease (s : State) : Host.Outcome State Fault Refusal :=
  .next (if s.resetLow then releaseReset s else s)

/-- R200: the supply rises; with the reset input low the cold start waits for its release. -/
def applySupply (s : State) : State :=
  let t := { s with powered := true }
  if s.resetLow then { t with coldPending := true } else coldStart t

/-- COLD_START (R200). -/
def execColdStart (s : State) : Host.Outcome State Fault Refusal := .next (if s.powered then s else applySupply s)

/-- POWER_FAIL (R199): the part takes no event; a write in hand is cut off (R194). -/
def execPowerFail (s : State) : Host.Outcome State Fault Refusal :=
  .next (if s.powered then { cutSave s with powered := false, coldPending := false } else s)

/-- BACKUP_SUPPLY_LOSS (R199): the marker is lost if the core supply is absent. -/
def execBackupSupplyLoss (s : State) : Host.Outcome State Fault Refusal :=
  .next (if s.powered then s else { s with valid := false })

end Sys2Proof.Machine
end

