-- ==== Sys2Proof/Machine/Dispatch.lean ====
section
/-! DEFINITION. One arm for each command: a direct call of its meaning. -/

namespace Sys2Proof.Machine

def exec (i : Instr) (s : State) : Host.Outcome State Fault Refusal :=
  match i with
  | .openSession p h clerk float w => Sys2Proof.Machine.execOpenSession p h clerk float w s
  | .sell p h kind coupons fare tender texts w => Sys2Proof.Machine.execSell p h kind coupons fare tender texts w s
  | .cancel p h ofPort => Sys2Proof.Machine.execCancel p h ofPort s
  | .voidTicket p h serial => Sys2Proof.Machine.execVoidTicket p h serial s
  | .refund p h serial amount tender w => Sys2Proof.Machine.execRefund p h serial amount tender w s
  | .closeSession p h w => Sys2Proof.Machine.execCloseSession p h w s
  | .declare p h session cash card warrant voucher docs => Sys2Proof.Machine.execDeclare p h session cash card warrant voucher docs s
  | .ackFault p h number => Sys2Proof.Machine.execAckFault p h number s
  | .loadPack p h serial printer => Sys2Proof.Machine.execLoadPack p h serial printer s
  | .unloadPack p h printer => Sys2Proof.Machine.execUnloadPack p h printer s
  | .queryJob p h name => Sys2Proof.Machine.execQueryJob p h name s
  | .queryPrinter p h printer => Sys2Proof.Machine.execQueryPrinter p h printer s
  | .querySession p h number => Sys2Proof.Machine.execQuerySession p h number s
  | .queryPack p h name => Sys2Proof.Machine.execQueryPack p h name s
  | .queryOffice p h => Sys2Proof.Machine.execQueryOffice p h s
  | .receivePack p h first last => Sys2Proof.Machine.execReceivePack p h first last s
  | .returnPack p h serial => Sys2Proof.Machine.execReturnPack p h serial s
  | .writeOff p h serial count => Sys2Proof.Machine.execWriteOff p h serial count s
  | .serviceOut p h printer => Sys2Proof.Machine.execServiceOut p h printer s
  | .serviceIn p h printer => Sys2Proof.Machine.execServiceIn p h printer s
  | .assignPrinters p h window primary alternate => Sys2Proof.Machine.execAssignPrinters p h window primary alternate s
  | .testPrint p h printer texts => Sys2Proof.Machine.execTestPrint p h printer texts s
  | .hold p h window => Sys2Proof.Machine.execHold p h window s
  | .release p h window => Sys2Proof.Machine.execRelease p h window s
  | .answer p h window serial decision => Sys2Proof.Machine.execAnswer p h window serial decision s
  | .faultRead p h retire number => Sys2Proof.Machine.execFaultRead p h retire number s
  | .closeFault p h number remedy => Sys2Proof.Machine.execCloseFault p h number remedy s
  | .spoilRead p h retire => Sys2Proof.Machine.execSpoilRead p h retire s
  | .recount p h session => Sys2Proof.Machine.execRecount p h session s
  | .cashUpReport p h session retire => Sys2Proof.Machine.execCashUpReport p h session retire s
  | .forceClose p h session => Sys2Proof.Machine.execForceClose p h session s
  | .dayClose p h => Sys2Proof.Machine.execDayClose p h s
  | .dayOpen p h => Sys2Proof.Machine.execDayOpen p h s
  | .dayReport p h sect start => Sys2Proof.Machine.execDayReport p h sect start s
  | .setTime p h reading => Sys2Proof.Machine.execSetTime p h reading s
  | .setParameter p h change => Sys2Proof.Machine.execSetParameter p h change s
  | .saveParameters p h => Sys2Proof.Machine.execSaveParameters p h s
  | .restart p h => Sys2Proof.Machine.execRestart p h s
  | .badRequest p body => Sys2Proof.Machine.execBadRequest p body s
  | .receiveFrame p chars => Sys2Proof.Machine.execReceiveFrame p chars s
  | .strayCharacter p c => Sys2Proof.Machine.execStrayCharacter p c s
  | .interCharacterTimeout p => Sys2Proof.Machine.execInterCharacterTimeout p s
  | .portBreak p => Sys2Proof.Machine.execPortBreak p s
  | .transmitFrame p => Sys2Proof.Machine.execTransmitFrame p s
  | .poll l => Sys2Proof.Machine.execPoll l s
  | .print l => Sys2Proof.Machine.execPrint l s
  | .sense l => Sys2Proof.Machine.execSense l s
  | .status l condition => Sys2Proof.Machine.execStatus l condition s
  | .coupon l serial outcome => Sys2Proof.Machine.execCoupon l serial outcome s
  | .serial l serial => Sys2Proof.Machine.execSerial l serial s
  | .badResponse l chars => Sys2Proof.Machine.execBadResponse l chars s
  | .exchangeTimeout l => Sys2Proof.Machine.execExchangeTimeout l s
  | .couponTimerExpiry printer => Sys2Proof.Machine.execCouponTimerExpiry printer s
  | .senseTimerExpiry printer => Sys2Proof.Machine.execSenseTimerExpiry printer s
  | .authorisationExpiry w => Sys2Proof.Machine.execAuthorisationExpiry w s
  | .lineRestartBreakEnd l => Sys2Proof.Machine.execLineRestartBreakEnd l s
  | .saveComplete good => Sys2Proof.Machine.execSaveComplete good s
  | .clockTick => Sys2Proof.Machine.execClockTick s
  | .resetAssert => Sys2Proof.Machine.execResetAssert s
  | .resetRelease => Sys2Proof.Machine.execResetRelease s
  | .coldStart => Sys2Proof.Machine.execColdStart s
  | .powerFail => Sys2Proof.Machine.execPowerFail s
  | .backupSupplyLoss => Sys2Proof.Machine.execBackupSupplyLoss s
  | .frameInProgressDiscarded p c => Sys2Proof.Machine.execFrameInProgressDiscarded p c s
  | .lineReturnsHigh p => Sys2Proof.Machine.execLineReturnsHigh p s

end Sys2Proof.Machine
end

