-- ==== Sys2Proof/Safety.lean ====
section
/-! DEFINITION. What a sound state of the part is, one invariant for each law the spec states of the whole part, and the
words that the statements use: when a port takes a request, what a step leaves in the ports' queues, and how two states
compare. -/

namespace Sys2Proof.Machine

/-! ### Invariants -/

/-- R3, with the bounds on next that R1 gives. -/
def Pack.Kept (k : Pack) : Prop :=
  k.issued + k.spoiled + k.returned + k.inPrint.length + (k.last + 1 - k.next) = k.last + 1 - k.first
    ∧ k.first ≤ k.next ∧ k.next ≤ k.last + 1 ∧ (k.state ≠ .loaded → k.inPrint = [])

/-- R3 for every pack record in use. -/
def State.PacksKept (s : State) : Prop := ∀ i k, s.pack i = some k → k.Kept

/-- R4: the ranges of two records in use are disjoint. -/
def State.RangesKept (s : State) : Prop :=
  ∀ i j k m, i ≠ j → s.pack i = some k → s.pack j = some m → k.last < m.first ∨ m.last < k.first

/-- R179, R183: at most four requests wait, at most 31 notices are queued, and one reply; none while a deferred
request is in hand. -/
def PortState.Kept (q : PortState) : Prop :=
  q.fifo.length ≤ 4 ∧ noticeCount q.outq ≤ 31 ∧ q.outq.countP isReply ≤ 1
    ∧ (q.hand.isSome = true → q.outq.countP isReply = 0)

def State.PortsKept (s : State) : Prop := ∀ p, (s.port p).Kept

/-- R44, R90: used and reserved together are at most the 256 entries of the list, and drawn is at most 10. -/
def State.SpaceKept (s : State) : Prop :=
  s.spoils.length + s.reserved ≤ 256 ∧ ∀ p d, (s.printer p).allowance = some d → d ≤ 10

/-- R96, R99: the sizes of the issue list and the fault log. -/
def State.ListsKept (s : State) : Prop := s.issues.length ≤ 256 ∧ s.faults.length ≤ 40

/-- R102: a fault number is unique among the records in use, and the counter holds a number that no record in use
holds. The log's size is part of it, because the counter's search rests on it. -/
def State.NumbersKept (s : State) : Prop :=
  s.faults.length ≤ 40 ∧ (s.faults.map fun r => r.number).Nodup
    ∧ s.faultCounter ∉ s.faults.map (fun r => r.number) ∧ 1 ≤ s.faultCounter ∧ s.faultCounter ≤ 65535

/-- R123, R165, R197: the ranges of the session counter, the day number and the clock. -/
def State.CountersKept (s : State) : Prop :=
  1 ≤ s.sessionCounter ∧ s.sessionCounter ≤ 65535 ∧ 1 ≤ s.day ∧ s.day ≤ 65535 ∧ s.clock < 86400

/-- R146, R157: which of the cash-up groups a session holds in each state, and at most two recounts. -/
def Session.Kept (x : Session) : Prop :=
  (x.results.isSome = true ↔ x.state = .reconciled)
    ∧ ((x.state = .opened ∨ x.state = .closing) → x.declaration = none) ∧ x.recounts ≤ 2

def State.SessionsKept (s : State) : Prop := ∀ i x, s.session i = some x → x.Kept

/-- R190: every number of the running set lies in its range. -/
def State.ParamsKept (s : State) : Prop := paramsOk s.params = true

/-! ### When a port takes a request (R179) -/

/-- The port takes this request now and hands it to its block: it is free to take one, the request is well formed and
is the one that comes next, and checks 2 and 3 of R179 pass. What then waits in the FIFO is `rest`. -/
abbrev Accepts (p : Port) (h : Header) (i : Instr) (rest : List (List Byte)) (s : State) : Prop :=
  requestHead i = some (p, h) ∧ s.canTake p = true ∧ wellFormed i = true ∧ s.offered p (requestBody i) = some rest
    ∧ ¬(h.chain = true ∧ (s.port p).previous = .refused)
    ∧ (supervisorCode ((requestCode i).getD 0) = true → p = .sup)

/-! ### What a step leaves at the ports -/

/-- A port's state after the notices that name it have been placed, in order; a window not present gets none
(R174, R183). -/
def noticed (s : State) (notes : List (Port × Notice)) (q : Port) (x : PortState) : PortState :=
  notes.foldl (fun y n => if n.1 = q ∧ s.portPresent q = true then withNotice n.2 y else y) x

/-- A port's state after its request has been answered (R180, R181): no reply for a QUIET request answered DONE. -/
def replyIn (h : Header) (code : Nat) (rc : ResultCode) (res : Results) (x : PortState) : PortState :=
  let y := { x with previous := previousOf rc }
  if h.quiet = true ∧ rc = .done then y else withReply code rc h.tag res y

/-- The ports after a request at `p` was answered with this result, these notices having gone first. -/
def Answered (p : Port) (h : Header) (code : Nat) (rc : ResultCode) (res : Results) (rest : List (List Byte))
    (notes : List (Port × Notice)) (s t : State) : Prop :=
  t.port p = replyIn h code rc res (noticed s notes p { s.port p with fifo := rest })
    ∧ ∀ q, q ≠ p → t.port q = noticed s notes q (s.port q)

/-- The ports after an event that places these notices and answers no request. -/
def Told (notes : List (Port × Notice)) (s t : State) : Prop := ∀ q, t.port q = noticed s notes q (s.port q)

/-- The ports other than `p` are as they were. -/
abbrev OthersSame (p : Port) (s t : State) : Prop := ∀ q, q ≠ p → t.port q = s.port q

/-- The part takes events, and the port is that of a window present, or S (R174, R199, R200). -/
abbrev State.hears (s : State) (p : Port) : Prop := s.live = true ∧ s.portPresent p = true

/-! ### Records that several statements name -/

/-- The window and S are told that a session awaits its count (R139). -/
def countDueNotes (x : Session) (now : Nat) : List (Port × Notice) :=
  [(.win x.window, .sessionCountDue x.number x.window x.clerk (some now) x.forced),
   (.sup, .sessionCountDue x.number x.window x.clerk (some now) x.forced)]

/-- R126: an addition to a session's refunds of a tender. A clamped tender takes nothing; a sum that would pass 99,999,999
leaves the accumulator there and sets the marker; the other tenders and the sales stay. -/
def refundsAfter (t : Tender) (n : Nat) (x : Session) : Session :=
  if x.clamped.of t = true then x
  else if x.refunds.of t + n ≤ 99999999 then { x with refunds := x.refunds.set t (x.refunds.of t + n) }
  else { x with refunds := x.refunds.set t 99999999, clamped := x.clamped.set t true }

/-- R126: an addition to a session's sales of a tender, by the same rule. -/
def salesAfter (t : Tender) (n : Nat) (x : Session) : Session :=
  if x.clamped.of t = true then x
  else if x.sales.of t + n ≤ 99999999 then { x with sales := x.sales.set t (x.sales.of t + n) }
  else { x with sales := x.sales.set t 99999999, clamped := x.clamped.set t true }

/-- The issue list after a pending authorisation has ended without being posted: the entry of a REFUND that was found is
ISSUED again (R97). -/
def issuesReturned (a : AuthSlot) (l : List IssueEntry) : List IssueEntry :=
  if a.kind = .refund ∧ a.found = true then
    l.map fun y => if a.serial ∈ y.serials then { y with state := .issued } else y
  else l

/-- R102: a counter that advances from `v` to `w`: by 1, with 1 after 65,535, past every number that is in use. -/
def AdvancesPast (used : List Nat) (v w : Nat) : Prop :=
  ∃ m, w = (v + m) % 65535 + 1 ∧ w ∉ used ∧ ∀ a, a < m → (v + a) % 65535 + 1 ∈ used

/-- The numbers of R195 for a rate and for a tender. -/
def rateCodes : List (Nat × LinkRate) := [(0, .r19200), (1, .r38400), (2, .r57600), (3, .r115200)]
def tenderCodes : List (Nat × Tender) := [(0, .cash), (1, .card), (2, .warrant), (3, .voucher)]

/-- R190, R195: what a change within the ranges makes of the running set `q`, and the value it answers. There is no such
set for a change out of range. -/
def ChangeMade (q : Params) (c : ParamChange) (new : Params) (old : ParamChange) : Prop :=
  match c with
  | .linkRate n => ∃ a m, (n, a) ∈ rateCodes ∧ (m, q.linkRate) ∈ rateCodes
      ∧ new = { q with linkRate := a } ∧ old = .linkRate m
  | .printersPresent n => n < 256 ∧ new = { q with printers := BitVec.ofNat 8 n }
      ∧ old = .printersPresent q.printers.toNat
  | .windowsPresent n => n < 4096 ∧ new = { q with windows := BitVec.ofNat 12 n }
      ∧ old = .windowsPresent q.windows.toNat
  | .quota n r x => ∃ w : Window, n = w.val ∧ r ≤ 4 ∧ r ≤ x ∧ x ≤ 16
      ∧ new = { q with quotas := put q.quotas w { res := r, ceil := x } }
      ∧ old = .quota n (look q.quotas w).res (look q.quotas w).ceil
  | .floor n v => ∃ t, (n, t) ∈ tenderCodes ∧ v ≤ 50000 ∧ new = { q with floors := q.floors.set t v }
      ∧ old = .floor n (q.floors.of t)
  | .rate n v => ∃ t, (n, t) ∈ tenderCodes ∧ v ≤ 1000 ∧ new = { q with rates := q.rates.set t v }
      ∧ old = .rate n (q.rates.of t)
  | .refundLimit v => v ≤ 1000000 ∧ new = { q with refundLimit := v } ∧ old = .refundLimit q.refundLimit
  | .voidWindow v => v ≤ 3600 ∧ new = { q with voidWindow := v } ∧ old = .voidWindow q.voidWindow
  | .authTime v => 10 ≤ v ∧ v ≤ 600 ∧ new = { q with authTime := v } ∧ old = .authTime q.authTime
  | .stockLow v => v ≤ 500 ∧ new = { q with stockLow := v } ∧ old = .stockLow q.stockLow
  | .stockHandling n => (n = 0 ∨ n = 1) ∧ new = { q with stockHandling := decide (n = 1) }
      ∧ old = .stockHandling (if q.stockHandling = true then 1 else 0)
  | .other _ _ => False

/-! ### Lines and stock -/

/-- A good response from a printer that is neither in PROBE nor at three misses: nothing but the exchange and the count of
misses depends on its being good (R27). -/
abbrev Answers (l : Line) (x : Exchange) (s : State) : Prop :=
  s.live = true ∧ (s.line l).exchange = some x ∧ (s.printer x.printer).misses ≠ 3
    ∧ (s.printer x.printer).state ≠ .probe

/-- The state with the exchange on the line over. -/
def exchangeOver (l : Line) (s : State) : State := s.setLine l { s.line l with exchange := none }

/-- The command sent is the PRINT that the printer's context has pending (R28). -/
def Sent.isPending (c : Sent) (x : Printer) : Bool :=
  match c with
  | .print k => x.command == .print k
  | .poll => false
  | .sense => false

/-- One blank taken from the pack does not take it to the stock-low threshold (R17). -/
abbrev NoStockLow (k : Pack) (s : State) : Prop :=
  s.params.stockLow = 0 ∨ k.last + 1 - k.next ≤ s.params.stockLow ∨ s.params.stockLow < k.last - k.next

/-- No SPOIL_LIST_FULL record stands ACKNOWLEDGED, so that a report of free space clears none (R114). -/
abbrev NoFullRecord (s : State) : Prop := ∀ r ∈ s.faults, isOpenFull r = true → r.state ≠ .acknowledged

/-- The record's condition is one that a successful load on the printer removes (R9, R108). -/
abbrev NamesStock (q : PrinterId) (r : FaultRecord) : Prop :=
  r.printer = some q ∧ (r.latest = .stockLow ∨ r.severity = .stop ∧ r.latest = .stockOut)

/-- R38, R109: the printers, and the free count last reported, once the record has become CLEARED. Nothing follows but for
the STOP record of a FAULTED printer that has no sense under way. With a LOADED pack its resynchronising sense is due: it
runs under the allowance held or one taken now, or waits on space (covered: SPOIL_LIST_FULL stands ACKNOWLEDGED, so that
the log takes no raise). With none the printer is UNLOADED and gives its allowance back (covered: no printer waits, and no
SPOIL_LIST_FULL record stands ACKNOWLEDGED). -/
def ClearedLeaves (r : FaultRecord) (s : State) (printers : Vector Printer 8) (free : Nat) : Prop :=
  (∀ q, r.severity = .stop → r.printer = some q →
      (s.printer q).state ≠ .faulted ∨ (s.printer q).sense ≠ .none) ∧ printers = s.printers ∧ free = s.freeReported
  ∨ ∃ q c, r.severity = .stop ∧ r.printer = some q ∧ (s.printer q).state = .faulted ∧ (s.printer q).sense = .none
    ∧ printers = put s.printers q c
    ∧ ((s.loadedAt q).isSome = true ∧ free = s.freeReported
        ∧ ((s.printer q).allowance.isSome = true ∧ c = { s.printer q with sense := .resync, command := .sense }
          ∨ (s.printer q).allowance = none ∧ 10 ≤ s.unreserved
            ∧ c = { s.printer q with sense := .resync, command := .sense, allowance := some 0 }
          ∨ (s.printer q).allowance = none ∧ s.unreserved < 10
            ∧ (∃ f, s.faults.find? isOpenFull = some f ∧ f.state = .acknowledged ∧ f.number ≠ r.number)
            ∧ c = { s.printer q with sense := .resync, waiting := true })
      ∨ s.loadedAt q = none ∧ c = { s.printer q with state := .unloaded, allowance := none }
        ∧ (((s.printer q).allowance = none ∨ (s.printer q).allowance = some 10) ∧ free = s.freeReported
          ∨ (∃ d, (s.printer q).allowance = some d ∧ d < 10) ∧ (∀ p, (s.printer p).waiting = false) ∧ NoFullRecord s
            ∧ free = 256 - s.spoils.length - ({ s with printers := printers } : State).reserved))

/-- R194: a memory after a write that was cut off: each byte of the image is the old one or the new one. -/
def TornOf (image : List Byte) (old new : Option (List Byte)) : Prop :=
  match old, new with
  | some m, some n => n.length = m.length ∧ ∀ b, n[b]? = m[b]? ∨ b < 81 ∧ n[b]? = image[b]?
  | none, none => True
  | _, _ => False

/-! ### What every restart leaves (R201) -/

/-- R193: what the restart from `s` to `t` read of the memory: an image only where the memory could be read (the input of
log entry 50) and its image passes. -/
def imageReadAt (s t : State) : Option Params := if s.readFails.headD false = true then none else readImage t.memory

/-- R193, R194: a restart writes no byte of the memory; a write that it cuts off leaves each byte of its image old or
new. -/
def MemoryKept (s t : State) : Prop :=
  (s.save = none → t.memory = s.memory) ∧ ∀ image, s.save = some image → TornOf image s.memory t.memory

/-- The state of the volatile items, the memory, the parameters and the marker after the restart from `s` to `t`, and the
first frame of each present port. The markers of each port are clear, but that NOTICE_LOST is set again where the notices
of the restart itself have filled the queue (R183). -/
def Restarted (cold : Bool) (cause : RestartCause) (lost : Bool) (s t : State) : Prop :=
  let image := imageReadAt s t
  MemoryKept s t ∧ t.jobs = Vector.replicate 64 none ∧ t.slots = Vector.replicate 12 none ∧ t.lineA = restLine
    ∧ t.lineB = restLine ∧ t.save = none ∧ t.params = image.getD defaultParams
    ∧ t.presentPrinters = t.params.printers ∧ t.presentWindows = t.params.windows
    ∧ (∀ p, t.printer p = restPrinter (if t.printerPresent p = true then .probe else .absent))
    ∧ (∀ p, (t.port p).receiver = .idle ∧ (t.port p).fifo = [] ∧ (t.port p).hand = none
        ∧ (t.port p).previous = .none ∧ (t.port p).sending = [] ∧ (t.port p).overrun = false ∧ (t.port p).line = false
        ∧ ((t.port p).noticeLost = true → noticeCount (t.port p).outq = 31))
    ∧ (∀ p, t.portPresent p = true →
        (t.port p).outq.head? = some (.notice (.restarted cold cause lost image.isNone t.mode t.day t.clock t.clockSet
          t.params.linkRate)))
    ∧ (∀ p, t.portPresent p = false → (t.port p).outq = [])

/-- R22: what a restart makes of a pack record that it keeps. -/
def restartPack (k : Pack) : Pack :=
  match k.state with
  | .loaded => { k with spoiled := k.spoiled + k.inPrint.length, inPrint := [] }
  | .loading => { k with state := k.prior.getD .inStore, prior := none, printer := none }
  | .inStore | .partUsed | .exhausted | .returned => k

/-- R88: the ABANDONED entries of a pack in print, one for each run of its in-print serials. -/
def inPrintEntries (s : State) (i : PackIx) : List SpoilEntry :=
  match s.pack i with
  | none => []
  | some k =>
    match k.state, k.printer with
    | .loaded, some p => (runsOf (ascending k.inPrint)).map fun r =>
        { first := r.1, count := r.2, cause := .abandoned, printer := some p, session := none, fault := none,
          day := s.day, time := s.clock }
    | _, _ => []

/-- R88: the entries of all packs; that the packs are taken in ascending record is log entry 45. -/
def conversionEntries (s : State) : List SpoilEntry := (List.finRange 32).flatMap (inPrintEntries s)

/-- R119, adjustment 2: the STOP or STOCK_LOW record of a printer that is not present loses its condition. -/
def restartFault (present : BitVec 8) (r : FaultRecord) : FaultRecord :=
  match r.printer with
  | none => r
  | some p =>
    if present.getLsbD p.val = false ∧ (r.severity = .stop ∨ r.firstKind = .stockLow) then
      if r.state = .opened then { r with present := false }
      else if r.state = .acknowledged ∧ r.present = true then { r with state := .cleared, present := false } else r
    else r

/-- R119, adjustment 3: an ACKNOWLEDGED SPOIL_LIST_FULL record becomes CLEARED where at least 10 entries are free. -/
def restartFull (free : Nat) (r : FaultRecord) : FaultRecord :=
  if r.firstKind = .spoilListFull ∧ r.state = .acknowledged ∧ 10 ≤ free then
    { r with state := .cleared, present := false }
  else r

/-- The state whose fault log the restart from `s` adjusts: CONFIG_DEFAULTED is raised if no image was read (R116). -/
def defaultedAt (s t : State) : State :=
  if imageReadAt s t = none then raise .configDefaulted none none s else s

/-- What a restart that keeps the retained records leaves of them (R22, R88, R98, R119, R144, R173, R197). The spoil
list and what hangs on it are said where the entries of R88 find their space, which R88 says is always free, and the
fault records where the log's own laws hold (R102, R104). -/
def RecordsKept (s t : State) : Prop :=
  t.clock = s.clock ∧ t.clockSet = s.clockSet ∧ t.day = s.day ∧ t.mode = s.mode ∧ t.holds = s.holds
    ∧ t.report = s.report ∧ t.sessionCounter = s.sessionCounter ∧ t.valid = s.valid
    ∧ t.readFails = s.readFails.tail ∧ t.pending = s.pending
    ∧ (∀ i, t.pack i = (s.pack i).map restartPack)
    ∧ t.issues = s.issues.map (fun e => if e.state = .refundPending then { e with state := .issued } else e)
    ∧ (∀ i, t.session i = (s.session i).map fun x => if x.state = .closing then { x with state := .counting } else x)
    ∧ (s.spoils.length + (conversionEntries s).length ≤ 256 →
      t.spoils = s.spoils ++ conversionEntries s
      ∧ t.running = { (defaultedAt s t).running with
          abandoned := (conversionEntries s).foldl (fun a e => min (a + e.count) 999999999) s.running.abandoned }
      ∧ t.night = ((defaultedAt s t).night || s.mode == .night && !(conversionEntries s).isEmpty)
      ∧ t.overwritten = (defaultedAt s t).overwritten ∧ t.faultCounter = (defaultedAt s t).faultCounter
      ∧ ((s.faults.map fun r => r.number).Nodup → s.faultCounter ∉ s.faults.map (fun r => r.number) →
        (s.faults.filter isOpenFull).length ≤ 1 →
        t.faults = (defaultedAt s t).faults.map fun r =>
          restartFull (256 - t.spoils.length) (restartFault t.presentPrinters r)))

/-- What a start that finds the validity marker lost leaves: every retained item at its initial value, then
RECORDS_LOST raised, and CONFIG_DEFAULTED if no image was read (R120, R202). -/
def RecordsInitial (s t : State) : Prop :=
  t.packs = Vector.replicate 32 none ∧ t.spoils = [] ∧ t.issues = [] ∧ t.sessions = Vector.replicate 24 none
    ∧ t.sessionCounter = 1 ∧ t.holds = Vector.replicate 12 false ∧ t.mode = .opened ∧ t.day = 1 ∧ t.report = none
    ∧ t.night = false ∧ t.clock = 0 ∧ t.clockSet = false ∧ t.valid = true ∧ t.overwritten = false
    ∧ t.faults = officeRecord 0 1 .recordsLost .opened true ::
        (if imageReadAt s t = none then [officeRecord 1 2 .configDefaulted .cleared false] else [])
    ∧ t.faultCounter = (if imageReadAt s t = none then 3 else 2)
    ∧ t.running = { zeroSummary with officeFaults := if imageReadAt s t = none then 2 else 1 }
    ∧ t.readFails = s.readFails.tail ∧ t.pending = s.pending

end Sys2Proof.Machine
end

