-- ==== Sys2Proof/Certificates/Slice0/Obligations.lean ====
section
/-! DEFINITION. The statements about the part. `Accepts` names the conditions under which a port takes a request, and
`Answered` or `Told` what the ports hold afterwards; an equation `t = { s with ports := t.ports, … }` is the frame: every
field of the state that it does not name is as it was. -/

open Sys2Proof Sys2Proof.Machine

/-! ### Till sessions and authorisation (R121 to R143) -/

/-- R121, R123, R125: OPEN SESSION makes the record, in the lowest free place and with the counter's number, and the
counter moves on by 1, from 65,535 to 1, where no record holds that number. -/
def Obligations.OpenSessionMakesRecord : Prop :=
  ∀ (p : Port) (h : Header) (clerk float : Nat) (w : Option Nat) (rest : List (List Byte)) (s : State) (x : Window)
    (i : SessionIx),
    Accepts p h (.openSession p h clerk float w) rest s → s.presentWindow p w = some x → s.mode = .opened →
    clerk ≤ 9999 → float ≤ 10000000 → s.windowSession x .opened = none → s.windowSession x .closing = none →
    lowestFree s.sessions = some i →
    ∃ t, exec (.openSession p h clerk float w) s = .next t
      ∧ Answered p h 0x01 .done (.opened s.sessionCounter) rest [] s t
      ∧ t = { s with
          ports := t.ports, sessionCounter := t.sessionCounter,
          sessions := put s.sessions i (some
            { number := s.sessionCounter, window := x, clerk := clerk, state := .opened, forced := false,
              float := float, openedAt := s.clock, closedAt := none, sales := allTenders 0, refunds := allTenders 0,
              clamped := allTenders false, tickets := 0, coupons := 0, voids := 0, voidsAmount := 0, refundsCount := 0,
              spoiltVoided := 0, spoiltAbandoned := 0, spoiltBad := 0, declaration := none, results := none,
              recounts := 0 }) }
      ∧ ((∀ j y, s.session j = some y → y.number ≠ if 65535 ≤ s.sessionCounter then 1 else s.sessionCounter + 1) →
          t.sessionCounter = if 65535 ≤ s.sessionCounter then 1 else s.sessionCounter + 1)

/-- R140 to R142: CLOSE SESSION of a session that has no job in the table takes it to COUNTING at once, with its closed
time, and the window and S are told before the reply. FORCE CLOSE of an OPEN session does the same with the forced
marker; of a CLOSING or COUNTING session it sets the marker alone. No authorisation of the window is pending in the
closes covered, and no READY printer with an empty queue waits on space. -/
def Obligations.CloseAndForceClose : Prop :=
  ∀ (p : Port) (h : Header) (rest : List (List Byte)) (s : State) (i : SessionIx) (x : Session),
    s.session i = some x → s.sessionOf x.number = some i →
    (∀ w, Accepts p h (.closeSession p h w) rest s → requestWindow p w = some x.window →
      s.windowSession x.window .opened = some i → s.slot x.window = none → s.liveJobs x.number = 0 →
      (∀ q, (s.printer q).state = .ready → (s.printer q).waiting = true → (s.printer q).queue ≠ []) →
      ∃ t, exec (.closeSession p h w) s = .next t
        ∧ Answered p h 0x06 .done (.closed x.number .counting 0) rest (countDueNotes x s.clock) s t
        ∧ t = { s with
            ports := t.ports,
            sessions := put s.sessions i (some { x with state := .counting, closedAt := some s.clock }) })
    ∧ (∀ n, Accepts p h (.forceClose p h n) rest s → n = x.number → 1 ≤ n → x.forced = false → x.state = .opened →
      s.slot x.window = none → s.liveJobs x.number = 0 →
      (∀ q, (s.printer q).state = .ready → (s.printer q).waiting = true → (s.printer q).queue ≠ []) →
      ∃ t, exec (.forceClose p h n) s = .next t
        ∧ Answered p h 0x2F .done (.forceClosed .counting) rest
            (countDueNotes { x with forced := true } s.clock) s t
        ∧ t = { s with
            ports := t.ports,
            sessions := put s.sessions i
              (some { x with forced := true, state := .counting, closedAt := some s.clock }) })
    ∧ (∀ n, Accepts p h (.forceClose p h n) rest s → n = x.number → 1 ≤ n → x.forced = false →
      (x.state = .closing ∨ x.state = .counting) →
      ∃ t, exec (.forceClose p h n) s = .next t
        ∧ Answered p h 0x2F .done (.forceClosed x.state) rest [] s t
        ∧ t = { s with ports := t.ports, sessions := put s.sessions i (some { x with forced := true }) })

/-- R130, R131, R92, R126: a VOID that is posted. The blanks move from issued to spoiled, one spoil entry is made for each
run of serials, the entry becomes VOIDED, and the session gives back the fare unless the tender is clamped, with its
counts saturating. -/
def Obligations.VoidPosted : Prop :=
  ∀ (p : Port) (h : Header) (serial : Nat) (rest : List (List Byte)) (s : State) (e : IssueEntry) (i : SessionIx)
    (x : Session) (k : PackIx) (pk : Pack),
    Accepts p h (.voidTicket p h serial) rest s → s.mode = .opened → 1 ≤ serial → serial ≤ 9999999 →
    s.issueOf serial = some e → e.state = .issued → s.lateVoidPending e = false →
    s.sessionOf e.session = some i → s.session i = some x → x.state = .opened →
    (∀ w, p = .win w → s.hold w = false ∧ s.windowSession w .opened = some i
      ∧ ticketAge s e ≤ s.params.voidWindow) →
    (voidRuns e).length ≤ s.unreserved →
    s.packOf (e.serials.headD 0) = some k → s.pack k = some pk → e.serials.length ≤ pk.issued →
    ∃ t, exec (.voidTicket p h serial) s = .next t
      ∧ Answered p h 0x04 .done (.voided e.serials e.fare e.tender (voidRuns e).length) rest [] s t
      ∧ t = { s with
          ports := t.ports,
          spoils := s.spoils ++ (voidRuns e).map (fun r =>
            { first := r.1, count := r.2, cause := .voided, printer := none, session := some e.session, fault := none,
              day := s.day, time := s.clock }),
          issues := s.issues.map (fun y => if (e.serials.headD 0) ∈ y.serials then { y with state := .voided } else y),
          packs := put s.packs k (some
            { pk with issued := pk.issued - e.serials.length, spoiled := pk.spoiled + e.serials.length }),
          sessions := put s.sessions i (some
            { x with
              sales := if x.clamped.of e.tender = true then x.sales
                else x.sales.set e.tender (x.sales.of e.tender - e.fare),
              voids := min (x.voids + 1) 65535, voidsAmount := min (x.voidsAmount + e.fare) 99999999,
              spoiltVoided := min (x.spoiltVoided + e.serials.length) 65535 }),
          running := { s.running with
            voided := (voidRuns e).foldl (fun a r => min (a + r.2) 999999999) s.running.voided } }

/-- R130, R132, R135, R139: a window's VOID that is late, and a window's REFUND above the limit or of a ticket that is not
in the list, are referred: the window's slot is filled, the entry of a REFUND that was found becomes REFUND_PENDING, S
is told, the reply is REFERRED and nothing else moves. -/
def Obligations.LateVoidAndRefundReferred : Prop :=
  ∀ (w : Window) (h : Header) (serial : Nat) (rest : List (List Byte)) (s : State) (i : SessionIx) (x : Session),
    s.mode = .opened → s.hold w = false → 1 ≤ serial → serial ≤ 9999999 →
    s.windowSession w .opened = some i → s.session i = some x → s.slot w = none →
    (∀ e, Accepts (.win w) h (.voidTicket (.win w) h serial) rest s →
      s.issueOf serial = some e → e.state = .issued → s.lateVoidPending e = false → e.session = x.number →
      s.params.voidWindow < ticketAge s e →
      ∃ t a, a = { kind := .lateVoid, serial := serial, found := true, amount := e.fare, tender := e.tender,
                   session := x.number, raised := s.clock, duration := s.params.authTime }
        ∧ exec (.voidTicket (.win w) h serial) s = .next t
        ∧ Answered (.win w) h 0x04 .referred (.referred serial .lateVoid s.params.authTime) rest
            [(.sup, .authorisationWanted w a (some e))] s t
        ∧ t = { s with ports := t.ports, slots := put s.slots w (some a) })
    ∧ (∀ amount tender tn entry, Accepts (.win w) h (.refund (.win w) h serial amount tender none) rest s →
      toTender tender = some tn → 1 ≤ amount → amount ≤ 999999 → s.issueOf serial = entry →
      (∀ e, entry = some e → e.state = .issued ∧ s.lateVoidPending e = false ∧ amount ≤ e.fare ∧ tn = e.tender
        ∧ s.params.refundLimit < amount) →
      ∃ t a, a = { kind := .refund, serial := serial, found := entry.isSome, amount := amount, tender := tn,
                   session := x.number, raised := s.clock, duration := s.params.authTime }
        ∧ exec (.refund (.win w) h serial amount tender none) s = .next t
        ∧ Answered (.win w) h 0x05 .referred (.referred serial .refund s.params.authTime) rest
            [(.sup, .authorisationWanted w a entry)] s t
        ∧ t = { s with
            ports := t.ports, slots := put s.slots w (some a),
            issues := if entry.isSome = true then
                s.issues.map fun y => if serial ∈ y.serials then { y with state := .refundPending } else y
              else s.issues })

/-- R132, R133: a REFUND that is posted: from the supervisor always, from a window when the ticket was found and the
amount is within the limit. -/
def Obligations.RefundPosted : Prop :=
  ∀ (p : Port) (h : Header) (serial amount tender : Nat) (w : Option Nat) (rest : List (List Byte)) (s : State)
    (v : Window) (i : SessionIx) (x : Session) (tn : Tender) (entry : Option IssueEntry),
    Accepts p h (.refund p h serial amount tender w) rest s → s.presentWindow p w = some v → s.mode = .opened →
    s.hold v = false → toTender tender = some tn → 1 ≤ serial → serial ≤ 9999999 → 1 ≤ amount → amount ≤ 999999 →
    s.windowSession v .opened = some i → s.session i = some x → s.sessionOf x.number = some i →
    s.issueOf serial = entry →
    (∀ e, entry = some e → e.state = .issued ∧ s.lateVoidPending e = false ∧ amount ≤ e.fare ∧ tn = e.tender) →
    (p ≠ .sup → entry.isSome = true ∧ amount ≤ s.params.refundLimit) →
    ∃ t, exec (.refund p h serial amount tender w) s = .next t
      ∧ Answered p h 0x05 .done (.refunded serial amount tn x.number) rest [] s t
      ∧ t = { s with
          ports := t.ports,
          sessions := put s.sessions i (some
            { refundsAfter tn amount x with refundsCount := min (x.refundsCount + 1) 65535 }),
          issues := if entry.isSome = true then
              s.issues.map fun y => if serial ∈ y.serials then { y with state := .refunded } else y
            else s.issues }

/-- R136, R137, R138: a pending authorisation is declined, an approved REFUND is posted, or the slot's timer runs out; the
slot empties and the window is told. -/
def Obligations.AnswerAndExpiry : Prop :=
  ∀ (w : Window) (a : AuthSlot) (s : State), s.slot w = some a →
    (∀ h n rest, Accepts .sup h (.answer .sup h n a.serial 1) rest s → toWindow n = some w →
      ∃ t, exec (.answer .sup h n a.serial 1) s = .next t
        ∧ Answered .sup h 0x29 .done (.answered w a.serial false) rest
            [(.win w, .authorisationAnswer a.serial a.kind .declined a.session)] s t
        ∧ t = { s with ports := t.ports, slots := put s.slots w none,
                       issues := issuesReturned a s.issues })
    ∧ (∀ h n rest i x, Accepts .sup h (.answer .sup h n a.serial 0) rest s → toWindow n = some w →
      a.kind = .refund → s.sessionOf a.session = some i → s.session i = some x →
      ∃ t, exec (.answer .sup h n a.serial 0) s = .next t
        ∧ Answered .sup h 0x29 .done (.answered w a.serial true) rest
            [(.win w, .authorisationAnswer a.serial a.kind .approved a.session)] s t
        ∧ t = { s with
            ports := t.ports, slots := put s.slots w none,
            sessions := put s.sessions i (some
              { refundsAfter a.tender a.amount x with refundsCount := min (x.refundsCount + 1) 65535 }),
            issues := if a.found = true then
                s.issues.map fun y => if a.serial ∈ y.serials then { y with state := .refunded } else y
              else s.issues })
    ∧ (s.live = true →
      ∃ t, exec (.authorisationExpiry w) s = .next t
        ∧ Told [(.win w, .authorisationAnswer a.serial a.kind .expired a.session)] s t
        ∧ t = { s with ports := t.ports, slots := put s.slots w none,
                       issues := issuesReturned a s.issues })

/-- R143: QUERY SESSION changes nothing. A window is given the record of one of its own sessions without any figure of
what the till should hold, by number or, with none given, its OPEN or else its CLOSING session; the supervisor is given
the whole record, its live-job count and the slot of its window. -/
def Obligations.QuerySessionReplies : Prop :=
  ∀ (h : Header) (rest : List (List Byte)) (s : State) (i : SessionIx) (x : Session), s.session i = some x →
    (∀ n w, Accepts (.win w) h (.querySession (.win w) h n) rest s → x.window = w →
      (∀ m, n = some m → m = x.number ∧ 1 ≤ m ∧ s.sessionOf m = some i) →
      (n = none → (s.windowSession w .opened).or (s.windowSession w .closing) = some i) →
      ∃ t, exec (.querySession (.win w) h n) s = .next t ∧ t = { s with ports := t.ports }
        ∧ Answered (.win w) h 0x0D .done (.sessionBrief
            { number := x.number, window := x.window, clerk := x.clerk, state := x.state, forced := x.forced,
              float := x.float, openedAt := x.openedAt, closedAt := x.closedAt, tickets := x.tickets,
              coupons := x.coupons, voids := x.voids, refundsCount := x.refundsCount, live := s.liveJobs x.number,
              recounts := x.recounts,
              slot := (s.slot w).map fun a =>
                { kind := a.kind, serial := a.serial, amount := a.amount, tender := a.tender, raised := a.raised } })
            rest [] s t)
    ∧ (∀ n, Accepts .sup h (.querySession .sup h (some n)) rest s → n = x.number → 1 ≤ n → s.sessionOf n = some i →
      ∃ t, exec (.querySession .sup h (some n)) s = .next t ∧ t = { s with ports := t.ports }
        ∧ Answered .sup h 0x0D .done (.session x (s.liveJobs n) (s.slot x.window)) rest [] s t)

/-! ### Cash-up (R146 to R161) -/

/-- R147, R148, R155: a DECLARE that passes writes the declaration and the results into the session's record, which
becomes RECONCILED; S is sent CASH-UP READY; and the reply carries the figures to the supervisor only. That the reply
stands behind the notice at S is the model's order (log entry 10). -/
def Obligations.DeclareReconciles : Prop :=
  ∀ (p : Port) (h : Header) (n cash card warrant voucher docs : Nat) (rest : List (List Byte)) (s : State)
    (i : SessionIx) (x : Session),
    Accepts p h (.declare p h n cash card warrant voucher docs) rest s → 1 ≤ n → cash ≤ 99999999 → card ≤ 99999999 →
    warrant ≤ 99999999 → voucher ≤ 99999999 → docs ≤ 999 → s.sessionOf n = some i → s.session i = some x →
    x.state = .counting → (∀ w, p = .win w → x.window = w ∧ x.forced = false) →
    ∃ t d c, d = { amounts := { cash := cash, card := card, warrant := warrant, voucher := voucher }, docs := docs,
                   declaredBy := p, time := s.clock }
      ∧ c = reconcile s.params x d
      ∧ exec (.declare p h n cash card warrant voucher docs) s = .next t
      ∧ Answered p h 0x07 .done (.declared n .reconciled x.recounts (if p = .sup then some (d, c) else none)) rest
          [(.sup, .cashUpReady n x.window x.clerk x.forced x.recounts p docs c)] s t
      ∧ t = { s with
          ports := t.ports,
          sessions := put s.sessions i
            (some { x with declaration := some d, results := some c, state := .reconciled }) }

/-- R149 to R154: the figures of a reconciliation, exactly: expected amount, variance, tolerance and class of each tender,
the expected documents and their class, and the session's outcome. -/
def Obligations.ReconcileFigures : Prop :=
  ∀ (q : Params) (x : Session) (d : Declaration),
    (∀ t : Tender,
      let r := (reconcile q x d).tenders.of t
      r.expected = (if t = .cash then (x.float : Int) else 0) + (x.sales.of t : Int) - (x.refunds.of t : Int)
        ∧ r.variance = (d.amounts.of t : Int) - r.expected
        ∧ r.tolerance = max (q.floors.of t) (r.expected.natAbs * q.rates.of t / 10000)
        ∧ (r.verdict = .limit ↔ x.clamped.of t = true)
        ∧ (r.verdict = .balanced ↔ x.clamped.of t = false ∧ r.variance.natAbs ≤ r.tolerance)
        ∧ (r.verdict = .short ↔ x.clamped.of t = false ∧ r.variance < -(r.tolerance : Int))
        ∧ (r.verdict = .overs ↔ x.clamped.of t = false ∧ (r.tolerance : Int) < r.variance))
    ∧ (reconcile q x d).expectedDocs = x.spoiltVoided + x.spoiltAbandoned + x.spoiltBad
    ∧ ((reconcile q x d).docs = .stockOk ↔ d.docs = (reconcile q x d).expectedDocs)
    ∧ ((reconcile q x d).docs = .stockShort ↔ d.docs < (reconcile q x d).expectedDocs)
    ∧ ((reconcile q x d).docs = .stockOver ↔ (reconcile q x d).expectedDocs < d.docs)
    ∧ ((reconcile q x d).outcome = .refer ↔ ∃ t, ((reconcile q x d).tenders.of t).verdict = .limit)
    ∧ ((reconcile q x d).outcome = .short ↔ (¬ ∃ t, ((reconcile q x d).tenders.of t).verdict = .limit)
        ∧ ((∃ t, ((reconcile q x d).tenders.of t).verdict = .short) ∨ (reconcile q x d).docs = .stockShort))
    ∧ ((reconcile q x d).outcome = .balanced ↔ (∀ t, ((reconcile q x d).tenders.of t).verdict = .balanced)
        ∧ (reconcile q x d).docs = .stockOk)

/-- R157, R159 to R161: RECOUNT refuses by its four checks in their order, and otherwise sends a RECONCILED session
back to COUNTING with its results absent. CASH-UP REPORT with the retire flag clear changes nothing; with it set, a
RECONCILED session's figures are added to the running summary, each total held within its limits, the record is freed,
and the fault records that name the session are marked as naming a retired one, so that no late spoil under them is
charged to a session that is given its number again. That mark is the model's own (log entry 48). -/
def Obligations.RecountAndRetire : Prop :=
  ∀ (h : Header) (n : Nat) (rest : List (List Byte)) (s : State),
    (Accepts .sup h (.recount .sup h n) rest s →
      ∃ t, exec (.recount .sup h n) s = .next t
        ∧ (n = 0 → t = { s with ports := t.ports } ∧ Answered .sup h 0x2D .outOfRange .none rest [] s t)
        ∧ (1 ≤ n → s.sessionOf n = none →
          t = { s with ports := t.ports } ∧ Answered .sup h 0x2D .notFound .none rest [] s t)
        ∧ ∀ i x, 1 ≤ n → s.sessionOf n = some i → s.session i = some x →
          (x.state ≠ .reconciled →
            t = { s with ports := t.ports } ∧ Answered .sup h 0x2D .sessionState .none rest [] s t)
          ∧ (x.state = .reconciled → 2 ≤ x.recounts →
            t = { s with ports := t.ports } ∧ Answered .sup h 0x2D .limit .none rest [] s t)
          ∧ (x.state = .reconciled → x.recounts < 2 →
            Answered .sup h 0x2D .done (.recounted n .counting (x.recounts + 1)) rest [] s t
            ∧ t = { s with
                ports := t.ports,
                sessions := put s.sessions i
                  (some { x with recounts := x.recounts + 1, results := none, state := .counting }) }))
    ∧ ∀ i x, 1 ≤ n → s.sessionOf n = some i → s.session i = some x →
      (Accepts .sup h (.cashUpReport .sup h n 0) rest s →
        ∃ t, exec (.cashUpReport .sup h n 0) s = .next t ∧ t = { s with ports := t.ports }
          ∧ Answered .sup h 0x2E .done (.cashUp x (s.liveJobs n)) rest [] s t)
      ∧ (∀ d c, Accepts .sup h (.cashUpReport .sup h n 1) rest s → x.state = .reconciled → x.declaration = some d →
        x.results = some c →
        ∃ t, exec (.cashUpReport .sup h n 1) s = .next t
          ∧ Answered .sup h 0x2E .done (.cashUp x (s.liveJobs n)) rest [] s t
          ∧ t = { s with
              ports := t.ports, sessions := put s.sessions i none, running := t.running,
              night := s.night || s.mode == .night,
              faults := s.faults.map fun r => if r.session = some x.number then { r with sessionOver := true } else r }
          ∧ (∀ y : Tender,
              t.running.sales.of y = min (s.running.sales.of y + x.sales.of y) 999999999
              ∧ t.running.refunds.of y = min (s.running.refunds.of y + x.refunds.of y) 999999999
              ∧ t.running.declared.of y = min (s.running.declared.of y + d.amounts.of y) 999999999
              ∧ t.running.variance.of y
                  = max (-999999999) (min (s.running.variance.of y + (c.tenders.of y).variance) 999999999))
          ∧ t.running = { s.running with
              sales := t.running.sales, refunds := t.running.refunds, declared := t.running.declared,
              variance := t.running.variance,
              retiredBalanced := if c.outcome = .balanced then min (s.running.retiredBalanced + 1) 999999999
                else s.running.retiredBalanced,
              retiredShort := if c.outcome = .short then min (s.running.retiredShort + 1) 999999999
                else s.running.retiredShort,
              retiredOver := if c.outcome = .overs then min (s.running.retiredOver + 1) 999999999
                else s.running.retiredOver,
              retiredRefer := if c.outcome = .refer then min (s.running.retiredRefer + 1) 999999999
                else s.running.retiredRefer })

/-- R143, R148: what a window receives in answer to DECLARE and QUERY SESSION does not depend on a session's accumulators,
clamped markers, voids amount, spoiled-coupon counts, declaration or results: two states that differ in these figures of
one session leave every window's port the same. -/
def Obligations.BlindDeclaration : Prop :=
  ∀ (w : Window) (h : Header) (c : Instr) (s : State) (i : SessionIx) (x : Session)
    (sales refunds : PerTender Nat) (clamped : PerTender Bool) (amount a b d : Nat) (dec : Option Declaration)
    (res : Option CashUp),
    (∃ n cash card warrant voucher docs, c = .declare (.win w) h n cash card warrant voucher docs)
      ∨ (∃ n, c = .querySession (.win w) h n) →
    s.session i = some x →
    ∃ t u, exec c s = .next t
      ∧ exec c (s.setSession i (some
          { x with sales := sales, refunds := refunds, clamped := clamped, voidsAmount := amount, spoiltVoided := a,
                   spoiltAbandoned := b, spoiltBad := d, declaration := dec, results := res })) = .next u
      ∧ ∀ v, t.port (.win v) = u.port (.win v)

/-! ### The business day (R163 to R173) and the clock (R197, R198) -/

/-- R168, R169, R21: DAY CLOSE with no session and no job: the office is in NIGHT, the report takes the running
summary, day and time and one line for each finished pack in ascending order of first serial, as many lines as there
are finished packs, those packs are freed, and the running summary and the night marker are cleared. -/
def Obligations.DayCloseReports : Prop :=
  ∀ (h : Header) (rest : List (List Byte)) (s : State), Accepts .sup h (.dayClose .sup h) rest s →
    s.mode = .opened → (∀ i, s.session i = none) → (∀ j, s.job j = none) →
    ∃ t lines, exec (.dayClose .sup h) s = .next t
      ∧ Answered .sup h 0x30 .done (.dayClosed s.day s.clock lines.length (countUsed t.packs)) rest [] s t
      ∧ t = { s with
          ports := t.ports, packs := t.packs, mode := .night,
          report := some { totals := s.running, day := s.day, time := s.clock, lines := lines },
          running := zeroSummary, night := false }
      ∧ (∀ i, t.pack i = match s.pack i with
          | some k => if k.state = .exhausted ∨ k.state = .returned then none else some k
          | none => none)
      ∧ (∀ l, l ∈ lines ↔ ∃ i k, s.pack i = some k ∧ (k.state = .exhausted ∨ k.state = .returned)
          ∧ l = { first := k.first, last := k.last, issued := k.issued, spoiled := k.spoiled, returned := k.returned,
                  state := k.state })
      ∧ lines.length = (List.finRange 32).countP (fun i => (s.pack i).any fun k =>
          k.state == .exhausted || k.state == .returned)
      ∧ lines.Pairwise (fun a b => a.first ≤ b.first)

/-- R170: DAY OPEN in NIGHT begins the new business day; in OPEN it is refused SESSION_STATE and changes nothing. -/
def Obligations.DayOpenBegins : Prop :=
  ∀ (h : Header) (rest : List (List Byte)) (s : State), Accepts .sup h (.dayOpen .sup h) rest s →
    ∃ t, exec (.dayOpen .sup h) s = .next t
      ∧ (s.mode = .opened → t = { s with ports := t.ports } ∧ Answered .sup h 0x31 .sessionState .none rest [] s t)
      ∧ (s.mode = .night →
        Answered .sup h 0x31 .done (.dayOpened (if 65535 ≤ s.day then 1 else s.day + 1)) rest [] s t
        ∧ t = { s with
            ports := t.ports, day := if 65535 ≤ s.day then 1 else s.day + 1, running := zeroSummary, night := false,
            report := none, sessionCounter := 1, issues := [], mode := .opened })

/-- R164, with the check positions of R125, R54, R130 and R132: in NIGHT, OPEN SESSION, SELL, VOID and REFUND are refused
OFFICE_CLOSED and change nothing, for a window that is present. -/
def Obligations.NightRefusesTillBusiness : Prop :=
  ∀ (p : Port) (h : Header) (c : Instr) (rest : List (List Byte)) (s : State), Accepts p h c rest s → s.mode = .night →
    (∃ clerk float w, c = .openSession p h clerk float w ∧ (s.presentWindow p w).isSome = true)
      ∨ (∃ kind coupons fare tender texts w, c = .sell p h kind coupons fare tender texts w
          ∧ (s.presentWindow p w).isSome = true)
      ∨ (∃ serial, c = .voidTicket p h serial)
      ∨ (∃ serial amount tender w, c = .refund p h serial amount tender w
          ∧ (s.presentWindow p w).isSome = true) →
    ∃ t, exec c s = .next t ∧ t = { s with ports := t.ports }
      ∧ Answered p h ((requestCode c).getD 0) .officeClosed .none rest [] s t

/-- R171, R172: DAY REPORT and QUERY OFFICE tell what they name and change nothing, but that a query from S clears the
overwritten marker after reporting it. To S, QUERY OFFICE tells the further figures too. -/
def Obligations.DayReportAndQueryOffice : Prop :=
  ∀ (p : Port) (h : Header) (rest : List (List Byte)) (s : State),
    (Accepts p h (.dayReport p h 0 none) rest s →
      ∃ t v, exec (.dayReport p h 0 none) s = .next t ∧ t = { s with ports := t.ports }
        ∧ Answered p h 0x32 .done v rest [] s t
        ∧ (s.mode = .opened → v = .running s.running s.day)
        ∧ (∀ r, s.mode = .night → s.report = some r → v = .final r.totals r.day r.time r.lines.length))
    ∧ (∀ a r, Accepts p h (.dayReport p h 1 (some a)) rest s → a ≤ 31 → s.mode = .night → s.report = some r →
      ∃ t, exec (.dayReport p h 1 (some a)) s = .next t ∧ t = { s with ports := t.ports }
        ∧ Answered p h 0x32 .done (.packLines ((r.lines.drop a).take 8) r.lines.length) rest [] s t)
    ∧ (Accepts p h (.dayReport p h 2 none) rest s → s.mode = .night →
      ∃ t, exec (.dayReport p h 2 none) s = .next t ∧ t = { s with ports := t.ports }
        ∧ Answered p h 0x32 .done (.nightFigures s.running s.night s.day) rest [] s t)
    ∧ (Accepts p h (.queryOffice p h) rest s →
      ∃ t, exec (.queryOffice p h) s = .next t
        ∧ Answered p h 0x0F .done (.office
            { mode := s.mode, day := s.day, clock := s.clock, clockSet := s.clockSet,
              recordsLostOpen := s.recordsLostOpen, inUse := s.inUse p, reserved := s.reservation p,
              ceiling := s.ceiling p, sharedFree := s.sharedFree, unreserved := s.unreserved,
              overwritten := s.overwritten }
            (if p = .sup then
              some { packs := countUsed s.packs, sessions := countUsed s.sessions, jobs := countUsed s.jobs,
                     used := s.spoils.length, reserved := s.reserved,
                     waiting := (List.finRange 8).countP fun q => (s.printer q).waiting, issues := s.issues.length,
                     faults := s.faults.length, notClosed := s.faults.countP fun r => r.state != .closed,
                     report := s.report.isSome, night := s.night }
            else none)) rest [] s t
        ∧ t = { s with ports := t.ports, overwritten := if p = .sup then false else s.overwritten })

/-- R197, R198: the clock counts seconds, wrapping from 86,399 to 0, whether or not the part is powered or in reset;
SET TIME sets it and its marker, and refuses a reading above 86,399. The tick in every state is log entry 25. -/
def Obligations.ClockAndSetTime : Prop :=
  ∀ (s : State),
    (s.clock < 86400 →
      ∃ t, exec .clockTick s = .next t
        ∧ t = { s with clock := if s.clock = 86399 then 0 else s.clock + 1 })
    ∧ (∀ h n rest, Accepts .sup h (.setTime .sup h n) rest s →
      ∃ t, exec (.setTime .sup h n) s = .next t
        ∧ (n ≤ 86399 → Answered .sup h 0x33 .done (.timeSet s.clock) rest [] s t
          ∧ t = { s with ports := t.ports, clock := n, clockSet := true })
        ∧ (86399 < n → Answered .sup h 0x33 .outOfRange .none rest [] s t ∧ t = { s with ports := t.ports }))

/-! ### Blank stock (R1 to R20) -/

/-- R6, R1, R20: RECEIVE PACK makes an IN_STORE record in the lowest free place, and the day counts it. -/
def Obligations.ReceivePackMakesRecord : Prop :=
  ∀ (h : Header) (a b : Nat) (rest : List (List Byte)) (s : State) (i : PackIx),
    Accepts .sup h (.receivePack .sup h a b) rest s → 1 ≤ a → a ≤ b → b ≤ 9999999 → b + 1 - a ≤ 2000 →
    (∀ j k, s.pack j = some k → b < k.first ∨ k.last < a) →
    (∀ e ∈ s.spoils, b < e.first ∨ e.first + e.count ≤ a) →
    (∀ e ∈ s.issues, ∀ n ∈ e.serials, n < a ∨ b < n) → lowestFree s.packs = some i →
    ∃ t, exec (.receivePack .sup h a b) s = .next t
      ∧ Answered .sup h 0x20 .done (.received i (b + 1 - a)) rest [] s t
      ∧ t = { s with
          ports := t.ports,
          packs := put s.packs i (some
            { first := a, last := b, next := a, issued := 0, spoiled := 0, returned := 0, inPrint := [],
              state := .inStore, printer := none, prior := none, day := s.day, time := s.clock }),
          running := { s.running with packsReceived := min (s.running.packsReceived + 1) 999999999 },
          night := s.night || s.mode == .night }

/-- R6: RECEIVE PACK of a range out of the limits is refused OUT_OF_RANGE; of a range that meets a record, a spoil entry
or an issued ticket, OVERLAP; with no record free, TABLE_FULL. Nothing changes. -/
def Obligations.ReceivePackRefusals : Prop :=
  ∀ (h : Header) (a b : Nat) (rest : List (List Byte)) (s : State),
    Accepts .sup h (.receivePack .sup h a b) rest s →
    ∃ t, exec (.receivePack .sup h a b) s = .next t
      ∧ (¬(1 ≤ a ∧ a ≤ b ∧ b ≤ 9999999 ∧ b + 1 - a ≤ 2000) →
          t = { s with ports := t.ports } ∧ Answered .sup h 0x20 .outOfRange .none rest [] s t)
      ∧ (1 ≤ a ∧ a ≤ b ∧ b ≤ 9999999 ∧ b + 1 - a ≤ 2000 →
          ((∃ j k, s.pack j = some k ∧ k.first ≤ b ∧ a ≤ k.last)
            ∨ (∃ e ∈ s.spoils, 0 < e.count ∧ e.first ≤ b ∧ a < e.first + e.count)
            ∨ (∃ e ∈ s.issues, ∃ n ∈ e.serials, a ≤ n ∧ n ≤ b) →
            t = { s with ports := t.ports } ∧ Answered .sup h 0x20 .overlap .none rest [] s t)
          ∧ ((∀ j k, s.pack j = some k → b < k.first ∨ k.last < a) →
            (∀ e ∈ s.spoils, b < e.first ∨ e.first + e.count ≤ a) →
            (∀ e ∈ s.issues, ∀ n ∈ e.serials, n < a ∨ b < n) → (∀ j, (s.pack j).isSome = true) →
            t = { s with ports := t.ports } ∧ Answered .sup h 0x20 .tableFull .none rest [] s t))

/-- R7, R8, R182: LOAD PACK that passes takes the pack to LOADING, begins the LOAD sense and stays in hand with no reply;
a window may send it for its primary printer where stock handling is on. -/
def Obligations.LoadPackBegins : Prop :=
  ∀ (p : Port) (h : Header) (serial n : Nat) (rest : List (List Byte)) (s : State) (q : PrinterId) (i : PackIx)
    (k : Pack),
    Accepts p h (.loadPack p h serial n) rest s → toPrinter n = some q → 1 ≤ serial → serial ≤ 9999999 →
    (∀ w, p = .win w → s.params.stockHandling = true ∧ (s.pair w).primary = q) →
    s.packOf serial = some i → s.pack i = some k → (k.state = .inStore ∨ k.state = .partUsed) →
    ((s.printer q).state = .unloaded ∨ (s.printer q).state = .outOfService ∨ (s.printer q).state = .faulted) →
    s.loadedAt q = none → s.loadingAt q = none → (s.printer q).sense ≠ .resync →
    ∃ t, exec (.loadPack p h serial n) s = .next t
      ∧ t.port p = { s.port p with
          fifo := rest,
          hand := some { op := .load q, code := 0x09, tag := h.tag, quiet := h.quiet, broken := false } }
      ∧ OthersSame p s t
      ∧ t = { s with
          ports := t.ports,
          packs := put s.packs i (some { k with prior := some k.state, state := .loading, printer := some q }),
          printers := put s.printers q
            { s.printer q with
              state := if (s.printer q).state = .unloaded then .sensing else (s.printer q).state,
              command := .sense, sense := .load } }

/-- R14, R20: UNLOAD PACK takes the LOADED pack out: EXHAUSTED with no blank left, which the day counts, else PART_USED. A
READY printer becomes UNLOADED; one OUT_OF_SERVICE or FAULTED stays. Covered: a pack with nothing in print, at a printer
that does not wait. -/
def Obligations.UnloadPackTakesOut : Prop :=
  ∀ (p : Port) (h : Header) (n : Nat) (rest : List (List Byte)) (s : State) (q : PrinterId) (i : PackIx) (k : Pack),
    Accepts p h (.unloadPack p h n) rest s → toPrinter n = some q →
    (∀ w, p = .win w → s.params.stockHandling = true ∧ (s.pair w).primary = q) →
    ((s.printer q).state = .ready ∨ (s.printer q).state = .outOfService ∨ (s.printer q).state = .faulted) →
    (s.printer q).sense ≠ .resync → (s.printer q).queue = [] → (s.printer q).waiting = false →
    s.loadedAt q = some i → s.pack i = some k → k.inPrint = [] →
    ∃ t st, st = (if k.last + 1 - k.next = 0 then PackState.exhausted else .partUsed)
      ∧ exec (.unloadPack p h n) s = .next t
      ∧ Answered p h 0x0A .done (.unloaded i st (k.last + 1 - k.next)) rest [] s t
      ∧ t = { s with
          ports := t.ports, packs := put s.packs i (some { k with state := st, printer := none }),
          printers := if (s.printer q).state = .ready then
              put s.printers q { s.printer q with state := .unloaded }
            else s.printers,
          running := if st = .exhausted then
              { s.running with packsExhausted := min (s.running.packsExhausted + 1) 999999999 }
            else s.running,
          night := if st = .exhausted then s.night || s.mode == .night else s.night }

/-- R15, R16, R20, R92, R93: RETURN PACK sends the unused blanks back; WRITE OFF spoils the next ones with one WRITTEN_OFF
entry, and exhausts a pack whose last unused blank it takes. -/
def Obligations.ReturnAndWriteOff : Prop :=
  ∀ (h : Header) (serial : Nat) (rest : List (List Byte)) (s : State) (i : PackIx) (k : Pack),
    1 ≤ serial → serial ≤ 9999999 → s.packOf serial = some i → s.pack i = some k →
    (k.state = .inStore ∨ k.state = .partUsed) →
    (Accepts .sup h (.returnPack .sup h serial) rest s →
      ∃ t, exec (.returnPack .sup h serial) s = .next t
        ∧ Answered .sup h 0x21 .done (.returned i (k.last + 1 - k.next)) rest [] s t
        ∧ t = { s with
            ports := t.ports,
            packs := put s.packs i (some
              { k with returned := k.returned + (k.last + 1 - k.next), next := k.last + 1, state := .returned }),
            running := { s.running with packsReturned := min (s.running.packsReturned + 1) 999999999 },
            night := s.night || s.mode == .night })
    ∧ (∀ n, Accepts .sup h (.writeOff .sup h serial n) rest s → 1 ≤ n → n ≤ k.last + 1 - k.next → 1 ≤ s.unreserved →
      ∃ t st, st = (if n = k.last + 1 - k.next then PackState.exhausted else k.state)
        ∧ exec (.writeOff .sup h serial n) s = .next t
        ∧ Answered .sup h 0x22 .done (.writtenOff i k.next n (k.last + 1 - k.next - n)) rest [] s t
        ∧ t = { s with
            ports := t.ports,
            packs := put s.packs i (some { k with spoiled := k.spoiled + n, next := k.next + n, state := st }),
            spoils := s.spoils ++ [{ first := k.next, count := n, cause := .writtenOff, printer := none,
                                     session := none, fault := none, day := s.day, time := s.clock }],
            running := { s.running with
              writtenOff := min (s.running.writtenOff + n) 999999999,
              packsExhausted := if st = .exhausted then min (s.running.packsExhausted + 1) 999999999
                else s.running.packsExhausted },
            night := s.night || s.mode == .night })

/-- R19, R48, R62: QUERY PACK, QUERY PRINTER and QUERY JOB change nothing and tell the record they name, to a port that may
see it. QUERY PRINTER tells the pack LOADED or LOADING at the printer, the job in print with its coupon, and the queue; a
window hears the tags of its own jobs alone. -/
def Obligations.QueryRecordsReply : Prop :=
  ∀ (p : Port) (h : Header) (rest : List (List Byte)) (s : State),
    (∀ name i k, Accepts p h (.queryPack p h name) rest s → s.pack i = some k →
      (name = .index i.val ∨ ∃ n, name = .serial n ∧ 1 ≤ n ∧ n ≤ 9999999 ∧ s.packOf n = some i) →
      (∀ w, p = .win w → (k.state = .loading ∨ k.state = .loaded) ∧ ∃ q, k.printer = some q
        ∧ ((s.pair w).primary = q ∨ (s.pair w).alternate = some q)) →
      ∃ t, exec (.queryPack p h name) s = .next t ∧ t = { s with ports := t.ports }
        ∧ Answered p h 0x0E .done (.pack i k (countUsed s.packs)) rest [] s t)
    ∧ (∀ n q, Accepts p h (.queryPrinter p h n) rest s → toPrinter n = some q →
      (∀ w, p = .win w → (s.pair w).primary = q ∨ (s.pair w).alternate = some q) →
      ∃ t v, exec (.queryPrinter p h n) s = .next t ∧ t = { s with ports := t.ports }
        ∧ Answered p h 0x0C .done (.printer v) rest [] s t
        ∧ v = { printer := q, state := (s.printer q).state, outOfService := (s.printer q).outOfService,
                waiting := (s.printer q).waiting, pack := v.pack, inPrint := v.inPrint, queue := v.queue,
                command := (s.printer q).command, sense := (s.printer q).sense, misses := (s.printer q).misses,
                reported := (s.printer q).reported, allowance := (s.printer q).allowance,
                fault := (s.stopRecord q).map fun r => r.number }
        ∧ (∀ i a b, v.pack = some (i, a, b) → ∃ k, s.pack i = some k ∧ (k.state = .loaded ∨ k.state = .loading)
          ∧ k.printer = some q ∧ a = k.next ∧ b = k.last + 1 - k.next)
        ∧ (v.pack = none → ∀ i k, s.pack i = some k → k.printer = some q → k.state ≠ .loaded ∧ k.state ≠ .loading)
        ∧ ((s.printer q).job = none → v.inPrint = none)
        ∧ (∀ j x, (s.printer q).job = some j → s.job j = some x →
          v.inPrint = some
            { job := { number := j, tag := if x.port = p ∨ p = .sup then some x.tag else none }, coupons := x.coupons,
              coupon := (s.printer q).outstanding.or (match (s.printer q).command with
                | .print k => some k
                | .none => none
                | .sense => none),
              unconfirmed := (s.printer q).unconfirmed })
        ∧ v.queue.map (fun r => r.number) = (s.printer q).queue
        ∧ (∀ r ∈ v.queue, ∀ x, s.job r.number = some x → r.tag = if x.port = p ∨ p = .sup then some x.tag else none))
    ∧ (∀ name j x, Accepts p h (.queryJob p h name) rest s → s.job j = some x →
      (name = none ∧ s.jobOfTag p h.tag = some j) ∨ name = some (.number j.val)
        ∨ (∃ n r, name = some (.ofPort n) ∧ toPort n = some r ∧ s.jobOfTag r h.tag = some j) →
      ∃ t v, exec (.queryJob p h name) s = .next t ∧ t = { s with ports := t.ports }
        ∧ Answered p h 0x0B .done (.job v) rest [] s t
        ∧ v = { number := j, port := x.port, window := x.window, tag := x.tag, session := x.session, kind := x.kind,
                coupons := x.coupons, fare := x.fare, tender := x.tender, admitted := x.admitted, state := x.state,
                printer := x.printer, position := v.position, nextCoupon := x.nextCoupon, good := x.good, bad := x.bad,
                skip := x.skip, restarts := x.restarts, diverted := x.diverted }
        ∧ (v.position = if x.state = .queued then positionIn j (s.printer x.printer).queue else none))

/-! ### Ticket jobs (R49 to R62) -/

/-- R54 to R58: a SELL that passes every check and is routed to a PRINTING printer: the job takes the lowest free record
and joins the tail of the printer's queue. The reply's position and in-use count are those at the admission (log
entry 10). -/
def Obligations.SellQueues : Prop :=
  ∀ (p : Port) (h : Header) (kind coupons fare tender : Nat) (texts : List (List Byte)) (w : Option Nat)
    (rest : List (List Byte)) (s : State) (v : Window) (i : SessionIx) (x : Session) (k : TicketKind) (tn : Tender)
    (q : PrinterId) (j : JobNo),
    Accepts p h (.sell p h kind coupons fare tender texts w) rest s → s.presentWindow p w = some v →
    s.mode = .opened → s.recordsLostOpen = false → s.hold v = false → s.windowSession v .opened = some i →
    s.session i = some x → toTicketKind kind = some k → toTender tender = some tn → couponsOk k coupons = true →
    fare ≤ 999999 → textsOk texts = true → h.tag ≠ 0 → s.jobOfTag p h.tag = none → s.admits p = true →
    s.route v = some q → lowestFree s.jobs = some j → (s.printer q).state = .printing → j ∉ (s.printer q).queue →
    ∃ t, exec (.sell p h kind coupons fare tender texts w) s = .next t
      ∧ Answered p h 0x02 .done (.sold j q ((s.printer q).queue.length + 1) (s.inUse p + 1)) rest [] s t
      ∧ t = { s with
          ports := t.ports,
          jobs := put s.jobs j (some
            { port := p, window := some v, tag := h.tag, session := some x.number, kind := k, coupons := coupons,
              fare := fare, tender := some tn, texts := texts, urgent := false, state := .queued, printer := q,
              nextCoupon := 1, good := [], bad := 0, skip := 0, restarts := 0, diverted := false,
              admitted := s.clock }),
          printers := put s.printers q { s.printer q with queue := (s.printer q).queue ++ [j] } }

/-- R42, R44, R56, R63: a SELL routed to a READY printer with an empty queue starts at once: the job is in print,
PRINT coupon 1 is pending, and an allowance is taken where none was held. The reply's position and count are those at
the admission (log entry 10). -/
def Obligations.SellStarts : Prop :=
  ∀ (p : Port) (h : Header) (kind coupons fare tender : Nat) (texts : List (List Byte)) (w : Option Nat)
    (rest : List (List Byte)) (s : State) (v : Window) (i : SessionIx) (x : Session) (k : TicketKind) (tn : Tender)
    (q : PrinterId) (j : JobNo) (m : PackIx) (pk : Pack),
    Accepts p h (.sell p h kind coupons fare tender texts w) rest s → s.presentWindow p w = some v →
    s.mode = .opened → s.recordsLostOpen = false → s.hold v = false → s.windowSession v .opened = some i →
    s.session i = some x → toTicketKind kind = some k → toTender tender = some tn → couponsOk k coupons = true →
    fare ≤ 999999 → textsOk texts = true → h.tag ≠ 0 → s.jobOfTag p h.tag = none → s.admits p = true →
    s.route v = some q → lowestFree s.jobs = some j → (s.printer q).state = .ready → (s.printer q).queue = [] →
    (s.printer q).waiting = false → s.loadedAt q = some m → s.pack m = some pk → coupons ≤ pk.last + 1 - pk.next →
    ((s.printer q).allowance.isSome = true ∨ 10 ≤ s.unreserved) →
    ∃ t, exec (.sell p h kind coupons fare tender texts w) s = .next t
      ∧ Answered p h 0x02 .done (.sold j q 1 (s.inUse p + 1)) rest [] s t
      ∧ t = { s with
          ports := t.ports,
          jobs := put s.jobs j (some
            { port := p, window := some v, tag := h.tag, session := some x.number, kind := k, coupons := coupons,
              fare := fare, tender := some tn, texts := texts, urgent := false, state := .printing, printer := q,
              nextCoupon := 1, good := [], bad := 0, skip := 0, restarts := 0, diverted := false,
              admitted := s.clock }),
          printers := put s.printers q
            { s.printer q with
              job := some j, state := .printing, command := .print 1,
              allowance := if (s.printer q).allowance.isSome = true then (s.printer q).allowance else some 0 } }

/-- R58, R60: a TEST PRINT for a printer that is not READY: the TEST job joins the tail of the urgent section, ahead
of every other job. The reply's position is that at the admission (log entry 10). -/
def Obligations.TestPrintQueues : Prop :=
  ∀ (h : Header) (n : Nat) (texts : List (List Byte)) (rest : List (List Byte)) (s : State) (q : PrinterId) (j : JobNo),
    Accepts .sup h (.testPrint .sup h n texts) rest s → toPrinter n = some q → textsOk texts = true → h.tag ≠ 0 →
    s.jobOfTag .sup h.tag = none → (s.printer q).state ≠ .absent → (s.printer q).state ≠ .ready →
    (s.printer q).sense ≠ .resync → s.admits .sup = true →
    (s.printer q).queue.length + (if (s.printer q).job.isSome = true then 1 else 0) < 16 →
    lowestFree s.jobs = some j → j ∉ (s.printer q).queue →
    ∃ t, exec (.testPrint .sup h n texts) s = .next t
      ∧ Answered .sup h 0x26 .done (.tested j q ((s.urgentPart (s.printer q).queue).length + 1)) rest [] s t
      ∧ t = { s with
          ports := t.ports,
          jobs := put s.jobs j (some
            { port := .sup, window := none, tag := h.tag, session := none, kind := .test, coupons := 1, fare := 0,
              tender := none, texts := texts, urgent := true, state := .queued, printer := q, nextCoupon := 1,
              good := [], bad := 0, skip := 0, restarts := 0, diverted := false, admitted := s.clock }),
          printers := put s.printers q
            { s.printer q with
              queue := s.urgentPart (s.printer q).queue ++ j :: s.ordinaryPart (s.printer q).queue } }

/-- R61, R50: CANCEL of a QUEUED job frees its record and takes it out of its printer's queue. Covered: a printer that is
not READY, and a session that is not CLOSING. A PRINTING job is refused TOO_LATE, and a tag of no job NOT_FOUND. -/
def Obligations.CancelWithdraws : Prop :=
  ∀ (p : Port) (h : Header) (o : Option Nat) (rest : List (List Byte)) (s : State) (r : Port),
    Accepts p h (.cancel p h o) rest s → jobPort p o = some r →
    (∀ j x, s.jobOfTag r h.tag = some j → s.job j = some x → x.state = .queued →
      (s.printer x.printer).state ≠ .ready →
      (∀ i y, s.session i = some y → x.session = some y.number → y.state ≠ .closing) →
      ∃ t, exec (.cancel p h o) s = .next t
        ∧ Answered p h 0x03 .done (.cancelled x.printer) rest [] s t
        ∧ t = { s with
            ports := t.ports, jobs := put s.jobs j none,
            printers := put s.printers x.printer
              { s.printer x.printer with queue := (s.printer x.printer).queue.filter fun y => y != j } })
    ∧ (∀ j x, s.jobOfTag r h.tag = some j → s.job j = some x → x.state = .printing →
      ∃ t, exec (.cancel p h o) s = .next t ∧ t = { s with ports := t.ports }
        ∧ Answered p h 0x03 .tooLate .none rest [] s t)
    ∧ (s.jobOfTag r h.tag = none →
      ∃ t, exec (.cancel p h o) s = .next t ∧ t = { s with ports := t.ports }
        ∧ Answered p h 0x03 .notFound .none rest [] s t)

/-! ### Printers and windows (R46, R47, R71 to R73, R187, R188) -/

/-- R46, R47: SERVICE OUT and SERVICE IN of a printer with an empty queue that does not wait on space: the marker, and the
state that follows from it. -/
def Obligations.ServiceOutAndIn : Prop :=
  ∀ (h : Header) (n : Nat) (rest : List (List Byte)) (s : State) (q : PrinterId),
    toPrinter n = some q → (s.printer q).queue = [] → (s.printer q).waiting = false →
    (Accepts .sup h (.serviceOut .sup h n) rest s → (s.printer q).state ≠ .absent → (s.printer q).state ≠ .probe →
      (s.printer q).outOfService = false →
      ∃ t st, st = (if (s.printer q).state = .ready then PrinterState.outOfService
          else if (s.printer q).state = .printing then .draining else (s.printer q).state)
        ∧ exec (.serviceOut .sup h n) s = .next t
        ∧ Answered .sup h 0x23 .done (.service st) rest [] s t
        ∧ t = { s with
            ports := t.ports,
            printers := put s.printers q { s.printer q with outOfService := true, state := st } })
    ∧ (Accepts .sup h (.serviceIn .sup h n) rest s → (s.printer q).state ≠ .absent → (s.printer q).state ≠ .probe →
      (s.printer q).sense ≠ .resync →
      ¬((s.printer q).state = .outOfService ∧ (s.loadingAt q).isSome = true) → (s.printer q).outOfService = true →
      ∃ t st, st = (if (s.printer q).state = .outOfService then
            (if (s.loadedAt q).isSome = true then PrinterState.ready else .unloaded)
          else if (s.printer q).state = .draining then .printing else (s.printer q).state)
        ∧ exec (.serviceIn .sup h n) s = .next t
        ∧ Answered .sup h 0x24 .done (.service st) rest [] s t
        ∧ t = { s with
            ports := t.ports,
            printers := put s.printers q { s.printer q with outOfService := false, state := st } })

/-- R46, R71 to R73: SERVICE OUT of a printer `q` whose queue is one sold job that has not been diverted. A PRINTING
printer enters DRAINING and its job in print carries on, a FAULTED one keeps its state, and a READY one that waits on
space enters OUT_OF_SERVICE and waits no longer; covered for READY: the SPOIL_LIST_FULL condition stays, for want of
blanks or for another printer that waits. The waiting job goes to the tail of the queue of the other printer of its
window's pair when that one is PRINTING with room, and its port receives JOB DIVERTED. When that one is not in service,
or has no room, or the window has no other printer, the job stays and its port receives JOB HELD, with a fault number for
a FAULTED printer alone. That the reply stands behind the notice is the model's order (log entry 10). -/
def Obligations.ServiceOutDiverts : Prop :=
  ∀ (h : Header) (n : Nat) (rest : List (List Byte)) (s : State) (q : PrinterId) (j : JobNo) (x : Job) (w : Window)
    (st : PrinterState) (c : Printer),
    Accepts .sup h (.serviceOut .sup h n) rest s → toPrinter n = some q → (s.printer q).outOfService = false →
    ((s.printer q).state = .printing ∧ st = .draining
        ∧ c = { s.printer q with outOfService := true, state := .draining }
      ∨ (s.printer q).state = .faulted ∧ st = .faulted ∧ c = { s.printer q with outOfService := true }
      ∨ (s.printer q).state = .ready ∧ (s.printer q).waiting = true
        ∧ (s.freeReported < 10 ∨ ∃ p, p ≠ q ∧ (s.printer p).waiting = true) ∧ st = .outOfService
        ∧ c = { s.printer q with outOfService := true, state := .outOfService, waiting := false }) →
    (s.printer q).queue = [j] → s.job j = some x → x.urgent = false → x.diverted = false → x.window = some w →
    (∀ r, q ≠ r → ((s.pair w).primary = q ∧ (s.pair w).alternate = some r ∨ (s.pair w).primary = r) →
      (s.printer r).state = .printing →
      (s.printer r).queue.length + (if (s.printer r).job.isSome = true then 1 else 0) < 16 →
      ∃ t, exec (.serviceOut .sup h n) s = .next t
        ∧ Answered .sup h 0x23 .done (.service st) rest [(x.port, .jobDiverted x.tag j q r)] s t
        ∧ t = { s with
            ports := t.ports, jobs := put s.jobs j (some { x with printer := r, diverted := true }),
            printers := put (put s.printers q { c with queue := [] })
              r { s.printer r with queue := (s.printer r).queue ++ [j] } })
    ∧ (((s.pair w).primary = q ∧ (s.pair w).alternate = none
        ∨ ∃ r, q ≠ r ∧ ((s.pair w).primary = q ∧ (s.pair w).alternate = some r ∨ (s.pair w).primary = r)
          ∧ ((s.printer r).state ≠ .printing ∧ (s.printer r).state ≠ .ready
            ∨ 16 ≤ (s.printer r).queue.length + (if (s.printer r).job.isSome = true then 1 else 0))) →
      ∃ t, exec (.serviceOut .sup h n) s = .next t
        ∧ Answered .sup h 0x23 .done (.service st) rest
          [(x.port, .jobHeld x.tag j q
            (if st = .faulted then (s.stopRecord q).map fun r => r.number else none))] s t
        ∧ t = { s with ports := t.ports, printers := put s.printers q c })

/-- R187, R188: ASSIGN PRINTERS replaces a present window's pair and answers the old one; HOLD and RELEASE set and clear
its marker and tell the window. -/
def Obligations.AssignHoldRelease : Prop :=
  ∀ (h : Header) (n : Nat) (rest : List (List Byte)) (s : State) (w : Window),
    toWindow n = some w → s.windowPresent w = true →
    (∀ a o q, Accepts .sup h (.assignPrinters .sup h n a o) rest s → toPrinter a = some q.primary →
      (o = none ∧ q.alternate = none ∨ ∃ b r, o = some b ∧ toPrinter b = some r ∧ q.alternate = some r
        ∧ r ≠ q.primary ∧ (s.printer r).state ≠ .absent) →
      (s.printer q.primary).state ≠ .absent →
      ∃ t, exec (.assignPrinters .sup h n a o) s = .next t
        ∧ Answered .sup h 0x25 .done (.assigned (s.pair w)) rest [] s t
        ∧ t = { s with ports := t.ports, params := { s.params with pairs := put s.params.pairs w q } })
    ∧ (Accepts .sup h (.hold .sup h n) rest s → s.hold w = false →
      ∃ t, exec (.hold .sup h n) s = .next t
        ∧ Answered .sup h 0x27 .done .none rest [(.win w, .hold s.clock)] s t
        ∧ t = { s with ports := t.ports, holds := put s.holds w true })
    ∧ (Accepts .sup h (.release .sup h n) rest s → s.hold w = true →
      ∃ t, exec (.release .sup h n) s = .next t
        ∧ Answered .sup h 0x28 .done .none rest [(.win w, .release s.clock)] s t
        ∧ t = { s with ports := t.ports, holds := put s.holds w false })

/-! ### Fault records and the spoil list (R94, R99 to R120) -/

/-- R100 to R102, R105, R106, R118: a raise that finds no record to merge into, in a log with room, makes a record at
the newest end with the counter's number and the severity and state of its kind, and FAULT RAISED goes to S and to the
windows it concerns. The affected window and session are those of the job in print, absent for a TEST job and where there
is none, and the counter advances to the next number that no record holds. That the notice carries the record's detail is
log entry 43. -/
def Obligations.RaiseMakesRecord : Prop :=
  ∀ (k : FaultKind) (printer : Option PrinterId) (detail : Option Nat) (s : State) (x : Option Job),
    s.faults.length < 40 → (∀ r ∈ s.faults, mergesInto k printer r = false) →
    x = (printer.bind fun p => (s.printer p).job).bind s.job →
    ∃ r, (raise k printer detail s).faults = s.faults ++ [r]
      ∧ r = { place := r.place, number := s.faultCounter, printer := printer, severity := severityOf k, firstKind := k,
              latest := k, state := bornState k, present := bornState k != .cleared, day := s.day, time := s.clock,
              latestTime := s.clock, repeats := 1, window := x.bind fun y => y.window,
              session := x.bind fun y => y.session, sessionOver := false, blanks := 0, unlisted := false,
              detail := detail, remedy := none }
      ∧ (∀ y ∈ s.faults, y.place ≠ r.place) ∧ r.place < 40
      ∧ (1 ≤ s.faultCounter → s.faultCounter ≤ 65535 →
        AdvancesPast ((s.faults ++ [r]).map fun y => y.number) s.faultCounter (raise k printer detail s).faultCounter)
      ∧ Told ((raisedPorts printer s).map fun q => (q,
          .faultRaised r.number printer k r.severity r.state 1 detail r.window)) s (raise k printer detail s)
      ∧ raise k printer detail s = { s with
          ports := (raise k printer detail s).ports, faults := s.faults ++ [r],
          faultCounter := (raise k printer detail s).faultCounter, running := addFault r.severity s.running,
          night := s.night || s.mode == .night }

/-- R103, R104, R106, R118: a raise that finds a record to merge into: a STOP raise the printer's STOP record, another the
record of its own kind, none of them CLOSED. The record carries the new latest kind, time and detail, the window and
session of the job in print where there is one, and its repeats go up by 1 to at most 255. A STOP record is OPEN again
with its condition present; a CLEARED STOCK_LOW or SPOIL_LIST_FULL record is ACKNOWLEDGED again. FAULT RAISED is sent for a
STOP raise and where the state has changed, and for no other; the log gains no record. A SPOIL_LIST_FULL raise is made
into a CLEARED record only (R114). That the notice carries the record's detail is log entry 43, and the mark of a retired
session is log entry 48. -/
def Obligations.RaiseMerges : Prop :=
  ∀ (k : FaultKind) (printer : Option PrinterId) (detail : Option Nat) (s : State) (r y : FaultRecord) (x : Option Job)
    (again : Bool),
    s.faults.find? (mergesInto k printer) = some r → (s.faults.map fun z => z.number).Nodup →
    (k = .spoilListFull → r.state = .cleared) → x = (printer.bind fun p => (s.printer p).job).bind s.job →
    again = decide (r.state = .cleared ∧ (k = .stockLow ∨ k = .spoilListFull)) →
    y = { r with
      latest := k, latestTime := s.clock, repeats := min 255 (r.repeats + 1),
      detail := if detail.isSome = true then detail else r.detail,
      window := if x.isSome = true then x.bind fun z => z.window else r.window,
      session := if x.isSome = true then x.bind fun z => z.session else r.session,
      sessionOver := r.sessionOver && x.isNone,
      state := if severityOf k = .stop then .opened else if again = true then .acknowledged else r.state,
      present := if severityOf k = .stop ∨ again = true then true else r.present } →
    r.printer = printer ∧ r.state ≠ .closed ∧ (severityOf k = .stop → r.severity = .stop)
      ∧ (severityOf k ≠ .stop → r.firstKind = k)
      ∧ Told (if severityOf k = .stop ∨ again = true then (raisedPorts printer s).map fun q => (q,
          .faultRaised r.number printer k r.severity y.state y.repeats y.detail y.window) else [])
        s (raise k printer detail s)
      ∧ raise k printer detail s = { s with
          ports := (raise k printer detail s).ports,
          faults := s.faults.map fun z => if z.number = r.number then y else z,
          running := addFault (severityOf k) s.running, night := s.night || s.mode == .night }

/-- R38, R108 to R110, R115: ACK FAULT of an OPEN record. While its condition stands and acknowledgement does not remove
it, the record becomes ACKNOWLEDGED. Where the condition has gone, or the latest kind is COUPON_TIMEOUT, HEAD_FAULT,
SERIAL_ORDER or RECORDS_LOST, it becomes CLEARED, S receives FAULT CLEARED before the reply, and the printer of a STOP
record does what ClearedLeaves says: its resynchronising sense is due, or it is UNLOADED. That FAULT CLEARED stands before
the reply in S's queue is log entry 10. -/
def Obligations.AcknowledgeFault : Prop :=
  ∀ (p : Port) (h : Header) (n : Nat) (rest : List (List Byte)) (s : State) (r : FaultRecord),
    Accepts p h (.ackFault p h n) rest s → 1 ≤ n → s.faultOf n = some r → r.state = .opened →
    (s.faults.map fun x => x.number).Nodup → s.mayAcknowledge p r = true →
    (r.present = true → r.latest ∉ [.couponTimeout, .headFault, .serialOrder, .recordsLost] →
      ∃ t, exec (.ackFault p h n) s = .next t
        ∧ Answered p h 0x08 .done (.acknowledged n .acknowledged) rest [] s t
        ∧ t = { s with
            ports := t.ports,
            faults := s.faults.map fun x => if x.number = n then { x with state := .acknowledged } else x })
    ∧ (∀ printers free, r.present = false ∨ r.latest ∈ [.couponTimeout, .headFault, .serialOrder, .recordsLost] →
      ClearedLeaves r s printers free →
      ∃ t, exec (.ackFault p h n) s = .next t
        ∧ Answered p h 0x08 .done (.acknowledged n .cleared) rest
            [(.sup, .faultCleared n r.printer r.latest r.repeats r.blanks)] s t
        ∧ t = { s with
            ports := t.ports, printers := printers, freeReported := free,
            faults := s.faults.map fun x =>
              if x.number = n then { x with state := .cleared, present := false } else x })

/-- R94, R112, R113: CLOSE FAULT closes a CLEARED record with its remedy; FAULT READ returns a record, and with retire
takes a CLOSED one out of the log; SPOIL READ returns the eight oldest entries, and with retire takes them out of the
list. Covered for the retire: no printer waits on space, and no SPOIL_LIST_FULL record is ACKNOWLEDGED. The counts are
those after the request, and the reply is placed last (log entry 10). -/
def Obligations.FaultAndSpoilReads : Prop :=
  ∀ (h : Header) (rest : List (List Byte)) (s : State),
    (∀ n remedy r, Accepts .sup h (.closeFault .sup h n remedy) rest s → 1 ≤ n → s.faultOf n = some r →
      r.state = .cleared →
      ¬(r.severity = .stop ∧ ∃ q, r.printer = some q ∧ (s.printer q).state = .faulted) →
      ∃ t, exec (.closeFault .sup h n remedy) s = .next t
        ∧ Answered .sup h 0x2B .done (.faultClosed n) rest [] s t
        ∧ t = { s with
            ports := t.ports,
            faults := s.faults.map fun x =>
              if x.number = n then { x with state := .closed, remedy := some remedy } else x })
    ∧ (∀ n r, Accepts .sup h (.faultRead .sup h 0 (some n)) rest s → 1 ≤ n → s.faultOf n = some r →
      ∃ t, exec (.faultRead .sup h 0 (some n)) s = .next t ∧ t = { s with ports := t.ports }
        ∧ Answered .sup h 0x2A .done (.faultRead (some r) s.faults.length
            (s.faults.countP fun x => x.state != .closed) (s.faults.countP fun x => x.state == .closed)) rest [] s t)
    ∧ (∀ n r, Accepts .sup h (.faultRead .sup h 1 (some n)) rest s → 1 ≤ n → s.faultOf n = some r →
      r.state = .closed →
      ∃ t, exec (.faultRead .sup h 1 (some n)) s = .next t
        ∧ Answered .sup h 0x2A .done (.faultRead (some r) t.faults.length
            (t.faults.countP fun x => x.state != .closed) (t.faults.countP fun x => x.state == .closed)) rest [] s t
        ∧ t = { s with ports := t.ports, faults := s.faults.filter fun x => x.number != n })
    ∧ (Accepts .sup h (.spoilRead .sup h 0) rest s →
      ∃ t, exec (.spoilRead .sup h 0) s = .next t ∧ t = { s with ports := t.ports }
        ∧ Answered .sup h 0x2C .done (.spoils (s.spoils.take 8) s.spoils.length s.reserved s.unreserved) rest [] s t)
    ∧ (Accepts .sup h (.spoilRead .sup h 1) rest s → (∀ q, (s.printer q).waiting = false) →
      (∀ r ∈ s.faults, isOpenFull r = true → r.state ≠ .acknowledged) →
      ∃ t, exec (.spoilRead .sup h 1) s = .next t
        ∧ Answered .sup h 0x2C .done (.spoils (s.spoils.take 8) t.spoils.length t.reserved t.unreserved) rest [] s t
        ∧ t = { s with
            ports := t.ports, spoils := s.spoils.drop 8,
            freeReported := if s.spoils = [] then s.freeReported else 256 - t.spoils.length - t.reserved })

/-! ### Configuration (R190 to R196) -/

/-- R193, R192: the image of a parameter set whose numbers lie in their ranges has 81 bytes, sums to 0, and reads back as
that set, whatever bytes follow it in the memory. -/
def Obligations.ImageReadsBack : Prop :=
  ∀ (q : Params) (tail : List Byte), paramsOk q = true →
    (imageOf q).length = 81 ∧ sumBytes (imageOf q) = 0 ∧ readImage (some (imageOf q ++ tail)) = some q

/-- R190, R194, R195, R182: SET PARAMETER replaces one value of the running set and answers the one it replaced, as
ChangeMade says for each identifier; a change out of range is refused OUT_OF_RANGE, and a quota is refused BUSY in OPEN and while the job table holds a job. SAVE
PARAMETERS begins a write of the set as it stands and stays in hand. Its good end, at a memory that holds the bytes of an
image, puts the image at the start of the memory and answers DONE. Its bad end, and its end at a memory that is absent or
too short (log entry 21), answers NO_RESPONSE; an absent memory stays absent, and in another each byte of the image is
the old one or the new one. Which bytes a bad end leaves is a free value (log entry 20). -/
def Obligations.SetAndSaveParameters : Prop :=
  ∀ (h : Header) (rest : List (List Byte)) (s : State),
    (∀ c, Accepts .sup h (.setParameter .sup h c) rest s →
      (∀ new old, ChangeMade s.params c new old →
        ((∀ w r x, c = .quota w r x → s.mode = .night ∧ ∀ j, s.job j = none) →
          ∃ t, exec (.setParameter .sup h c) s = .next t
            ∧ Answered .sup h 0x34 .done (.parameter old) rest [] s t ∧ t = { s with ports := t.ports, params := new })
        ∧ (∀ w r x, c = .quota w r x → s.mode = .opened ∨ (∃ j, s.job j ≠ none) →
          ∃ t, exec (.setParameter .sup h c) s = .next t ∧ t = { s with ports := t.ports }
            ∧ Answered .sup h 0x34 .busy .none rest [] s t))
      ∧ ((∀ new old, ¬ChangeMade s.params c new old) →
        ∃ t, exec (.setParameter .sup h c) s = .next t ∧ t = { s with ports := t.ports }
          ∧ Answered .sup h 0x34 .outOfRange .none rest [] s t))
    ∧ (Accepts .sup h (.saveParameters .sup h) rest s →
      ∃ t, exec (.saveParameters .sup h) s = .next t
        ∧ t.port .sup = { s.port .sup with
            fifo := rest,
            hand := some { op := .save, code := 0x35, tag := h.tag, quiet := h.quiet, broken := false } }
        ∧ OthersSame .sup s t
        ∧ t = { s with ports := t.ports, save := some (imageOf s.params) })
    ∧ (∀ good image hand, s.live = true → s.save = some image → (s.port .sup).hand = some hand → hand.op = .save →
      hand.broken = false → (∀ p, p ≠ .sup → ∀ x, (s.port p).hand = some x → x.op ≠ .save) →
      (∀ m, good = true → s.memory = some m → 81 ≤ m.length →
        ∃ t, exec (.saveComplete good) s = .next t
          ∧ t.port .sup = replyIn { chain := false, quiet := hand.quiet, tag := hand.tag } hand.code .done .none
              { s.port .sup with hand := none }
          ∧ OthersSame .sup s t
          ∧ t = { s with ports := t.ports, save := none, memory := some (image ++ m.drop 81) })
      ∧ (good = false ∨ (∀ m, s.memory = some m → m.length < 81) →
        ∃ t, exec (.saveComplete good) s = .next t
          ∧ t.port .sup = replyIn { chain := false, quiet := hand.quiet, tag := hand.tag } hand.code .noResponse .none
              { s.port .sup with hand := none }
          ∧ OthersSame .sup s t
          ∧ t = { s with ports := t.ports, save := none, memory := t.memory, freeIndex := t.freeIndex }
          ∧ TornOf image s.memory t.memory))

/-! ### One step, and reset -/

/-- The command at the front of the queue is carried out on the rest of the queue (log entry 1), and with none waiting the
part idles (log entry 3). -/
def Obligations.StepTakesFront : Prop :=
  ∀ s : State, (∀ c rest, s.pending = c :: rest → step s = exec c { s with pending := rest })
    ∧ (s.pending = [] → step s = .next s)

/-- The state after reset meets every invariant. Which state that is: log entry 4. -/
def Obligations.ResetIsKept : Prop :=
  State.reset.PacksKept ∧ State.reset.RangesKept ∧ State.reset.PortsKept ∧ State.reset.SpaceKept
    ∧ State.reset.ListsKept ∧ State.reset.NumbersKept ∧ State.reset.CountersKept ∧ State.reset.SessionsKept
    ∧ State.reset.ParamsKept

/-! ### Laws of the whole part -/

/-- R3: in every pack record issued, spoiled, returned, in-print and remaining make up the size, and only a LOADED pack has
blanks in print; every step keeps it. -/
def Obligations.StepKeepsPacks : Prop := ∀ s s' : State, s.PacksKept → step s = .next s' → s'.PacksKept

/-- R4: the ranges of the pack records in use stay disjoint. -/
def Obligations.StepKeepsRanges : Prop := ∀ s s' : State, s.RangesKept → step s = .next s' → s'.RangesKept

/-- R179, R183: a port's FIFO holds at most four requests, its outbound queue at most 31 notices and one reply. -/
def Obligations.StepKeepsPorts : Prop := ∀ s s' : State, s.PortsKept → step s = .next s' → s'.PortsKept

/-- R90: the used and the reserved entries together never pass 256, and drawn never passes 10. -/
def Obligations.StepKeepsSpoilSpace : Prop := ∀ s s' : State, s.SpaceKept → step s = .next s' → s'.SpaceKept

/-- R96, R99, R102: the sizes of the issue list and the fault log, and the uniqueness of fault numbers. -/
def Obligations.StepKeepsListsAndNumbers : Prop :=
  ∀ s s' : State, s.ListsKept ∧ s.NumbersKept → step s = .next s' → s'.ListsKept ∧ s'.NumbersKept

/-- R123, R165, R190, R197: the session counter, the day number, the clock and every number of the running parameter set
stay in their ranges. -/
def Obligations.StepKeepsCountersAndParams : Prop :=
  ∀ s s' : State, s.CountersKept ∧ s.ParamsKept → step s = .next s' → s'.CountersKept ∧ s'.ParamsKept

/-- R146, R157: a session holds results exactly while RECONCILED, no declaration while OPEN or CLOSING, and is sent back
to COUNTING at most twice. -/
def Obligations.StepKeepsSessions : Prop := ∀ s s' : State, s.SessionsKept → step s = .next s' → s'.SessionsKept

/-- R177, R179: every well-formed request row is the one that its own port reads from its body, with every operand as
it was. The order of the fields is log entry 6. -/
def Obligations.ParseReadsEncoding : Prop :=
  ∀ (i : Instr) (p : Port) (h : Header), requestHead i = some (p, h) → wellFormed i = true →
    parseRequest p (requestBody i) = some i

/-- R199, R200: without the core supply, or with the reset input low, no event but the clock's and those of the
supplies and the reset input itself is taken. What the volatile fields hold meanwhile is log entry 23. -/
def Obligations.NoEventWithoutSupply : Prop :=
  ∀ (c : Instr) (s : State), s.powered = false ∨ s.resetLow = true → c ≠ .clockTick → c ≠ .resetAssert →
    c ≠ .resetRelease → c ≠ .coldStart → c ≠ .powerFail → c ≠ .backupSupplyLoss → exec c s = .next s

/-- R181: a request that is refused, with a result of 10H or above, leaves every record as it stood: what it changes is its
own port. -/
def Obligations.RefusalLeavesRecords : Prop :=
  ∀ (i : Instr) (p : Port) (h : Header) (s t : State) (r : Reply), requestHead i = some (p, h) →
    exec i s = .next t → hasReply (s.port p).outq = false → OutFrame.reply r ∈ (t.port p).outq →
    16 ≤ resultValue r.result →
    t = { s with ports := t.ports } ∧ OthersSame p s t

/-- R179, R180: the three checks a port makes before it hands a request on. A body that is no request is refused
BAD_REQUEST; a CHAIN request after a refusal, FLUSHED; a supervisor request from a window, NOT_PERMITTED. Nothing but the
port changes. -/
def Obligations.PortChecks : Prop :=
  ∀ (p : Port) (rest : List (List Byte)) (s : State), s.canTake p = true →
    (∀ body, body.length ≤ 200 → parseRequest p body = none → s.offered p body = some rest →
      ∃ t, exec (.badRequest p body) s = .next t ∧ t = { s with ports := t.ports }
        ∧ Answered p { chain := false, quiet := false, tag := tagOf body } (codeOf body) .badRequest .none rest [] s t)
    ∧ (∀ i h, requestHead i = some (p, h) → wellFormed i = true → s.offered p (requestBody i) = some rest →
      (h.chain = true ∧ (s.port p).previous = .refused →
        ∃ t, exec i s = .next t ∧ t = { s with ports := t.ports }
          ∧ Answered p h ((requestCode i).getD 0) .flushed .none rest [] s t)
      ∧ (¬(h.chain = true ∧ (s.port p).previous = .refused) → supervisorCode ((requestCode i).getD 0) = true →
        p ≠ .sup →
        ∃ t, exec i s = .next t ∧ t = { s with ports := t.ports }
          ∧ Answered p h ((requestCode i).getD 0) .notPermitted .none rest [] s t))

/-! ### Links (R176 to R185) -/

/-- R178, R179, R184: a REQUEST frame at an idle receiver joins the FIFO, or is discarded with OVERRUN when four requests
wait; one whose check is wrong sets LINE and joins nothing. -/
def Obligations.ReceiveFrameJoins : Prop :=
  ∀ (p : Port) (body : List Byte) (s : State), s.hears p → (s.port p).receiver = .idle → body.length ≤ 200 →
    (∃ t, exec (.receiveFrame p (requestFrame body)) s = .next t ∧ t = { s with ports := t.ports } ∧ OthersSame p s t
      ∧ t.port p = if (s.port p).fifo.length < 4 then { s.port p with fifo := (s.port p).fifo ++ [body] }
          else { s.port p with overrun := true })
    ∧ (∀ check, check ≠ -(BitVec.ofNat 8 body.length + sumBytes body) →
      ∃ t, exec (.receiveFrame p
          (markedChar 1 :: (BitVec.ofNat 8 body.length :: body ++ [check]).map plainChar)) s = .next t
        ∧ t = { s with ports := t.ports } ∧ OthersSame p s t ∧ t.port p = { s.port p with line := true })

/-- R178, R184: a character outside a frame that begins none is discarded, with LINE set if it is in framing error. A
frame in progress is discarded and LINE set by a character in framing error, by a marked one, which begins a new
frame, by a length above 200 and by a gap of more than 10 ms. That a marked character in framing error begins no frame
is the model's choice (log entry 39). -/
def Obligations.ReceiverDiscards : Prop :=
  ∀ (p : Port) (c : Char9) (s : State), s.hears p →
    ((s.port p).receiver = .idle → c.framing = true ∨ c.mark = false →
      ∃ t, exec (.strayCharacter p c) s = .next t ∧ t = { s with ports := t.ports } ∧ OthersSame p s t
        ∧ t.port p = if c.framing = true then { s.port p with line := true } else s.port p)
    ∧ (∀ got, (s.port p).receiver = .inFrame got →
      (∃ t, exec (.interCharacterTimeout p) s = .next t ∧ t = { s with ports := t.ports } ∧ OthersSame p s t
        ∧ t.port p = { s.port p with receiver := .idle, line := true })
      ∧ (c.framing = true ∨ c.mark = true ∨ got.length = 1 ∧ 200 < c.byte.toNat →
        ∃ t, exec (.frameInProgressDiscarded p c) s = .next t ∧ t = { s with ports := t.ports } ∧ OthersSame p s t
          ∧ t.port p = { s.port p with
              receiver := if c.framing = false ∧ c.mark = true then .inFrame [c.byte] else .idle, line := true }))

/-- R183, R185: a break empties a port and clears its markers, a deferred request stays in hand without its reply, and S is
told of a window's break; the receiver is idle again when the line returns high. The oldest frame of a queue is the one
sent. -/
def Obligations.BreakAndSend : Prop :=
  ∀ (p : Port) (s : State), s.hears p →
    ((s.port p).receiver ≠ .lineLow →
      ∃ t notes, exec (.portBreak p) s = .next t ∧ t = { s with ports := t.ports }
        ∧ (∀ w, p = .win w → notes = [(.sup, .portReset w)]) ∧ (p = .sup → notes = [])
        ∧ t.port p = { s.port p with
            receiver := .lineLow, fifo := [], outq := [], overrun := false, line := false, noticeLost := false,
            previous := .none, sending := [], hand := (s.port p).hand.map fun h => { h with broken := true } }
        ∧ ∀ q, q ≠ p → t.port q = noticed s notes q (s.port q))
    ∧ ((s.port p).receiver = .lineLow →
      ∃ t, exec (.lineReturnsHigh p) s = .next t ∧ t = { s with ports := t.ports } ∧ OthersSame p s t
        ∧ t.port p = { s.port p with receiver := .idle })
    ∧ (∀ f rest, (s.port p).outq = f :: rest →
      ∃ t, exec (.transmitFrame p) s = .next t ∧ t = { s with ports := t.ports } ∧ OthersSame p s t
        ∧ t.port p = { s.port p with outq := rest, sending := outChars f })

/-! ### Printer lines (R24 to R36) -/

/-- R26, R18, R37: the arbiter's turn. The printer served is the first present one after the round-robin position; a POLL,
a SENSE or a PRINT goes as its context says. In place of a PRINT that the pack's blanks do not cover the printer is
FAULTED and the exchange carries a POLL; for a job with nothing printed yet and diverted before, with no other job
waiting, the whole of it is said: STOCK_OUT is raised naming the printer with the remaining count as its detail, and the
job is abandoned and held at the head of the queue. -/
def Obligations.ArbiterTurns : Prop :=
  ∀ (l : Line) (s : State) (n : Fin 4) (q : PrinterId), s.live = true → (s.line l).breaking = false →
    (s.line l).exchange = none → q = printerAt l n → (s.printer q).state ≠ .absent →
    (∀ m : Fin 4, m - ((s.line l).position + 1) < n - ((s.line l).position + 1) →
      (s.printer (printerAt l m)).state = .absent) →
    ((s.printer q).unconfirmed = true ∨ (s.printer q).command = .none →
      ∃ t, exec (.poll l) s = .next t
        ∧ t = s.setLine l
            { position := n, breaking := false, exchange := some
                { printer := q, command := .poll, chars := commandChars q .poll (s.jobInPrint q) } })
    ∧ ((s.printer q).unconfirmed = false → (s.printer q).command = .sense →
      ∃ t, exec (.sense l) s = .next t
        ∧ t = s.setLine l
            { position := n, breaking := false, exchange := some
                { printer := q, command := .sense, chars := commandChars q .sense (s.jobInPrint q) } })
    ∧ (∀ k x pk, (s.printer q).unconfirmed = false → (s.printer q).command = .print k → s.jobInPrint q = some x →
      s.loadedPack q = some pk →
      (x.coupons + 1 - k ≤ pk.last + 1 - pk.next →
        ∃ t, exec (.print l) s = .next t
          ∧ t = s.setLine l
              { position := n, breaking := false, exchange := some
                  { printer := q, command := .print k, chars := commandChars q (.print k) (some x) } })
      ∧ (pk.last + 1 - pk.next < x.coupons + 1 - k →
        ∃ t, exec (.print l) s = .next t ∧ (t.printer q).state = .faulted
          ∧ t.line l =
              { position := n, breaking := false, exchange := some
                  { printer := q, command := .poll, chars := commandChars q .poll none } })
      ∧ (∀ j, pk.last + 1 - pk.next < x.coupons + 1 - k → (s.printer q).job = some j →
        (s.printer q).state = .printing → (s.printer q).queue = [] → (s.printer q).sense = .none →
        (s.printer q).waiting = false → x.good = [] → x.urgent = false → x.diverted = true → x.restarts < 3 →
        pk.inPrint = [] → (∀ m y, s.session m = some y → x.session = some y.number → y.state ≠ .closing) →
        (s.faults.map fun r => r.number).Nodup → s.faultCounter ∉ s.faults.map (fun r => r.number) →
        s.faults.length < 40 →
        ∃ t, exec (.print l) s = .next t
          ∧ t = { (raise .stockOut (some q) (some (pk.last + 1 - pk.next)) s).setLine l
                { position := n, breaking := false, exchange := some
                    { printer := q, command := .poll, chars := commandChars q .poll none } } with
              ports := t.ports,
              jobs := put s.jobs j (some
                { x with restarts := x.restarts + 1, nextCoupon := 1, good := [], bad := 0, skip := 0, state := .queued,
                         printer := q }),
              printers := put s.printers q
                { s.printer q with
                  state := .faulted, job := none, queue := [j], couponTimer := false, senseTimer := false,
                  command := .none, unconfirmed := false, outstanding := none, declined := 0 } }
          ∧ Told [(x.port, .jobHeld x.tag j q (some (raiseNumber .stockOut (some q) s)))]
              (raise .stockOut (some q) (some (pk.last + 1 - pk.next)) s) t))

/-- R28, R30, R31, R37: what a STATUS does, for a printer that is neither in PROBE nor at three misses. BUSY takes the
PRINT or the SENSE that was sent and starts its timer; IDLE to a PRINT declines it and to a POLL clears an unconfirmed
one; a fault first reported by a READY printer with no job makes it FAULTED with a STOP raise, and one that a FAULTED
printer reports again changes nothing. That a PRINT found taken ends the row of declines is log entry 14. -/
def Obligations.StatusDecides : Prop :=
  ∀ (l : Line) (x : Exchange) (s : State) (q : PrinterId) (c : Printer), Answers l x s → q = x.printer →
    c = { s.printer q with misses := 0 } →
    (∀ k, x.command = .print k → c.command = .print k →
      (∃ t, exec (.status l .busy) s = .next t
        ∧ t = (exchangeOver l s).setPrinter q
          { c with unconfirmed := false, command := .none, declined := 0, outstanding := some k, couponTimer := true })
      ∧ (c.reported = none → c.declined < 2 →
        ∃ t, exec (.status l .idle) s = .next t
          ∧ t = (exchangeOver l s).setPrinter q { c with declined := c.declined + 1 }))
    ∧ (x.command = .sense → c.command = .sense →
      ∃ t, exec (.status l .busy) s = .next t
        ∧ t = (exchangeOver l s).setPrinter q { c with command := .none, senseTimer := true })
    ∧ (x.command = .poll → c.reported = none →
      ∃ t, exec (.status l .idle) s = .next t
        ∧ t = (exchangeOver l s).setPrinter q
          { c with unconfirmed := if c.command = .none ∨ c.command = .sense then c.unconfirmed else false })
    ∧ (∀ k, c.reported = some k → c.state = .faulted → c.sense = .none →
      ∃ t, exec (.status l (.fault k)) s = .next t ∧ t = (exchangeOver l s).setPrinter q c)
    ∧ (∀ k, c.state = .ready → c.job = none → c.queue = [] → c.sense = .none → c.waiting = false →
      ∃ t, exec (.status l (.fault k)) s = .next t
        ∧ t = (exchangeOver l (raise (ofPrinterKind k) (some q) none s)).setPrinter q
          { c with reported := some k, state := .faulted, couponTimer := false, senseTimer := false, command := .none,
                   unconfirmed := false, outstanding := none, declined := 0 })

/-- R64, R78, R79, R81: a COUPON report of the coupon outstanding, at the pack's next serial. GOOD, with coupons still
to come: the blank is in print and the next PRINT is pending. BAD for the first time: the blank is spoiled PRINT_BAD
within the printer's allowance and the same coupon is pending again. R41, R86, R93, R117, R128, R160: a GOOD late
report at the pack's next serial, from a FAULTED printer under its STOP record. The blank is spoiled ABANDONED within
the allowance and counted in the record and in the day; it is charged to the record's session if that is OPEN, CLOSING
or COUNTING, and to no session if the record names none, or one that is retired, whichever session holds its number
now, or that no record holds. How the part tells that a session was retired is log entry 48; that a coupon reported
ends the row of declines is log entry 14. -/
def Obligations.CouponReported : Prop :=
  ∀ (l : Line) (e : Exchange) (s : State) (q : PrinterId) (i : PackIx) (pk : Pack),
    Answers l e s → e.command = .poll → q = e.printer → s.loadedAt q = some i → s.pack i = some pk → 1 ≤ pk.next →
    pk.next ≤ pk.last → pk.next ≤ 9999999 → NoStockLow pk s →
    (∀ (c : Printer) (k : Nat) (j : JobNo) (x : Job),
      c = { s.printer q with misses := 0, couponTimer := false, outstanding := none, unconfirmed := false,
                             declined := 0 } →
      (s.printer q).outstanding = some k → (s.printer q).job = some j → s.job j = some x →
      (k < x.coupons →
        ∃ t, exec (.coupon l pk.next .good) s = .next t
          ∧ t = { exchangeOver l s with
              packs := put s.packs i (some { pk with next := pk.next + 1, inPrint := pk.inPrint ++ [pk.next] }),
              jobs := put s.jobs j (some { x with good := x.good ++ [pk.next], nextCoupon := k + 1 }),
              printers := put s.printers q { c with command := .print (k + 1) } })
      ∧ (∀ d n m y, x.bad = 0 → (s.printer q).allowance = some d → d < 10 → NoFullRecord s → x.session = some n →
        s.sessionOf n = some m → s.session m = some y → y.state ≠ .reconciled →
        ∃ t, exec (.coupon l pk.next .bad) s = .next t
          ∧ t = { exchangeOver l s with
              packs := put s.packs i (some { pk with next := pk.next + 1, spoiled := pk.spoiled + 1 }),
              jobs := put s.jobs j (some { x with bad := 1 }),
              printers := put s.printers q { c with command := .print k, allowance := some (d + 1) },
              spoils := s.spoils ++ [{ first := pk.next, count := 1, cause := .printBad, printer := some q,
                                       session := some n, fault := none, day := s.day, time := s.clock }],
              sessions := put s.sessions m (some { y with spoiltBad := min (y.spoiltBad + 1) 65535 }),
              running := { s.running with printBad := min (s.running.printBad + 1) 999999999 },
              night := s.night || s.mode == .night, freeReported := 256 - t.spoils.length - t.reserved }))
    ∧ (∀ d r, (s.printer q).state = .faulted → (s.printer q).outstanding = none → (s.printer q).unconfirmed = false →
      (s.printer q).allowance = some d → d < 10 → NoFullRecord s → s.stopRecord q = some r →
      (s.faults.map fun x => x.number).Nodup →
      ∃ t, exec (.coupon l pk.next .good) s = .next t
        ∧ t = { exchangeOver l s with
            packs := put s.packs i (some { pk with next := pk.next + 1, spoiled := pk.spoiled + 1 }),
            printers := put s.printers q { s.printer q with misses := 0, allowance := some (d + 1) },
            spoils := s.spoils ++ [{ first := pk.next, count := 1, cause := .abandoned, printer := some q,
                                     session := r.session, fault := some r.number, day := s.day, time := s.clock }],
            faults := s.faults.map fun x =>
              if x.number = r.number then { x with blanks := min (x.blanks + 1) 65535 } else x,
            sessions := t.sessions,
            running := { s.running with abandoned := min (s.running.abandoned + 1) 999999999 },
            night := s.night || s.mode == .night, freeReported := 256 - t.spoils.length - t.reserved }
        ∧ (r.session = none ∨ r.sessionOver = true ∨ (∃ n, r.session = some n ∧ s.sessionOf n = none) →
          t.sessions = s.sessions)
        ∧ (∀ n m y, r.session = some n → r.sessionOver = false → s.sessionOf n = some m → s.session m = some y →
          (y.state = .reconciled → t.sessions = s.sessions)
          ∧ (y.state ≠ .reconciled →
            t.sessions = put s.sessions m (some { y with spoiltAbandoned := min (y.spoiltAbandoned + 1) 65535 }))))

/-- R43, R45, R66, R83, R96, R127: the GOOD report of the last coupon of a sale. The ticket is issued: its blanks
leave print, the sale is posted to the session, the issue list gains an entry, the day counts it, the job leaves the
table and its port receives JOB ISSUED. The printer gives back its allowance and is READY. Covered: an OPEN session,
room in the issue list, an empty queue, and no printer that waits on space. That the row of declines ends with the
ticket is log entry 14. -/
def Obligations.TicketIssued : Prop :=
  ∀ (l : Line) (e : Exchange) (s : State) (q : PrinterId) (k : Nat) (j : JobNo) (x : Job) (i : PackIx) (pk : Pack)
    (d n : Nat) (tn : Tender) (w : Window) (m : SessionIx) (y : Session), Answers l e s → e.command = .poll →
    q = e.printer → (s.printer q).state = .printing → (s.printer q).outstanding = some k →
    (s.printer q).job = some j → (s.printer q).queue = [] → (s.printer q).allowance = some d → s.job j = some x →
    s.loadedAt q = some i → s.pack i = some pk → 1 ≤ pk.next → pk.next ≤ pk.last → pk.next ≤ 9999999 →
    NoStockLow pk s → k = x.coupons → x.kind ≠ .test → x.session = some n → x.tender = some tn → x.window = some w →
    s.sessionOf n = some m → s.session m = some y → y.state = .opened → s.issues.length < 256 →
    (∀ r, (s.printer r).waiting = false) → NoFullRecord s →
    ∃ t, exec (.coupon l pk.next .good) s = .next t
      ∧ Told [(x.port, .jobIssued x.tag j (x.good ++ [pk.next]) q)] s t
      ∧ t = { exchangeOver l s with
          ports := t.ports,
          packs := put s.packs i (some
            { pk with next := pk.next + 1, issued := pk.issued + (pk.inPrint.length + 1), inPrint := [] }),
          printers := put s.printers q
            { s.printer q with
              misses := 0, couponTimer := false, outstanding := none, unconfirmed := false, command := .none,
              declined := 0, job := none, allowance := none, state := .ready },
          jobs := put s.jobs j none,
          sessions := put s.sessions m (some
            { salesAfter tn x.fare y with
              tickets := min (y.tickets + 1) 65535, coupons := min (y.coupons + x.coupons) 65535 }),
          issues := s.issues ++ [{ serials := x.good ++ [pk.next], kind := x.kind, fare := x.fare, tender := tn,
                                   session := n, window := w, printer := q, time := s.clock, state := .issued }],
          running := { s.running with
            tickets := min (s.running.tickets + 1) 999999999,
            coupons := min (s.running.coupons + x.coupons) 999999999 },
          night := s.night || s.mode == .night,
          freeReported := if d < 10 then 256 - s.spoils.length - t.reserved else s.freeReported }

/-- R9, R10, R13, R31, R36 to R39, R87, R108, R109, R182: what a SERIAL that ends a sense does.

A LOAD sense: with another serial than the pack's next the load fails, the pack goes back, the printer is UNLOADED again
and the request in hand is answered SERIAL_MISMATCH; with the pack's next the pack is LOADED, the conditions of the
printer's STOCK_OUT and STOCK_LOW records go, and the request is answered DONE. An ACKNOWLEDGED STOCK_OUT record of a
FAULTED printer that holds its allowance then is CLEARED, and the resynchronising sense becomes due. That FAULT CLEARED
stands before the reply is the model's order (log entries 10 and 38).

A start-up or resynchronising sense: with the pack's next the printer returns to service (OUT_OF_SERVICE after a
resynchronising sense if its marker is set) and gives back its allowance; with a later serial of the pack the blanks
passed are spoiled SKIPPED within that allowance first, and SERIAL_SKIP is raised; with any other, SERIAL_ORDER, or
STOCK_OUT for a serial of 0, is raised, and the printer is FAULTED and keeps its allowance.

Covered: a printer with no job and an empty queue, no printer that waits on space, and no pack that the event takes to
the stock-low threshold. A used-up pack, where next is last + 1 and two rows of R36 apply, is log entry 17 and left
out. That the end of a sense ends the row of declines is log entry 14. -/
def Obligations.SerialEndsSense : Prop :=
  ∀ (l : Line) (e : Exchange) (s : State) (q : PrinterId) (i : PackIx) (k : Pack) (n : Nat) (c : Printer),
    s.live = true → (s.line l).exchange = some e → e.command = .poll ∨ e.command = .sense → q = e.printer →
    s.pack i = some k → n ≤ 9999999 → (s.printer q).waiting = false →
    c = { s.printer q with misses := 0, senseTimer := false, sense := .none, command := .none, declined := 0 } →
    (∀ p hand, (s.printer q).misses ≠ 3 → (s.printer q).sense = .load → s.loadingAt q = some i →
      (s.port p).hand = some hand → hand.op = .load q → hand.broken = false →
      (∀ r x, r ≠ p → (s.port r).hand = some x → x.op ≠ .load q) →
      (∀ prior, (s.printer q).state = .sensing → k.prior = some prior → n ≠ k.next → s.stopRecord q = none →
        ∃ t, exec (.serial l n) s = .next t
          ∧ t.port p = replyIn { chain := false, quiet := hand.quiet, tag := hand.tag } hand.code .serialMismatch
              (.mismatch k.next n) { s.port p with hand := none }
          ∧ OthersSame p s t
          ∧ t = { exchangeOver l s with
              ports := t.ports, printers := put s.printers q { c with state := .unloaded },
              packs := put s.packs i (some { k with state := prior, prior := none, printer := none }) })
      ∧ (n = k.next → n ≤ k.last → (s.faults.map fun r => r.number).Nodup → (s.printer q).queue = [] →
        s.params.stockLow = 0 ∨ s.params.stockLow < k.last + 1 - k.next →
        ((s.printer q).state = .sensing ∨ (s.printer q).state = .outOfService ∨ (s.printer q).state = .faulted →
          (∀ r, s.stopRecord q = some r → r.state ≠ .cleared) →
          (∀ r ∈ s.faults, NamesStock q r → ¬(r.state = .acknowledged ∧ r.present = true)) →
          ∃ t, exec (.serial l n) s = .next t
            ∧ t.port p = replyIn { chain := false, quiet := hand.quiet, tag := hand.tag } hand.code .done
                (.loaded i q n) { s.port p with hand := none }
            ∧ OthersSame p s t
            ∧ t = { exchangeOver l s with
                ports := t.ports,
                printers := put s.printers q
                  { c with state := if c.state ≠ .sensing then c.state
                                    else if c.outOfService = true then .outOfService else .ready },
                packs := put s.packs i (some { k with state := .loaded, prior := none, inPrint := [] }),
                faults := s.faults.map fun r =>
                  if NamesStock q r ∧ r.state = .opened then { r with present := false } else r })
        ∧ (∀ r d, (s.printer q).state = .faulted → (s.printer q).allowance = some d → s.stopRecord q = some r →
          r.latest = .stockOut → r.state = .acknowledged → r.present = true →
          (∀ y ∈ s.faults, NamesStock q y → y.number = r.number) →
          let notes := [(Port.sup, Notice.faultCleared r.number r.printer r.latest r.repeats r.blanks)]
          ∃ t, exec (.serial l n) s = .next t
            ∧ t.port p = replyIn { chain := false, quiet := hand.quiet, tag := hand.tag } hand.code .done
                (.loaded i q n) (noticed s notes p { s.port p with hand := none })
            ∧ (∀ y, y ≠ p → t.port y = noticed s notes y (s.port y))
            ∧ t = { exchangeOver l s with
                ports := t.ports, printers := put s.printers q { c with sense := .resync, command := .sense },
                packs := put s.packs i (some { k with state := .loaded, prior := none, inPrint := [] }),
                faults := s.faults.map fun y =>
                  if y.number = r.number then { y with state := .cleared, present := false } else y })))
    ∧ (∀ d, (s.printer q).sense = .startUp ∧ (s.printer q).state = .probe ∧ s.stopRecord q = none
        ∨ (s.printer q).sense = .resync ∧ (s.printer q).state = .faulted ∧ (s.printer q).misses ≠ 3 →
      s.loadedAt q = some i → (s.printer q).job = none → (s.printer q).queue = [] →
      (s.printer q).allowance = some d →
      let back := { c with
        allowance := none,
        state := if (s.printer q).sense = .resync ∧ c.outOfService = true then .outOfService else .ready }
      let failed := { c with state := .faulted, couponTimer := false, unconfirmed := false, outstanding := none }
      ((∀ r, (s.printer r).waiting = false) → NoFullRecord s →
        (n = k.next → n ≤ k.last →
          ∃ t, exec (.serial l n) s = .next t
            ∧ t = { exchangeOver l s with
                printers := put s.printers q back,
                freeReported := if d < 10 then 256 - s.spoils.length - t.reserved else s.freeReported })
        ∧ (k.next < n → n ≤ k.last → d < 10 →
          s.params.stockLow = 0 ∨ k.last + 1 - k.next ≤ s.params.stockLow ∨ s.params.stockLow < k.last + 1 - n →
          ∃ t, exec (.serial l n) s = .next t
            ∧ t = { exchangeOver l (raise .serialSkip (some q) (some (n - k.next)) { s with
                  packs := put s.packs i (some { k with next := n, spoiled := k.spoiled + (n - k.next) }),
                  spoils := s.spoils ++ [{ first := k.next, count := n - k.next, cause := .skipped, printer := some q,
                                           session := none, fault := (s.stopRecord q).map fun r => r.number,
                                           day := s.day, time := s.clock }],
                  faults := s.faults.map fun y =>
                    if (s.stopRecord q).map (fun r => r.number) = some y.number then
                      { y with blanks := min (y.blanks + (n - k.next)) 65535 }
                    else y,
                  running := { s.running with skipped := min (s.running.skipped + (n - k.next)) 999999999 },
                  night := s.night || s.mode == .night }) with
                printers := put s.printers q back, freeReported := 256 - t.spoils.length - t.reserved }))
      ∧ (0 < n → n < k.next ∨ k.last < n ∧ n ≠ k.next →
        ∃ t, exec (.serial l n) s = .next t
          ∧ t = (exchangeOver l (raise .serialOrder (some q) (some n) s)).setPrinter q failed)
      ∧ (n = 0 → 0 < k.next →
        ∃ t, exec (.serial l n) s = .next t
          ∧ t = (exchangeOver l (raise .stockOut (some q) (some (k.last + 1 - k.next)) s)).setPrinter q failed))

/-- R27, R28: an exchange that times out, or ends with characters that are no response, is a miss. The count goes up, a
PRINT may have been taken, and LINE_ERROR is raised; the third miss in a row raises NO_RESPONSE and the printer is
FAULTED (covered: a printer in service with no job, no sense and an empty queue). -/
def Obligations.MissesCount : Prop :=
  ∀ (l : Line) (e : Exchange) (s : State) (q : PrinterId) (c : Printer) (i : Instr), s.live = true →
    (s.line l).exchange = some e → q = e.printer →
    i = .exchangeTimeout l ∨ (∃ chars, i = .badResponse l chars ∧ readResponse q chars = none) →
    c = { s.printer q with
      misses := (s.printer q).misses + 1,
      unconfirmed := (s.printer q).unconfirmed || e.command.isPending (s.printer q) } →
    ((s.printer q).misses < 2 →
      ∃ t, exec i s = .next t ∧ t = (exchangeOver l (raise .lineError (some q) none s)).setPrinter q c)
    ∧ ((s.printer q).misses = 2 → (s.printer q).state ≠ .absent → (s.printer q).state ≠ .faulted →
      (s.printer q).job = none → (s.printer q).queue = [] → (s.printer q).sense = .none →
      (s.printer q).waiting = false →
      ∃ t, exec i s = .next t
        ∧ t = (exchangeOver l
            (raise .noResponse (some q) none (raise .lineError (some q) none s))).setPrinter q
          { c with state := .faulted, couponTimer := false, senseTimer := false, command := .none,
                   unconfirmed := false, outstanding := none, declined := 0 })

/-- R29, R31, R32, R37, R68 to R70, R73: the timers and the restart break. A coupon timer that runs out raises
COUPON_TIMEOUT: the printer is FAULTED, and its job, with nothing printed yet and diverted before, is abandoned and
held at the head of its queue. The timer of a resynchronising sense raises NO_RESPONSE and ends the sense. At the end
of the restart break a line serves its lowest address first. The position held after the break is log entry 5. -/
def Obligations.TimersRunOut : Prop :=
  ∀ (q : PrinterId) (l : Line) (s : State), s.live = true →
    (∀ j x, (s.printer q).couponTimer = true → (s.printer q).state = .printing → (s.printer q).job = some j →
      (s.printer q).queue = [] → (s.printer q).sense = .none → (s.printer q).waiting = false →
      s.job j = some x → x.good = [] → x.urgent = false → x.diverted = true → x.restarts < 3 →
      (∀ i k, s.loadedAt q = some i → s.pack i = some k → k.inPrint = []) →
      (∀ m y, s.session m = some y → x.session = some y.number → y.state ≠ .closing) →
      (s.faults.map fun r => r.number).Nodup → s.faultCounter ∉ s.faults.map (fun r => r.number) →
      s.faults.length < 40 →
      ∃ t, exec (.couponTimerExpiry q) s = .next t
        ∧ t = { raise .couponTimeout (some q) none s with
            ports := t.ports,
            jobs := put s.jobs j (some
              { x with restarts := x.restarts + 1, nextCoupon := 1, good := [], bad := 0, skip := 0, state := .queued,
                       printer := q }),
            printers := put s.printers q
              { s.printer q with
                state := .faulted, job := none, queue := [j], couponTimer := false, senseTimer := false,
                command := .none, unconfirmed := false, outstanding := none, declined := 0 } }
        ∧ Told [(x.port, .jobHeld x.tag j q (some (raiseNumber .couponTimeout (some q) s)))]
            (raise .couponTimeout (some q) none s) t)
    ∧ ((s.printer q).senseTimer = true → (s.printer q).state = .faulted → (s.printer q).sense = .resync →
      (s.printer q).waiting = false →
      ∃ t, exec (.senseTimerExpiry q) s = .next t
        ∧ t = (raise .noResponse (some q) none s).setPrinter q
          { s.printer q with
            couponTimer := false, senseTimer := false, command := .none, unconfirmed := false, outstanding := none,
            declined := 0, sense := .none })
    ∧ ((s.line l).breaking = true →
      ∃ t, exec (.lineRestartBreakEnd l) s = .next t
        ∧ t = s.setLine l { position := 3, breaking := false, exchange := none })

/-! ### Supplies, reset and restarts (R193, R194, R199 to R203) -/

/-- R194, R199, R200: the reset input going low and the core supply failing stop the part and cut off a write in hand,
and lose nothing else; the backup supply lost while the core supply is absent loses the validity marker. Log entries
20, 23 and 24. -/
def Obligations.SuppliesAndReset : Prop :=
  ∀ s : State,
    (s.resetLow = false →
      ∃ t, exec .resetAssert s = .next t
        ∧ t = { s with resetLow := true, save := none, memory := t.memory, freeIndex := t.freeIndex }
        ∧ (s.save = none → t.memory = s.memory ∧ t.freeIndex = s.freeIndex)
        ∧ ∀ image, s.save = some image → TornOf image s.memory t.memory)
    ∧ (s.powered = true →
      ∃ t, exec .powerFail s = .next t
        ∧ t = { s with
            powered := false, coldPending := false, save := none, memory := t.memory, freeIndex := t.freeIndex }
        ∧ (s.save = none → t.memory = s.memory ∧ t.freeIndex = s.freeIndex)
        ∧ ∀ image, s.save = some image → TornOf image s.memory t.memory)
    ∧ (s.powered = false → ∃ t, exec .backupSupplyLoss s = .next t ∧ t = { s with valid := false })

/-- R22, R88, R98, R119, R120, R144, R193, R200 to R203: the three causes of a restart. Each clears the volatile
state, leaves the memory as it is but for a write it cuts off, loads the parameters from its image or the defaults (which
restarts can read the memory is the input of log entry 50), and tells each present port first that it happened. With the validity marker intact, or in a warm
restart, the retained records are kept, with the adjustments of RecordsKept: packs in print are spoiled into the spoil
list, loads under way are undone, REFUND_PENDING entries are ISSUED, CLOSING sessions are COUNTING, and the fault log
takes the adjustments of R119. A cold start that finds the marker lost, at once or when the reset input is released,
gives every item of R202 its initial value and raises RECORDS_LOST as the first fault record. What stands in the
queues behind RESTARTED is not covered. That several packs are taken in ascending record is log entry 45; the cause
POWER of a cold start put off by the reset input is log entry 22. -/
def Obligations.RestartsRestore : Prop :=
  ∀ s : State,
    (∀ h rest, Accepts .sup h (.restart .sup h) rest s →
      ∃ t, exec (.restart .sup h) s = .next t ∧ Restarted false .request false s t ∧ RecordsKept s t)
    ∧ (s.powered = true → s.resetLow = true →
      (s.coldPending = false →
        ∃ t, exec .resetRelease s = .next t ∧ Restarted false .resetInput false s t
          ∧ RecordsKept s t ∧ t.resetLow = false)
      ∧ (s.coldPending = true → s.valid = true →
        ∃ t, exec .resetRelease s = .next t ∧ Restarted true .power false s t
          ∧ RecordsKept s t ∧ t.resetLow = false ∧ t.coldPending = false)
      ∧ (s.coldPending = true → s.valid = false →
        ∃ t, exec .resetRelease s = .next t ∧ Restarted true .power true s t
          ∧ RecordsInitial s t ∧ t.resetLow = false ∧ t.coldPending = false))
    ∧ (s.powered = false → s.resetLow = false →
      (s.valid = true →
        ∃ t, exec .coldStart s = .next t ∧ Restarted true .power false s t
          ∧ RecordsKept s t ∧ t.powered = true)
      ∧ (s.valid = false →
        ∃ t, exec .coldStart s = .next t ∧ Restarted true .power true s t
          ∧ RecordsInitial s t ∧ t.powered = true))
    ∧ (s.powered = false → s.resetLow = true →
      ∃ t, exec .coldStart s = .next t ∧ t = { s with powered := true, coldPending := true })
end

