-- ==== Sys2Proof/Laws/State.lean ====
section
/-! SUPPORT. What each field of the state is after each named update of the state. Every lemma is true by computation, so
that no later proof unfolds a record update. -/

namespace Sys2Proof.Machine

set_option Elab.async false

variable (s : State)

/-! ### setPort -/

section
variable (p : Port) (q : PortState)
@[simp] theorem State.setPort_holds : (s.setPort p q).holds = s.holds := rfl
@[simp] theorem State.setPort_packs : (s.setPort p q).packs = s.packs := rfl
@[simp] theorem State.setPort_printers : (s.setPort p q).printers = s.printers := rfl
@[simp] theorem State.setPort_lineA : (s.setPort p q).lineA = s.lineA := rfl
@[simp] theorem State.setPort_lineB : (s.setPort p q).lineB = s.lineB := rfl
@[simp] theorem State.setPort_jobs : (s.setPort p q).jobs = s.jobs := rfl
@[simp] theorem State.setPort_spoils : (s.setPort p q).spoils = s.spoils := rfl
@[simp] theorem State.setPort_issues : (s.setPort p q).issues = s.issues := rfl
@[simp] theorem State.setPort_faults : (s.setPort p q).faults = s.faults := rfl
@[simp] theorem State.setPort_faultCounter : (s.setPort p q).faultCounter = s.faultCounter := rfl
@[simp] theorem State.setPort_overwritten : (s.setPort p q).overwritten = s.overwritten := rfl
@[simp] theorem State.setPort_freeReported : (s.setPort p q).freeReported = s.freeReported := rfl
@[simp] theorem State.setPort_sessions : (s.setPort p q).sessions = s.sessions := rfl
@[simp] theorem State.setPort_sessionCounter : (s.setPort p q).sessionCounter = s.sessionCounter := rfl
@[simp] theorem State.setPort_slots : (s.setPort p q).slots = s.slots := rfl
@[simp] theorem State.setPort_mode : (s.setPort p q).mode = s.mode := rfl
@[simp] theorem State.setPort_day : (s.setPort p q).day = s.day := rfl
@[simp] theorem State.setPort_clock : (s.setPort p q).clock = s.clock := rfl
@[simp] theorem State.setPort_clockSet : (s.setPort p q).clockSet = s.clockSet := rfl
@[simp] theorem State.setPort_running : (s.setPort p q).running = s.running := rfl
@[simp] theorem State.setPort_report : (s.setPort p q).report = s.report := rfl
@[simp] theorem State.setPort_night : (s.setPort p q).night = s.night := rfl
@[simp] theorem State.setPort_params : (s.setPort p q).params = s.params := rfl
@[simp] theorem State.setPort_presentPrinters : (s.setPort p q).presentPrinters = s.presentPrinters := rfl
@[simp] theorem State.setPort_presentWindows : (s.setPort p q).presentWindows = s.presentWindows := rfl
@[simp] theorem State.setPort_save : (s.setPort p q).save = s.save := rfl
@[simp] theorem State.setPort_memory : (s.setPort p q).memory = s.memory := rfl
@[simp] theorem State.setPort_readFails : (s.setPort p q).readFails = s.readFails := rfl
@[simp] theorem State.setPort_powered : (s.setPort p q).powered = s.powered := rfl
@[simp] theorem State.setPort_resetLow : (s.setPort p q).resetLow = s.resetLow := rfl
@[simp] theorem State.setPort_coldPending : (s.setPort p q).coldPending = s.coldPending := rfl
@[simp] theorem State.setPort_valid : (s.setPort p q).valid = s.valid := rfl
@[simp] theorem State.setPort_freeIndex : (s.setPort p q).freeIndex = s.freeIndex := rfl
@[simp] theorem State.setPort_pending : (s.setPort p q).pending = s.pending := rfl
end

/-! ### modPort -/

section
variable (p : Port) (f : PortState → PortState)
@[simp] theorem State.modPort_holds : (s.modPort p f).holds = s.holds := rfl
@[simp] theorem State.modPort_packs : (s.modPort p f).packs = s.packs := rfl
@[simp] theorem State.modPort_printers : (s.modPort p f).printers = s.printers := rfl
@[simp] theorem State.modPort_lineA : (s.modPort p f).lineA = s.lineA := rfl
@[simp] theorem State.modPort_lineB : (s.modPort p f).lineB = s.lineB := rfl
@[simp] theorem State.modPort_jobs : (s.modPort p f).jobs = s.jobs := rfl
@[simp] theorem State.modPort_spoils : (s.modPort p f).spoils = s.spoils := rfl
@[simp] theorem State.modPort_issues : (s.modPort p f).issues = s.issues := rfl
@[simp] theorem State.modPort_faults : (s.modPort p f).faults = s.faults := rfl
@[simp] theorem State.modPort_faultCounter : (s.modPort p f).faultCounter = s.faultCounter := rfl
@[simp] theorem State.modPort_overwritten : (s.modPort p f).overwritten = s.overwritten := rfl
@[simp] theorem State.modPort_freeReported : (s.modPort p f).freeReported = s.freeReported := rfl
@[simp] theorem State.modPort_sessions : (s.modPort p f).sessions = s.sessions := rfl
@[simp] theorem State.modPort_sessionCounter : (s.modPort p f).sessionCounter = s.sessionCounter := rfl
@[simp] theorem State.modPort_slots : (s.modPort p f).slots = s.slots := rfl
@[simp] theorem State.modPort_mode : (s.modPort p f).mode = s.mode := rfl
@[simp] theorem State.modPort_day : (s.modPort p f).day = s.day := rfl
@[simp] theorem State.modPort_clock : (s.modPort p f).clock = s.clock := rfl
@[simp] theorem State.modPort_clockSet : (s.modPort p f).clockSet = s.clockSet := rfl
@[simp] theorem State.modPort_running : (s.modPort p f).running = s.running := rfl
@[simp] theorem State.modPort_report : (s.modPort p f).report = s.report := rfl
@[simp] theorem State.modPort_night : (s.modPort p f).night = s.night := rfl
@[simp] theorem State.modPort_params : (s.modPort p f).params = s.params := rfl
@[simp] theorem State.modPort_presentPrinters : (s.modPort p f).presentPrinters = s.presentPrinters := rfl
@[simp] theorem State.modPort_presentWindows : (s.modPort p f).presentWindows = s.presentWindows := rfl
@[simp] theorem State.modPort_save : (s.modPort p f).save = s.save := rfl
@[simp] theorem State.modPort_memory : (s.modPort p f).memory = s.memory := rfl
@[simp] theorem State.modPort_readFails : (s.modPort p f).readFails = s.readFails := rfl
@[simp] theorem State.modPort_powered : (s.modPort p f).powered = s.powered := rfl
@[simp] theorem State.modPort_resetLow : (s.modPort p f).resetLow = s.resetLow := rfl
@[simp] theorem State.modPort_coldPending : (s.modPort p f).coldPending = s.coldPending := rfl
@[simp] theorem State.modPort_valid : (s.modPort p f).valid = s.valid := rfl
@[simp] theorem State.modPort_freeIndex : (s.modPort p f).freeIndex = s.freeIndex := rfl
@[simp] theorem State.modPort_pending : (s.modPort p f).pending = s.pending := rfl
end

/-! ### setPrinter -/

section
variable (p : PrinterId) (c : Printer)
@[simp] theorem State.setPrinter_ports : (s.setPrinter p c).ports = s.ports := rfl
@[simp] theorem State.setPrinter_holds : (s.setPrinter p c).holds = s.holds := rfl
@[simp] theorem State.setPrinter_packs : (s.setPrinter p c).packs = s.packs := rfl
@[simp] theorem State.setPrinter_lineA : (s.setPrinter p c).lineA = s.lineA := rfl
@[simp] theorem State.setPrinter_lineB : (s.setPrinter p c).lineB = s.lineB := rfl
@[simp] theorem State.setPrinter_jobs : (s.setPrinter p c).jobs = s.jobs := rfl
@[simp] theorem State.setPrinter_spoils : (s.setPrinter p c).spoils = s.spoils := rfl
@[simp] theorem State.setPrinter_issues : (s.setPrinter p c).issues = s.issues := rfl
@[simp] theorem State.setPrinter_faults : (s.setPrinter p c).faults = s.faults := rfl
@[simp] theorem State.setPrinter_faultCounter : (s.setPrinter p c).faultCounter = s.faultCounter := rfl
@[simp] theorem State.setPrinter_overwritten : (s.setPrinter p c).overwritten = s.overwritten := rfl
@[simp] theorem State.setPrinter_freeReported : (s.setPrinter p c).freeReported = s.freeReported := rfl
@[simp] theorem State.setPrinter_sessions : (s.setPrinter p c).sessions = s.sessions := rfl
@[simp] theorem State.setPrinter_sessionCounter : (s.setPrinter p c).sessionCounter = s.sessionCounter := rfl
@[simp] theorem State.setPrinter_slots : (s.setPrinter p c).slots = s.slots := rfl
@[simp] theorem State.setPrinter_mode : (s.setPrinter p c).mode = s.mode := rfl
@[simp] theorem State.setPrinter_day : (s.setPrinter p c).day = s.day := rfl
@[simp] theorem State.setPrinter_clock : (s.setPrinter p c).clock = s.clock := rfl
@[simp] theorem State.setPrinter_clockSet : (s.setPrinter p c).clockSet = s.clockSet := rfl
@[simp] theorem State.setPrinter_running : (s.setPrinter p c).running = s.running := rfl
@[simp] theorem State.setPrinter_report : (s.setPrinter p c).report = s.report := rfl
@[simp] theorem State.setPrinter_night : (s.setPrinter p c).night = s.night := rfl
@[simp] theorem State.setPrinter_params : (s.setPrinter p c).params = s.params := rfl
@[simp] theorem State.setPrinter_presentPrinters : (s.setPrinter p c).presentPrinters = s.presentPrinters := rfl
@[simp] theorem State.setPrinter_presentWindows : (s.setPrinter p c).presentWindows = s.presentWindows := rfl
@[simp] theorem State.setPrinter_save : (s.setPrinter p c).save = s.save := rfl
@[simp] theorem State.setPrinter_memory : (s.setPrinter p c).memory = s.memory := rfl
@[simp] theorem State.setPrinter_readFails : (s.setPrinter p c).readFails = s.readFails := rfl
@[simp] theorem State.setPrinter_powered : (s.setPrinter p c).powered = s.powered := rfl
@[simp] theorem State.setPrinter_resetLow : (s.setPrinter p c).resetLow = s.resetLow := rfl
@[simp] theorem State.setPrinter_coldPending : (s.setPrinter p c).coldPending = s.coldPending := rfl
@[simp] theorem State.setPrinter_valid : (s.setPrinter p c).valid = s.valid := rfl
@[simp] theorem State.setPrinter_freeIndex : (s.setPrinter p c).freeIndex = s.freeIndex := rfl
@[simp] theorem State.setPrinter_pending : (s.setPrinter p c).pending = s.pending := rfl
end

/-! ### modPrinter -/

section
variable (p : PrinterId) (f : Printer → Printer)
@[simp] theorem State.modPrinter_ports : (s.modPrinter p f).ports = s.ports := rfl
@[simp] theorem State.modPrinter_holds : (s.modPrinter p f).holds = s.holds := rfl
@[simp] theorem State.modPrinter_packs : (s.modPrinter p f).packs = s.packs := rfl
@[simp] theorem State.modPrinter_lineA : (s.modPrinter p f).lineA = s.lineA := rfl
@[simp] theorem State.modPrinter_lineB : (s.modPrinter p f).lineB = s.lineB := rfl
@[simp] theorem State.modPrinter_jobs : (s.modPrinter p f).jobs = s.jobs := rfl
@[simp] theorem State.modPrinter_spoils : (s.modPrinter p f).spoils = s.spoils := rfl
@[simp] theorem State.modPrinter_issues : (s.modPrinter p f).issues = s.issues := rfl
@[simp] theorem State.modPrinter_faults : (s.modPrinter p f).faults = s.faults := rfl
@[simp] theorem State.modPrinter_faultCounter : (s.modPrinter p f).faultCounter = s.faultCounter := rfl
@[simp] theorem State.modPrinter_overwritten : (s.modPrinter p f).overwritten = s.overwritten := rfl
@[simp] theorem State.modPrinter_freeReported : (s.modPrinter p f).freeReported = s.freeReported := rfl
@[simp] theorem State.modPrinter_sessions : (s.modPrinter p f).sessions = s.sessions := rfl
@[simp] theorem State.modPrinter_sessionCounter : (s.modPrinter p f).sessionCounter = s.sessionCounter := rfl
@[simp] theorem State.modPrinter_slots : (s.modPrinter p f).slots = s.slots := rfl
@[simp] theorem State.modPrinter_mode : (s.modPrinter p f).mode = s.mode := rfl
@[simp] theorem State.modPrinter_day : (s.modPrinter p f).day = s.day := rfl
@[simp] theorem State.modPrinter_clock : (s.modPrinter p f).clock = s.clock := rfl
@[simp] theorem State.modPrinter_clockSet : (s.modPrinter p f).clockSet = s.clockSet := rfl
@[simp] theorem State.modPrinter_running : (s.modPrinter p f).running = s.running := rfl
@[simp] theorem State.modPrinter_report : (s.modPrinter p f).report = s.report := rfl
@[simp] theorem State.modPrinter_night : (s.modPrinter p f).night = s.night := rfl
@[simp] theorem State.modPrinter_params : (s.modPrinter p f).params = s.params := rfl
@[simp] theorem State.modPrinter_presentPrinters : (s.modPrinter p f).presentPrinters = s.presentPrinters := rfl
@[simp] theorem State.modPrinter_presentWindows : (s.modPrinter p f).presentWindows = s.presentWindows := rfl
@[simp] theorem State.modPrinter_save : (s.modPrinter p f).save = s.save := rfl
@[simp] theorem State.modPrinter_memory : (s.modPrinter p f).memory = s.memory := rfl
@[simp] theorem State.modPrinter_readFails : (s.modPrinter p f).readFails = s.readFails := rfl
@[simp] theorem State.modPrinter_powered : (s.modPrinter p f).powered = s.powered := rfl
@[simp] theorem State.modPrinter_resetLow : (s.modPrinter p f).resetLow = s.resetLow := rfl
@[simp] theorem State.modPrinter_coldPending : (s.modPrinter p f).coldPending = s.coldPending := rfl
@[simp] theorem State.modPrinter_valid : (s.modPrinter p f).valid = s.valid := rfl
@[simp] theorem State.modPrinter_freeIndex : (s.modPrinter p f).freeIndex = s.freeIndex := rfl
@[simp] theorem State.modPrinter_pending : (s.modPrinter p f).pending = s.pending := rfl
end

/-! ### setPack -/

section
variable (i : PackIx) (k : Option Pack)
@[simp] theorem State.setPack_ports : (s.setPack i k).ports = s.ports := rfl
@[simp] theorem State.setPack_holds : (s.setPack i k).holds = s.holds := rfl
@[simp] theorem State.setPack_printers : (s.setPack i k).printers = s.printers := rfl
@[simp] theorem State.setPack_lineA : (s.setPack i k).lineA = s.lineA := rfl
@[simp] theorem State.setPack_lineB : (s.setPack i k).lineB = s.lineB := rfl
@[simp] theorem State.setPack_jobs : (s.setPack i k).jobs = s.jobs := rfl
@[simp] theorem State.setPack_spoils : (s.setPack i k).spoils = s.spoils := rfl
@[simp] theorem State.setPack_issues : (s.setPack i k).issues = s.issues := rfl
@[simp] theorem State.setPack_faults : (s.setPack i k).faults = s.faults := rfl
@[simp] theorem State.setPack_faultCounter : (s.setPack i k).faultCounter = s.faultCounter := rfl
@[simp] theorem State.setPack_overwritten : (s.setPack i k).overwritten = s.overwritten := rfl
@[simp] theorem State.setPack_freeReported : (s.setPack i k).freeReported = s.freeReported := rfl
@[simp] theorem State.setPack_sessions : (s.setPack i k).sessions = s.sessions := rfl
@[simp] theorem State.setPack_sessionCounter : (s.setPack i k).sessionCounter = s.sessionCounter := rfl
@[simp] theorem State.setPack_slots : (s.setPack i k).slots = s.slots := rfl
@[simp] theorem State.setPack_mode : (s.setPack i k).mode = s.mode := rfl
@[simp] theorem State.setPack_day : (s.setPack i k).day = s.day := rfl
@[simp] theorem State.setPack_clock : (s.setPack i k).clock = s.clock := rfl
@[simp] theorem State.setPack_clockSet : (s.setPack i k).clockSet = s.clockSet := rfl
@[simp] theorem State.setPack_running : (s.setPack i k).running = s.running := rfl
@[simp] theorem State.setPack_report : (s.setPack i k).report = s.report := rfl
@[simp] theorem State.setPack_night : (s.setPack i k).night = s.night := rfl
@[simp] theorem State.setPack_params : (s.setPack i k).params = s.params := rfl
@[simp] theorem State.setPack_presentPrinters : (s.setPack i k).presentPrinters = s.presentPrinters := rfl
@[simp] theorem State.setPack_presentWindows : (s.setPack i k).presentWindows = s.presentWindows := rfl
@[simp] theorem State.setPack_save : (s.setPack i k).save = s.save := rfl
@[simp] theorem State.setPack_memory : (s.setPack i k).memory = s.memory := rfl
@[simp] theorem State.setPack_readFails : (s.setPack i k).readFails = s.readFails := rfl
@[simp] theorem State.setPack_powered : (s.setPack i k).powered = s.powered := rfl
@[simp] theorem State.setPack_resetLow : (s.setPack i k).resetLow = s.resetLow := rfl
@[simp] theorem State.setPack_coldPending : (s.setPack i k).coldPending = s.coldPending := rfl
@[simp] theorem State.setPack_valid : (s.setPack i k).valid = s.valid := rfl
@[simp] theorem State.setPack_freeIndex : (s.setPack i k).freeIndex = s.freeIndex := rfl
@[simp] theorem State.setPack_pending : (s.setPack i k).pending = s.pending := rfl
end

/-! ### setJob -/

section
variable (j : JobNo) (x : Option Job)
@[simp] theorem State.setJob_ports : (s.setJob j x).ports = s.ports := rfl
@[simp] theorem State.setJob_holds : (s.setJob j x).holds = s.holds := rfl
@[simp] theorem State.setJob_packs : (s.setJob j x).packs = s.packs := rfl
@[simp] theorem State.setJob_printers : (s.setJob j x).printers = s.printers := rfl
@[simp] theorem State.setJob_lineA : (s.setJob j x).lineA = s.lineA := rfl
@[simp] theorem State.setJob_lineB : (s.setJob j x).lineB = s.lineB := rfl
@[simp] theorem State.setJob_spoils : (s.setJob j x).spoils = s.spoils := rfl
@[simp] theorem State.setJob_issues : (s.setJob j x).issues = s.issues := rfl
@[simp] theorem State.setJob_faults : (s.setJob j x).faults = s.faults := rfl
@[simp] theorem State.setJob_faultCounter : (s.setJob j x).faultCounter = s.faultCounter := rfl
@[simp] theorem State.setJob_overwritten : (s.setJob j x).overwritten = s.overwritten := rfl
@[simp] theorem State.setJob_freeReported : (s.setJob j x).freeReported = s.freeReported := rfl
@[simp] theorem State.setJob_sessions : (s.setJob j x).sessions = s.sessions := rfl
@[simp] theorem State.setJob_sessionCounter : (s.setJob j x).sessionCounter = s.sessionCounter := rfl
@[simp] theorem State.setJob_slots : (s.setJob j x).slots = s.slots := rfl
@[simp] theorem State.setJob_mode : (s.setJob j x).mode = s.mode := rfl
@[simp] theorem State.setJob_day : (s.setJob j x).day = s.day := rfl
@[simp] theorem State.setJob_clock : (s.setJob j x).clock = s.clock := rfl
@[simp] theorem State.setJob_clockSet : (s.setJob j x).clockSet = s.clockSet := rfl
@[simp] theorem State.setJob_running : (s.setJob j x).running = s.running := rfl
@[simp] theorem State.setJob_report : (s.setJob j x).report = s.report := rfl
@[simp] theorem State.setJob_night : (s.setJob j x).night = s.night := rfl
@[simp] theorem State.setJob_params : (s.setJob j x).params = s.params := rfl
@[simp] theorem State.setJob_presentPrinters : (s.setJob j x).presentPrinters = s.presentPrinters := rfl
@[simp] theorem State.setJob_presentWindows : (s.setJob j x).presentWindows = s.presentWindows := rfl
@[simp] theorem State.setJob_save : (s.setJob j x).save = s.save := rfl
@[simp] theorem State.setJob_memory : (s.setJob j x).memory = s.memory := rfl
@[simp] theorem State.setJob_readFails : (s.setJob j x).readFails = s.readFails := rfl
@[simp] theorem State.setJob_powered : (s.setJob j x).powered = s.powered := rfl
@[simp] theorem State.setJob_resetLow : (s.setJob j x).resetLow = s.resetLow := rfl
@[simp] theorem State.setJob_coldPending : (s.setJob j x).coldPending = s.coldPending := rfl
@[simp] theorem State.setJob_valid : (s.setJob j x).valid = s.valid := rfl
@[simp] theorem State.setJob_freeIndex : (s.setJob j x).freeIndex = s.freeIndex := rfl
@[simp] theorem State.setJob_pending : (s.setJob j x).pending = s.pending := rfl
end

/-! ### modJob -/

section
variable (j : JobNo) (f : Job → Job)
@[simp] theorem State.modJob_ports : (s.modJob j f).ports = s.ports := rfl
@[simp] theorem State.modJob_holds : (s.modJob j f).holds = s.holds := rfl
@[simp] theorem State.modJob_packs : (s.modJob j f).packs = s.packs := rfl
@[simp] theorem State.modJob_printers : (s.modJob j f).printers = s.printers := rfl
@[simp] theorem State.modJob_lineA : (s.modJob j f).lineA = s.lineA := rfl
@[simp] theorem State.modJob_lineB : (s.modJob j f).lineB = s.lineB := rfl
@[simp] theorem State.modJob_spoils : (s.modJob j f).spoils = s.spoils := rfl
@[simp] theorem State.modJob_issues : (s.modJob j f).issues = s.issues := rfl
@[simp] theorem State.modJob_faults : (s.modJob j f).faults = s.faults := rfl
@[simp] theorem State.modJob_faultCounter : (s.modJob j f).faultCounter = s.faultCounter := rfl
@[simp] theorem State.modJob_overwritten : (s.modJob j f).overwritten = s.overwritten := rfl
@[simp] theorem State.modJob_freeReported : (s.modJob j f).freeReported = s.freeReported := rfl
@[simp] theorem State.modJob_sessions : (s.modJob j f).sessions = s.sessions := rfl
@[simp] theorem State.modJob_sessionCounter : (s.modJob j f).sessionCounter = s.sessionCounter := rfl
@[simp] theorem State.modJob_slots : (s.modJob j f).slots = s.slots := rfl
@[simp] theorem State.modJob_mode : (s.modJob j f).mode = s.mode := rfl
@[simp] theorem State.modJob_day : (s.modJob j f).day = s.day := rfl
@[simp] theorem State.modJob_clock : (s.modJob j f).clock = s.clock := rfl
@[simp] theorem State.modJob_clockSet : (s.modJob j f).clockSet = s.clockSet := rfl
@[simp] theorem State.modJob_running : (s.modJob j f).running = s.running := rfl
@[simp] theorem State.modJob_report : (s.modJob j f).report = s.report := rfl
@[simp] theorem State.modJob_night : (s.modJob j f).night = s.night := rfl
@[simp] theorem State.modJob_params : (s.modJob j f).params = s.params := rfl
@[simp] theorem State.modJob_presentPrinters : (s.modJob j f).presentPrinters = s.presentPrinters := rfl
@[simp] theorem State.modJob_presentWindows : (s.modJob j f).presentWindows = s.presentWindows := rfl
@[simp] theorem State.modJob_save : (s.modJob j f).save = s.save := rfl
@[simp] theorem State.modJob_memory : (s.modJob j f).memory = s.memory := rfl
@[simp] theorem State.modJob_readFails : (s.modJob j f).readFails = s.readFails := rfl
@[simp] theorem State.modJob_powered : (s.modJob j f).powered = s.powered := rfl
@[simp] theorem State.modJob_resetLow : (s.modJob j f).resetLow = s.resetLow := rfl
@[simp] theorem State.modJob_coldPending : (s.modJob j f).coldPending = s.coldPending := rfl
@[simp] theorem State.modJob_valid : (s.modJob j f).valid = s.valid := rfl
@[simp] theorem State.modJob_freeIndex : (s.modJob j f).freeIndex = s.freeIndex := rfl
@[simp] theorem State.modJob_pending : (s.modJob j f).pending = s.pending := rfl
end

/-! ### setSession -/

section
variable (i : SessionIx) (x : Option Session)
@[simp] theorem State.setSession_ports : (s.setSession i x).ports = s.ports := rfl
@[simp] theorem State.setSession_holds : (s.setSession i x).holds = s.holds := rfl
@[simp] theorem State.setSession_packs : (s.setSession i x).packs = s.packs := rfl
@[simp] theorem State.setSession_printers : (s.setSession i x).printers = s.printers := rfl
@[simp] theorem State.setSession_lineA : (s.setSession i x).lineA = s.lineA := rfl
@[simp] theorem State.setSession_lineB : (s.setSession i x).lineB = s.lineB := rfl
@[simp] theorem State.setSession_jobs : (s.setSession i x).jobs = s.jobs := rfl
@[simp] theorem State.setSession_spoils : (s.setSession i x).spoils = s.spoils := rfl
@[simp] theorem State.setSession_issues : (s.setSession i x).issues = s.issues := rfl
@[simp] theorem State.setSession_faults : (s.setSession i x).faults = s.faults := rfl
@[simp] theorem State.setSession_faultCounter : (s.setSession i x).faultCounter = s.faultCounter := rfl
@[simp] theorem State.setSession_overwritten : (s.setSession i x).overwritten = s.overwritten := rfl
@[simp] theorem State.setSession_freeReported : (s.setSession i x).freeReported = s.freeReported := rfl
@[simp] theorem State.setSession_sessionCounter : (s.setSession i x).sessionCounter = s.sessionCounter := rfl
@[simp] theorem State.setSession_slots : (s.setSession i x).slots = s.slots := rfl
@[simp] theorem State.setSession_mode : (s.setSession i x).mode = s.mode := rfl
@[simp] theorem State.setSession_day : (s.setSession i x).day = s.day := rfl
@[simp] theorem State.setSession_clock : (s.setSession i x).clock = s.clock := rfl
@[simp] theorem State.setSession_clockSet : (s.setSession i x).clockSet = s.clockSet := rfl
@[simp] theorem State.setSession_running : (s.setSession i x).running = s.running := rfl
@[simp] theorem State.setSession_report : (s.setSession i x).report = s.report := rfl
@[simp] theorem State.setSession_night : (s.setSession i x).night = s.night := rfl
@[simp] theorem State.setSession_params : (s.setSession i x).params = s.params := rfl
@[simp] theorem State.setSession_presentPrinters : (s.setSession i x).presentPrinters = s.presentPrinters := rfl
@[simp] theorem State.setSession_presentWindows : (s.setSession i x).presentWindows = s.presentWindows := rfl
@[simp] theorem State.setSession_save : (s.setSession i x).save = s.save := rfl
@[simp] theorem State.setSession_memory : (s.setSession i x).memory = s.memory := rfl
@[simp] theorem State.setSession_readFails : (s.setSession i x).readFails = s.readFails := rfl
@[simp] theorem State.setSession_powered : (s.setSession i x).powered = s.powered := rfl
@[simp] theorem State.setSession_resetLow : (s.setSession i x).resetLow = s.resetLow := rfl
@[simp] theorem State.setSession_coldPending : (s.setSession i x).coldPending = s.coldPending := rfl
@[simp] theorem State.setSession_valid : (s.setSession i x).valid = s.valid := rfl
@[simp] theorem State.setSession_freeIndex : (s.setSession i x).freeIndex = s.freeIndex := rfl
@[simp] theorem State.setSession_pending : (s.setSession i x).pending = s.pending := rfl
end

/-! ### setSlot -/

section
variable (w : Window) (x : Option AuthSlot)
@[simp] theorem State.setSlot_ports : (s.setSlot w x).ports = s.ports := rfl
@[simp] theorem State.setSlot_holds : (s.setSlot w x).holds = s.holds := rfl
@[simp] theorem State.setSlot_packs : (s.setSlot w x).packs = s.packs := rfl
@[simp] theorem State.setSlot_printers : (s.setSlot w x).printers = s.printers := rfl
@[simp] theorem State.setSlot_lineA : (s.setSlot w x).lineA = s.lineA := rfl
@[simp] theorem State.setSlot_lineB : (s.setSlot w x).lineB = s.lineB := rfl
@[simp] theorem State.setSlot_jobs : (s.setSlot w x).jobs = s.jobs := rfl
@[simp] theorem State.setSlot_spoils : (s.setSlot w x).spoils = s.spoils := rfl
@[simp] theorem State.setSlot_issues : (s.setSlot w x).issues = s.issues := rfl
@[simp] theorem State.setSlot_faults : (s.setSlot w x).faults = s.faults := rfl
@[simp] theorem State.setSlot_faultCounter : (s.setSlot w x).faultCounter = s.faultCounter := rfl
@[simp] theorem State.setSlot_overwritten : (s.setSlot w x).overwritten = s.overwritten := rfl
@[simp] theorem State.setSlot_freeReported : (s.setSlot w x).freeReported = s.freeReported := rfl
@[simp] theorem State.setSlot_sessions : (s.setSlot w x).sessions = s.sessions := rfl
@[simp] theorem State.setSlot_sessionCounter : (s.setSlot w x).sessionCounter = s.sessionCounter := rfl
@[simp] theorem State.setSlot_mode : (s.setSlot w x).mode = s.mode := rfl
@[simp] theorem State.setSlot_day : (s.setSlot w x).day = s.day := rfl
@[simp] theorem State.setSlot_clock : (s.setSlot w x).clock = s.clock := rfl
@[simp] theorem State.setSlot_clockSet : (s.setSlot w x).clockSet = s.clockSet := rfl
@[simp] theorem State.setSlot_running : (s.setSlot w x).running = s.running := rfl
@[simp] theorem State.setSlot_report : (s.setSlot w x).report = s.report := rfl
@[simp] theorem State.setSlot_night : (s.setSlot w x).night = s.night := rfl
@[simp] theorem State.setSlot_params : (s.setSlot w x).params = s.params := rfl
@[simp] theorem State.setSlot_presentPrinters : (s.setSlot w x).presentPrinters = s.presentPrinters := rfl
@[simp] theorem State.setSlot_presentWindows : (s.setSlot w x).presentWindows = s.presentWindows := rfl
@[simp] theorem State.setSlot_save : (s.setSlot w x).save = s.save := rfl
@[simp] theorem State.setSlot_memory : (s.setSlot w x).memory = s.memory := rfl
@[simp] theorem State.setSlot_readFails : (s.setSlot w x).readFails = s.readFails := rfl
@[simp] theorem State.setSlot_powered : (s.setSlot w x).powered = s.powered := rfl
@[simp] theorem State.setSlot_resetLow : (s.setSlot w x).resetLow = s.resetLow := rfl
@[simp] theorem State.setSlot_coldPending : (s.setSlot w x).coldPending = s.coldPending := rfl
@[simp] theorem State.setSlot_valid : (s.setSlot w x).valid = s.valid := rfl
@[simp] theorem State.setSlot_freeIndex : (s.setSlot w x).freeIndex = s.freeIndex := rfl
@[simp] theorem State.setSlot_pending : (s.setSlot w x).pending = s.pending := rfl
end

/-! ### setHold -/

section
variable (w : Window) (b : Bool)
@[simp] theorem State.setHold_ports : (s.setHold w b).ports = s.ports := rfl
@[simp] theorem State.setHold_packs : (s.setHold w b).packs = s.packs := rfl
@[simp] theorem State.setHold_printers : (s.setHold w b).printers = s.printers := rfl
@[simp] theorem State.setHold_lineA : (s.setHold w b).lineA = s.lineA := rfl
@[simp] theorem State.setHold_lineB : (s.setHold w b).lineB = s.lineB := rfl
@[simp] theorem State.setHold_jobs : (s.setHold w b).jobs = s.jobs := rfl
@[simp] theorem State.setHold_spoils : (s.setHold w b).spoils = s.spoils := rfl
@[simp] theorem State.setHold_issues : (s.setHold w b).issues = s.issues := rfl
@[simp] theorem State.setHold_faults : (s.setHold w b).faults = s.faults := rfl
@[simp] theorem State.setHold_faultCounter : (s.setHold w b).faultCounter = s.faultCounter := rfl
@[simp] theorem State.setHold_overwritten : (s.setHold w b).overwritten = s.overwritten := rfl
@[simp] theorem State.setHold_freeReported : (s.setHold w b).freeReported = s.freeReported := rfl
@[simp] theorem State.setHold_sessions : (s.setHold w b).sessions = s.sessions := rfl
@[simp] theorem State.setHold_sessionCounter : (s.setHold w b).sessionCounter = s.sessionCounter := rfl
@[simp] theorem State.setHold_slots : (s.setHold w b).slots = s.slots := rfl
@[simp] theorem State.setHold_mode : (s.setHold w b).mode = s.mode := rfl
@[simp] theorem State.setHold_day : (s.setHold w b).day = s.day := rfl
@[simp] theorem State.setHold_clock : (s.setHold w b).clock = s.clock := rfl
@[simp] theorem State.setHold_clockSet : (s.setHold w b).clockSet = s.clockSet := rfl
@[simp] theorem State.setHold_running : (s.setHold w b).running = s.running := rfl
@[simp] theorem State.setHold_report : (s.setHold w b).report = s.report := rfl
@[simp] theorem State.setHold_night : (s.setHold w b).night = s.night := rfl
@[simp] theorem State.setHold_params : (s.setHold w b).params = s.params := rfl
@[simp] theorem State.setHold_presentPrinters : (s.setHold w b).presentPrinters = s.presentPrinters := rfl
@[simp] theorem State.setHold_presentWindows : (s.setHold w b).presentWindows = s.presentWindows := rfl
@[simp] theorem State.setHold_save : (s.setHold w b).save = s.save := rfl
@[simp] theorem State.setHold_memory : (s.setHold w b).memory = s.memory := rfl
@[simp] theorem State.setHold_readFails : (s.setHold w b).readFails = s.readFails := rfl
@[simp] theorem State.setHold_powered : (s.setHold w b).powered = s.powered := rfl
@[simp] theorem State.setHold_resetLow : (s.setHold w b).resetLow = s.resetLow := rfl
@[simp] theorem State.setHold_coldPending : (s.setHold w b).coldPending = s.coldPending := rfl
@[simp] theorem State.setHold_valid : (s.setHold w b).valid = s.valid := rfl
@[simp] theorem State.setHold_freeIndex : (s.setHold w b).freeIndex = s.freeIndex := rfl
@[simp] theorem State.setHold_pending : (s.setHold w b).pending = s.pending := rfl
end

/-! ### setLine -/

section
variable (l : Line) (e : LineEngine)
@[simp] theorem State.setLine_ports : (s.setLine l e).ports = s.ports := by cases l <;> rfl
@[simp] theorem State.setLine_holds : (s.setLine l e).holds = s.holds := by cases l <;> rfl
@[simp] theorem State.setLine_packs : (s.setLine l e).packs = s.packs := by cases l <;> rfl
@[simp] theorem State.setLine_printers : (s.setLine l e).printers = s.printers := by cases l <;> rfl
@[simp] theorem State.setLine_jobs : (s.setLine l e).jobs = s.jobs := by cases l <;> rfl
@[simp] theorem State.setLine_spoils : (s.setLine l e).spoils = s.spoils := by cases l <;> rfl
@[simp] theorem State.setLine_issues : (s.setLine l e).issues = s.issues := by cases l <;> rfl
@[simp] theorem State.setLine_faults : (s.setLine l e).faults = s.faults := by cases l <;> rfl
@[simp] theorem State.setLine_faultCounter : (s.setLine l e).faultCounter = s.faultCounter := by cases l <;> rfl
@[simp] theorem State.setLine_overwritten : (s.setLine l e).overwritten = s.overwritten := by cases l <;> rfl
@[simp] theorem State.setLine_freeReported : (s.setLine l e).freeReported = s.freeReported := by cases l <;> rfl
@[simp] theorem State.setLine_sessions : (s.setLine l e).sessions = s.sessions := by cases l <;> rfl
@[simp] theorem State.setLine_sessionCounter : (s.setLine l e).sessionCounter = s.sessionCounter := by cases l <;> rfl
@[simp] theorem State.setLine_slots : (s.setLine l e).slots = s.slots := by cases l <;> rfl
@[simp] theorem State.setLine_mode : (s.setLine l e).mode = s.mode := by cases l <;> rfl
@[simp] theorem State.setLine_day : (s.setLine l e).day = s.day := by cases l <;> rfl
@[simp] theorem State.setLine_clock : (s.setLine l e).clock = s.clock := by cases l <;> rfl
@[simp] theorem State.setLine_clockSet : (s.setLine l e).clockSet = s.clockSet := by cases l <;> rfl
@[simp] theorem State.setLine_running : (s.setLine l e).running = s.running := by cases l <;> rfl
@[simp] theorem State.setLine_report : (s.setLine l e).report = s.report := by cases l <;> rfl
@[simp] theorem State.setLine_night : (s.setLine l e).night = s.night := by cases l <;> rfl
@[simp] theorem State.setLine_params : (s.setLine l e).params = s.params := by cases l <;> rfl
@[simp] theorem State.setLine_presentPrinters : (s.setLine l e).presentPrinters = s.presentPrinters := by cases l <;> rfl
@[simp] theorem State.setLine_presentWindows : (s.setLine l e).presentWindows = s.presentWindows := by cases l <;> rfl
@[simp] theorem State.setLine_save : (s.setLine l e).save = s.save := by cases l <;> rfl
@[simp] theorem State.setLine_memory : (s.setLine l e).memory = s.memory := by cases l <;> rfl
@[simp] theorem State.setLine_readFails : (s.setLine l e).readFails = s.readFails := by cases l <;> rfl
@[simp] theorem State.setLine_powered : (s.setLine l e).powered = s.powered := by cases l <;> rfl
@[simp] theorem State.setLine_resetLow : (s.setLine l e).resetLow = s.resetLow := by cases l <;> rfl
@[simp] theorem State.setLine_coldPending : (s.setLine l e).coldPending = s.coldPending := by cases l <;> rfl
@[simp] theorem State.setLine_valid : (s.setLine l e).valid = s.valid := by cases l <;> rfl
@[simp] theorem State.setLine_freeIndex : (s.setLine l e).freeIndex = s.freeIndex := by cases l <;> rfl
@[simp] theorem State.setLine_pending : (s.setLine l e).pending = s.pending := by cases l <;> rfl
end

/-! ### addDay -/

section
variable (f : Summary → Summary)
@[simp] theorem addDay_ports : (addDay f s).ports = s.ports := rfl
@[simp] theorem addDay_holds : (addDay f s).holds = s.holds := rfl
@[simp] theorem addDay_packs : (addDay f s).packs = s.packs := rfl
@[simp] theorem addDay_printers : (addDay f s).printers = s.printers := rfl
@[simp] theorem addDay_lineA : (addDay f s).lineA = s.lineA := rfl
@[simp] theorem addDay_lineB : (addDay f s).lineB = s.lineB := rfl
@[simp] theorem addDay_jobs : (addDay f s).jobs = s.jobs := rfl
@[simp] theorem addDay_spoils : (addDay f s).spoils = s.spoils := rfl
@[simp] theorem addDay_issues : (addDay f s).issues = s.issues := rfl
@[simp] theorem addDay_faults : (addDay f s).faults = s.faults := rfl
@[simp] theorem addDay_faultCounter : (addDay f s).faultCounter = s.faultCounter := rfl
@[simp] theorem addDay_overwritten : (addDay f s).overwritten = s.overwritten := rfl
@[simp] theorem addDay_freeReported : (addDay f s).freeReported = s.freeReported := rfl
@[simp] theorem addDay_sessions : (addDay f s).sessions = s.sessions := rfl
@[simp] theorem addDay_sessionCounter : (addDay f s).sessionCounter = s.sessionCounter := rfl
@[simp] theorem addDay_slots : (addDay f s).slots = s.slots := rfl
@[simp] theorem addDay_mode : (addDay f s).mode = s.mode := rfl
@[simp] theorem addDay_day : (addDay f s).day = s.day := rfl
@[simp] theorem addDay_clock : (addDay f s).clock = s.clock := rfl
@[simp] theorem addDay_clockSet : (addDay f s).clockSet = s.clockSet := rfl
@[simp] theorem addDay_report : (addDay f s).report = s.report := rfl
@[simp] theorem addDay_params : (addDay f s).params = s.params := rfl
@[simp] theorem addDay_presentPrinters : (addDay f s).presentPrinters = s.presentPrinters := rfl
@[simp] theorem addDay_presentWindows : (addDay f s).presentWindows = s.presentWindows := rfl
@[simp] theorem addDay_save : (addDay f s).save = s.save := rfl
@[simp] theorem addDay_memory : (addDay f s).memory = s.memory := rfl
@[simp] theorem addDay_readFails : (addDay f s).readFails = s.readFails := rfl
@[simp] theorem addDay_powered : (addDay f s).powered = s.powered := rfl
@[simp] theorem addDay_resetLow : (addDay f s).resetLow = s.resetLow := rfl
@[simp] theorem addDay_coldPending : (addDay f s).coldPending = s.coldPending := rfl
@[simp] theorem addDay_valid : (addDay f s).valid = s.valid := rfl
@[simp] theorem addDay_freeIndex : (addDay f s).freeIndex = s.freeIndex := rfl
@[simp] theorem addDay_pending : (addDay f s).pending = s.pending := rfl
@[simp] theorem addDay_running : (addDay f s).running = f s.running := rfl
@[simp] theorem addDay_night : (addDay f s).night = (s.night || s.mode == .night) := rfl
end

end Sys2Proof.Machine
end

