-- ==== Sys2Proof/Laws/Tables.lean ====
section
/-! SUPPORT. Reading one record after writing one: every indexed table of the state, and the search functions over the
tables. -/

namespace Sys2Proof.Machine

set_option Elab.async false

variable (s : State)

theorem portIx_injective : Function.Injective portIx := by
  intro a b h
  cases a <;> cases b <;> simp_all [portIx, Fin.ext_iff] <;> omega

@[simp] theorem portIx_inj {a b : Port} : portIx a = portIx b ↔ a = b := portIx_injective.eq_iff

theorem State.port_setPort (p r : Port) (q : PortState) : (s.setPort p q).port r = if p = r then q else s.port r := by
  simp [State.port, State.setPort, look_put]

@[simp] theorem State.port_setPort_same (p : Port) (q : PortState) : (s.setPort p q).port p = q := by
  simp [State.port_setPort]

theorem State.port_modPort (p r : Port) (f : PortState → PortState) :
    (s.modPort p f).port r = if p = r then f (s.port p) else s.port r := State.port_setPort ..

@[simp] theorem State.port_modPort_same (p : Port) (f : PortState → PortState) :
    (s.modPort p f).port p = f (s.port p) := by simp [State.port_modPort]

theorem State.printer_setPrinter (p r : PrinterId) (c : Printer) :
    (s.setPrinter p c).printer r = if p = r then c else s.printer r := by
  simp [State.printer, State.setPrinter, look_put]

@[simp] theorem State.printer_setPrinter_same (p : PrinterId) (c : Printer) : (s.setPrinter p c).printer p = c := by
  simp [State.printer_setPrinter]

theorem State.printer_modPrinter (p r : PrinterId) (f : Printer → Printer) :
    (s.modPrinter p f).printer r = if p = r then f (s.printer p) else s.printer r := State.printer_setPrinter ..

@[simp] theorem State.printer_modPrinter_same (p : PrinterId) (f : Printer → Printer) :
    (s.modPrinter p f).printer p = f (s.printer p) := by simp [State.printer_modPrinter]

theorem State.pack_setPack (i j : PackIx) (k : Option Pack) : (s.setPack i k).pack j = if i = j then k else s.pack j := by
  simp [State.pack, State.setPack, look_put]

@[simp] theorem State.pack_setPack_same (i : PackIx) (k : Option Pack) : (s.setPack i k).pack i = k := by
  simp [State.pack_setPack]

theorem State.job_setJob (i j : JobNo) (k : Option Job) : (s.setJob i k).job j = if i = j then k else s.job j := by
  simp [State.job, State.setJob, look_put]

@[simp] theorem State.job_setJob_same (i : JobNo) (k : Option Job) : (s.setJob i k).job i = k := by
  simp [State.job_setJob]

theorem State.job_modJob (i j : JobNo) (f : Job → Job) :
    (s.modJob i f).job j = if i = j then (s.job i).map f else s.job j := State.job_setJob ..

@[simp] theorem State.job_modJob_same (i : JobNo) (f : Job → Job) : (s.modJob i f).job i = (s.job i).map f := by
  simp [State.job_modJob]

theorem State.session_setSession (i j : SessionIx) (k : Option Session) :
    (s.setSession i k).session j = if i = j then k else s.session j := by
  simp [State.session, State.setSession, look_put]

@[simp] theorem State.session_setSession_same (i : SessionIx) (k : Option Session) :
    (s.setSession i k).session i = k := by simp [State.session_setSession]

theorem State.slot_setSlot (i j : Window) (k : Option AuthSlot) :
    (s.setSlot i k).slot j = if i = j then k else s.slot j := by
  simp [State.slot, State.setSlot, look_put]

@[simp] theorem State.slot_setSlot_same (i : Window) (k : Option AuthSlot) : (s.setSlot i k).slot i = k := by
  simp [State.slot_setSlot]

theorem State.hold_setHold (i j : Window) (b : Bool) : (s.setHold i b).hold j = if i = j then b else s.hold j := by
  simp [State.hold, State.setHold, look_put]

@[simp] theorem State.hold_setHold_same (i : Window) (b : Bool) : (s.setHold i b).hold i = b := by
  simp [State.hold_setHold]

theorem State.line_setLine (l m : Line) (e : LineEngine) : (s.setLine l e).line m = if l = m then e else s.line m := by
  cases l <;> cases m <;> rfl

@[simp] theorem State.line_setLine_same (l : Line) (e : LineEngine) : (s.setLine l e).line l = e := by
  simp [State.line_setLine]

/-! ### What a read of one table sees of a write of another: the writes of one table leave the reads of the rest -/

@[simp] theorem State.pack_setPort (p : Port) (q : PortState) (i : PackIx) : (s.setPort p q).pack i = s.pack i := rfl
@[simp] theorem State.pack_modPort (p : Port) (f : PortState → PortState) (i : PackIx) :
    (s.modPort p f).pack i = s.pack i := rfl
@[simp] theorem State.pack_setPrinter (p : PrinterId) (c : Printer) (i : PackIx) :
    (s.setPrinter p c).pack i = s.pack i := rfl
@[simp] theorem State.pack_modPrinter (p : PrinterId) (f : Printer → Printer) (i : PackIx) :
    (s.modPrinter p f).pack i = s.pack i := rfl
@[simp] theorem State.pack_setJob (j : JobNo) (x : Option Job) (i : PackIx) : (s.setJob j x).pack i = s.pack i := rfl
@[simp] theorem State.pack_modJob (j : JobNo) (f : Job → Job) (i : PackIx) : (s.modJob j f).pack i = s.pack i := rfl
@[simp] theorem State.pack_setSession (j : SessionIx) (x : Option Session) (i : PackIx) :
    (s.setSession j x).pack i = s.pack i := rfl
@[simp] theorem State.pack_setSlot (w : Window) (x : Option AuthSlot) (i : PackIx) :
    (s.setSlot w x).pack i = s.pack i := rfl
@[simp] theorem State.pack_addDay (f : Summary → Summary) (i : PackIx) : (addDay f s).pack i = s.pack i := rfl

@[simp] theorem State.port_setPrinter (p : PrinterId) (c : Printer) (q : Port) :
    (s.setPrinter p c).port q = s.port q := rfl
@[simp] theorem State.port_modPrinter (p : PrinterId) (f : Printer → Printer) (q : Port) :
    (s.modPrinter p f).port q = s.port q := rfl
@[simp] theorem State.port_setPack (i : PackIx) (k : Option Pack) (q : Port) : (s.setPack i k).port q = s.port q := rfl
@[simp] theorem State.port_setJob (j : JobNo) (x : Option Job) (q : Port) : (s.setJob j x).port q = s.port q := rfl
@[simp] theorem State.port_modJob (j : JobNo) (f : Job → Job) (q : Port) : (s.modJob j f).port q = s.port q := rfl
@[simp] theorem State.port_setSession (j : SessionIx) (x : Option Session) (q : Port) :
    (s.setSession j x).port q = s.port q := rfl
@[simp] theorem State.port_setSlot (w : Window) (x : Option AuthSlot) (q : Port) :
    (s.setSlot w x).port q = s.port q := rfl
@[simp] theorem State.port_setHold (w : Window) (b : Bool) (q : Port) : (s.setHold w b).port q = s.port q := rfl
@[simp] theorem State.port_addDay (f : Summary → Summary) (q : Port) : (addDay f s).port q = s.port q := rfl
@[simp] theorem State.port_setLine (l : Line) (e : LineEngine) (q : Port) : (s.setLine l e).port q = s.port q := by
  cases l <;> rfl

@[simp] theorem State.printer_setPort (p : Port) (q : PortState) (r : PrinterId) :
    (s.setPort p q).printer r = s.printer r := rfl
@[simp] theorem State.printer_modPort (p : Port) (f : PortState → PortState) (r : PrinterId) :
    (s.modPort p f).printer r = s.printer r := rfl
@[simp] theorem State.printer_setPack (i : PackIx) (k : Option Pack) (r : PrinterId) :
    (s.setPack i k).printer r = s.printer r := rfl
@[simp] theorem State.printer_setJob (j : JobNo) (x : Option Job) (r : PrinterId) :
    (s.setJob j x).printer r = s.printer r := rfl
@[simp] theorem State.printer_modJob (j : JobNo) (f : Job → Job) (r : PrinterId) :
    (s.modJob j f).printer r = s.printer r := rfl
@[simp] theorem State.printer_setSession (j : SessionIx) (x : Option Session) (r : PrinterId) :
    (s.setSession j x).printer r = s.printer r := rfl
@[simp] theorem State.printer_setSlot (w : Window) (x : Option AuthSlot) (r : PrinterId) :
    (s.setSlot w x).printer r = s.printer r := rfl
@[simp] theorem State.printer_addDay (f : Summary → Summary) (r : PrinterId) :
    (addDay f s).printer r = s.printer r := rfl
@[simp] theorem State.printer_setLine (l : Line) (e : LineEngine) (r : PrinterId) :
    (s.setLine l e).printer r = s.printer r := by cases l <;> rfl

/-! ### Searches -/

theorem State.packOf_some {n : Nat} {i : PackIx} (h : s.packOf n = some i) :
    ∃ k, s.pack i = some k ∧ k.first ≤ n ∧ n ≤ k.last := by
  have hf := List.find?_some h
  cases hk : s.pack i with
  | none => simp [hk] at hf
  | some k => exact ⟨k, rfl, by simpa [hk] using hf⟩

theorem State.loadedAt_some {p : PrinterId} {i : PackIx} (h : s.loadedAt p = some i) :
    ∃ k, s.pack i = some k ∧ k.state = .loaded ∧ k.printer = some p := by
  have hf := List.find?_some h
  cases hk : s.pack i with
  | none => simp [hk] at hf
  | some k => exact ⟨k, rfl, by simpa [hk] using hf⟩

theorem State.loadingAt_some {p : PrinterId} {i : PackIx} (h : s.loadingAt p = some i) :
    ∃ k, s.pack i = some k ∧ k.state = .loading ∧ k.printer = some p := by
  have hf := List.find?_some h
  cases hk : s.pack i with
  | none => simp [hk] at hf
  | some k => exact ⟨k, rfl, by simpa [hk] using hf⟩

theorem State.sessionOf_some {n : Nat} {i : SessionIx} (h : s.sessionOf n = some i) :
    ∃ x, s.session i = some x ∧ x.number = n := by
  have hf := List.find?_some h
  cases hk : s.session i with
  | none => simp [hk] at hf
  | some k => exact ⟨k, rfl, by simpa [hk] using hf⟩

theorem State.windowSession_some {w : Window} {st : SessionState} {i : SessionIx} (h : s.windowSession w st = some i) :
    ∃ x, s.session i = some x ∧ x.window = w ∧ x.state = st := by
  have hf := List.find?_some h
  cases hk : s.session i with
  | none => simp [hk] at hf
  | some k => exact ⟨k, rfl, by simpa [hk] using hf⟩

theorem State.jobOfTag_some {p : Port} {tag : Nat} {j : JobNo} (h : s.jobOfTag p tag = some j) :
    ∃ x, s.job j = some x ∧ x.port = p ∧ x.tag = tag := by
  have hf := List.find?_some h
  cases hk : s.job j with
  | none => simp [hk] at hf
  | some k => exact ⟨k, rfl, by simpa [hk] using hf⟩

theorem State.faultOf_some {n : Nat} {r : FaultRecord} (h : s.faultOf n = some r) : r ∈ s.faults ∧ r.number = n := by
  have := List.find?_some h
  exact ⟨List.mem_of_find?_eq_some h, by simpa using this⟩

theorem State.stopRecord_some {p : PrinterId} {r : FaultRecord} (h : s.stopRecord p = some r) :
    r ∈ s.faults ∧ r.severity = .stop ∧ r.printer = some p ∧ r.state ≠ .closed := by
  have := List.find?_some h
  exact ⟨List.mem_of_find?_eq_some h, by simpa [and_assoc] using this⟩

theorem lowestFree_some {α : Type} {n : Nat} {v : Vector (Option α) n} {i : Fin n} (h : lowestFree v = some i) :
    look v i = none := by
  have := List.find?_some h
  simpa using this

end Sys2Proof.Machine
end

