-- ==== Sys2Proof/Laws/Ports.lean ====
section
/-! SUPPORT. What notices, replies and the taking of a request do: which fields they leave, and what each port's queue
holds afterwards. -/

namespace Sys2Proof.Machine

set_option Elab.async false

variable (s : State)

/-! ### Notices -/

theorem notify_eq (p : Port) (n : Notice) : ∃ v, notify p n s = { s with ports := v } := by
  unfold notify; split
  · exact ⟨_, rfl⟩
  · exact ⟨s.ports, rfl⟩

theorem notify_port (p : Port) (n : Notice) (q : Port) : (notify p n s).port q = noticed s [(p, n)] q (s.port q) := by
  unfold notify noticed
  by_cases h : p = q
  · subst h; by_cases hp : s.portPresent p = true <;> simp [hp]
  · by_cases hp : s.portPresent p = true <;> simp [hp, h, State.port_modPort]

theorem portPresent_of_ports (v : Vector PortState 13) (p : Port) :
    ({ s with ports := v } : State).portPresent p = s.portPresent p := by cases p <;> rfl

theorem noticed_append (a b : List (Port × Notice)) (q : Port) (x : PortState) :
    noticed s (a ++ b) q x = noticed s b q (noticed s a q x) := by simp [noticed]

@[simp] theorem noticed_nil (q : Port) (x : PortState) : noticed s [] q x = x := rfl

theorem noticed_congr {s t : State} (h : s.presentWindows = t.presentWindows) (notes : List (Port × Notice)) (q : Port)
    (x : PortState) : noticed s notes q x = noticed t notes q x := by
  have : s.portPresent q = t.portPresent q := by cases q <;> simp [State.portPresent, State.windowPresent, h]
  simp [noticed, this]

theorem notifyAll_spec (ps : List Port) (n : Notice) :
    ∃ v, notifyAll ps n s = { s with ports := v } ∧
      ∀ q, (notifyAll ps n s).port q = noticed s (ps.map fun p => (p, n)) q (s.port q) := by
  induction ps generalizing s with
  | nil => exact ⟨s.ports, rfl, fun q => rfl⟩
  | cons p ps ih =>
    obtain ⟨v, hv⟩ := notify_eq s p n
    obtain ⟨w, hw, hq⟩ := ih (notify p n s)
    refine ⟨w, ?_, fun q => ?_⟩
    · show notifyAll ps n (notify p n s) = _
      rw [hw, hv]
    · show (notifyAll ps n (notify p n s)).port q = _
      rw [hq, notify_port, noticed_congr (t := s) (by rw [hv])]
      exact (noticed_append s [(p, n)] (ps.map fun p => (p, n)) q (s.port q)).symm

/-! ### Replies -/

theorem answer_eq (p : Port) (h : Header) (code : Nat) (rc : ResultCode) (res : Results) :
    answer p h code rc res s = s.modPort p (replyIn h code rc res) := by
  unfold answer State.modPort replyIn
  simp only [Bool.and_eq_true, beq_iff_eq]

theorem answer_ports (p : Port) (h : Header) (code : Nat) (rc : ResultCode) (res : Results) :
    ∃ v, answer p h code rc res s = { s with ports := v } := ⟨_, rfl⟩

/-- The state from which the block of a taken request acts. -/
def taken (p : Port) (rest : List (List Byte)) (s : State) : State := s.modPort p fun q => { q with fifo := rest }

/-- What an accepted request does is what its block answers. -/
theorem takeRequest_accepted {p : Port} {h : Header} {i : Instr} {rest : List (List Byte)} {s : State}
    (ha : Accepts p h i rest s) (act : State → Verdict) :
    takeRequest p h i act s =
      match act (taken p rest s) with
      | .refuse rc res => answer p h ((requestCode i).getD 0) rc res (taken p rest s)
      | .done t res => answer p h ((requestCode i).getD 0) .done res t
      | .referred t res => answer p h ((requestCode i).getD 0) .referred res t
      | .deferred t => t
      | .silent t => t := by
  obtain ⟨_, hc, hw, ho, hch, hs⟩ := ha
  have h1 : (h.chain && ((taken p rest s).port p).previous == .refused) = false := by
    have e : ((taken p rest s).port p).previous = (s.port p).previous := by simp [taken]
    rw [e, Bool.and_eq_false_iff]
    by_cases hx : h.chain = true
    · right; simpa using fun hp => hch ⟨hx, hp⟩
    · left; simpa using hx
  have h2 : (supervisorCode ((requestCode i).getD 0) && Port.isWindow p) = false := by
    rw [Bool.and_eq_false_iff]
    by_cases hx : supervisorCode ((requestCode i).getD 0) = true
    · right; rw [hs hx]; rfl
    · left; simpa using hx
  unfold takeRequest
  simp only [hc, hw, ho, Bool.and_self, if_true]
  show serve p h _ act (taken p rest s) = _
  unfold serve
  rw [h1, h2]
  rfl

/-- The port that takes a request has only its FIFO changed. -/
theorem taken_port (p : Port) (rest : List (List Byte)) (q : Port) :
    (taken p rest s).port q = if q = p then { s.port p with fifo := rest } else s.port q := by
  unfold taken; rw [State.port_modPort]; simp only [eq_comm]

/-- A request whose block answers DONE, the notices `notes` having gone first. -/
theorem takeRequest_done {p : Port} {h : Header} {i : Instr} {rest : List (List Byte)} {s u : State}
    {act : State → Verdict} {res : Results} {notes : List (Port × Notice)} (ha : Accepts p h i rest s)
    (hact : act (taken p rest s) = .done u res)
    (hu : ∀ q, u.port q = noticed s notes q ((taken p rest s).port q)) :
    Answered p h ((requestCode i).getD 0) .done res rest notes s (takeRequest p h i act s)
      ∧ takeRequest p h i act s = { u with ports := (takeRequest p h i act s).ports } := by
  rw [takeRequest_accepted ha, hact]
  refine ⟨⟨?_, fun q hq => ?_⟩, rfl⟩
  · simp only [answer_eq, State.port_modPort_same, hu, taken_port, if_true]
  · simp only [answer_eq, State.port_modPort, Ne.symm hq, if_false, hu, taken_port, hq]

/-- A request whose block answers REFERRED, the notices `notes` having gone first. -/
theorem takeRequest_referred {p : Port} {h : Header} {i : Instr} {rest : List (List Byte)} {s u : State}
    {act : State → Verdict} {res : Results} {notes : List (Port × Notice)} (ha : Accepts p h i rest s)
    (hact : act (taken p rest s) = .referred u res)
    (hu : ∀ q, u.port q = noticed s notes q ((taken p rest s).port q)) :
    Answered p h ((requestCode i).getD 0) .referred res rest notes s (takeRequest p h i act s)
      ∧ takeRequest p h i act s = { u with ports := (takeRequest p h i act s).ports } := by
  rw [takeRequest_accepted ha, hact]
  refine ⟨⟨?_, fun q hq => ?_⟩, rfl⟩
  · simp only [answer_eq, State.port_modPort_same, hu, taken_port, if_true]
  · simp only [answer_eq, State.port_modPort, Ne.symm hq, if_false, hu, taken_port, hq]

/-- A request that is refused leaves every record as it stood (R181). -/
theorem takeRequest_refused {p : Port} {h : Header} {i : Instr} {rest : List (List Byte)} {s : State}
    {act : State → Verdict} {rc : ResultCode} {res : Results} (ha : Accepts p h i rest s)
    (hact : act (taken p rest s) = .refuse rc res) :
    Answered p h ((requestCode i).getD 0) rc res rest [] s (takeRequest p h i act s)
      ∧ takeRequest p h i act s = { s with ports := (takeRequest p h i act s).ports } := by
  rw [takeRequest_accepted ha, hact]
  refine ⟨⟨?_, fun q hq => ?_⟩, rfl⟩
  · simp only [answer_eq, State.port_modPort_same, taken_port, if_true, noticed_nil]
  · simp only [answer_eq, State.port_modPort, Ne.symm hq, if_false, taken_port, hq, noticed_nil]

end Sys2Proof.Machine
end

