-- ==== Sys2Proof/Laws/Moves.lean ====
section
/-! SUPPORT. What a step can do, said once: the single changes it is made of, each with the condition under which it
happens. Laws/Acts.lean shows that every shared operation and every command is a chain of them, so that a law of the whole
part needs only one argument for each single change. -/

namespace Sys2Proof.Machine

set_option Elab.async false

/-! ### One record -/

/-- What happens to a pack record: the movements of R5 and the changes of state of R6 to R16 and R22. -/
inductive PackMove : Pack → Pack → Prop
  | coupon (n : Nat) (k : Pack) : PackMove k (takeCoupon n k)
  | bad (k : Pack) : PackMove k (spoilNext k)
  | skip (n : Nat) (k : Pack) : PackMove k (skipTo n k)
  | issue (k : Pack) : PackMove k (issueTicket k)
  | abandon (k : Pack) : PackMove k (abandonTicket k)
  | void (n : Nat) (k : Pack) : PackMove k (voidBlanks n k)
  | loading (k : Pack) (p : PrinterId) : k.state ≠ .loaded →
      PackMove k { k with prior := some k.state, state := .loading, printer := some p }
  | loaded (k : Pack) : k.state = .loading → PackMove k { k with state := .loaded, prior := none, inPrint := [] }
  | revert (k : Pack) : k.state = .loading → PackMove k (revertPack k)
  | out (k : Pack) : k.state = .loaded → PackMove k (takenOut k)
  | sentBack (k : Pack) : k.state ≠ .loaded → PackMove k (returnedPack k)
  | off (n : Nat) (k : Pack) : k.state ≠ .loaded → n ≤ k.remaining → PackMove k (writtenOffPack n k)

/-- What happens to a session record. -/
inductive SessionMove : Session → Session → Prop
  | figures (x y : Session) : y.state = x.state → y.declaration = x.declaration → y.results = x.results →
      y.recounts = x.recounts → SessionMove x y
  | closing (x : Session) (time : Nat) : x.state = .opened →
      SessionMove x { x with state := .closing, closedAt := some time }
  | counting (x : Session) : x.state = .closing → SessionMove x { x with state := .counting }
  | declared (x : Session) (q : Params) (d : Declaration) : x.state = .counting → SessionMove x (declareSession q d x)
  | recounted (x : Session) : x.state = .reconciled → x.recounts < 2 → SessionMove x (recountSession x)

/-- What a block's work does to a port: a notice, or the end of a deferred request. -/
inductive InnerPort : PortState → PortState → Prop
  | notice (n : Notice) (q : PortState) : InnerPort q (withNotice n q)
  | ended (q : PortState) (x : Hand) (h : Header) (code : Nat) (rc : ResultCode) (res : Results) :
      q.hand = some x → InnerPort q (replyIn h code rc res { q with hand := none })
  | dropped (q : PortState) (x : Hand) : q.hand = some x → InnerPort q { q with hand := none }

/-- What any step does to a port. -/
inductive OuterPort : PortState → PortState → Prop
  | inner (q r : PortState) : InnerPort q r → OuterPort q r
  | marks (q r : PortState) : r.fifo = q.fifo → r.outq = q.outq → r.hand = q.hand → OuterPort q r
  | join (body : List Byte) (q : PortState) : OuterPort q (withRequest body q)
  | took (rest : List (List Byte)) (q : PortState) : rest.length ≤ q.fifo.length → OuterPort q { q with fifo := rest }
  | replied (h : Header) (code : Nat) (rc : ResultCode) (res : Results) (q : PortState) : q.hand = none →
      hasReply q.outq = false → OuterPort q (replyIn h code rc res q)
  | held (x : Hand) (q : PortState) : q.hand = none → hasReply q.outq = false → OuterPort q { q with hand := some x }
  | broke (q : PortState) : OuterPort q (breakPort q)
  | sent (q : PortState) : OuterPort q (sendOldest q)
  | reset (q : PortState) : OuterPort q (restPort [])

/-- What happens to the running parameter set. -/
inductive ParamMove : Params → Params → Prop
  | image (q r : Params) : paramsOk r = true → ParamMove q r
  | pair (q : Params) (w : Window) (x : Pair) : x.alternate ≠ some x.primary →
      ParamMove q { q with pairs := put q.pairs w x }
  | change (q : Params) (c : ParamChange) : changeOk c = true → ParamMove q (changed q c)

/-! ### One change of the state -/

/-- The fields that a law below speaks of are as they were. -/
structure SameBooks (s t : State) : Prop where
  ports : t.ports = s.ports
  packs : t.packs = s.packs
  printers : t.printers = s.printers
  spoils : t.spoils = s.spoils
  issues : t.issues = s.issues
  faults : t.faults = s.faults
  faultCounter : t.faultCounter = s.faultCounter
  sessions : t.sessions = s.sessions
  sessionCounter : t.sessionCounter = s.sessionCounter
  day : t.day = s.day
  clock : t.clock = s.clock
  params : t.params = s.params

/-- A chain of single changes, with `P` what may happen to a port. -/
inductive Moves (P : PortState → PortState → Prop) : State → State → Prop
  | refl (s : State) : Moves P s s
  | trans {s t u : State} : Moves P s t → Moves P t u → Moves P s u
  | other (s t : State) : SameBooks s t → Moves P s t
  | port (s : State) (p : Port) (q : PortState) : P (s.port p) q → Moves P s (s.setPort p q)
  | portsReset (s : State) (v : Vector PortState 13) : (∀ p, P (s.port p) (look v (portIx p))) →
      Moves P s { s with ports := v }
  | pack (s : State) (i : PackIx) (k m : Pack) : s.pack i = some k → PackMove k m → Moves P s (s.setPack i (some m))
  | packAdded (s : State) (i : PackIx) (a b : Nat) : rangeOk a b = true → s.packMeets a b = false →
      Moves P s (s.setPack i (some (newPack a b s)))
  | packsFreed (s : State) (v : Vector (Option Pack) 32) : (∀ i k, look v i = some k → s.pack i = some k) →
      Moves P s { s with packs := v }
  | printer (s : State) (p : PrinterId) (c : Printer) :
      c.allowance = (s.printer p).allowance ∨ c.allowance = none → Moves P s (s.setPrinter p c)
  | allowance (s : State) (p : PrinterId) (c : Printer) : s.spaceForAllowance = true → c.allowance = some 0 →
      Moves P s (s.setPrinter p c)
  | draw (s : State) (p : PrinterId) (d : Nat) (e : SpoilEntry) : (s.printer p).allowance = some d → d < 10 →
      Moves P s (listSpoil e (s.setPrinter p { s.printer p with allowance := some (d + 1) }))
  | printersReset (s : State) (v : Vector Printer 8) : (∀ p, (look v p).allowance = none) →
      Moves P s { s with printers := v }
  | spoil (s : State) (e : SpoilEntry) : 1 ≤ s.unreserved → Moves P s (listSpoil e s)
  | spoilsDropped (s : State) (n : Nat) : Moves P s { s with spoils := s.spoils.drop n }
  | issues (s : State) (l : List IssueEntry) : l.length ≤ s.issues.length ∨ l.length ≤ 256 →
      Moves P s { s with issues := l }
  | fault (s : State) (f : FaultRecord → FaultRecord) : (∀ r, (f r).number = r.number) →
      Moves P s { s with faults := s.faults.map f }
  | faultAdded (s : State) (r : FaultRecord) : r.number = s.faultCounter →
      Moves P s
        { s with
          faults := makeRoom s.faults ++ [r],
          faultCounter := nextFaultNumber (makeRoom s.faults ++ [r]) s.faultCounter }
  | faultsKept (s : State) (f : FaultRecord → Bool) : Moves P s { s with faults := s.faults.filter f }
  | faultsCleared (s : State) : Moves P s { s with faults := [], faultCounter := 1 }
  | session (s : State) (i : SessionIx) (x y : Session) : s.session i = some x → SessionMove x y →
      Moves P s (s.setSession i (some y))
  | sessionAdded (s : State) (i : SessionIx) (x : Session) : x.state = .opened → x.declaration = none →
      x.results = none → x.recounts = 0 → Moves P s (s.setSession i (some x))
  | sessionsFreed (s : State) (v : Vector (Option Session) 24) : (∀ i x, look v i = some x → s.session i = some x) →
      Moves P s { s with sessions := v }
  | sessionNumber (s : State) (n : Nat) : n = 1 ∨ n = nextSessionNumber s → Moves P s { s with sessionCounter := n }
  | day (s : State) (n : Nat) : n = 1 ∨ n = nextDay s.day → Moves P s { s with day := n }
  | clock (s : State) (n : Nat) : n < 86400 → Moves P s { s with clock := n }
  | params (s : State) (q : Params) : ParamMove s.params q → Moves P s { s with params := q }

theorem Moves.mono {P Q : PortState → PortState → Prop} (h : ∀ q r, P q r → Q q r) {s t : State} (m : Moves P s t) :
    Moves Q s t := by
  induction m with
  | refl s => exact .refl s
  | trans _ _ a b => exact a.trans b
  | other s t h => exact .other s t h
  | port s p q hq => exact .port s p q (h _ _ hq)
  | portsReset s v hv => exact .portsReset s v fun p => h _ _ (hv p)
  | pack s i k m a b => exact .pack s i k m a b
  | packAdded s i a b c d => exact .packAdded s i a b c d
  | packsFreed s v a => exact .packsFreed s v a
  | printer s p c a => exact .printer s p c a
  | allowance s p c a b => exact .allowance s p c a b
  | draw s p d e a b => exact .draw s p d e a b
  | printersReset s v a => exact .printersReset s v a
  | spoil s e a => exact .spoil s e a
  | spoilsDropped s n => exact .spoilsDropped s n
  | issues s l a => exact .issues s l a
  | fault s f a => exact .fault s f a
  | faultAdded s r a => exact .faultAdded s r a
  | faultsKept s f => exact .faultsKept s f
  | faultsCleared s => exact .faultsCleared s
  | session s i x y a b => exact .session s i x y a b
  | sessionAdded s i x a b c d => exact .sessionAdded s i x a b c d
  | sessionsFreed s v a => exact .sessionsFreed s v a
  | sessionNumber s n a => exact .sessionNumber s n a
  | day s n a => exact .day s n a
  | clock s n a => exact .clock s n a
  | params s q a => exact .params s q a

/-- What the blocks do. -/
abbrev Acts : State → State → Prop := Moves InnerPort

/-- What a step does. -/
abbrev Steps : State → State → Prop := Moves OuterPort

theorem Acts.steps {s t : State} (m : Acts s t) : Steps s t := m.mono fun q r h => .inner q r h

/-- A port without a request in hand and without a reply stays so while the blocks act. -/
theorem Acts.port_free {s t : State} (m : Acts s t) (p : Port)
    (h : (s.port p).hand = none ∧ hasReply (s.port p).outq = false) :
    (t.port p).hand = none ∧ hasReply (t.port p).outq = false := by
  induction m with
  | refl s => exact h
  | trans _ _ a b => exact b (a h)
  | other s t e => rw [State.port, e.ports]; exact h
  | port s r q hq =>
    rw [State.port_setPort]
    split
    · rename_i e; subst e
      cases hq with
      | notice n => 
        unfold withNotice; split
        · simpa [hasReply, isReply] using h
        · exact h
      | ended x => rw [h.1] at *; contradiction
      | dropped x => rw [h.1] at *; contradiction
    · exact h
  | portsReset s v hv =>
    have e : (State.port { s with ports := v } p) = look v (portIx p) := rfl
    rw [e]
    have hq := hv p
    generalize look v (portIx p) = q at *
    cases hq with
    | notice n => 
      unfold withNotice; split
      · simpa [hasReply, isReply] using h
      · exact h
    | ended x => rw [h.1] at *; contradiction
    | dropped x => rw [h.1] at *; contradiction
  | _ => exact h

end Sys2Proof.Machine
end

