-- ==== Sys2Proof/Laws/Acts.lean ====
section
/-! SUPPORT. Every shared operation of the blocks is a chain of single changes (Laws/Moves.lean). -/

namespace Sys2Proof.Machine

set_option Elab.async false

/-! ### Tables -/

theorem put_put {α : Type} {n : Nat} (v : Vector α n) (i : Fin n) (x y : α) : put (put v i x) i y = put v i y := by
  apply Vector.ext; intro k hk
  simp [put, Vector.getElem_set]

theorem put_look {α : Type} {n : Nat} (v : Vector α n) (i : Fin n) : put v i (look v i) = v := by
  apply Vector.ext; intro k hk
  simp only [put, look, Vector.getElem_set]
  split
  · rename_i h; subst h; rfl
  · rfl

theorem setPrinter_setPrinter (s : State) (p : PrinterId) (c d : Printer) :
    (s.setPrinter p c).setPrinter p d = s.setPrinter p d := by
  unfold State.setPrinter; simp [put_put]

/-! ### Chains -/

/-- A fold of operations, each of them a chain. -/
theorem acts_foldl {α : Type} (f : State → α → State) (h : ∀ s a, Acts s (f s a)) (l : List α) (s : State) :
    Acts s (l.foldl f s) := by
  induction l generalizing s with
  | nil => exact .refl s
  | cons a l ih => exact .trans (h s a) (ih _)

theorem acts_ite {s t u : State} (c : Prop) [Decidable c] (h : c → Acts s t) (k : ¬c → Acts s u) :
    Acts s (if c then t else u) := by
  split
  · exact h ‹_›
  · exact k ‹_›

theorem acts_other {s t : State} (h : SameBooks s t) : Acts s t := .other s t h

theorem acts_modPrinter (s : State) (p : PrinterId) (f : Printer → Printer) (h : (f (s.printer p)).allowance = (s.printer p).allowance) :
    Acts s (s.modPrinter p f) := .printer s p _ (.inl h)

theorem acts_setJob (s : State) (j : JobNo) (x : Option Job) : Acts s (s.setJob j x) :=
  .other _ _ ⟨rfl, rfl, rfl, rfl, rfl, rfl, rfl, rfl, rfl, rfl, rfl, rfl⟩

theorem acts_modJob (s : State) (j : JobNo) (f : Job → Job) : Acts s (s.modJob j f) := acts_setJob s j _

theorem acts_addDay (f : Summary → Summary) (s : State) : Acts s (addDay f s) :=
  .other _ _ ⟨rfl, rfl, rfl, rfl, rfl, rfl, rfl, rfl, rfl, rfl, rfl, rfl⟩

theorem acts_setSlot (s : State) (w : Window) (a : Option AuthSlot) : Acts s (s.setSlot w a) :=
  .other _ _ ⟨rfl, rfl, rfl, rfl, rfl, rfl, rfl, rfl, rfl, rfl, rfl, rfl⟩

theorem acts_setLine (s : State) (l : Line) (e : LineEngine) : Acts s (s.setLine l e) := by
  cases l <;> exact .other _ _ ⟨rfl, rfl, rfl, rfl, rfl, rfl, rfl, rfl, rfl, rfl, rfl, rfl⟩

/-! ### Notices and deferred replies -/

theorem acts_notify (p : Port) (n : Notice) (s : State) : Acts s (notify p n s) :=
  acts_ite _ (fun _ => .port s p _ (.notice n _)) fun _ => .refl s

theorem acts_notifyAll (ps : List Port) (n : Notice) (s : State) : Acts s (notifyAll ps n s) :=
  acts_foldl _ (fun s p => acts_notify p n s) ps s

theorem acts_finishPort (op : HandOp) (rc : ResultCode) (res : Results) (p : Port) (s : State) :
    Acts s (finishPort op rc res p s) := by
  unfold finishPort
  split
  · rename_i x hx
    split
    · split
      · exact .port s p _ (.dropped _ x hx)
      · rw [answer_eq]
        have e : ∀ f, (s.modPort p fun q => { q with hand := none }).modPort p f
            = s.setPort p (f { s.port p with hand := none }) := by
          intro f; simp only [State.modPort, State.port_setPort_same]; simp [State.setPort, put_put]
        rw [e]
        exact .port s p _ (.ended _ x _ _ rc res hx)
    · exact .refl s
  · exact .refl s

theorem acts_finishHand (op : HandOp) (rc : ResultCode) (res : Results) (s : State) :
    Acts s (finishHand op rc res s) := acts_foldl _ (fun s p => acts_finishPort op rc res p s) _ s

/-! ### The fault log -/

theorem acts_modFault (n : Nat) (f : FaultRecord → FaultRecord) (h : ∀ r, r.number = n → (f r).number = n) (s : State) :
    Acts s (modFault n f s) :=
  .fault s _ fun r => by
    by_cases e : r.number = n
    · simpa [e] using h r e
    · simp [e]

theorem mergeInto_number (k : FaultKind) (j : Option Job) (d : Option Nat) (now : Nat) (r : FaultRecord) :
    (mergeInto k j d now r).number = r.number := by
  unfold mergeInto; dsimp only; split
  · rfl
  · split <;> rfl

theorem acts_raiseMerge (k : FaultKind) (j : Option Job) (d : Option Nat) (r : FaultRecord) (s : State) :
    Acts s (raiseMerge k j d r s) := by
  have h : Acts s (addDay (addFault (severityOf k)) (modFault r.number (fun _ => mergeInto k j d s.clock r) s)) :=
    .trans (acts_modFault _ _ (fun _ _ => mergeInto_number ..) s) (acts_addDay ..)
  unfold raiseMerge
  exact acts_ite _ (fun _ => .trans h (acts_notifyAll ..)) fun _ => h

theorem acts_raiseNew (k : FaultKind) (p : Option PrinterId) (j : Option Job) (d : Option Nat) (s : State) :
    Acts s (raiseNew k p j d s) := by
  unfold raiseNew
  refine .trans (.trans (.faultAdded s (newRecord k p j d (freePlace (makeRoom s.faults)) s.faultCounter s) rfl) ?_)
    (acts_notifyAll ..)
  exact .other _ _ ⟨rfl, rfl, rfl, rfl, rfl, rfl, rfl, rfl, rfl, rfl, rfl, rfl⟩

theorem acts_raise (k : FaultKind) (p : Option PrinterId) (d : Option Nat) (s : State) : Acts s (raise k p d s) := by
  unfold raise
  split
  · exact acts_raiseMerge ..
  · exact acts_raiseNew ..

theorem acts_enterCleared (r : FaultRecord) (s : State) : Acts s (enterCleared r s) := by
  unfold enterCleared sendCleared
  exact .trans (acts_modFault _ _ (by intro r h; exact h) s) (acts_notify ..)

theorem acts_reportWait (s : State) : Acts s (reportWait s) := by
  unfold reportWait
  split
  · exact acts_raise ..
  · exact acts_ite _ (fun _ => acts_raise ..) fun _ => .refl s

theorem acts_testFull (s : State) : Acts s (testFull s) := by
  unfold testFull
  split
  · split
    · exact acts_ite _ (fun _ => acts_enterCleared ..) fun _ => .refl s
    · exact .refl s
  · exact .refl s

theorem acts_reportFree (s : State) : Acts s (reportFree s) :=
  .other _ _ ⟨rfl, rfl, rfl, rfl, rfl, rfl, rfl, rfl, rfl, rfl, rfl, rfl⟩

/-! ### Packs and spoils -/

theorem acts_stockLowAfter (n : Nat) (k : Pack) (s : State) : Acts s (stockLowAfter n k s) := by
  unfold stockLowAfter
  split
  · exact acts_ite _ (fun _ => acts_raise ..) fun _ => .refl s
  · exact .refl s

theorem acts_movePack (i : PackIx) (f : Pack → Pack) (hf : ∀ k, PackMove k (f k)) (s : State) :
    Acts s (movePack i f s) := by
  unfold movePack
  split
  · rename_i k hk
    have h : Acts s (s.setPack i (some (f k))) := .pack s i k _ hk (hf k)
    exact acts_ite _ (fun _ => .trans h (acts_stockLowAfter ..)) fun _ => h
  · exact .refl s

theorem acts_figures (i : SessionIx) (f : Session → Session) (s : State)
    (h : ∀ x, (f x).state = x.state ∧ (f x).declaration = x.declaration ∧ (f x).results = x.results
      ∧ (f x).recounts = x.recounts) : Acts s (modSession i f s) := by
  unfold modSession
  cases e : s.session i with
  | none =>
    refine acts_other ⟨rfl, rfl, rfl, rfl, rfl, rfl, rfl, ?_, rfl, rfl, rfl, rfl⟩
    show put s.sessions i none = s.sessions
    rw [← e]; exact put_look ..
  | some x => exact .session s i x _ e (.figures _ _ (h x).1 (h x).2.1 (h x).2.2.1 (h x).2.2.2)

theorem acts_chargeSession (c : SpoilCause) (n : Nat) (o : Option Nat) (s : State) :
    Acts s (chargeSession c n o s) := by
  unfold chargeSession
  split
  · exact .refl s
  · split
    · exact .refl s
    · rename_i x hx
      refine acts_ite _ (fun _ => .refl s) fun _ => ?_
      cases c with
      | printBad => exact .session s _ x _ hx (.figures _ _ rfl rfl rfl rfl)
      | abandoned => exact .session s _ x _ hx (.figures _ _ rfl rfl rfl rfl)
      | _ => exact .refl s

theorem acts_chargeFault (n : Nat) (o : Option Nat) (s : State) : Acts s (chargeFault n o s) := by
  unfold chargeFault
  split
  · exact .refl s
  · exact acts_modFault _ _ (by intro r h; exact h) s

theorem acts_countSpoil (e : SpoilEntry) (s : State) : Acts s (countSpoil e s) :=
  .trans (acts_addDay ..) (.trans (acts_chargeSession ..) (acts_chargeFault ..))

theorem acts_markUnlisted (p : PrinterId) (s : State) : Acts s (markUnlisted p s) := by
  unfold markUnlisted
  split
  · exact acts_modFault _ _ (by intro r h; exact h) s
  · exact .refl s

theorem acts_listUnreserved (p : PrinterId) (e : SpoilEntry) (s : State) : Acts s (listUnreserved p e s) :=
  acts_ite _ (fun h => .spoil s e h) fun _ => acts_markUnlisted p s

theorem acts_listAt (p : PrinterId) (e : SpoilEntry) (s : State) : Acts s (listAt p e s) := by
  unfold listAt
  split
  · rename_i d hd
    exact acts_ite _ (fun h => .trans (.draw s p d e hd h) (.trans (acts_reportFree _) (acts_testFull _)))
      fun _ => acts_listUnreserved p e s
  · exact acts_listUnreserved p e s

theorem acts_spoilAt (p : PrinterId) (e : SpoilEntry) (s : State) : Acts s (spoilAt p e s) :=
  .trans (acts_listAt p e s) (acts_countSpoil ..)

theorem acts_spoilUnreserved (e : SpoilEntry) (s : State) (h : 1 ≤ s.unreserved) : Acts s (spoilUnreserved e s) :=
  .trans (.spoil s e h) (acts_countSpoil ..)

theorem acts_spoilRuns (p : PrinterId) (n f : Option Nat) (runs : List (Nat × Nat)) (s : State) :
    Acts s (spoilRuns p n f runs s) := acts_foldl _ (fun s _ => acts_spoilAt p _ s) runs s

/-! ### Sessions, jobs, issues and slots -/

theorem addSales_keeps (t : Tender) (n : Nat) (x : Session) :
    (addSales t n x).state = x.state ∧ (addSales t n x).declaration = x.declaration
      ∧ (addSales t n x).results = x.results ∧ (addSales t n x).recounts = x.recounts := by
  unfold addSales; repeat' split
  all_goals exact ⟨rfl, rfl, rfl, rfl⟩

theorem addRefunds_keeps (t : Tender) (n : Nat) (x : Session) :
    (addRefunds t n x).state = x.state ∧ (addRefunds t n x).declaration = x.declaration
      ∧ (addRefunds t n x).results = x.results ∧ (addRefunds t n x).recounts = x.recounts := by
  unfold addRefunds; repeat' split
  all_goals exact ⟨rfl, rfl, rfl, rfl⟩

theorem subSales_keeps (t : Tender) (n : Nat) (x : Session) :
    (subSales t n x).state = x.state ∧ (subSales t n x).declaration = x.declaration
      ∧ (subSales t n x).results = x.results ∧ (subSales t n x).recounts = x.recounts := by
  unfold subSales; split <;> exact ⟨rfl, rfl, rfl, rfl⟩

theorem acts_postSale (n : Nat) (t : Tender) (fare coupons : Nat) (s : State) : Acts s (postSale n t fare coupons s) := by
  unfold postSale
  split
  · exact .refl s
  · exact acts_figures _ _ s fun x => addSales_keeps t fare x

theorem acts_enterCounting (i : SessionIx) (s : State) (h : ∀ x, s.session i = some x → x.state = .closing) :
    Acts s (enterCounting i s) := by
  unfold enterCounting
  split
  · exact .refl s
  · rename_i x hx
    exact .trans (.session s i x _ hx (.counting x (h x hx))) (acts_notifyAll ..)

theorem acts_jobLeft (n : Nat) (s : State) : Acts s (jobLeft n s) := by
  unfold jobLeft
  split
  · exact .refl s
  · split
    · exact .refl s
    · rename_i x hx
      refine acts_ite _ (fun h => acts_enterCounting _ s fun y hy => ?_) fun _ => .refl s
      rw [hx] at hy; cases hy
      simp only [Bool.and_eq_true, beq_iff_eq] at h
      exact h.1

theorem acts_freeJob (j : JobNo) (s : State) : Acts s (freeJob j s) := by
  unfold freeJob
  split
  · exact .refl s
  · dsimp only
    split
    · exact .trans (acts_setJob ..) (acts_jobLeft ..)
    · exact acts_setJob ..

theorem acts_setIssueState (n : Nat) (st : IssueState) (s : State) : Acts s (setIssueState n st s) :=
  .issues s _ (.inl (by simp))

theorem acts_emptySlot (w : Window) (b : Bool) (s : State) : Acts s (emptySlot w b s) := by
  unfold emptySlot
  split
  · exact .refl s
  · exact acts_ite _ (fun _ => .trans (acts_setSlot ..) (acts_setIssueState ..)) fun _ => acts_setSlot ..

theorem acts_endAuthorisation (w : Window) (x : AuthAnswer) (s : State) : Acts s (endAuthorisation w x s) := by
  unfold endAuthorisation
  split
  · exact .refl s
  · exact .trans (acts_emptySlot ..) (acts_notify ..)

theorem acts_withdrawFor (l : List Nat) (s : State) : Acts s (withdrawFor l s) := by
  refine acts_foldl _ (fun t w => ?_) _ s
  split
  · exact acts_ite _ (fun _ => acts_endAuthorisation ..) fun _ => .refl t
  · exact .refl t

theorem acts_addIssue (e : IssueEntry) (s : State) : Acts s (addIssue e s) := by
  unfold addIssue
  split
  · rename_i h
    exact .issues s _ (.inr (by simp [Config.issueSize] at h ⊢; omega))
  · rename_i h
    split
    · rename_i x hx
      refine .trans (.issues s _ (.inl ?_)) (acts_withdrawFor ..)
      have := List.length_eraseP_of_mem (List.mem_of_find?_eq_some hx) (List.find?_some hx)
      have := List.length_pos_of_mem (List.mem_of_find?_eq_some hx)
      simp; omega
    · refine .issues s _ (.inl ?_)
      simp [Config.issueSize] at h ⊢; omega

/-! ### Waits, allowances, loads -/

theorem acts_clearWaiting (p : PrinterId) (s : State) : Acts s (clearWaiting p s) :=
  acts_ite _ (fun _ => .trans (acts_modPrinter s p _ rfl) (acts_testFull _)) fun _ => .refl s

theorem acts_beginWait (p : PrinterId) (s : State) : Acts s (beginWait p s) :=
  acts_ite _ (fun _ => .refl s) fun _ => .trans (acts_modPrinter s p _ rfl) (acts_reportWait _)

/-- An allowance taken, with what the printer's context became just before. -/
theorem acts_takeAllowance (p : PrinterId) (f : Printer → Printer) (s : State) (h : s.spaceForAllowance = true) :
    Acts s (takeAllowance p (s.modPrinter p f)) := by
  have e : takeAllowance p (s.modPrinter p f) = s.setPrinter p { f (s.printer p) with allowance := some 0 } := by
    unfold takeAllowance State.modPrinter
    rw [State.printer_setPrinter_same, setPrinter_setPrinter]
  rw [e]; exact .allowance s p _ h rfl

theorem acts_allowance (p : PrinterId) (s : State) (h : s.spaceForAllowance = true) : Acts s (takeAllowance p s) :=
  .allowance s p _ h rfl

theorem acts_failLoad (p : PrinterId) (rc : ResultCode) (res : Results) (s : State) : Acts s (failLoad p rc res s) := by
  unfold failLoad
  refine .trans ?_ (acts_finishHand ..)
  split
  · rename_i i hi
    obtain ⟨k, hk, hs, _⟩ := State.loadingAt_some _ hi
    rw [hk]
    exact .pack s i k _ hk (.revert k hs)
  · exact .refl s

/-! ### Abandonment and diversion -/

theorem acts_abandonAttempt (p : PrinterId) (j : JobNo) (n : Nat) (s : State) : Acts s (abandonAttempt p j n s) := by
  unfold abandonAttempt
  refine .trans ?_ (acts_modJob ..)
  split
  · split
    · exact .trans (acts_spoilRuns ..) (acts_movePack _ _ (fun k => .abandon k) _)
    · exact .refl s
  · exact .refl s

theorem acts_settleAbandoned (p : PrinterId) (j : JobNo) (n : Nat) (s : State) :
    Acts s (settleAbandoned p j n s).1 := by
  unfold settleAbandoned
  split
  · exact .refl s
  · split
    · exact .trans (acts_notify ..) (acts_freeJob ..)
    · split
      · exact .trans (acts_notify ..) (acts_freeJob ..)
      · exact .trans (acts_modPrinter s p _ rfl) (acts_modJob ..)

theorem acts_abandonJob (p : PrinterId) (n : Nat) (s : State) : Acts s (abandonJob p n s).1 := by
  unfold abandonJob
  split
  · exact .refl s
  · exact .trans (acts_modPrinter s p _ rfl) (.trans (acts_abandonAttempt ..) (acts_settleAbandoned ..))

theorem acts_moveJob (p q : PrinterId) (j : JobNo) (x : Job) (b : Bool) (s : State) : Acts s (moveJob p q j x b s) :=
  .trans (acts_modPrinter s p _ rfl) (.trans (acts_modPrinter _ q _ rfl) (.trans (acts_modJob ..) (acts_notify ..)))

theorem acts_divertOne (p : PrinterId) (a : Option JobNo) (st : State × List PrinterId) (j : JobNo) :
    Acts st.1 (divertOne p a st j).1 := by
  unfold divertOne
  split
  · exact .refl _
  · split
    · exact .refl _
    · split
      · exact acts_notify ..
      · split
        · split
          · exact acts_moveJob ..
          · exact acts_notify ..
        · exact acts_notify ..

theorem acts_divert (start : PrinterId → State → State) (hs : ∀ q s, Acts s (start q s)) (p : PrinterId)
    (a : Option JobNo) (s : State) : Acts s (divert start p a s) := by
  have h : ∀ (l : List JobNo) (st : State × List PrinterId), Acts st.1 (l.foldl (divertOne p a) st).1 := by
    intro l
    induction l with
    | nil => exact fun st => .refl _
    | cons j l ih => exact fun st => .trans (acts_divertOne p a st j) (ih _)
  exact .trans (h _ (s, [])) (acts_foldl _ (fun t q => hs q t) _ _)

/-! ### STOP faults and the start check -/

theorem acts_quiet (p : PrinterId) (s : State) : Acts s (quiet p s) :=
  .trans (acts_modPrinter s p _ rfl) (acts_clearWaiting ..)

theorem acts_endSenseByFault (p : PrinterId) (k : FaultKind) (s : State) : Acts s (endSenseByFault p k s) :=
  acts_ite _ (fun _ => .trans (acts_modPrinter s p _ rfl) (acts_failLoad ..)) fun _ => acts_modPrinter s p _ rfl

theorem acts_stopFaultWith (start : PrinterId → State → State) (hs : ∀ q s, Acts s (start q s)) (p : PrinterId)
    (k : FaultKind) (d : Option Nat) (s : State) : Acts s (stopFaultWith start p k d s) := by
  unfold stopFaultWith
  have h : Acts s (endSenseByFault p k (quiet p (raise k (some p) d s))) :=
    .trans (acts_raise ..) (.trans (acts_quiet ..) (acts_endSenseByFault ..))
  refine acts_ite _ (fun _ => .refl s) fun _ => acts_ite _ (fun _ => h) fun _ => ?_
  exact .trans h (.trans (acts_modPrinter _ p _ rfl) (.trans (acts_abandonJob ..) (acts_divert start hs ..)))

theorem acts_startJob (p : PrinterId) (j : JobNo) (rest : List JobNo) (s : State) : Acts s (startJob p j rest s) :=
  .trans (acts_modPrinter s p _ rfl) (.trans (acts_clearWaiting ..) (acts_modJob ..))

theorem acts_startOnce (start : PrinterId → State → State) (hs : ∀ q s, Acts s (start q s)) (p : PrinterId) (s : State) :
    Acts s (startOnce start p s) := by
  unfold startOnce
  dsimp only
  split
  · split
    · exact .refl s
    · split
      · split
        · exact acts_stopFaultWith start hs ..
        · split
          · exact acts_startJob ..
          · split
            · rename_i h
              exact .trans (acts_allowance p s h) (acts_startJob ..)
            · exact acts_beginWait ..
      · exact .refl s
  · exact .refl s

theorem acts_startCheckFuel (n : Nat) (p : PrinterId) (s : State) : Acts s (startCheckFuel n p s) := by
  induction n generalizing p s with
  | zero => exact .refl s
  | succ n ih => exact acts_startOnce _ (fun q t => ih q t) p s

theorem acts_startCheck (p : PrinterId) (s : State) : Acts s (startCheck p s) := acts_startCheckFuel 9 p s

theorem acts_stopFault (p : PrinterId) (k : FaultKind) (d : Option Nat) (s : State) : Acts s (stopFault p k d s) :=
  acts_stopFaultWith startCheck acts_startCheck p k d s

theorem acts_queueShortened (p : PrinterId) (o : Option JobNo) (s : State) : Acts s (queueShortened p o s) :=
  acts_ite _ (fun _ => acts_ite _ (fun _ => acts_clearWaiting ..) fun _ =>
    acts_ite _ (fun _ => .refl s) fun _ => acts_startCheck ..) fun _ => .refl s

/-! ### Space given and freed -/

theorem acts_giveOne (st : State × List PrinterId) (p : PrinterId) : Acts st.1 (giveOne st p).1 := by
  unfold giveOne
  split
  · rename_i h
    simp only [Bool.and_eq_true] at h
    exact .allowance st.1 p _ h.2 rfl
  · exact .refl _

theorem acts_goOn (p : PrinterId) (s : State) : Acts s (goOn p s) := by
  unfold goOn
  split
  · exact acts_startCheck ..
  · exact acts_modPrinter s p _ rfl
  · exact acts_modPrinter s p _ rfl
  · exact .refl s

theorem acts_handout (s : State) : Acts s (handout s) := by
  have h : ∀ (l : List PrinterId) (st : State × List PrinterId), Acts st.1 (l.foldl giveOne st).1 := by
    intro l
    induction l with
    | nil => exact fun st => .refl _
    | cons p l ih => exact fun st => .trans (acts_giveOne st p) (ih _)
  exact .trans (h _ (s, [])) (.trans (acts_testFull _) (acts_foldl _ (fun t p => acts_goOn p t) _ _))

theorem acts_spaceFreed (s : State) : Acts s (spaceFreed s) := .trans (acts_reportFree s) (acts_handout _)

theorem acts_releaseAllowance (p : PrinterId) (s : State) : Acts s (releaseAllowance p s) := by
  unfold releaseAllowance
  split
  · exact .refl s
  · have h : Acts s (s.modPrinter p fun c => { c with allowance := none }) := .printer s p _ (.inr rfl)
    exact acts_ite _ (fun _ => .trans h (acts_spaceFreed _)) fun _ => h

/-! ### Records that become CLEARED -/

theorem acts_resyncDue (p : PrinterId) (s : State) : Acts s (resyncDue p s) := by
  unfold resyncDue
  split
  · split
    · exact acts_modPrinter s p _ rfl
    · split
      · rename_i h
        exact acts_takeAllowance p _ s h
      · exact .trans (acts_modPrinter s p _ rfl) (acts_beginWait ..)
  · exact .trans (acts_modPrinter s p _ rfl) (acts_releaseAllowance ..)

theorem acts_tellCleared (p : PrinterId) (s : State) : Acts s (tellCleared p s) :=
  acts_ite _ (fun _ => acts_resyncDue ..) fun _ => .refl s

theorem acts_recordCleared (r : FaultRecord) (s : State) : Acts s (recordCleared r s) := by
  unfold recordCleared
  dsimp only
  split
  · split
    · exact .trans (acts_enterCleared ..) (acts_tellCleared ..)
    · exact acts_enterCleared ..
  · exact acts_enterCleared ..

theorem acts_removeOne (f : FaultRecord → Bool) (s : State) (n : Nat) : Acts s (removeOne f s n) := by
  unfold removeOne
  split
  · exact .refl s
  · split
    · split
      · exact acts_modFault _ _ (by intro r h; exact h) s
      · exact acts_recordCleared ..
      · exact .refl s
      · exact .refl s
    · exact .refl s

theorem acts_removeCondition (f : FaultRecord → Bool) (s : State) : Acts s (removeCondition f s) :=
  acts_foldl _ (fun t n => acts_removeOne f t n) _ s

theorem acts_loadEnded (p : PrinterId) (s : State) : Acts s (loadEnded p s) := by
  unfold loadEnded
  split
  · exact acts_ite _ (fun _ => acts_tellCleared ..) fun _ => .refl s
  · exact .refl s

/-! ### The end of a sense -/

theorem acts_endSense (p : PrinterId) (s : State) : Acts s (endSense p s) :=
  .trans (acts_modPrinter s p _ rfl) (acts_clearWaiting ..)

/-- The comparison of a pack just loaded with the stock-low threshold (R17). -/
theorem acts_loadedLow (p : PrinterId) (i : PackIx) (t : State) :
    Acts t (match t.pack i with
      | some k =>
        if decide (0 < t.params.stockLow) && decide (k.remaining ≤ t.params.stockLow) then
          raise .stockLow (some p) (some k.remaining) t
        else t
      | none => t) := by
  split
  · exact acts_ite _ (fun _ => acts_raise ..) fun _ => .refl t
  · exact .refl t

theorem acts_loadSucceeds (p : PrinterId) (i : PackIx) (n : Nat) (s : State) (k : Pack) (hk : s.pack i = some k)
    (hs : k.state = .loading) : Acts s (loadSucceeds p i n s) := by
  have h1 : Acts s (s.setPack i ((s.pack i).map fun k => { k with state := .loaded, prior := none, inPrint := [] })) := by
    rw [hk]; exact .pack s i k _ hk (.loaded k hs)
  have h2 : ∀ t : State, Acts t (if (s.printer p).state = .sensing then
      t.modPrinter p fun c => { c with state := if c.outOfService then .outOfService else .ready } else t) := fun t =>
    acts_ite _ (fun _ => acts_modPrinter t p _ rfl) fun _ => .refl t
  exact .trans (.trans h1 (.trans (h2 _) (.trans (acts_removeCondition ..) (.trans (acts_loadedLow p i _)
    (acts_finishHand ..))))) (.trans (acts_loadEnded ..) (acts_startCheck ..))

theorem acts_loadMismatch (p : PrinterId) (a b : Nat) (s : State) : Acts s (loadMismatch p a b s) := by
  unfold loadMismatch
  exact .trans (.trans (acts_ite _ (fun _ => acts_modPrinter s p _ rfl) fun _ => .refl s) (acts_failLoad ..))
    (acts_loadEnded ..)

theorem acts_loadSensed (p : PrinterId) (n : Nat) (s : State) : Acts s (loadSensed p n s) := by
  unfold loadSensed
  split
  · exact .refl s
  · rename_i i hi
    obtain ⟨k, hk, hs, _⟩ := State.loadingAt_some _ hi
    rw [hk]
    dsimp only
    exact acts_ite _ (fun _ => acts_loadSucceeds p i n s k hk hs) fun _ => acts_loadMismatch ..

theorem acts_senseSkip (p : PrinterId) (i : PackIx) (k : Pack) (n : Nat) (f : Option Nat) (s : State) :
    Acts s (senseSkip p i k n f s) :=
  .trans (acts_movePack i _ (fun k => .skip n k) s) (.trans (acts_spoilAt ..) (acts_raise ..))

theorem acts_senseReturns (p : PrinterId) (b : Bool) (s : State) : Acts s (senseReturns p b s) :=
  .trans (acts_modPrinter s p _ rfl) (.trans (acts_releaseAllowance ..) (acts_startCheck ..))

theorem acts_serialSensed (p : PrinterId) (b : Bool) (n : Nat) (s : State) : Acts s (serialSensed p b n s) := by
  unfold serialSensed
  split
  · exact .refl s
  · split
    · exact .refl s
    · split
      · exact acts_senseReturns ..
      · split
        · exact .trans (acts_senseSkip ..) (acts_senseReturns ..)
        · split <;> exact acts_stopFault ..

theorem acts_senseEnds (p : PrinterId) (n : Nat) (s : State) : Acts s (senseEnds p n s) := by
  unfold senseEnds
  split
  · exact .refl s
  · exact .trans (acts_endSense ..) (acts_loadSensed ..)
  · exact .trans (acts_endSense ..) (acts_serialSensed ..)
  · exact .trans (acts_endSense ..) (acts_serialSensed ..)

/-! ### Coupon reports -/

theorem acts_printEnds (p : PrinterId) (s : State) : Acts s (printEnds p s) := by
  have h : Acts s (releaseAllowance p (s.modPrinter p fun c => { c with job := none })) :=
    .trans (acts_modPrinter s p _ rfl) (acts_releaseAllowance ..)
  unfold printEnds
  dsimp only
  split
  · exact .trans h (acts_modPrinter _ p _ rfl)
  · exact .trans h (.trans (acts_modPrinter _ p _ rfl) (acts_startCheck ..))

theorem acts_issueJob (p : PrinterId) (i : PackIx) (j : JobNo) (x : Job) (l : List Nat) (s : State) :
    Acts s (issueJob p i j x l s) := by
  unfold issueJob
  split
  · exact .trans (.trans (.trans (.trans (acts_postSale ..) (acts_movePack i _ (fun k => .issue k) _))
      (acts_addIssue ..)) (acts_addDay ..)) (.trans (acts_notify ..) (acts_freeJob ..))
  · exact .refl s

theorem acts_completeTest (p : PrinterId) (i : PackIx) (j : JobNo) (x : Job) (l : List Nat) (s : State) :
    Acts s (completeTest p i j x l s) :=
  .trans (acts_movePack i _ (fun k => .abandon k) s)
    (.trans (acts_spoilAt ..) (.trans (acts_notify ..) (acts_freeJob ..)))

theorem acts_printNext (p : PrinterId) (k : Nat) (s : State) : Acts s (printNext p k s) := acts_modPrinter s p _ rfl

theorem acts_couponTaken (r : Report) (n : Nat) (s : State) : Acts s (couponTaken r n s) := by
  have h : Acts s ((movePack r.pack (takeCoupon n) s).modJob r.job fun x => { x with good := x.good ++ [n] }) :=
    .trans (acts_movePack _ _ (fun k => .coupon n k) s) (acts_modJob ..)
  unfold couponTaken
  refine acts_ite _ (fun _ => .trans h (.trans (acts_modJob ..) (acts_printNext ..))) fun _ => ?_
  exact acts_ite _ (fun _ => .trans h (.trans (acts_completeTest ..) (acts_printEnds ..))) fun _ =>
    .trans h (.trans (acts_issueJob ..) (acts_printEnds ..))

theorem acts_skipRange (r : Report) (a b : Nat) (s : State) : Acts s (skipRange r a b s) :=
  .trans (acts_movePack _ _ (fun k => .skip b k) s) (acts_spoilAt ..)

theorem acts_firstSkip (r : Report) (a b : Nat) (s : State) : Acts s (firstSkip r a b s) :=
  .trans (acts_raise ..) (acts_modJob ..)

theorem acts_spoilBad (r : Report) (n : Nat) (s : State) : Acts s (spoilBad r n s) :=
  .trans (acts_movePack _ _ (fun k => .bad k) s) (acts_spoilAt ..)

theorem acts_badPrint (r : Report) (n : Nat) (s : State) : Acts s (badPrint r n s) :=
  acts_ite _ (fun _ => .trans (acts_spoilBad ..) (.trans (acts_modJob ..) (acts_printNext ..))) fun _ =>
    .trans (acts_spoilBad ..) (acts_stopFault ..)

theorem acts_skipThenGood (r : Report) (a b : Nat) (s : State) : Acts s (skipThenGood r a b s) :=
  acts_ite _ (fun _ => .trans (acts_skipRange ..) (.trans (acts_firstSkip ..) (acts_couponTaken ..))) fun _ =>
    .trans (acts_skipRange ..) (.trans (acts_movePack _ _ (fun k => .coupon b k) _)
      (.trans (acts_modJob ..) (acts_stopFault ..)))

theorem acts_skipThenBad (r : Report) (a b : Nat) (s : State) : Acts s (skipThenBad r a b s) :=
  acts_ite _ (fun _ => .trans (acts_skipRange ..) (.trans (acts_firstSkip ..) (acts_badPrint ..))) fun _ =>
    .trans (acts_skipRange ..) (.trans (acts_spoilBad ..) (acts_stopFault ..))

theorem acts_accountReport (r : Report) (k : Pack) (n : Nat) (g : Bool) (s : State) : Acts s (accountReport r k n g s) :=
  acts_ite _ (fun _ => acts_badPrint ..) fun _ =>
    acts_ite _ (fun _ => acts_ite _ (fun _ => acts_couponTaken ..) fun _ => acts_badPrint ..) fun _ =>
      acts_ite _ (fun _ => acts_ite _ (fun _ => acts_skipThenGood ..) fun _ => acts_skipThenBad ..) fun _ =>
        acts_stopFault ..

theorem acts_couponReport (p : PrinterId) (k n : Nat) (g : Bool) (s : State) : Acts s (couponReport p k n g s) := by
  have h : Acts s (s.modPrinter p fun c =>
      { c with couponTimer := false, outstanding := none, unconfirmed := false, command := .none, declined := 0 }) :=
    acts_modPrinter s p _ rfl
  unfold couponReport
  dsimp only
  split
  · split
    · exact .trans h (acts_accountReport ..)
    · exact h
  · exact h

theorem acts_lateBlank (p : PrinterId) (i : PackIx) (n : Nat) (g : Bool) (a b : Option Nat) (s : State) :
    Acts s (lateBlank p i n g a b s) := .trans (acts_movePack _ _ (fun k => .bad k) s) (acts_spoilAt ..)

theorem acts_lateSkip (p : PrinterId) (i : PackIx) (m n : Nat) (a b : Option Nat) (s : State) :
    Acts s (lateSkip p i m n a b s) :=
  .trans (acts_movePack _ _ (fun k => .skip n k) s) (.trans (acts_spoilAt ..) (acts_raise ..))

theorem acts_lateReport (p : PrinterId) (n : Nat) (g : Bool) (s : State) : Acts s (lateReport p n g s) := by
  unfold lateReport
  dsimp only
  split
  · exact acts_stopFault ..
  · split
    · exact acts_stopFault ..
    · exact acts_ite _ (fun _ => acts_stopFault ..) fun _ => acts_ite _ (fun _ => acts_lateBlank ..) fun _ =>
        acts_ite _ (fun _ => acts_lateBlank ..) fun _ =>
          acts_ite _ (fun _ => .trans (acts_lateSkip ..) (acts_lateBlank ..)) fun _ => acts_stopFault ..

end Sys2Proof.Machine
end

