-- ==== Sys2Proof/Laws/Taken.lean ====
section
/-! SUPPORT. What the block of a taken request sees: taking a request changes its port's FIFO and nothing else, so that
every field but the ports, and every search, reads as before. -/

namespace Sys2Proof.Machine

set_option Elab.async false

variable (p : Port) (rest : List (List Byte)) (s : State)

@[simp] theorem taken_holds : (taken p rest s).holds = s.holds := rfl
@[simp] theorem taken_packs : (taken p rest s).packs = s.packs := rfl
@[simp] theorem taken_printers : (taken p rest s).printers = s.printers := rfl
@[simp] theorem taken_lineA : (taken p rest s).lineA = s.lineA := rfl
@[simp] theorem taken_lineB : (taken p rest s).lineB = s.lineB := rfl
@[simp] theorem taken_jobs : (taken p rest s).jobs = s.jobs := rfl
@[simp] theorem taken_spoils : (taken p rest s).spoils = s.spoils := rfl
@[simp] theorem taken_issues : (taken p rest s).issues = s.issues := rfl
@[simp] theorem taken_faults : (taken p rest s).faults = s.faults := rfl
@[simp] theorem taken_faultCounter : (taken p rest s).faultCounter = s.faultCounter := rfl
@[simp] theorem taken_overwritten : (taken p rest s).overwritten = s.overwritten := rfl
@[simp] theorem taken_freeReported : (taken p rest s).freeReported = s.freeReported := rfl
@[simp] theorem taken_sessions : (taken p rest s).sessions = s.sessions := rfl
@[simp] theorem taken_sessionCounter : (taken p rest s).sessionCounter = s.sessionCounter := rfl
@[simp] theorem taken_slots : (taken p rest s).slots = s.slots := rfl
@[simp] theorem taken_mode : (taken p rest s).mode = s.mode := rfl
@[simp] theorem taken_day : (taken p rest s).day = s.day := rfl
@[simp] theorem taken_clock : (taken p rest s).clock = s.clock := rfl
@[simp] theorem taken_clockSet : (taken p rest s).clockSet = s.clockSet := rfl
@[simp] theorem taken_running : (taken p rest s).running = s.running := rfl
@[simp] theorem taken_report : (taken p rest s).report = s.report := rfl
@[simp] theorem taken_night : (taken p rest s).night = s.night := rfl
@[simp] theorem taken_params : (taken p rest s).params = s.params := rfl
@[simp] theorem taken_presentPrinters : (taken p rest s).presentPrinters = s.presentPrinters := rfl
@[simp] theorem taken_presentWindows : (taken p rest s).presentWindows = s.presentWindows := rfl
@[simp] theorem taken_save : (taken p rest s).save = s.save := rfl
@[simp] theorem taken_memory : (taken p rest s).memory = s.memory := rfl
@[simp] theorem taken_readFails : (taken p rest s).readFails = s.readFails := rfl
@[simp] theorem taken_powered : (taken p rest s).powered = s.powered := rfl
@[simp] theorem taken_resetLow : (taken p rest s).resetLow = s.resetLow := rfl
@[simp] theorem taken_coldPending : (taken p rest s).coldPending = s.coldPending := rfl
@[simp] theorem taken_valid : (taken p rest s).valid = s.valid := rfl
@[simp] theorem taken_freeIndex : (taken p rest s).freeIndex = s.freeIndex := rfl
@[simp] theorem taken_pending : (taken p rest s).pending = s.pending := rfl
@[simp] theorem taken_live : (taken p rest s).live = s.live := rfl
@[simp] theorem taken_session (i : SessionIx) : (taken p rest s).session i = s.session i := rfl
@[simp] theorem taken_pack (i : PackIx) : (taken p rest s).pack i = s.pack i := rfl
@[simp] theorem taken_printer (q : PrinterId) : (taken p rest s).printer q = s.printer q := rfl
@[simp] theorem taken_job (j : JobNo) : (taken p rest s).job j = s.job j := rfl
@[simp] theorem taken_slot (w : Window) : (taken p rest s).slot w = s.slot w := rfl
@[simp] theorem taken_hold (w : Window) : (taken p rest s).hold w = s.hold w := rfl
@[simp] theorem taken_pair (w : Window) : (taken p rest s).pair w = s.pair w := rfl
@[simp] theorem taken_quota (w : Window) : (taken p rest s).quota w = s.quota w := rfl
@[simp] theorem taken_presentWindow (q : Port) (w : Option Nat) : (taken p rest s).presentWindow q w = s.presentWindow q w := rfl
@[simp] theorem taken_windowSession (w : Window) (st : SessionState) : (taken p rest s).windowSession w st = s.windowSession w st := rfl
@[simp] theorem taken_sessionOf (n : Nat) : (taken p rest s).sessionOf n = s.sessionOf n := rfl
@[simp] theorem taken_packOf (n : Nat) : (taken p rest s).packOf n = s.packOf n := rfl
@[simp] theorem taken_loadedAt (q : PrinterId) : (taken p rest s).loadedAt q = s.loadedAt q := rfl
@[simp] theorem taken_loadingAt (q : PrinterId) : (taken p rest s).loadingAt q = s.loadingAt q := rfl
@[simp] theorem taken_loadedPack (q : PrinterId) : (taken p rest s).loadedPack q = s.loadedPack q := rfl
@[simp] theorem taken_jobOfTag (q : Port) (n : Nat) : (taken p rest s).jobOfTag q n = s.jobOfTag q n := rfl
@[simp] theorem taken_issueOf (n : Nat) : (taken p rest s).issueOf n = s.issueOf n := rfl
@[simp] theorem taken_faultOf (n : Nat) : (taken p rest s).faultOf n = s.faultOf n := rfl
@[simp] theorem taken_stopRecord (q : PrinterId) : (taken p rest s).stopRecord q = s.stopRecord q := rfl
@[simp] theorem taken_unreserved : (taken p rest s).unreserved = s.unreserved := rfl
@[simp] theorem taken_reserved : (taken p rest s).reserved = s.reserved := rfl
@[simp] theorem taken_inUse (q : Port) : (taken p rest s).inUse q = s.inUse q := rfl
@[simp] theorem taken_admits (q : Port) : (taken p rest s).admits q = s.admits q := rfl
@[simp] theorem taken_reservation (q : Port) : (taken p rest s).reservation q = s.reservation q := rfl
@[simp] theorem taken_ceiling (q : Port) : (taken p rest s).ceiling q = s.ceiling q := rfl
@[simp] theorem taken_sharedFree : (taken p rest s).sharedFree = s.sharedFree := rfl
@[simp] theorem taken_liveJobs (n : Nat) : (taken p rest s).liveJobs n = s.liveJobs n := rfl
@[simp] theorem taken_lateVoidPending (e : IssueEntry) : (taken p rest s).lateVoidPending e = s.lateVoidPending e := rfl
@[simp] theorem taken_canHold (q : PrinterId) : (taken p rest s).canHold q = s.canHold q := rfl
@[simp] theorem taken_route (w : Window) : (taken p rest s).route w = s.route w := rfl
@[simp] theorem taken_recordsLostOpen : (taken p rest s).recordsLostOpen = s.recordsLostOpen := rfl
@[simp] theorem taken_packMeets (a b : Nat) : (taken p rest s).packMeets a b = s.packMeets a b := rfl
@[simp] theorem taken_listsMeet (a b : Nat) : (taken p rest s).listsMeet a b = s.listsMeet a b := rfl
@[simp] theorem taken_stockBarred (q : Port) (n : Nat) : (taken p rest s).stockBarred q n = s.stockBarred q n := rfl
@[simp] theorem taken_loadBarred (q : PrinterId) : (taken p rest s).loadBarred q = s.loadBarred q := rfl
@[simp] theorem taken_unloadBarred (q : PrinterId) : (taken p rest s).unloadBarred q = s.unloadBarred q := rfl
@[simp] theorem taken_serviceInBarred (q : PrinterId) : (taken p rest s).serviceInBarred q = s.serviceInBarred q := rfl
@[simp] theorem taken_pairAbsent (q : Pair) : (taken p rest s).pairAbsent q = s.pairAbsent q := rfl
@[simp] theorem taken_windowHere (n : Nat) : (taken p rest s).windowHere n = s.windowHere n := rfl
@[simp] theorem taken_windowPresent (w : Window) : (taken p rest s).windowPresent w = s.windowPresent w := rfl
@[simp] theorem taken_printerPresent (q : PrinterId) : (taken p rest s).printerPresent q = s.printerPresent q := rfl
@[simp] theorem taken_packNamed (n : PackName) : (taken p rest s).packNamed n = s.packNamed n := rfl
@[simp] theorem taken_packHidden (q : Port) (k : Pack) : (taken p rest s).packHidden q k = s.packHidden q k := rfl
@[simp] theorem taken_jobNamed (q : Port) (n : Nat) (m : Option JobName) : (taken p rest s).jobNamed q n m = s.jobNamed q n m := rfl
@[simp] theorem taken_printerHidden (q : Port) (r : PrinterId) : (taken p rest s).printerHidden q r = s.printerHidden q r := rfl
@[simp] theorem taken_stopStands (r : FaultRecord) : (taken p rest s).stopStands r = s.stopStands r := rfl
@[simp] theorem taken_mayAcknowledge (q : Port) (r : FaultRecord) : (taken p rest s).mayAcknowledge q r = s.mayAcknowledge q r := rfl
@[simp] theorem taken_anyWaiting : (taken p rest s).anyWaiting = s.anyWaiting := rfl
@[simp] theorem taken_spaceForAllowance : (taken p rest s).spaceForAllowance = s.spaceForAllowance := rfl
@[simp] theorem taken_urgentPart (q : List JobNo) : (taken p rest s).urgentPart q = s.urgentPart q := rfl
@[simp] theorem taken_ordinaryPart (q : List JobNo) : (taken p rest s).ordinaryPart q = s.ordinaryPart q := rfl
@[simp] theorem taken_jobClosing (x : Job) : (taken p rest s).jobClosing x = s.jobClosing x := rfl
@[simp] theorem taken_diversionTarget (q : PrinterId) (x : Job) : (taken p rest s).diversionTarget q x = s.diversionTarget q x := rfl
@[simp] theorem taken_sessionNumbers : (taken p rest s).sessionNumbers = s.sessionNumbers := rfl
@[simp] theorem taken_ticketAge (e : IssueEntry) : ticketAge (taken p rest s) e = ticketAge s e := rfl

@[simp] theorem taken_portPresent (q : Port) : (taken p rest s).portPresent q = s.portPresent q := by cases q <;> rfl

end Sys2Proof.Machine
end

