-- ==== Sys2Proof/Laws/Frames.lean ====
section
/-! SUPPORT. The frames of the operations that every family uses: what a notice and a raise leave as they were, that they
do not look at the printers or the line engines, and the outcome of a request that its port accepts. -/

namespace Sys2Proof.Machine

set_option Elab.async false

/-! ### Notices -/

theorem notify_portsOnly (s : State) (p : Port) (n : Notice) : notify p n s = { s with ports := (notify p n s).ports } := by
  obtain ⟨v, hv⟩ := notify_eq s p n
  rw [hv]


theorem notify_printers (p : Port) (n : Notice) (s : State) (v) : notify p n { s with printers := v } = { notify p n s with printers := v } := by
  unfold notify
  have : State.portPresent { s with printers := v } p = s.portPresent p := by cases p <;> rfl
  rw [this]; split <;> rfl
theorem notifyAll_printers (ps : List Port) (n : Notice) (s : State) (v) : notifyAll ps n { s with printers := v } = { notifyAll ps n s with printers := v } := by
  induction ps generalizing s with
  | nil => rfl
  | cons p ps ih => simp only [notifyAll, List.foldl_cons] at ih ⊢; rw [notify_printers, ih]
theorem notifyAll_eq (ps n) (s : State) : ∃ v, notifyAll ps n s = { s with ports := v } := ⟨_, (notifyAll_spec s ps n).choose_spec.1⟩

theorem notify_lines (p : Port) (n : Notice) (s : State) (a b) : notify p n { s with lineA := a, lineB := b } = { notify p n s with lineA := a, lineB := b } := by
  unfold notify
  have : State.portPresent { s with lineA := a, lineB := b } p = s.portPresent p := by cases p <;> rfl
  rw [this]; split <;> rfl
theorem notifyAll_lines (ps : List Port) (n : Notice) (s : State) (a b) : notifyAll ps n { s with lineA := a, lineB := b } = { notifyAll ps n s with lineA := a, lineB := b } := by
  induction ps generalizing s with
  | nil => rfl
  | cons p ps ih => simp only [notifyAll, List.foldl_cons] at ih ⊢; rw [notify_lines, ih]

/-! ### Raises (R102 to R106) -/

/-- A raise changes the ports, the fault log with its counter and marker, and the day's figures, and nothing else. -/
theorem raise_eq (k p d) (s : State) : ∃ v f c o r n, raise k p d s = { s with ports := v, faults := f, faultCounter := c, overwritten := o, running := r, night := n } := by
  unfold raise
  cases s.faults.find? (mergesInto k p) with
  | some r =>
    simp only [raiseMerge]
    split
    · obtain ⟨v, hv⟩ := notifyAll_eq (raisedPorts (mergeInto k (raiseJob p s) d s.clock r).printer (addDay (addFault (severityOf k)) (modFault r.number (fun _ => mergeInto k (raiseJob p s) d s.clock r) s))) _ (addDay (addFault (severityOf k)) (modFault r.number (fun _ => mergeInto k (raiseJob p s) d s.clock r) s))
      unfold sendRaised; rw [hv]; exact ⟨_, _, _, _, _, _, rfl⟩
    · exact ⟨_, _, _, _, _, _, rfl⟩
  | none =>
    simp only [raiseNew, sendRaised]
    obtain ⟨v, hv⟩ := notifyAll_eq _ _ _
    rw [hv]; exact ⟨_, _, _, _, _, _, rfl⟩
@[simp] theorem raise_printer (k p d) (s : State) (q) : (raise k p d s).printer q = s.printer q := by
  obtain ⟨v, f, c, o, r, n, h⟩ := raise_eq k p d s; rw [h]; rfl

theorem raise_printers (k p d) (s : State) (v) (h : raiseJob p { s with printers := v } = raiseJob p s) : raise k p d { s with printers := v } = { raise k p d s with printers := v } := by
  unfold raise
  rw [h]
  simp only []
  cases s.faults.find? (mergesInto k p) with
  | some r =>
    simp only [raiseMerge]
    split
    · exact notifyAll_printers _ _ (addDay (addFault (severityOf k)) (modFault r.number (fun _ => mergeInto k (raiseJob p s) d s.clock r) s)) v
    · rfl
  | none => exact notifyAll_printers _ _ (addDay (addFault (severityOf k)) { s with
    faults := makeRoom s.faults ++ [newRecord k p (raiseJob p s) d (freePlace (makeRoom s.faults)) s.faultCounter s],
    faultCounter := nextFaultNumber (makeRoom s.faults ++ [newRecord k p (raiseJob p s) d (freePlace (makeRoom s.faults)) s.faultCounter s]) s.faultCounter,
    overwritten := s.overwritten || decide (Config.faultSize ≤ s.faults.length) }) v

theorem raise_lines (k p d) (s : State) (a b) : raise k p d { s with lineA := a, lineB := b } = { raise k p d s with lineA := a, lineB := b } := by
  unfold raise
  have h : raiseJob p { s with lineA := a, lineB := b } = raiseJob p s := rfl
  rw [h]
  simp only []
  cases s.faults.find? (mergesInto k p) with
  | some r =>
    simp only [raiseMerge]
    split
    · exact notifyAll_lines _ _ (addDay (addFault (severityOf k)) (modFault r.number (fun _ => mergeInto k (raiseJob p s) d s.clock r) s)) a b
    · rfl
  | none => exact notifyAll_lines _ _ (addDay (addFault (severityOf k)) { s with
    faults := makeRoom s.faults ++ [newRecord k p (raiseJob p s) d (freePlace (makeRoom s.faults)) s.faultCounter s],
    faultCounter := nextFaultNumber (makeRoom s.faults ++ [newRecord k p (raiseJob p s) d (freePlace (makeRoom s.faults)) s.faultCounter s]) s.faultCounter,
    overwritten := s.overwritten || decide (Config.faultSize ≤ s.faults.length) }) a b

/-! ### A request that its port accepts -/

/-- The block refuses it: nothing but the port changes (R181). -/
theorem exec_refused {p : Port} {h : Header} {i : Instr} {rest : List (List Byte)} {s : State}
    {act : State → Verdict} {rc : ResultCode} {res : Results} (ha : Accepts p h i rest s)
    (hact : act (taken p rest s) = .refuse rc res) :
    ∃ t, (.next (takeRequest p h i act s) : Host.Outcome State Fault Refusal) = .next t ∧ t = { s with ports := t.ports } ∧ Answered p h ((requestCode i).getD 0) rc res rest [] s t :=
  have h := takeRequest_refused ha hact
  ⟨_, rfl, h.2, h.1⟩


/-- The block answers DONE. -/
theorem exec_done {p : Port} {h : Header} {i : Instr} {rest : List (List Byte)} {s : State} (u : State)
    {act : State → Verdict} (res : Results) (notes : List (Port × Notice)) (ha : Accepts p h i rest s)
    (hact : act (taken p rest s) = .done u res)
    (hu : ∀ q, u.port q = noticed s notes q ((taken p rest s).port q)) {C : State → Prop}
    (hC : ∀ t, Answered p h ((requestCode i).getD 0) .done res rest notes s t → t = { u with ports := t.ports } → C t) :
    ∃ t, (.next (takeRequest p h i act s) : Host.Outcome State Fault Refusal) = .next t ∧ C t :=
  have h := takeRequest_done ha hact hu
  ⟨_, rfl, hC _ h.1 h.2⟩

/-- The block answers REFERRED. -/
theorem exec_referred {p : Port} {h : Header} {i : Instr} {rest : List (List Byte)} {s : State} (u : State)
    {act : State → Verdict} (res : Results) (notes : List (Port × Notice)) (ha : Accepts p h i rest s)
    (hact : act (taken p rest s) = .referred u res)
    (hu : ∀ q, u.port q = noticed s notes q ((taken p rest s).port q)) {C : State → Prop}
    (hC : ∀ t, Answered p h ((requestCode i).getD 0) .referred res rest notes s t → t = { u with ports := t.ports } → C t) :
    ∃ t, (.next (takeRequest p h i act s) : Host.Outcome State Fault Refusal) = .next t ∧ C t :=
  have h := takeRequest_referred ha hact hu
  ⟨_, rfl, hC _ h.1 h.2⟩

/-! ### Ranges -/

theorem numberOk_iff {n} : numberOk n = true ↔ 1 ≤ n ∧ n ≤ 65535 := by unfold numberOk Config.max16; simp
theorem serialOk_iff {n} : serialOk n = true ↔ 1 ≤ n ∧ n ≤ 9999999 := by unfold serialOk Config.maxSerial; simp

/-- A fold whose every step leaves the state as it was. -/
theorem fold_same {α β : Type} (f : β → α → β) (b : β) (l : List α) (h : ∀ a ∈ l, f b a = b) : l.foldl f b = b := by
  induction l with
  | nil => rfl
  | cons a l ih => simp only [List.foldl_cons, h a (List.mem_cons_self ..)]; exact ih fun x hx => h x (List.mem_cons_of_mem _ hx)

end Sys2Proof.Machine
end

