-- ==== Sys2Proof/Laws/Steps.lean ====
section
/-! SUPPORT. Every command is a chain of single changes (Laws/Moves.lean): `exec_steps` and `step_steps`. -/

namespace Sys2Proof.Machine

set_option Elab.async false

/-! ### Requests -/

/-- Whatever a block does with a request it has been given is a chain; a deferred request has been put in hand at a port
that was free. -/
def Verdict.Sound (p : Port) (s : State) : Verdict → Prop
  | .refuse _ _ => True
  | .done t _ => Acts s t
  | .referred t _ => Acts s t
  | .deferred t => ∃ u x, Acts s u ∧ t = u.modPort p fun q => { q with hand := some x }
  | .silent t => Steps s t

theorem steps_answer {s t : State} {p : Port} (m : Steps s t)
    (h : (t.port p).hand = none ∧ hasReply (t.port p).outq = false) (hd : Header) (code : Nat) (rc : ResultCode)
    (res : Results) : Steps s (answer p hd code rc res t) := by
  rw [answer_eq]; exact .trans m (.port t p _ (.replied hd code rc res _ h.1 h.2))

theorem canTake_free {s : State} {p : Port} (h : s.canTake p = true) :
    (s.port p).hand = none ∧ hasReply (s.port p).outq = false := by
  unfold State.canTake at h
  simp only [Bool.and_eq_true, Bool.not_eq_true', Option.isNone_iff_eq_none] at h
  exact ⟨h.1.2, h.2⟩

theorem offered_length {s : State} {p : Port} {body : List Byte} {rest : List (List Byte)}
    (h : s.offered p body = some rest) : rest.length ≤ (s.port p).fifo.length := by
  unfold State.offered at h
  split at h
  · split at h
    · cases h; simp
    · cases h
  · rename_i b r e
    rw [e]
    split at h
    · cases h; simp
    · cases h

theorem steps_take {s : State} {p : Port} {body : List Byte} {rest : List (List Byte)}
    (h : s.offered p body = some rest) : Steps s (s.modPort p fun q => { q with fifo := rest }) :=
  .port s p _ (.took rest _ (offered_length h))

theorem steps_serve {p : Port} {h : Header} {code : Nat} {act : State → Verdict} {s : State}
    (hf : (s.port p).hand = none ∧ hasReply (s.port p).outq = false) (ha : (act s).Sound p s) :
    Steps s (serve p h code act s) := by
  unfold serve
  split
  · exact steps_answer (.refl s) hf ..
  · split
    · exact steps_answer (.refl s) hf ..
    · split
      · exact steps_answer (.refl s) hf ..
      · rename_i t res e
        rw [e] at ha
        exact steps_answer (Acts.steps ha) (Acts.port_free ha p hf) ..
      · rename_i t res e
        rw [e] at ha
        exact steps_answer (Acts.steps ha) (Acts.port_free ha p hf) ..
      · rename_i t e
        rw [e] at ha
        obtain ⟨u, x, hu, rfl⟩ := ha
        exact .trans (Acts.steps hu) (.port u p _ (.held x _ (Acts.port_free hu p hf).1 (Acts.port_free hu p hf).2))
      · rename_i t e
        rw [e] at ha
        exact ha

theorem steps_takeRequest {p : Port} {h : Header} {i : Instr} {act : State → Verdict} (ha : ∀ s, (act s).Sound p s)
    (s : State) : Steps s (takeRequest p h i act s) := by
  unfold takeRequest
  split
  · rename_i hc
    simp only [Bool.and_eq_true] at hc
    split
    · rename_i rest hr
      refine .trans (steps_take hr) (steps_serve ?_ (ha _))
      rw [State.port_modPort_same]; exact canTake_free hc.1
    · exact .refl s
  · exact .refl s

/-! ### The blocks' answers -/

/-- An answer that takes no effect, or one that is a chain of the blocks. -/
theorem sound_ite {p : Port} {s : State} {c : Prop} [Decidable c] {v w : Verdict} (h : c → v.Sound p s)
    (k : ¬c → w.Sound p s) : (if c then v else w).Sound p s := by
  split
  · exact h ‹_›
  · exact k ‹_›

theorem sound_noOpenSession (p : Port) (s : State) (w : Window) : (noOpenSession s w).Sound p s :=
  sound_ite (fun _ => trivial) fun _ => trivial

theorem sound_openSession (p : Port) (clerk float : Nat) (w : Option Nat) (s : State) :
    (openSessionAct p clerk float w s).Sound p s := by
  unfold openSessionAct
  split
  · trivial
  · refine sound_ite (fun _ => trivial) fun _ => sound_ite (fun _ => trivial) fun _ => sound_ite (fun _ => trivial)
      fun _ => ?_
    split
    · trivial
    · exact .trans (.sessionAdded s _ _ rfl rfl rfl rfl) (.sessionNumber _ _ (.inr rfl))

theorem acts_leaveQueue (j : JobNo) (p : PrinterId) (s : State) : Acts s (leaveQueue j p s) :=
  acts_modPrinter s p _ rfl

theorem acts_cancelForClose (n : Nat) (s : State) (j : JobNo) : Acts s (cancelForClose n s j) := by
  unfold cancelForClose
  split
  · exact .refl s
  · exact acts_ite _ (fun _ => .trans (acts_leaveQueue ..) (.trans (acts_notify ..) (acts_freeJob ..)))
      fun _ => .refl s

theorem sessions_emptySlot (w : Window) (b : Bool) (s : State) : (emptySlot w b s).sessions = s.sessions := by
  unfold emptySlot
  split
  · rfl
  · dsimp only; split <;> rfl

theorem sessions_notify (p : Port) (n : Notice) (s : State) : (notify p n s).sessions = s.sessions := by
  unfold notify; split <;> rfl

theorem sessions_endAuthorisation (w : Window) (x : AuthAnswer) (s : State) :
    (endAuthorisation w x s).sessions = s.sessions := by
  unfold endAuthorisation sendAnswer
  split
  · rfl
  · rw [sessions_notify, sessions_emptySlot]

theorem acts_closeSession (i : SessionIx) (s : State) (h : ∀ x, s.session i = some x → x.state = .opened) :
    Acts s (closeSession i s) := by
  unfold closeSession
  split
  · exact .refl s
  · rename_i x hx
    have e : (endAuthorisation x.window .withdrawn s).session i = some x := by
      rw [State.session, sessions_endAuthorisation]; exact hx
    have h2 : Acts (endAuthorisation x.window .withdrawn s)
        (modSession i (fun y => { y with state := .closing, closedAt := some s.clock })
          (endAuthorisation x.window .withdrawn s)) := by
      unfold modSession
      rw [e]
      exact .session _ i x _ e (.closing x s.clock (h x hx))
    exact .trans (.trans (.trans (.trans (acts_endAuthorisation ..) h2) (acts_foldl _ (fun t j =>
      acts_cancelForClose _ t j) _ _)) (acts_jobLeft ..)) (acts_foldl _ (fun t p => acts_queueShortened p _ t) _ _)

theorem sound_closeSession (p : Port) (w : Option Nat) (s : State) : (closeSessionAct p w s).Sound p s := by
  unfold closeSessionAct
  split
  · trivial
  · split
    · exact sound_noOpenSession ..
    · rename_i i hi
      obtain ⟨x, hx, _, hs⟩ := State.windowSession_some _ hi
      refine acts_closeSession i s fun y hy => ?_
      rw [hx] at hy; cases hy; exact hs

theorem acts_forceCloseAt (i : SessionIx) (s : State) : Acts s (forceCloseAt i s) := by
  have h : Acts s (modSession i (fun y => { y with forced := true }) s) := acts_figures _ _ s fun x => ⟨rfl, rfl, rfl, rfl⟩
  unfold forceCloseAt
  dsimp only
  split
  · rename_i x hx
    refine acts_ite _ (fun ho => .trans h (acts_closeSession i _ fun y hy => ?_)) fun _ => h
    rw [modSession, State.session_setSession_same, hx] at hy
    cases hy; exact ho
  · exact h

theorem sound_forceClose (p : Port) (n : Nat) (s : State) : (forceCloseAct n s).Sound p s := by
  unfold forceCloseAct
  refine sound_ite (fun _ => trivial) fun _ => ?_
  split
  · trivial
  · split
    · trivial
    · exact sound_ite (fun _ => trivial) fun _ => sound_ite (fun _ => trivial) fun _ => acts_forceCloseAt ..

theorem acts_refer (w : Window) (a : AuthSlot) (e : Option IssueEntry) (s : State) : Acts s (refer w a e s) := by
  unfold refer
  refine .trans (acts_setSlot s w (some a)) (.trans ?_ (acts_notify ..))
  exact acts_ite _ (fun _ => acts_setIssueState ..) fun _ => .refl _

/-- Entries listed one after another, with the space for them all. -/
theorem acts_spoilAll (f : State → Nat × Nat → SpoilEntry) (l : List (Nat × Nat)) (s : State)
    (h : l.length ≤ s.unreserved) : Acts s (l.foldl (fun t r => spoilUnreserved (f t r) t) s) := by
  induction l generalizing s with
  | nil => exact .refl s
  | cons r l ih =>
    simp only [List.length_cons] at h
    refine .trans (acts_spoilUnreserved _ s (by omega)) (ih _ ?_)
    have e1 : (spoilUnreserved (f s r) s).printers = s.printers ∧ (spoilUnreserved (f s r) s).spoils = s.spoils ++ [f s r] := by
      unfold spoilUnreserved countSpoil chargeFault chargeSession
      repeat' (first | constructor | split)
    have e2 : (spoilUnreserved (f s r) s).reserved = s.reserved := by
      unfold State.reserved State.printer; rw [e1.1]
    unfold State.unreserved at h ⊢
    rw [e1.2, e2]
    simp; omega

theorem acts_postVoid (e : IssueEntry) (s : State) (h : (voidRuns e).length ≤ s.unreserved) : Acts s (postVoid e s) := by
  have hv : ∀ t : State, Acts t (match t.packOf (e.serials.headD 0) with
      | some i => movePack i (voidBlanks e.serials.length) t
      | none => t) := by
    intro t
    split
    · exact acts_movePack _ _ (fun k => .void _ k) _
    · exact .refl _
  have h1 : Acts s (spoilVoided e s) :=
    .trans (acts_spoilAll (fun t r => spoilEntry r.1 r.2 .voided none (some e.session) none t) _ s h)
      (.trans (hv _) (acts_setIssueState ..))
  unfold postVoid
  dsimp only
  split
  · refine .trans h1 (acts_figures _ _ _ fun x => ?_)
    exact subSales_keeps e.tender e.fare x
  · exact h1

theorem sound_voidChecked (p : Port) (own : Option (Window × Session)) (n : Nat) (s : State) :
    (voidChecked own n s).Sound p s := by
  unfold voidChecked
  split
  · trivial
  · rename_i e he
    refine sound_ite (fun _ => trivial) fun _ => sound_ite (fun _ => trivial) fun _ => ?_
    have hp : (if s.unreserved < (voidRuns e).length then Verdict.refuse .listFull
        else .done (postVoid e s) (.voided e.serials e.fare e.tender (voidRuns e).length)).Sound p s :=
      sound_ite (fun _ => trivial) fun h => acts_postVoid e s (by omega)
    dsimp only
    split
    · exact sound_ite (fun _ => trivial) fun _ => sound_ite (fun _ => sound_ite (fun _ => trivial) fun _ =>
        acts_refer ..) fun _ => hp
    · split
      · exact sound_ite (fun _ => hp) fun _ => trivial
      · trivial

theorem sound_void (p : Port) (n : Nat) (s : State) : (voidAct p n s).Sound p s := by
  unfold voidAct
  refine sound_ite (fun _ => trivial) fun _ => ?_
  split
  · refine sound_ite (fun _ => trivial) fun _ => sound_ite (fun _ => trivial) fun _ => ?_
    split
    · exact sound_noOpenSession ..
    · exact sound_voidChecked ..
  · exact sound_ite (fun _ => trivial) fun _ => sound_voidChecked ..

theorem acts_postRefund (n serial amount : Nat) (t : Tender) (b : Bool) (s : State) :
    Acts s (postRefund n serial amount t b s) := by
  have h : Acts s (match s.sessionOf n with
      | some i => modSession i (takeRefund t amount) s
      | none => s) := by
    split
    · exact acts_figures _ _ s fun x => addRefunds_keeps t amount x
    · exact .refl s
  unfold postRefund
  exact acts_ite _ (fun _ => .trans h (acts_setIssueState ..)) fun _ => h

theorem sound_refundDecided (p : Port) (w : Window) (x : Session) (serial amount : Nat) (t : Tender)
    (e : Option IssueEntry) (s : State) : (refundDecided p w x serial amount t e s).Sound p s := by
  unfold refundDecided
  dsimp only
  split
  · exact acts_postRefund ..
  · exact sound_ite (fun _ => acts_postRefund ..) fun _ => sound_ite (fun _ => trivial) fun _ => acts_refer ..

theorem sound_refund (p : Port) (serial amount tender : Nat) (w : Option Nat) (s : State) :
    (refundAct p serial amount tender w s).Sound p s := by
  unfold refundAct
  split
  · trivial
  · refine sound_ite (fun _ => trivial) fun _ => sound_ite (fun _ => trivial) fun _ => ?_
    split
    · trivial
    · refine sound_ite (fun _ => trivial) fun _ => ?_
      split
      · exact sound_noOpenSession ..
      · split
        · exact sound_refundDecided ..
        · exact sound_ite (fun _ => trivial) fun _ => sound_ite (fun _ => trivial) fun _ => sound_ite (fun _ => trivial)
            fun _ => sound_ite (fun _ => trivial) fun _ => sound_refundDecided ..

theorem unreserved_emptySlot (w : Window) (b : Bool) (s : State) : (emptySlot w b s).unreserved = s.unreserved := by
  unfold emptySlot
  split
  · rfl
  · dsimp only; split <;> rfl

theorem acts_approve (w : Window) (a : AuthSlot) (s : State) (h : lacksVoidSpace a s = false) :
    Acts s (approve w a s) := by
  unfold approve
  split
  · exact .trans (acts_emptySlot ..) (acts_postRefund ..)
  · rename_i hk
    split
    · rename_i e he
      refine .trans (acts_emptySlot ..) (acts_postVoid e _ ?_)
      rw [unreserved_emptySlot]
      simpa [lacksVoidSpace, hk, he] using h
    · exact acts_emptySlot ..

theorem sound_answer (p : Port) (w serial d : Nat) (s : State) : (answerAct w serial d s).Sound p s := by
  unfold answerAct
  split
  · split
    · trivial
    · refine sound_ite (fun _ => trivial) fun _ => sound_ite (fun _ => .trans (acts_emptySlot ..) (acts_notify ..))
        fun _ => sound_ite (fun _ => trivial) fun h => ?_
      exact .trans (acts_approve _ _ s (by simpa using h)) (acts_notify ..)
  · trivial

theorem sound_querySession (p : Port) (n : Option Nat) (s : State) : (querySessionAct p n s).Sound p s := by
  unfold querySessionAct
  split
  · unfold querySessionNumbered
    refine sound_ite (fun _ => trivial) fun _ => ?_
    split
    · trivial
    · split
      · exact sound_ite (fun _ => .refl s) fun _ => trivial
      · exact .refl s
  · unfold querySessionOwn
    split
    · trivial
    · exact .refl s
  · trivial

/-! ### Cash-up -/

theorem sound_declare (p : Port) (n : Nat) (a : PerTender Nat) (docs : Nat) (s : State) :
    (declareAct p n a docs s).Sound p s := by
  unfold declareAct
  refine sound_ite (fun _ => trivial) fun _ => ?_
  split
  · trivial
  · split
    · trivial
    · rename_i x hx
      refine sound_ite (fun _ => trivial) fun _ => sound_ite (fun _ => trivial) fun h => ?_
      exact .trans (.session s _ x _ hx (.declared x _ _ (by simpa using h))) (acts_notify ..)

theorem sound_recount (p : Port) (n : Nat) (s : State) : (recountAct n s).Sound p s := by
  unfold recountAct
  refine sound_ite (fun _ => trivial) fun _ => ?_
  split
  · trivial
  · split
    · trivial
    · rename_i x hx
      refine sound_ite (fun _ => trivial) fun h => sound_ite (fun _ => trivial) fun h2 => ?_
      exact .session s _ x _ hx (.recounted x (by simpa using h) (by omega))

/-- A session record freed. -/
theorem acts_freeSession (i : SessionIx) (s : State) : Acts s (s.setSession i none) := by
  refine .sessionsFreed s _ fun j x hx => ?_
  have e : look (put s.sessions i none) j = if i = j then none else look s.sessions j :=
    State.session_setSession s i j none
  rw [e] at hx
  split at hx
  · cases hx
  · exact hx

theorem acts_endSession (n : Nat) (s : State) : Acts s (endSession n s) := by
  refine .fault s _ fun r => ?_
  split <;> rfl

theorem sound_cashUpReport (p : Port) (n retire : Nat) (s : State) : (cashUpReportAct n retire s).Sound p s := by
  unfold cashUpReportAct
  split
  · trivial
  · refine sound_ite (fun _ => trivial) fun _ => ?_
    split
    · trivial
    · split
      · trivial
      · refine sound_ite (fun _ => .refl s) fun _ => sound_ite (fun _ => trivial) fun _ => ?_
        show Acts s (retireSession ..)
        unfold retireSession
        dsimp only
        split
        · exact .trans (acts_addDay ..) (.trans (acts_freeSession ..) (acts_endSession ..))
        · exact .trans (acts_freeSession ..) (acts_endSession ..)

/-! ### The office and the clock -/

theorem sound_dayClose (p : Port) (s : State) : (dayCloseAct s).Sound p s := by
  unfold dayCloseAct
  refine sound_ite (fun _ => trivial) fun _ => sound_ite (fun _ => trivial) fun _ => sound_ite (fun _ => trivial)
    fun _ => ?_
  refine .trans (.packsFreed s (freeFinished s.packs) fun i k hk => ?_)
    (.other _ _ ⟨rfl, rfl, rfl, rfl, rfl, rfl, rfl, rfl, rfl, rfl, rfl, rfl⟩)
  have e : look (freeFinished s.packs) i = (s.pack i).filter fun k => !isFinished k := by
    simp [look, freeFinished, State.pack, Vector.get]; rfl
  rw [e] at hk
  exact Option.eq_some_of_filter_eq_some hk

theorem sound_dayOpen (p : Port) (s : State) : (dayOpenAct s).Sound p s := by
  unfold dayOpenAct
  refine sound_ite (fun _ => trivial) fun _ => ?_
  refine .trans (.day s (nextDay s.day) (.inr rfl)) (.trans (.sessionNumber _ 1 (.inl rfl))
    (.trans (.issues _ [] (.inr (by simp))) (.other _ _ ?_)))
  exact ⟨rfl, rfl, rfl, rfl, rfl, rfl, rfl, rfl, rfl, rfl, rfl, rfl⟩

theorem sound_dayReport (p : Port) (a : Nat) (b : Option Nat) (s : State) : (dayReportAct a b s).Sound p s := by
  unfold dayReportAct
  split
  · exact .refl s
  · exact sound_ite (fun _ => trivial) fun _ => sound_ite (fun _ => trivial) fun _ => .refl s
  · exact sound_ite (fun _ => trivial) fun _ => .refl s
  · trivial

theorem sound_queryOffice (p q : Port) (s : State) : (queryOfficeAct q s).Sound p s := by
  unfold queryOfficeAct
  split
  · exact .refl s
  · exact .other _ _ ⟨rfl, rfl, rfl, rfl, rfl, rfl, rfl, rfl, rfl, rfl, rfl, rfl⟩

theorem sound_setTime (p : Port) (n : Nat) (s : State) : (setTimeAct n s).Sound p s := by
  unfold setTimeAct
  refine sound_ite (fun _ => trivial) fun h => .trans (.clock s n ?_)
    (.other _ _ ⟨rfl, rfl, rfl, rfl, rfl, rfl, rfl, rfl, rfl, rfl, rfl, rfl⟩)
  simp only [Config.daySeconds] at h; omega

/-! ### Stock -/

theorem sound_receivePack (p : Port) (a b : Nat) (s : State) : (receivePackAct a b s).Sound p s := by
  unfold receivePackAct
  refine sound_ite (fun _ => trivial) fun h1 => sound_ite (fun _ => trivial) fun h2 => sound_ite (fun _ => trivial)
    fun _ => ?_
  split
  · trivial
  · exact .trans (.packAdded s _ a b (by simpa using h1) (by simpa using h2)) (acts_addDay ..)

theorem sound_loadPack (p : Port) (h : Header) (serial n : Nat) (s : State) : (loadPackAct p h serial n s).Sound p s := by
  unfold loadPackAct
  refine sound_ite (fun _ => trivial) fun _ => sound_ite (fun _ => trivial) fun _ => ?_
  split
  · trivial
  · split
    · trivial
    · split
      · trivial
      · rename_i q _ _ i _ _ k hk
        refine sound_ite (fun _ => trivial) fun hs => sound_ite (fun _ => trivial) fun _ => ?_
        refine ⟨beginLoad i q s, _, ?_, rfl⟩
        unfold beginLoad
        refine .trans ?_ (acts_modPrinter _ q _ rfl)
        rw [hk]
        refine .pack s i k _ hk (.loading k q fun e => ?_)
        rw [e] at hs; simp at hs

theorem acts_countExhausted (k : Pack) (s : State) : Acts s (countExhausted k s) :=
  acts_ite _ (fun _ => acts_addDay ..) fun _ => .refl s

theorem sound_unloadPack (p q : Port) (n : Nat) (s : State) : (unloadPackAct q n s).Sound p s := by
  unfold unloadPackAct
  refine sound_ite (fun _ => trivial) fun _ => ?_
  split
  · trivial
  · refine sound_ite (fun _ => trivial) fun _ => ?_
    split
    · trivial
    · rename_i i hi
      obtain ⟨k, hk, hs, _⟩ := State.loadedAt_some _ hi
      rw [hk]
      dsimp only
      refine sound_ite (fun _ => trivial) fun _ => ?_
      have h : Acts s (countExhausted (takenOut k) (s.setPack i (some (takenOut k)))) :=
        .trans (.pack s i k _ hk (.out k hs)) (acts_countExhausted ..)
      show Acts s (unloadAt i k _ s)
      unfold unloadAt
      exact acts_ite _ (fun _ => .trans h (.trans (acts_modPrinter _ _ _ rfl) (acts_clearWaiting ..))) fun _ => h

theorem sound_returnPack (p : Port) (n : Nat) (s : State) : (returnPackAct n s).Sound p s := by
  unfold returnPackAct
  refine sound_ite (fun _ => trivial) fun _ => ?_
  split
  · trivial
  · split
    · trivial
    · rename_i k hk
      split
      · trivial
      · trivial
      · trivial
      · trivial
      · rename_i e; exact .trans (.pack s _ k _ hk (.sentBack k (by rw [e]; decide))) (acts_addDay ..)
      · rename_i e; exact .trans (.pack s _ k _ hk (.sentBack k (by rw [e]; decide))) (acts_addDay ..)

theorem packs_spoilUnreserved (e : SpoilEntry) (s : State) : (spoilUnreserved e s).packs = s.packs := by
  unfold spoilUnreserved countSpoil chargeFault chargeSession
  repeat' (first | split | rfl)

theorem sound_writeOff (p : Port) (serial n : Nat) (s : State) : (writeOffAct serial n s).Sound p s := by
  unfold writeOffAct
  refine sound_ite (fun _ => trivial) fun _ => ?_
  split
  · trivial
  · split
    · trivial
    · rename_i i _ _ k hk
      refine sound_ite (fun _ => trivial) fun hs => sound_ite (fun _ => trivial) fun hn =>
        sound_ite (fun _ => trivial) fun hu => ?_
      show Acts s (writeOffAt i k n s)
      unfold writeOffAt
      refine .trans (.trans (acts_spoilUnreserved _ s (by omega)) (.pack _ i k _ ?_ (.off n k (fun e => ?_) (by omega))))
        (acts_countExhausted ..)
      · rw [State.pack, packs_spoilUnreserved]; exact hk
      · rw [e] at hs; simp at hs

theorem sound_queryPack (p q : Port) (x : PackName) (s : State) : (queryPackAct q x s).Sound p s := by
  unfold queryPackAct
  split
  · trivial
  · trivial
  · split
    · trivial
    · exact sound_ite (fun _ => trivial) fun _ => .refl s

/-! ### Jobs -/

theorem acts_enqueue (j : JobNo) (x : Job) (s : State) : Acts s (enqueue j x s) := by
  unfold enqueue
  exact .trans (acts_setJob ..) (acts_modPrinter _ _ _ rfl)

theorem sound_sell (p q : Port) (tag kind coupons fare tender : Nat) (texts : List (List Byte)) (w : Option Nat)
    (s : State) : (sellAct q tag kind coupons fare tender texts w s).Sound p s := by
  unfold sellAct
  split
  · trivial
  · refine sound_ite (fun _ => trivial) fun _ => sound_ite (fun _ => trivial) fun _ => sound_ite (fun _ => trivial)
      fun _ => ?_
    split
    · exact sound_noOpenSession ..
    · unfold sellChecked
      split
      · refine sound_ite (fun _ => trivial) fun _ => sound_ite (fun _ => trivial) fun _ => sound_ite (fun _ => trivial)
          fun _ => ?_
        split
        · trivial
        · trivial
        · exact .trans (acts_enqueue ..) (acts_startCheck ..)
      · trivial

theorem sound_testPrint (p : Port) (tag n : Nat) (texts : List (List Byte)) (s : State) :
    (testPrintAct tag n texts s).Sound p s := by
  unfold testPrintAct
  split
  · trivial
  · refine sound_ite (fun _ => trivial) fun _ => sound_ite (fun _ => trivial) fun _ => sound_ite (fun _ => trivial)
      fun _ => sound_ite (fun _ => trivial) fun _ => sound_ite (fun _ => trivial) fun _ => ?_
    split
    · trivial
    · exact .trans (acts_enqueue ..) (acts_startCheck ..)

theorem sound_cancel (p q : Port) (tag : Nat) (n : Option Nat) (s : State) : (cancelAct q tag n s).Sound p s := by
  unfold cancelAct
  split
  · trivial
  · split
    · trivial
    · split
      · trivial
      · exact sound_ite (fun _ => trivial) fun _ =>
          .trans (acts_leaveQueue ..) (.trans (acts_freeJob ..) (acts_queueShortened ..))

theorem sound_queryJob (p q : Port) (tag : Nat) (n : Option JobName) (s : State) : (queryJobAct q tag n s).Sound p s := by
  unfold queryJobAct
  split
  · trivial
  · trivial
  · split
    · trivial
    · exact .refl s

/-! ### Printers and windows -/

theorem acts_takeOut (q : PrinterId) (s : State) : Acts s (takeOut q s) := by
  have h : Acts s (s.modPrinter q fun c => { c with outOfService := true }) := acts_modPrinter s q _ rfl
  unfold takeOut
  dsimp only
  split
  · exact .trans h (.trans (acts_modPrinter _ q _ rfl) (.trans (acts_clearWaiting ..)
      (acts_divert startCheck acts_startCheck ..)))
  · exact .trans h (.trans (acts_modPrinter _ q _ rfl) (acts_divert startCheck acts_startCheck ..))
  · exact .trans h (acts_divert startCheck acts_startCheck ..)
  · exact h

theorem sound_serviceOut (p : Port) (n : Nat) (s : State) : (serviceOutAct n s).Sound p s := by
  unfold serviceOutAct
  split
  · trivial
  · exact sound_ite (fun _ => trivial) fun _ => sound_ite (fun _ => trivial) fun _ => acts_takeOut ..

theorem acts_takeIn (q : PrinterId) (s : State) : Acts s (takeIn q s) := by
  have h : Acts s (s.modPrinter q fun c => { c with outOfService := false }) := acts_modPrinter s q _ rfl
  unfold takeIn
  dsimp only
  split
  · exact acts_ite _ (fun _ => .trans h (.trans (acts_modPrinter _ q _ rfl) (acts_startCheck ..))) fun _ =>
      .trans h (acts_modPrinter _ q _ rfl)
  · exact .trans h (acts_modPrinter _ q _ rfl)
  · exact h

theorem sound_serviceIn (p : Port) (n : Nat) (s : State) : (serviceInAct n s).Sound p s := by
  unfold serviceInAct
  split
  · trivial
  · exact sound_ite (fun _ => trivial) fun _ => sound_ite (fun _ => trivial) fun _ => acts_takeIn ..

theorem sound_queryPrinter (p q : Port) (n : Nat) (s : State) : (queryPrinterAct q n s).Sound p s := by
  unfold queryPrinterAct
  split
  · trivial
  · exact sound_ite (fun _ => trivial) fun _ => .refl s

theorem pairNamed_ok {a : Nat} {b : Option Nat} {q : Pair} (h : pairNamed a b = some q) :
    q.alternate ≠ some q.primary := by
  unfold pairNamed at h
  split at h
  · cases h; simp
  · split at h
    · split at h
      · cases h
      · cases h; rename_i hn; simpa using fun e => hn e.symm
    · cases h
  · cases h

theorem sound_assignPrinters (p : Port) (w a : Nat) (b : Option Nat) (s : State) :
    (assignPrintersAct w a b s).Sound p s := by
  unfold assignPrintersAct
  split
  · rename_i hq
    exact sound_ite (fun _ => trivial) fun _ => .params s _ (.pair _ _ _ (pairNamed_ok hq))
  · trivial

theorem sound_hold (p : Port) (b : Bool) (w : Nat) (s : State) : (holdAct b w s).Sound p s := by
  unfold holdAct
  split
  · trivial
  · refine sound_ite (fun _ => trivial) fun _ => .trans (.other _ _ ?_) (acts_notify ..)
    exact ⟨rfl, rfl, rfl, rfl, rfl, rfl, rfl, rfl, rfl, rfl, rfl, rfl⟩

/-! ### Faults and the spoil list -/

theorem sound_ackFault (p q : Port) (n : Nat) (s : State) : (ackFaultAct q n s).Sound p s := by
  unfold ackFaultAct
  refine sound_ite (fun _ => trivial) fun _ => ?_
  split
  · trivial
  · refine sound_ite (fun _ => trivial) fun _ => sound_ite (fun _ => trivial) fun _ => ?_
    exact acts_ite _ (fun _ => acts_recordCleared ..) fun _ => acts_modFault _ _ (by intro r h; exact h) s

theorem sound_closeFault (p : Port) (n r : Nat) (s : State) : (closeFaultAct n r s).Sound p s := by
  unfold closeFaultAct
  refine sound_ite (fun _ => trivial) fun _ => ?_
  split
  · trivial
  · split
    · trivial
    · trivial
    · trivial
    · exact sound_ite (fun _ => trivial) fun _ => acts_modFault _ _ (by intro r h; exact h) s

theorem acts_retireFault (b : Bool) (r : FaultRecord) (s : State) : Acts s (retireFault b r s) :=
  acts_ite _ (fun _ => .faultsKept s _) fun _ => .refl s

theorem sound_faultRead (p : Port) (a : Nat) (n : Option Nat) (s : State) : (faultReadAct a n s).Sound p s := by
  unfold faultReadAct
  split
  · trivial
  · split
    · split
      · exact .refl s
      · exact acts_retireFault ..
    · refine sound_ite (fun _ => trivial) fun _ => ?_
      split
      · trivial
      · exact sound_ite (fun _ => trivial) fun _ => acts_retireFault ..

theorem sound_spoilRead (p : Port) (a : Nat) (s : State) : (spoilReadAct a s).Sound p s := by
  unfold spoilReadAct
  split
  · trivial
  · refine acts_ite _ (fun _ => ?_) fun _ => .refl s
    exact acts_ite _ (fun _ => .refl s) fun _ => .trans (.spoilsDropped s 8) (acts_spaceFreed _)

/-! ### Configuration -/

theorem sound_setParameter (p : Port) (c : ParamChange) (s : State) : (setParameterAct c s).Sound p s := by
  unfold setParameterAct
  refine sound_ite (fun _ => trivial) fun h => sound_ite (fun _ => trivial) fun _ => ?_
  exact .params s _ (.change _ c (by simpa using h))

theorem sound_saveParameters (p : Port) (h : Header) (s : State) : (saveParametersAct p h s).Sound p s :=
  ⟨{ s with save := some (imageOf s.params) }, _,
    .other _ _ ⟨rfl, rfl, rfl, rfl, rfl, rfl, rfl, rfl, rfl, rfl, rfl, rfl⟩, rfl⟩

theorem acts_cutSave (s : State) : Acts s (cutSave s) := by
  unfold cutSave
  split
  · exact .refl s
  · exact .other _ _ ⟨rfl, rfl, rfl, rfl, rfl, rfl, rfl, rfl, rfl, rfl, rfl, rfl⟩

theorem acts_endSave (b : Bool) (s : State) : Acts s (endSave b s) := by
  unfold endSave
  split
  · exact .refl s
  · refine acts_ite _ (fun _ => .trans (.other _ _ ?_) (acts_finishHand ..)) fun _ =>
      .trans (acts_cutSave s) (acts_finishHand ..)
    exact ⟨rfl, rfl, rfl, rfl, rfl, rfl, rfl, rfl, rfl, rfl, rfl, rfl⟩

/-! ### Links -/

theorem steps_atPort {p : Port} {f : PortState → PortState} (h : ∀ q, OuterPort q (f q)) (s : State) :
    Steps s (atPort p f s) := by
  unfold atPort
  split
  · exact .port s p _ (h _)
  · exact .refl s

theorem steps_modPort (s : State) (p : Port) (f : PortState → PortState) (h : Steps s (s.setPort p (f (s.port p)))) :
    Steps s (s.modPort p f) := h

/-- A received character moves marks, or lets a body join the FIFO. -/
theorem outer_receiveChar (q : PortState) (c : Char9) :
    receiveChar q c = { receiveChar q c with fifo := q.fifo, outq := q.outq, hand := q.hand }
      ∨ ∃ body r, receiveChar q c = withRequest body { q with receiver := r } := by
  unfold receiveChar testFrame
  split
  · exact .inl rfl
  · repeat' split
    all_goals exact .inl rfl
  · split
    · exact .inl rfl
    · split
      · exact .inl rfl
      · split
        · exact .inl rfl
        · split
          · split
            · exact .inr ⟨_, _, rfl⟩
            · exact .inl rfl
          · exact .inl rfl

/-- One character at a port is one change of the port, or two. -/
theorem steps_receiveChar (s : State) (p : Port) (c : Char9) : Steps s (s.modPort p fun q => receiveChar q c) := by
  have h := outer_receiveChar (s.port p) c
  rcases h with h | ⟨body, r, h⟩
  · have hf : (receiveChar (s.port p) c).fifo = (s.port p).fifo := by rw [h]
    have ho : (receiveChar (s.port p) c).outq = (s.port p).outq := by rw [h]
    have hh : (receiveChar (s.port p) c).hand = (s.port p).hand := by rw [h]
    exact .port s p _ (.marks _ _ hf ho hh)
  · have e : s.modPort p (fun q => receiveChar q c)
        = (s.setPort p { s.port p with receiver := r }).setPort p
            (withRequest body ((s.setPort p { s.port p with receiver := r }).port p)) := by
      rw [State.port_setPort_same]
      simp only [State.modPort, State.setPort, put_put, h]
    have h1 : Steps s (s.setPort p { s.port p with receiver := r }) := .port s p _ (.marks _ _ rfl rfl rfl)
    rw [e]
    exact .trans h1 (.port _ p _ (OuterPort.join body _))

theorem steps_receiveChars (cs : List Char9) (p : Port) (s : State) : Steps s (s.modPort p (receiveChars cs)) := by
  induction cs generalizing s with
  | nil => exact .port s p _ (.marks _ _ rfl rfl rfl)
  | cons c cs ih =>
    have e : s.modPort p (receiveChars (c :: cs)) = (s.modPort p fun q => receiveChar q c).modPort p (receiveChars cs) := by
      simp only [State.modPort, State.port_setPort_same]
      simp only [State.setPort, put_put]; rfl
    rw [e]
    exact .trans (steps_receiveChar s p c) (ih _)

/-- A character where a condition holds, and nothing where it does not. -/
theorem steps_charWhere (g : PortState → Bool) (c : Char9) (p : Port) (s : State) :
    Steps s (atPort p (fun q => if g q = true then receiveChar q c else q) s) := by
  unfold atPort
  split
  · by_cases h : g (s.port p) = true
    · have e : (s.modPort p fun q => if g q = true then receiveChar q c else q) = s.modPort p fun q => receiveChar q c := by
        simp [State.modPort, h]
      rw [e]; exact steps_receiveChar s p c
    · have e : (s.modPort p fun q => if g q = true then receiveChar q c else q) = s.modPort p fun q => q := by
        simp [State.modPort, h]
      rw [e]; exact .port s p _ (.marks _ _ rfl rfl rfl)
  · exact .refl s

theorem steps_takeBad (p : Port) (body : List Byte) (s : State) : Steps s (takeBad p body s) := by
  unfold takeBad
  split
  · rename_i hc
    simp only [Bool.and_eq_true] at hc
    split
    · rename_i rest hr
      refine steps_answer (steps_take hr) ?_ ..
      rw [State.port_modPort_same]; exact canTake_free hc.1.1
    · exact .refl s
  · exact .refl s

/-! ### Lines -/

theorem acts_whenLive {f : State → State} (h : ∀ s, Acts s (f s)) (s : State) : Acts s (whenLive f s) :=
  acts_ite _ (fun _ => h s) fun _ => .refl s

theorem acts_beginExchange (l : Line) (n : Fin 4) (p : PrinterId) (c : Sent) (s : State) :
    Acts s (beginExchange l n p c s) := acts_setLine ..

theorem acts_plainTurn (l : Line) (c : Sent) (s : State) : Acts s (plainTurn l c s) := by
  unfold plainTurn
  split
  · exact acts_ite _ (fun _ => acts_beginExchange ..) fun _ => .refl s
  · exact .refl s

theorem acts_printTurn (l : Line) (s : State) : Acts s (printTurn l s) := by
  unfold printTurn
  split
  · exact .refl s
  · split
    · split
      · exact acts_ite _ (fun _ => .trans (acts_stopFault ..) (acts_beginExchange ..)) fun _ => acts_beginExchange ..
      · exact acts_beginExchange ..
    · exact .refl s
    · exact .refl s

theorem acts_endExchange (l : Line) (s : State) : Acts s (endExchange l s) := acts_setLine ..

theorem acts_markUnconfirmed (p : PrinterId) (c : Sent) (s : State) : Acts s (markUnconfirmed p c s) := by
  unfold markUnconfirmed
  split
  · exact acts_ite _ (fun _ => acts_modPrinter s p _ rfl) fun _ => .refl s
  · exact .refl s
  · exact .refl s

theorem acts_countMiss (p : PrinterId) (s : State) : Acts s (countMiss p s) := by
  have h : ∀ n, Acts s (raise .lineError (some p) none (s.modPrinter p fun c => { c with misses := n + 1 })) :=
    fun n => .trans (acts_modPrinter s p _ rfl) (acts_raise ..)
  unfold countMiss
  exact acts_ite _ (fun _ => acts_ite _ (fun _ => .trans (h _) (acts_stopFault ..)) fun _ => h _) fun _ =>
    acts_ite _ (fun _ => .refl s) fun _ => acts_stopFault ..

theorem acts_miss (l : Line) (x : Exchange) (s : State) : Acts s (miss l x s) :=
  .trans (acts_endExchange ..) (.trans (acts_markUnconfirmed ..) (acts_countMiss ..))

theorem acts_goodResponse (l : Line) (p : PrinterId) (s : State) : Acts s (goodResponse l p s) := by
  have h : Acts s ((endExchange l s).modPrinter p fun x => { x with misses := 0 }) :=
    .trans (acts_endExchange ..) (acts_modPrinter _ p _ rfl)
  unfold goodResponse
  exact acts_ite _ (fun _ => .trans h (acts_removeCondition ..)) fun _ => h

theorem acts_onExchange (l : Line) {f : Exchange → State → State} (h : ∀ x s, Acts s (f x s)) (s : State) :
    Acts s (onExchange l f s) := by
  unfold onExchange
  split
  · exact h _ s
  · exact .refl s

theorem acts_statusFault (p : PrinterId) (k : PrinterKind) (s : State) : Acts s (statusFault p k s) :=
  acts_ite _ (fun _ => .refl s) fun _ => .trans (acts_modPrinter s p _ rfl) (acts_stopFault ..)

theorem acts_statusBusy (p : PrinterId) (c : Sent) (s : State) : Acts s (statusBusy p c s) := by
  unfold statusBusy
  dsimp only
  split
  · exact acts_ite _ (fun _ => acts_modPrinter s p _ rfl) fun _ => .refl s
  · exact acts_ite _ (fun _ => acts_modPrinter s p _ rfl) fun _ => .refl s
  · exact acts_modPrinter s p _ rfl
  · exact .refl s

theorem acts_declineOne (p : PrinterId) (k : FaultKind) (s : State) : Acts s (declineOne p k s) :=
  acts_ite _ (fun _ => acts_stopFault ..) fun _ => acts_modPrinter s p _ rfl

theorem acts_idleReported (p : PrinterId) (s : State) : Acts s (idleReported p s) :=
  acts_ite _ (fun _ => .trans (acts_modPrinter s p _ rfl) (acts_removeCondition ..)) fun _ => .refl s

theorem acts_probeDecides (p : PrinterId) (s : State) : Acts s (probeDecides p s) := by
  unfold probeDecides
  split
  · exact acts_ite _ (fun _ => .trans (acts_modPrinter s p _ rfl) (acts_resyncDue ..)) fun _ => acts_modPrinter s p _ rfl
  · split
    · exact acts_modPrinter s p _ rfl
    · split
      · rename_i h
        exact acts_takeAllowance p _ s h
      · exact acts_beginWait ..

theorem acts_statusIdle (p : PrinterId) (c : Sent) (s : State) : Acts s (statusIdle p c s) := by
  have h := acts_idleReported p s
  unfold statusIdle
  dsimp only
  generalize idleReported p s = t at *
  split
  · exact .trans h (acts_probeDecides ..)
  · split
    · exact acts_ite _ (fun _ => .trans h (acts_declineOne ..)) fun _ => h
    · exact .trans h (acts_declineOne ..)
    · exact acts_ite _ (fun _ => .trans h (acts_modPrinter _ p _ rfl)) fun _ => h
    · exact h

theorem acts_takeStatus (l : Line) (c : Condition) (x : Exchange) (s : State) : Acts s (takeStatus l c x s) := by
  unfold takeStatus
  dsimp only
  split
  · exact .trans (acts_goodResponse ..) (acts_statusIdle ..)
  · exact .trans (acts_goodResponse ..) (acts_statusBusy ..)
  · exact .trans (acts_goodResponse ..) (acts_statusFault ..)

theorem acts_takeCouponReport (l : Line) (n : Nat) (o : PrintOutcome) (x : Exchange) (s : State) :
    Acts s (takeCouponReport l n o x s) := by
  unfold takeCouponReport
  split
  · dsimp only
    split
    · exact .trans (acts_goodResponse ..) (acts_couponReport ..)
    · exact .trans (acts_goodResponse ..) (acts_lateReport ..)
  · exact acts_miss ..

theorem acts_takeSerial (l : Line) (n : Nat) (x : Exchange) (s : State) : Acts s (takeSerial l n x s) :=
  acts_ite _ (fun _ => .trans (acts_goodResponse ..) (acts_senseEnds ..)) fun _ => acts_miss ..

theorem acts_takeChars (l : Line) (chars : List Char9) (x : Exchange) (s : State) : Acts s (takeChars l chars x s) := by
  unfold takeChars
  split
  · exact acts_takeStatus ..
  · exact acts_takeCouponReport ..
  · exact acts_takeSerial ..
  · exact acts_miss ..

/-! ### Restarts -/

theorem paramsOk_default : paramsOk defaultParams = true := by decide +kernel

/-- An image that reads back holds numbers in range. -/
theorem paramsOk_readImage {m : Option (List Byte)} {q : Params} (e : readImage m = some q) : paramsOk q = true := by
  unfold readImage at e
  split at e
  · cases e
  · split at e
    · exact (Option.filter_eq_some_iff.mp e).2
    · cases e

theorem paramsOk_loaded (s : State) : paramsOk (s.autoload.getD defaultParams) = true := by
  cases e : s.autoload with
  | none => exact paramsOk_default
  | some q =>
    unfold State.autoload at e
    split at e
    · cases e
    · exact paramsOk_readImage e

theorem look_replicate {α : Type} {n : Nat} (x : α) (i : Fin n) : look (Vector.replicate n x) i = x := by
  simp [look, Vector.get]

theorem look_ofFn {α : Type} {n : Nat} (f : Fin n → α) (i : Fin n) : look (Vector.ofFn f) i = f i := by
  simp [look, Vector.get]; rfl

theorem steps_initialRecords (s : State) : Steps s (initialRecords s) := by
  refine .trans (.packsFreed s (Vector.replicate 32 none) fun i k h => by
      rw [look_replicate] at h; cases h)
    (.trans (.spoilsDropped _ s.spoils.length) (.trans (.issues _ [] (.inr (by simp)))
    (.trans (.faultsCleared _) (.trans (.sessionsFreed _ (Vector.replicate 24 none) fun i k h => by
      rw [look_replicate] at h; cases h) (.trans (.sessionNumber _ 1 (.inl rfl)) (.trans (.day _ 1 (.inl rfl))
    (.trans (.clock _ 0 (by omega)) (.other _ _ ?_))))))))
  exact ⟨rfl, rfl, rfl, by simp [initialRecords], rfl, rfl, rfl, rfl, rfl, rfl, rfl, rfl⟩

theorem steps_clearVolatile (s : State) : Steps s (clearVolatile s) := by
  refine .trans (.portsReset s (Vector.replicate 13 (restPort [])) fun p => ?_) (.other _ _ ?_)
  · rw [look_replicate]; exact .reset _
  · exact ⟨rfl, rfl, rfl, rfl, rfl, rfl, rfl, rfl, rfl, rfl, rfl, rfl⟩

theorem steps_loadParams (s : State) : Steps s (loadParams s) := by
  refine .trans (.params s _ (.image _ _ (paramsOk_loaded s))) (.other _ _ ?_)
  exact ⟨rfl, rfl, rfl, rfl, rfl, rfl, rfl, rfl, rfl, rfl, rfl, rfl⟩

theorem steps_resetPrinters (s : State) : Steps s (resetPrinters s) :=
  .printersReset s _ fun p => by rw [look_ofFn]; rfl

theorem acts_adjustPack (s : State) (i : PackIx) : Acts s (adjustPack s i) := by
  unfold adjustPack
  split
  · exact .refl s
  · rename_i k hk
    split
    · refine .trans ?_ (acts_movePack _ _ (fun k => .abandon k) _)
      unfold convertRuns
      split
      · exact acts_spoilRuns ..
      · exact .refl s
    · rename_i hs
      exact .pack s i k _ hk (.revert k hs)
    · exact .refl s

theorem acts_countClosing (s : State) (i : SessionIx) : Acts s (countClosing s i) := by
  unfold countClosing
  split
  · rename_i x hx
    refine acts_ite _ (fun h => acts_enterCounting i s fun y hy => ?_) fun _ => .refl s
    rw [hx] at hy; cases hy; exact h
  · exact .refl s

theorem acts_raiseStart (a b : Bool) (s : State) : Acts s (raiseStart a b s) := by
  have h : Acts s (if a then raise .recordsLost none none s else s) :=
    acts_ite _ (fun _ => acts_raise ..) fun _ => .refl s
  unfold raiseStart
  exact acts_ite _ (fun _ => .trans h (acts_raise ..)) fun _ => h

theorem steps_restartAs (a : Bool) (c : RestartCause) (b : Bool) (s : State) : Steps s (restartAs a c b s) := by
  have h0 : Steps s (if b = true then initialRecords (cutSave s) else cutSave s) := by
    split
    · exact .trans (Acts.steps (acts_cutSave s)) (steps_initialRecords _)
    · exact Acts.steps (acts_cutSave s)
  have h1 : ∀ t : State, Steps t (resetPrinters (loadParams (clearVolatile t))) := fun t =>
    .trans (steps_clearVolatile t) (.trans (steps_loadParams _) (steps_resetPrinters _))
  have h2 : ∀ t : State, Acts t (settleIssues (allPacks.foldl adjustPack t)) := fun t =>
    .trans (acts_foldl _ acts_adjustPack _ t) (.issues _ _ (.inl (by simp)))
  have h3 : ∀ t : State, Acts t (adjustFaults t) := fun t =>
    .trans (acts_removeCondition ..) (.trans (acts_reportFree _) (acts_testFull _))
  unfold restartAs
  dsimp only
  exact .trans (.trans h0 (h1 _)) (Acts.steps (.trans (h2 _) (.trans (acts_notifyAll ..) (.trans
    (acts_foldl _ acts_countClosing _ _) (.trans (acts_raiseStart ..) (h3 _))))))

theorem steps_warmRestart (c : RestartCause) (s : State) : Steps s (warmRestart c s) := steps_restartAs ..

theorem steps_coldStart (s : State) : Steps s (coldStart s) := steps_restartAs ..

theorem steps_releaseReset (s : State) : Steps s (releaseReset s) := by
  have h : Steps s { s with resetLow := false, coldPending := false } :=
    .other _ _ ⟨rfl, rfl, rfl, rfl, rfl, rfl, rfl, rfl, rfl, rfl, rfl, rfl⟩
  unfold releaseReset
  dsimp only
  split
  · exact h
  · split
    · exact .trans h (steps_coldStart _)
    · exact .trans h (steps_warmRestart ..)

theorem steps_applySupply (s : State) : Steps s (applySupply s) := by
  have h : Steps s { s with powered := true } := .other _ _ ⟨rfl, rfl, rfl, rfl, rfl, rfl, rfl, rfl, rfl, rfl, rfl, rfl⟩
  unfold applySupply
  dsimp only
  split
  · exact .trans h (.other _ _ ⟨rfl, rfl, rfl, rfl, rfl, rfl, rfl, rfl, rfl, rfl, rfl, rfl⟩)
  · exact .trans h (steps_coldStart _)

/-! ### All commands -/

theorem next_steps {s t u : State} (h : (.next u : Host.Outcome State Fault Refusal) = .next t) (m : Steps s u) :
    Steps s t := by cases h; exact m

/-- What a command does is a chain of single changes. -/
theorem exec_steps (c : Instr) (s t : State) (h : exec c s = .next t) : Steps s t := by
  cases c <;> refine next_steps h ?_
  case openSession => exact steps_takeRequest (sound_openSession _ _ _ _) s
  case sell => exact steps_takeRequest (sound_sell _ _ _ _ _ _ _ _ _) s
  case cancel => exact steps_takeRequest (sound_cancel _ _ _ _) s
  case voidTicket => exact steps_takeRequest (sound_void _ _) s
  case refund => exact steps_takeRequest (sound_refund _ _ _ _ _) s
  case closeSession => exact steps_takeRequest (sound_closeSession _ _) s
  case declare => exact steps_takeRequest (sound_declare _ _ _ _) s
  case ackFault => exact steps_takeRequest (sound_ackFault _ _ _) s
  case loadPack => exact steps_takeRequest (sound_loadPack _ _ _ _) s
  case unloadPack => exact steps_takeRequest (sound_unloadPack _ _ _) s
  case queryJob => exact steps_takeRequest (sound_queryJob _ _ _ _) s
  case queryPrinter => exact steps_takeRequest (sound_queryPrinter _ _ _) s
  case querySession => exact steps_takeRequest (sound_querySession _ _) s
  case queryPack => exact steps_takeRequest (sound_queryPack _ _ _) s
  case queryOffice => exact steps_takeRequest (sound_queryOffice _ _) s
  case receivePack => exact steps_takeRequest (sound_receivePack _ _ _) s
  case returnPack => exact steps_takeRequest (sound_returnPack _ _) s
  case writeOff => exact steps_takeRequest (sound_writeOff _ _ _) s
  case serviceOut => exact steps_takeRequest (sound_serviceOut _ _) s
  case serviceIn => exact steps_takeRequest (sound_serviceIn _ _) s
  case assignPrinters => exact steps_takeRequest (sound_assignPrinters _ _ _ _) s
  case testPrint => exact steps_takeRequest (sound_testPrint _ _ _ _) s
  case hold => exact steps_takeRequest (sound_hold _ _ _) s
  case release => exact steps_takeRequest (sound_hold _ _ _) s
  case answer => exact steps_takeRequest (sound_answer _ _ _ _) s
  case faultRead => exact steps_takeRequest (sound_faultRead _ _ _) s
  case closeFault => exact steps_takeRequest (sound_closeFault _ _ _) s
  case spoilRead => exact steps_takeRequest (sound_spoilRead _ _) s
  case recount => exact steps_takeRequest (sound_recount _ _) s
  case cashUpReport => exact steps_takeRequest (sound_cashUpReport _ _ _) s
  case forceClose => exact steps_takeRequest (sound_forceClose _ _) s
  case dayClose => exact steps_takeRequest (sound_dayClose _) s
  case dayOpen => exact steps_takeRequest (sound_dayOpen _) s
  case dayReport => exact steps_takeRequest (sound_dayReport _ _ _) s
  case setTime => exact steps_takeRequest (sound_setTime _ _) s
  case setParameter => exact steps_takeRequest (sound_setParameter _ _) s
  case saveParameters => exact steps_takeRequest (sound_saveParameters _ _) s
  case restart =>
    refine steps_takeRequest (fun t => ?_) s
    exact steps_warmRestart .request t
  case badRequest => exact steps_takeBad ..
  case receiveFrame =>
    unfold atPort
    split
    · exact steps_receiveChars ..
    · exact .refl s
  case strayCharacter p c =>
    exact steps_charWhere (fun q => decide (q.receiver = .idle ∧ (c.framing = true ∨ (!c.mark) = true))) c p s
      |> fun h => by simpa using h
  case frameInProgressDiscarded p c => exact steps_charWhere (fun q => discards q c) c p s
  case interCharacterTimeout =>
    refine steps_atPort (fun q => ?_) s
    unfold gapPassed
    split <;> exact .marks _ _ rfl rfl rfl
  case portBreak p =>
    split
    · unfold tellBreak
      split
      · exact .trans (.port s _ _ (.broke _)) (Acts.steps (acts_notify ..))
      · exact .port s _ _ (.broke _)
    · exact .refl s
  case lineReturnsHigh =>
    refine steps_atPort (fun q => ?_) s
    split <;> exact .marks _ _ rfl rfl rfl
  case transmitFrame => exact steps_atPort (fun q => .sent q) s
  case poll => exact Acts.steps (acts_whenLive (fun t => acts_plainTurn ..) s)
  case sense => exact Acts.steps (acts_whenLive (fun t => acts_plainTurn ..) s)
  case print => exact Acts.steps (acts_whenLive (fun t => acts_printTurn ..) s)
  case status => exact Acts.steps (acts_whenLive (fun t => acts_onExchange _ (fun x u => acts_takeStatus ..) t) s)
  case coupon => exact Acts.steps (acts_whenLive (fun t => acts_onExchange _ (fun x u => acts_takeCouponReport ..) t) s)
  case serial => exact Acts.steps (acts_whenLive (fun t => acts_onExchange _ (fun x u => acts_takeSerial ..) t) s)
  case badResponse =>
    exact Acts.steps (acts_whenLive (fun t => acts_onExchange _ (fun x u => acts_takeChars ..) t) s)
  case exchangeTimeout => exact Acts.steps (acts_whenLive (fun t => acts_onExchange _ (fun x u => acts_miss ..) t) s)
  case couponTimerExpiry =>
    exact Acts.steps (acts_whenLive (fun t => acts_ite _ (fun _ => acts_stopFault ..) fun _ => .refl t) s)
  case senseTimerExpiry =>
    exact Acts.steps (acts_whenLive (fun t => acts_ite _ (fun _ => acts_stopFault ..) fun _ => .refl t) s)
  case authorisationExpiry => exact Acts.steps (acts_whenLive (fun t => acts_endAuthorisation ..) s)
  case lineRestartBreakEnd =>
    exact Acts.steps (acts_whenLive (fun t => acts_ite _ (fun _ => acts_setLine ..) fun _ => .refl t) s)
  case saveComplete => exact Acts.steps (acts_whenLive (fun t => acts_endSave ..) s)
  case clockTick => exact .clock s _ (Nat.mod_lt _ (by decide))
  case resetAssert =>
    split
    · exact .refl s
    · exact .trans (Acts.steps (acts_cutSave s)) (.other _ _ ⟨rfl, rfl, rfl, rfl, rfl, rfl, rfl, rfl, rfl, rfl, rfl, rfl⟩)
  case resetRelease =>
    split
    · exact steps_releaseReset s
    · exact .refl s
  case coldStart =>
    split
    · exact .refl s
    · exact steps_applySupply s
  case powerFail =>
    split
    · exact .trans (Acts.steps (acts_cutSave s)) (.other _ _ ⟨rfl, rfl, rfl, rfl, rfl, rfl, rfl, rfl, rfl, rfl, rfl, rfl⟩)
    · exact .refl s
  case backupSupplyLoss =>
    split
    · exact .refl s
    · exact .other _ _ ⟨rfl, rfl, rfl, rfl, rfl, rfl, rfl, rfl, rfl, rfl, rfl, rfl⟩

/-- What a step does is a chain of single changes. -/
theorem step_steps (s t : State) (h : step s = .next t) : Steps s t := by
  unfold step at h
  split at h
  · cases h; exact .refl s
  · rename_i c rest _
    have m : Steps s { s with pending := rest } :=
      .other _ _ ⟨rfl, rfl, rfl, rfl, rfl, rfl, rfl, rfl, rfl, rfl, rfl, rfl⟩
    exact .trans m (exec_steps c _ t h)

end Sys2Proof.Machine
end

