-- ==== Sys2Proof/Laws/Control.lean ====
section
/-! SUPPORT. What the operations of the printer controller and of the fault log do, said once in the cases that the
statements cover: a deferred reply, a condition that goes, a sense that ends, a STOP fault, a return to service; and how
the fault counter advances and SET PARAMETER changes the set. -/

namespace Sys2Proof.Machine

set_option Elab.async false

/-! ### The session a spoil is charged to (R93, R128) -/

theorem chargedSession_none (e : SpoilEntry) (s : State) (h : e.session = none) : s.chargedSession e = none := by
  unfold State.chargedSession; split <;> simp [h]

theorem chargedSession_free (e : SpoilEntry) (s : State) (h : e.fault = none) : s.chargedSession e = e.session := by
  simp [State.chargedSession, h]

/-- Under a record, the session is the entry's own unless the record's affected session has been retired. -/
theorem chargedSession_record {e : SpoilEntry} {s : State} {r : FaultRecord} (h : e.fault.bind s.faultOf = some r)
    (hs : r.session = e.session) : s.chargedSession e = if r.sessionOver = true then none else e.session := by
  simp [State.chargedSession, h, hs]

/-! ### Deferred replies (R182) -/

/-- A port that does not have the operation in hand is passed over. -/
theorem finishPort_other {op rc res p} {s : State} (h : ∀ x, (s.port p).hand = some x → x.op ≠ op) : finishPort op rc
    res p s = s := by
  unfold finishPort
  cases hh : (s.port p).hand with
  | none => rfl
  | some x => simp [h x hh]

/-- A deferred operation that one port has in hand is answered there, and nothing else changes. -/
theorem finishHand_one {op : HandOp} {rc : ResultCode} {res : Results} {p : Port} {hand : Hand} {t : State}
    (hh : (t.port p).hand = some hand)
    (hop : hand.op = op) (hbr : hand.broken = false) (hot : ∀ r x, r ≠ p → (t.port r).hand = some x → x.op ≠ op) :
    ∃ v, finishHand op rc res t = { t with ports := v }
      ∧ (finishHand op rc res t).port p = replyIn { chain := false, quiet := hand.quiet, tag := hand.tag } hand.code rc res { t.port p with hand := none }
      ∧ ∀ r, r ≠ p → (finishHand op rc res t).port r = t.port r := by
  have key : ∃ v, finishPort op rc res p t = { t with ports := v }
      ∧ (finishPort op rc res p t).port p = replyIn { chain := false, quiet := hand.quiet, tag := hand.tag } hand.code rc res { t.port p with hand := none }
      ∧ ∀ r, r ≠ p → (finishPort op rc res p t).port r = t.port r := by
    unfold finishPort
    simp only [hh, hop, hbr, beq_self_eq_true, if_true]
    rw [if_neg (by simp)]
    rw [answer_eq]
    refine ⟨_, rfl, ?_, ?_⟩
    · simp
    · intro q hq; simp [State.port_modPort, Ne.symm hq]
  have hn : ((finishPort op rc res p t).port p).hand = none := by
    rw [key.choose_spec.2.1]; unfold replyIn; dsimp only; split <;> simp [withReply, clearMarkers]
  have hfix : ∀ r, finishPort op rc res r (finishPort op rc res p t) = finishPort op rc res p t := by
    intro r
    by_cases hr : r = p
    · subst hr; apply finishPort_other; intro x hx; rw [hn] at hx; cases hx
    · apply finishPort_other; intro x hx; rw [key.choose_spec.2.2 r hr] at hx; exact hot r x hr hx
  have hfold : ∀ l : List Port, l.foldl (fun t p => finishPort op rc res p t) (finishPort op rc res p t) = finishPort op rc res p t := by
    intro l; apply fold_same; intro r _; exact hfix r
  have hall : ∀ l : List Port, p ∈ l → l.foldl (fun t p => finishPort op rc res p t) t = finishPort op rc res p t := by
    intro l hl
    induction l with
    | nil => cases hl
    | cons a l ih =>
      rw [List.foldl_cons]
      by_cases ha : a = p
      · subst ha; exact hfold l
      · rw [finishPort_other (fun x hx => hot a x ha hx)]
        exact ih (by simpa [Ne.symm ha] using hl)
  have : finishHand op rc res t = finishPort op rc res p t := by
    unfold finishHand; apply hall; cases p <;> simp [allPorts]
  rw [this]; exact key

/-! ### Raises (R102 to R106) -/

/-- A raise does not look at the count last reported. -/
theorem notify_free (p : Port) (n : Notice) (s : State) (a) : notify p n { s with freeReported := a } =
    { notify p n s with freeReported := a } := by
  unfold notify
  have : State.portPresent { s with freeReported := a } p = s.portPresent p := by cases p <;> rfl
  rw [this]; split <;> rfl

theorem notifyAll_free (ps : List Port) (n : Notice) (s : State) (a) : notifyAll ps n { s with freeReported := a } =
    { notifyAll ps n s with freeReported := a } := by
  induction ps generalizing s with
  | nil => rfl
  | cons p ps ih => simp only [notifyAll, List.foldl_cons] at ih ⊢; rw [notify_free, ih]

theorem raise_free (k p d) (s : State) (a) : raise k p d { s with freeReported := a } =
    { raise k p d s with freeReported := a } := by
  unfold raise
  have h : raiseJob p { s with freeReported := a } = raiseJob p s := rfl
  rw [h]
  simp only []
  cases s.faults.find? (mergesInto k p) with
  | some r =>
    simp only [raiseMerge]
    split
    · exact notifyAll_free _ _ (addDay (addFault (severityOf k)) (modFault r.number (fun _ => mergeInto k (raiseJob p s) d s.clock r) s)) a
    · rfl
  | none => exact notifyAll_free _ _ (addDay (addFault (severityOf k)) { s with
    faults := makeRoom s.faults ++ [newRecord k p (raiseJob p s) d (freePlace (makeRoom s.faults)) s.faultCounter s],
    faultCounter := nextFaultNumber (makeRoom s.faults ++ [newRecord k p (raiseJob p s) d (freePlace (makeRoom s.faults)) s.faultCounter s]) s.faultCounter,
    overwritten := s.overwritten || decide (Config.faultSize ≤ s.faults.length) }) a

/-- The log after a raise that makes a record. -/
theorem raise_faults_new (k : FaultKind) (p : Option PrinterId) (d) (s : State)
    (hn : s.faults.find? (mergesInto k p) = none) (hlen : s.faults.length < 40) :
  (raise k p d s).faults = s.faults ++ [newRecord k p (raiseJob p s) d (freePlace s.faults) s.faultCounter s] := by
  have hm : makeRoom s.faults = s.faults := by unfold makeRoom; rw [if_pos]; exact hlen
  have hnotify : ∀ ps n (t : State), (notifyAll ps n t).faults = t.faults := by
    intro ps n t; obtain ⟨v, hv⟩ := notifyAll_eq ps n t; rw [hv]
  unfold raise; rw [hn]; unfold raiseNew sendRaised; rw [hnotify]; simp only [hm]; rfl

/-- The log after a raise that finds a record. -/
theorem raise_faults_merge (k : FaultKind) (p : Option PrinterId) (d) (s : State) (r)
    (hn : s.faults.find? (mergesInto k p) = some r) :
  (raise k p d s).faults = s.faults.map fun y => if y.number == r.number then mergeInto k (raiseJob p s) d s.clock r else y := by
  have hnotify : ∀ ps n (t : State), (notifyAll ps n t).faults = t.faults := by
    intro ps n t; obtain ⟨v, hv⟩ := notifyAll_eq ps n t; rw [hv]
  unfold raise; rw [hn]; unfold raiseMerge; dsimp only; split
  · unfold sendRaised; rw [hnotify]; rfl
  · rfl

theorem find_congr {α} (l : List α) (p q : α → Bool) (h : ∀ x ∈ l, p x = q x) : l.find? p = l.find? q := by
  induction l with
  | nil => rfl
  | cons a l ih => simp only [List.find?_cons, h a (by simp), ih fun x hx => h x (by simp [hx])]

/-- After a STOP raise the printer's STOP record is the one that the raise went into. -/
theorem raise_stopRecord (k : FaultKind) (q : PrinterId) (d) (s : State) (hk : severityOf k = .stop)
    (hnd : (s.faults.map fun r => r.number).Nodup) (hlen : s.faults.length < 40) :
    ((raise k (some q) d s).stopRecord q).map (fun r => r.number) = some (raiseNumber k (some q) s) := by
  have hm : mergesInto k (some q) = fun r : FaultRecord => r.severity == .stop && r.printer == some q && r.state != .closed := by
    funext r; unfold mergesInto; rw [hk]; cases hse : r.severity <;> cases hst : r.state <;> simp [Bool.and_comm] <;> rfl
  cases hf : s.faults.find? (mergesInto k (some q)) with
  | none =>
    unfold State.stopRecord
    rw [raise_faults_new k (some q) d s hf hlen, ← hm, List.find?_append, hf]
    have : (newRecord k (some q) (raiseJob (some q) s) d (freePlace s.faults) s.faultCounter s).state ≠ .closed := by
      show bornState k ≠ .closed; cases k <;> simp [bornState]
    have h2 : mergesInto k (some q) (newRecord k (some q) (raiseJob (some q) s) d (freePlace s.faults) s.faultCounter s) = true := by
      rw [hm]; simp only [Bool.and_eq_true, beq_iff_eq, bne_iff_ne]; exact ⟨⟨hk, rfl⟩, this⟩
    simp [h2, raiseNumber, hf]; rfl
  | some r =>
    have hr := List.mem_of_find?_eq_some hf
    have hrp := List.find?_some hf
    unfold State.stopRecord
    rw [raise_faults_merge k (some q) d s r hf, ← hm, List.find?_map]
    have hn : (mergeInto k (raiseJob (some q) s) d s.clock r).number = r.number := by
      unfold mergeInto; simp [hk]
    have hP : mergesInto k (some q) (mergeInto k (raiseJob (some q) s) d s.clock r) = true := by
      rw [hm] at hrp ⊢
      simp only [Bool.and_eq_true, beq_iff_eq, bne_iff_ne] at hrp ⊢
      unfold mergeInto; simp [hk, hrp]
    rw [find_congr _ _ (mergesInto k (some q)), hf]
    · simp [hn, raiseNumber, hf]
    · intro y hy
      simp only [Function.comp, beq_iff_eq]
      by_cases hyn : y.number = r.number
      · have := List.inj_on_of_nodup_map hnd hy hr hyn
        subst this
        simp [hP, hrp]
      · simp [hyn]

/-- SERIAL_SKIP makes no SPOIL_LIST_FULL record ACKNOWLEDGED. -/
theorem raise_serialSkip_noFull (p d) (s : State) (h : NoFullRecord s) : NoFullRecord (raise .serialSkip p d s) := by
  have hnotify : ∀ ps n (t : State), (notifyAll ps n t).faults = t.faults := by
    intro ps n t; obtain ⟨v, hv⟩ := notifyAll_eq ps n t; rw [hv]
  unfold raise
  cases hf : s.faults.find? (mergesInto .serialSkip p) with
  | some r =>
    have hk : r.firstKind = .serialSkip := by
      have := List.find?_some hf
      simp [mergesInto, severityOf] at this; exact this.2
    have hmk : ∀ j d n, (mergeInto .serialSkip j d n r).firstKind = .serialSkip := by
      intro j d n; simp [mergeInto, severityOf, hk]
    have : (raiseMerge .serialSkip (raiseJob p s) d r s).faults = s.faults.map fun y => if y.number == r.number then mergeInto .serialSkip (raiseJob p s) d s.clock r else y := by
      unfold raiseMerge; dsimp only; split
      · unfold sendRaised; rw [hnotify]; rfl
      · rfl
    intro y hy hyo
    rw [this] at hy
    simp only [List.mem_map] at hy
    obtain ⟨z, hz, rfl⟩ := hy
    split at hyo
    · simp [isOpenFull, hmk] at hyo
    · next hn => rw [if_neg hn]; exact h z hz hyo
  | none =>
    have : (raiseNew .serialSkip p (raiseJob p s) d s).faults = makeRoom s.faults ++ [newRecord .serialSkip p (raiseJob p s) d (freePlace (makeRoom s.faults)) s.faultCounter s] := by
      unfold raiseNew sendRaised; rw [hnotify]; rfl
    intro y hy hyo
    rw [this] at hy
    simp only [List.mem_append, List.mem_singleton] at hy
    rcases hy with hy | rfl
    · apply h y _ hyo
      unfold makeRoom at hy
      split at hy
      · exact hy
      · split at hy
        · exact List.mem_of_mem_eraseP hy
        · exact List.mem_of_mem_drop hy
    · simp [isOpenFull, newRecord] at hyo

/-! ### Conditions that go (R108) -/

/-- No matching record has a condition to lose. -/
theorem removeCondition_none (m : FaultRecord → Bool) (s : State)
    (h : ∀ r ∈ s.faults, m r = true → r.state = .closed ∨ r.state = .cleared ∨ r.present = false) : removeCondition m
    s = s := by
  unfold removeCondition
  apply fold_same
  intro n hn
  unfold removeOne
  cases hf : s.faultOf n with
  | none => rfl
  | some r =>
    have hr := (State.faultOf_some s hf).1
    simp only
    split
    · next hc =>
      simp at hc
      rcases h r hr hc.1 with h | h | h <;> simp_all
    · rfl

/-- With no matching record ACKNOWLEDGED, the OPEN ones lose their condition and nothing else changes. -/
theorem removeCondition_open (m : FaultRecord → Bool) (s : State)
    (hnd : (s.faults.map fun r => r.number).Nodup)
    (h : ∀ r ∈ s.faults, m r = true → ¬(r.state = .acknowledged ∧ r.present = true)) :
    removeCondition m s = { s with faults := s.faults.map fun r => if m r = true ∧ r.state = .opened then { r with present := false } else r } := by
  let g : List Nat → FaultRecord → FaultRecord := fun ns r => if r.number ∈ ns ∧ m r = true ∧ r.state = .opened then { r with present := false } else r
  have key : ∀ ns : List Nat, ∀ t : State, (t.faults.map fun r => r.number).Nodup →
      (∀ r ∈ t.faults, m r = true → ¬(r.state = .acknowledged ∧ r.present = true)) →
      ns.foldl (removeOne m) t = { t with faults := t.faults.map (g ns) } := by
    intro ns
    induction ns with
    | nil => intro t _ _; simp [g]
    | cons n ns ih =>
      intro t hnd h
      have h1 : removeOne m t n = { t with faults := t.faults.map (g [n]) } := by
        unfold removeOne
        cases hf : t.faultOf n with
        | none =>
          have : ∀ r ∈ t.faults, r.number ≠ n := by simpa [State.faultOf] using hf
          have : t.faults.map (g [n]) = t.faults := by
            rw [List.map_congr_left (g := id)]; simp
            intro r hr; simp [g, this r hr]
          rw [this]
        | some r =>
          obtain ⟨hr, hrn⟩ := State.faultOf_some t hf
          have huniq : ∀ y ∈ t.faults, y.number = n → y = r := by
            intro y hy hyn
            exact List.inj_on_of_nodup_map hnd hy hr (by rw [hyn, hrn])
          have hid : ¬(m r = true ∧ r.state = .opened ∧ r.present = true) → t = { t with faults := t.faults.map (g [n]) } := by
            intro hno
            have : t.faults.map (g [n]) = t.faults := by
              rw [List.map_congr_left (g := id)]; simp
              intro y hy
              simp only [g, List.mem_singleton, id]
              split
              · next hc =>
                have := huniq y hy hc.1; subst this
                have hp : y.present = false := by
                  by_contra hp; exact hno ⟨hc.2.1, hc.2.2, by simpa using hp⟩
                cases y; simp at hp; simp [hp]
              · rfl
            rw [this]
          simp only
          by_cases hc : (m r && r.present) = true
          · rw [if_pos hc]
            simp at hc
            cases hst : r.state with
            | acknowledged => exact absurd ⟨hst, hc.2⟩ (h r hr hc.1)
            | cleared => exact hid (by simp [hst])
            | closed => exact hid (by simp [hst])
            | opened =>
              simp only [modFault]
              congr 1
              apply List.map_congr_left
              intro y hy
              simp only [g, List.mem_singleton, beq_iff_eq]
              by_cases hyn : y.number = n
              · have := huniq y hy hyn; subst this; simp [hyn, hc.1, hst]
              · simp [hyn]
          · rw [if_neg hc]
            exact hid (by simp at hc; intro hx; have := hc hx.1; simp [this] at hx)
      rw [List.foldl_cons, h1, ih]
      · simp only [List.map_map]
        congr 1
        apply List.map_congr_left
        intro r _
        show g ns (g [n] r) = g (n :: ns) r
        by_cases hc : m r = true ∧ r.state = .opened
        · by_cases ha : r.number = n
          · have e1 : g [n] r = { r with present := false } := if_pos ⟨by simp [ha], hc⟩
            have e2 : g (n :: ns) r = { r with present := false } := if_pos ⟨by simp [ha], hc⟩
            rw [e1, e2]; show (if _ then _ else _) = _; split <;> rfl
          · have e1 : g [n] r = r := if_neg (by simp [ha])
            rw [e1]; simp [g, ha]
        · have hno : ∀ l, g l r = r := fun l => if_neg fun x => hc x.2
          rw [hno, hno, hno]
      · simp only [List.map_map]
        rw [List.map_congr_left (g := fun r => r.number)]
        · exact hnd
        · intro r _; simp only [Function.comp, g]; split <;> rfl
      · intro r hr
        simp only [List.mem_map] at hr
        obtain ⟨y, hy, rfl⟩ := hr
        simp only [g]
        split
        · simp
        · exact h y hy
  unfold removeCondition
  rw [key _ s hnd h]
  congr 1
  apply List.map_congr_left
  intro r hr
  simp only [g]
  by_cases hm' : m r = true
  · have : r.number ∈ ((s.faults.filter m).map fun r => r.number) := List.mem_map_of_mem (List.mem_filter.mpr ⟨hr, hm'⟩)
    simp [this, hm']
  · simp [hm']

theorem stopRecord_map (f : FaultRecord → FaultRecord)
    (hf : ∀ r, (f r).severity = r.severity ∧ (f r).printer = r.printer ∧ (f r).state = r.state) (q) (s : State) :
    State.stopRecord { s with faults := s.faults.map f } q = (s.stopRecord q).map f := by
  unfold State.stopRecord
  rw [List.find?_map]
  congr 2
  funext r
  simp only [Function.comp, (hf r).1, (hf r).2.1, (hf r).2.2]

/-! ### Space (R44, R45, R114) -/

theorem testFull_none (t : State) (h : NoFullRecord t) : testFull t = t := by
  unfold testFull
  split
  · split
    · next r hr =>
      rw [if_neg]
      have := h r (List.mem_of_find?_eq_some hr) (List.find?_some hr)
      simpa using this
    · rfl
  · rfl

/-- No printer waits: nothing is handed out. -/
theorem handout_none (t : State) (hw : ∀ q, (t.printer q).waiting = false) (h : NoFullRecord t) : handout t = t := by
  unfold handout
  have : allPrinters.foldl giveOne (t, []) = (t, []) := by apply fold_same; intro q _; simp [giveOne, hw]
  rw [this]; simp only [List.foldl_nil]; exact testFull_none t h

/-! ### The end of an exchange and of a sense (R27, R31) -/

/-- A good response that brings no answering event. -/
theorem goodResponse_eq (l : Line) (s : State) (q : PrinterId)
    (h : (s.printer q).misses ≠ 3 ∧ (s.printer q).state ≠ .probe ∨ s.stopRecord q = none) :
    goodResponse l q s = (exchangeOver l s).setPrinter q { s.printer q with misses := 0 } := by
  have e : (endExchange l s).modPrinter q (fun x => { x with misses := 0 }) = (exchangeOver l s).setPrinter q { s.printer q with misses := 0 } := by
    cases l <;> rfl
  simp only [goodResponse, e]
  rcases h with h | h
  · rw [if_neg (by simp [h])]
  · split
    · unfold answeringEvent
      apply removeCondition_none
      intro r hr hm
      have hr : r ∈ s.faults := by cases l <;> exact hr
      simp [stopMatches] at hm
      have := List.find?_eq_none.mp h r hr
      simp [hm.1] at this
      left; exact this
    · rfl

theorem endSense_eq (q) (s : State) (hw : (s.printer q).waiting = false) :
    endSense q s = s.setPrinter q { s.printer q with sense := .none, senseTimer := false, command := .none, declined := 0 } := by
  unfold endSense clearWaiting State.modPrinter; simp [hw]

/-- A LOADED or LOADING pack that a printer's lookup finds. -/
theorem loading_pack {s : State} {q i} {k : Pack} (h : s.loadingAt q = some i) (hk : s.pack i = some k) : k.state =
    .loading ∧ k.printer = some q := by
  have := List.find?_some h
  simpa [hk] using this

theorem loaded_pack {s : State} {q i} {k : Pack} (h : s.loadedAt q = some i) (hk : s.pack i = some k) : k.state =
    .loaded ∧ k.printer = some q := by
  have := List.find?_some h
  simpa [hk] using this

theorem loadEnded_idle (q) (t : State)
    (h : (t.printer q).state ≠ .faulted ∨ (t.printer q).sense ≠ .none ∨ ∀ r, t.stopRecord q = some r → r.state ≠ .cleared)
    : loadEnded q t = t := by
  unfold loadEnded
  cases hs : t.stopRecord q with
  | none => rfl
  | some r =>
    simp only
    split
    · next hc =>
      unfold tellCleared
      rw [if_neg]
      rintro ⟨a, b⟩
      rcases h with h | h | h
      · exact h a
      · exact h b
      · exact h r hs hc
    · rfl

/-! ### Start checks, STOP faults and returns to service (R36, R37, R42, R69) -/

/-- The printer after step 2 of R37. -/
abbrev Printer.stopped (c : Printer) : Printer :=
  { c with
    couponTimer := false, senseTimer := false, command := .none, unconfirmed := false, outstanding := none,
    declined := 0 }

/-- The printer back in service, its allowance given back (R36, R39). -/
abbrev Printer.returned (c : Printer) (resync : Bool) : Printer :=
  { c with
    allowance := none, state := if resync = true ∧ c.outOfService = true then .outOfService else .ready }

/-- A printer that is not READY, or has no job waiting, has nothing to start. -/
theorem startCheck_idle (q) (t : State) (h : (t.printer q).state ≠ .ready ∨ (t.printer q).queue = []) : startCheck q t
    = t := by
  unfold startCheck
  rw [startCheckFuel]
  unfold startOnce
  rcases h with h | h
  · simp [h]
  · simp [h]

/-- A STOP fault on a printer with no job, no sense and an empty queue. -/
theorem stopFault_idle (w : State) (q : PrinterId) (c : Printer) (kind : FaultKind) (detail : Option Nat)
    (hc : w.printer q = c)
   (hs : c.state = .faulted ∨ c.state = .probe) (hj : c.job = none) (hqu : c.queue = []) (hse : c.sense = .none)
    (hw : c.waiting = false) (hst : c.senseTimer = false) (hcm : c.command = .none) (hde : c.declined = 0) :
   stopFault q kind detail w = (raise kind (some q) detail w).setPrinter q { c with state := .faulted, couponTimer := false, unconfirmed := false, outstanding := none } := by
  unfold stopFault stopFaultWith
  have hna : (w.printer q).state ≠ .absent := by rw [hc]; rcases hs with h | h <;> simp [h]
  simp only [hna, if_false]
  generalize hr : raise kind (some q) detail w = r
  have hrq : r.printer q = c := by rw [← hr, raise_printer, hc]
  have h2 : quiet q r = r.setPrinter q { c with couponTimer := false, unconfirmed := false, outstanding := none } := by
    unfold quiet clearWaiting
    simp [State.modPrinter, hrq, hw]
    congr 1
    cases c; simp at hst hcm hde; simp [hst, hcm, hde]
  rw [h2]
  have h3 : endSenseByFault q kind (r.setPrinter q { c with couponTimer := false, unconfirmed := false, outstanding := none }) = r.setPrinter q { c with couponTimer := false, unconfirmed := false, outstanding := none } := by
    unfold endSenseByFault
    simp [State.modPrinter, hse, setPrinter_setPrinter]
  rw [h3]
  rcases hs with h | h
  · rw [if_pos (by rw [hc]; exact h)]
    congr 1; cases c; simp at h; simp [h]
  · rw [if_neg (by rw [hc, h]; simp)]
    unfold abandonJob
    simp [State.modPrinter, hj, divert, hqu, setPrinter_setPrinter]

theorem jobClosing_false (t : State) (x : Job)
    (h : ∀ m y, t.session m = some y → x.session = some y.number → y.state ≠ .closing) : t.jobClosing x = false := by
  unfold State.jobClosing
  cases hxs : x.session with
  | none => rfl
  | some n =>
    simp only [Option.bind_some]
    cases hso : t.sessionOf n with
    | none => rfl
    | some m =>
      simp only [Option.bind_some]
      cases hsy : t.session m with
      | none => rfl
      | some y =>
        have hn : y.number = n := by
          have := List.find?_some hso
          simp only [hsy] at this
          simpa using this
        have := h m y hsy (by rw [hxs, hn])
        simp [this]

/-- The job's counts at the start of another attempt (R68). -/
abbrev Job.again (x : Job) : Job :=
  { x with restarts := x.restarts + 1, nextCoupon := 1, good := [], bad := 0, skip := 0 }

/-- The job back in the queue of its printer (R69). -/
abbrev Job.requeued (x : Job) (q : PrinterId) : Job :=
  { x with
    restarts := x.restarts + 1, nextCoupon := 1, good := [], bad := 0, skip := 0, state := .queued, printer := q }

/-- The abandonment of a job with nothing printed, which goes back to an empty queue. -/
theorem abandonJob_requeues (r : State) (q : PrinterId) (c : Printer) (j : JobNo) (x : Job) (fault : Nat)
    (hc : r.printer q = c) (hj : c.job = some j) (hx : r.job j = some x)
   (hqu : c.queue = []) (hurg : x.urgent = false) (hrs : x.restarts < 3)
   (hpk : ∀ i k, r.loadedAt q = some i → r.pack i = some k → k.inPrint = [])
   (hcl : ∀ m y, r.session m = some y → x.session = some y.number → y.state ≠ .closing) :
   (abandonJob q fault r).2 = some j ∧
   (abandonJob q fault r).1 =
    { r with printers := put r.printers q { c with job := none, queue := [j] }, jobs := put r.jobs j (some (x.requeued q)) }
    := by
  have hid : put r.printers q c = r.printers := by
    rw [← hc]; apply Vector.ext; intro m hm; simp [put, State.printer, look, Vector.getElem_set]; intro h; subst h; rfl
  generalize hr1 : r.modPrinter q (fun c => { c with job := none }) = r1
  have e1 : r1 = { r with printers := put r.printers q { c with job := none } } := by rw [← hr1]; unfold State.modPrinter; rw [hc]; rfl
  have hab : abandonAttempt q j fault r1 = { r1 with jobs := put r.jobs j (some x.again) } := by
    unfold abandonAttempt
    have hx1 : r1.job j = some x := by rw [e1]; exact hx
    have hmid : (match r1.loadedAt q with
      | some i => match r1.pack i with
        | some k => movePack i abandonTicket (spoilRuns q ((r1.job j).bind fun x => x.session) (some fault) (runsOf (ascending k.inPrint)) r1)
        | none => r1
      | none => r1) = r1 := by
      cases hl : r1.loadedAt q with
      | none => rfl
      | some i =>
        simp only
        cases hp : r1.pack i with
        | none => rfl
        | some k =>
          have hin : k.inPrint = [] := hpk i k (by rw [← hl, e1]; rfl) (by rw [← hp, e1]; rfl)
          simp only [hin, ascending, runsOf, spoilRuns, List.foldl_nil]
          unfold movePack
          simp only [hp]
          have hab : abandonTicket k = k := by
            unfold abandonTicket; split
            · cases k; simp at hin; simp [hin]
            · rfl
          have hset : r1.setPack i (some k) = r1 := by
            unfold State.setPack
            have : put r1.packs i (some k) = r1.packs := by
              rw [← hp]; apply Vector.ext; intro m hm; simp [put, State.pack, look, Vector.getElem_set]; intro h; subst h; rfl
            rw [this]
          rw [hab, hset]
          split
          · unfold stockLowAfter
            split
            · rw [if_neg]
              simp only [Bool.and_eq_true]
              rintro ⟨⟨_, a⟩, b⟩
              have := of_decide_eq_true a; have := of_decide_eq_true b; omega
            · rfl
          · rfl
    refine (congrArg (fun t : State => t.modJob j Job.again) hmid).trans ?_
    unfold State.modJob
    rw [hx1]; rw [e1]; rfl
  have e2 : abandonJob q fault r = settleAbandoned q j fault (abandonAttempt q j fault r1) := by
    unfold abandonJob
    rw [hc]; simp only [hj]; rw [← hr1]
  rw [e2, hab]
  unfold settleAbandoned
  have hjob : State.job { r1 with jobs := put r.jobs j (some x.again) } j = some x.again := by
    simp [State.job]
  simp only [hjob]
  have hcl' : State.jobClosing { r1 with jobs := put r.jobs j (some x.again) } x.again = false := by
    apply jobClosing_false; intro m y h; exact hcl m y (by rw [← h, e1]; rfl)
  rw [hcl']
  simp only [Bool.false_eq_true, if_false]
  rw [if_neg (by omega)]
  refine ⟨rfl, ?_⟩
  rw [e1]
  simp only [State.modPrinter, State.modJob, hurg, hqu]
  simp [State.setPrinter, State.setJob, put_put, joinHead, State.urgentPart, State.ordinaryPart, State.job, State.printer]

/-- A job that was diverted before is held. -/
theorem divert_holds (start) (r : State) (q : PrinterId) (c : Printer) (j : JobNo) (x : Job) (hc : r.printer q = c)
    (hx : r.job j = some x) (hqu : c.queue = [j]) (hurg : x.urgent = false) (hdv : x.diverted = true)
    (hst : c.state = .faulted) :
   divert start q (some j) r = notify x.port (.jobHeld x.tag j q ((r.stopRecord q).map fun r => r.number)) r := by
  unfold divert
  rw [hc, hqu]
  simp only [List.foldl_cons, List.foldl_nil, divertOne, hx, hurg, hdv, if_true, heldJob, hc, hst, Bool.false_eq_true, if_false]
  rw [List.filter_eq_nil_iff.mpr (by simp)]
  rfl

/-- The one job that waits moves to the tail of a PRINTING printer's queue. -/
theorem divert_moves (v : State) (q r : PrinterId) (j : JobNo) (x : Job) (w : Window) (hq : (v.printer q).queue = [j])
    (hx : v.job j = some x) (hu : x.urgent = false) (hd : x.diverted = false) (hw : x.window = some w) (hqr : q ≠ r)
    (hp : (v.pair w).primary = q ∧ (v.pair w).alternate = some r ∨ (v.pair w).primary = r)
    (hs : (v.printer r).state = .printing)
    (hl : (v.printer r).queue.length + (if (v.printer r).job.isSome = true then 1 else 0) < 16) :
    ∀ U, U = notify x.port (.jobDiverted x.tag j q r) { v with
      jobs := put v.jobs j (some { x with printer := r, diverted := true }),
      printers := put (put v.printers q { v.printer q with queue := [] }) r
        { v.printer r with queue := (v.printer r).queue ++ [j] } } → divert startCheck q none v = U := by
  intro U hU
  have ht : v.diversionTarget q x = some r := by
    unfold State.diversionTarget; rw [hw]
    rcases hp with ⟨h1, h2⟩ | h1
    · simp [h1, h2]
    · simp [h1, Ne.symm hqr]
  have hc : v.canHold r = true := by
    unfold State.canHold Printer.inService Printer.hasRoom Printer.load; simp [hs, Config.printerLoad]; exact decide_eq_true hl
  unfold divert
  rw [hq]
  simp only [List.foldl_cons, List.foldl_nil, divertOne, hx, hu, hd, ht, hc, if_true, Bool.false_eq_true, if_false]
  have hf : (allPrinters.filter fun y => [r].contains y) = [r] := by clear * - r; revert r; decide
  rw [hf]
  simp only [List.foldl_cons, List.foldl_nil]
  have e : moveJob q r j x (none == some j) v = notify x.port (.jobDiverted x.tag j q r) { v with
      jobs := put v.jobs j (some { x with printer := r, diverted := true }),
      printers := put (put v.printers q { v.printer q with queue := [] }) r
        { v.printer r with queue := (v.printer r).queue ++ [j] } } := by
    unfold moveJob
    simp only [State.modPrinter, State.modJob, joinTail, hu, hq]
    have e1 : ((v.setPrinter q { v.printer q with queue := [j].filter fun y => y != j }).printer r) = v.printer r := by
      rw [State.printer_setPrinter]; simp [hqr]
    simp only [e1]
    simp [State.setPrinter, State.setJob]
    simp [State.job] at hx ⊢
    simp [hx, hu]
  rw [e, ← hU]
  apply startCheck_idle
  left
  obtain ⟨v', hv'⟩ := notify_eq { v with
      jobs := put v.jobs j (some { x with printer := r, diverted := true }),
      printers := put (put v.printers q { v.printer q with queue := [] }) r
        { v.printer r with queue := (v.printer r).queue ++ [j] } } x.port (.jobDiverted x.tag j q r)
  rw [hU, hv']; simp [State.printer]; simp [State.printer] at hs; simp [hs]

/-- The one job that waits has no other printer that can take it, and is held. -/
theorem divert_keeps (v : State) (q : PrinterId) (j : JobNo) (x : Job) (w : Window) (hq : (v.printer q).queue = [j])
    (hx : v.job j = some x) (hu : x.urgent = false) (hd : x.diverted = false) (hw : x.window = some w)
    (hp : (v.pair w).primary = q ∧ (v.pair w).alternate = none
        ∨ ∃ r, q ≠ r ∧ ((v.pair w).primary = q ∧ (v.pair w).alternate = some r ∨ (v.pair w).primary = r)
          ∧ ((v.printer r).state ≠ .printing ∧ (v.printer r).state ≠ .ready
            ∨ 16 ≤ (v.printer r).queue.length + (if (v.printer r).job.isSome = true then 1 else 0))) :
    divert startCheck q none v = heldJob q j x v := by
  have : divertOne q none (v, []) j = (heldJob q j x v, []) := by
    simp only [divertOne, hx, hu, hd, Bool.false_eq_true, if_false]
    rcases hp with ⟨h1, h2⟩ | ⟨r, hqr, h1, h2⟩
    · simp [State.diversionTarget, hw, h1, h2]
    · have ht : v.diversionTarget q x = some r := by
        unfold State.diversionTarget; rw [hw]
        rcases h1 with ⟨h1, h2⟩ | h1
        · simp [h1, h2]
        · simp [h1, Ne.symm hqr]
      have hc : v.canHold r = false := by
        unfold State.canHold Printer.inService Printer.hasRoom Printer.load; simp [Config.printerLoad]
        intro ha; rcases h2 with ⟨h3, h4⟩ | h3
        · simp [h3, h4] at ha
        · exact decide_eq_false (by omega)
      simp [ht, hc]
  unfold divert
  rw [hq]
  simp only [List.foldl_cons, List.foldl_nil, this]
  simp

/-- A STOP fault on a printing printer whose job has printed nothing and was diverted before. -/
theorem stopFault_holds (s : State) (q : PrinterId) (kind : FaultKind) (detail) (hkind : severityOf kind = .stop)
    (c : Printer) (j : JobNo) (x : Job) (hc : s.printer q = c) (hj : c.job = some j) (hx : s.job j = some x)
   (hst : c.state = .printing) (hqu : c.queue = []) (hse : c.sense = .none) (hw : c.waiting = false)
    (hurg : x.urgent = false) (hdv : x.diverted = true) (hrs : x.restarts < 3)
   (hpk : ∀ i k, s.loadedAt q = some i → s.pack i = some k → k.inPrint = [])
   (hcl : ∀ m y, s.session m = some y → x.session = some y.number → y.state ≠ .closing)
   (hnd : (s.faults.map fun r => r.number).Nodup) (hlen : s.faults.length < 40) :
    ∃ v, stopFault q kind detail s = { raise kind (some q) detail s with
        ports := v, jobs := put s.jobs j (some (x.requeued q)),
        printers := put s.printers q { c.stopped with state := .faulted, job := none, queue := [j] } }
      ∧ Told [(x.port, .jobHeld x.tag j q (some (raiseNumber kind (some q) s)))] (raise kind (some q) detail s)
          (stopFault q kind detail s) := by
  have hsn := raise_stopRecord kind q detail s hkind hnd hlen
  obtain ⟨v0, f0, c0, o0, r0, n0, hr0⟩ := raise_eq kind (some q) detail s
  unfold stopFault stopFaultWith
  rw [hc, hst]
  simp only [reduceCtorEq, if_false]
  generalize hr : raise kind (some q) detail s = r at *
  have hrq : r.printer q = c := by rw [hr0]; exact hc
  have h2 : endSenseByFault q kind (quiet q r) = r.setPrinter q c.stopped := by
    have : quiet q r = r.setPrinter q c.stopped := by
      unfold quiet clearWaiting; simp [State.modPrinter, hrq, hw, Printer.stopped]
    rw [this]; unfold endSenseByFault
    simp [State.modPrinter, hse, setPrinter_setPrinter, Printer.stopped]
  rw [h2]
  simp only [State.modPrinter, State.printer_setPrinter_same, setPrinter_setPrinter]
  generalize hc1 : ({ c.stopped with state := .faulted } : Printer) = c1
  obtain ⟨ha1, ha2⟩ := abandonJob_requeues (r.setPrinter q c1) q c1 j x (raiseNumber kind (some q) s) (by simp) (by rw [← hc1]; exact hj) (by rw [hr0]; exact hx) (by rw [← hc1]; exact hqu) hurg hrs (by rw [hr0]; exact hpk) (by rw [hr0]; exact hcl)
  rw [ha1, ha2]
  rw [divert_holds _ _ q { c1 with job := none, queue := [j] } j (x.requeued q) (by simp [State.printer]) (by simp [State.job]) rfl hurg hdv (by rw [← hc1])]
  have hsn' : (State.stopRecord { r.setPrinter q c1 with printers := put (r.setPrinter q c1).printers q { c1 with job := none, queue := [j] }, jobs := put (r.setPrinter q c1).jobs j (some (x.requeued q)) } q).map (fun r => r.number) = some (raiseNumber kind (some q) s) := hsn
  rw [hsn']
  obtain ⟨v, hv⟩ := notify_eq { r.setPrinter q c1 with printers := put (r.setPrinter q c1).printers q { c1 with job := none, queue := [j] }, jobs := put (r.setPrinter q c1).jobs j (some (x.requeued q)) } x.port (.jobHeld x.tag j q (some (raiseNumber kind (some q) s)))
  refine ⟨v, ?_, ?_⟩
  · rw [hv, hr0, ← hc1]; simp [State.setPrinter, put_put]
  · intro y
    have hp : ∀ y, State.port { r.setPrinter q c1 with printers := put (r.setPrinter q c1).printers q { c1 with job := none, queue := [j] }, jobs := put (r.setPrinter q c1).jobs j (some (x.requeued q)) } y = r.port y := fun _ => rfl
    rw [notify_port, hp]; rfl

/-- A printer with an empty queue returns to service and gives back its allowance. -/
theorem senseReturns_eq (w : State) (q : PrinterId) (c : Printer) (resync : Bool) (d : Nat) (hc : w.printer q = c)
    (hd : c.allowance = some d)
    (hqu : c.queue = []) (hw : ∀ r, (w.printer r).waiting = false) (hf : NoFullRecord w) :
    let t := senseReturns q resync w
    t = { w with printers := put w.printers q (c.returned resync),
                 freeReported := if d < 10 then 256 - w.spoils.length - t.reserved else w.freeReported } := by
  intro t
  have e : t = if d < 10 then reportFree (w.setPrinter q (c.returned resync)) else w.setPrinter q (c.returned resync) := by
    show senseReturns q resync w = _
    unfold senseReturns
    simp only [State.modPrinter, hc]
    have hb : (if (resync && c.outOfService) = true then PrinterState.outOfService else .ready) = (if resync = true ∧ c.outOfService = true then PrinterState.outOfService else .ready) := by
      simp
    rw [hb]
    unfold Printer.returned
    generalize (if resync = true ∧ c.outOfService = true then PrinterState.outOfService else .ready) = st
    have hrel : releaseAllowance q (w.setPrinter q { c with state := st }) = if d < 10 then reportFree (w.setPrinter q { c with allowance := none, state := st }) else w.setPrinter q { c with allowance := none, state := st } := by
      unfold releaseAllowance
      simp only [State.printer_setPrinter_same, hd, State.modPrinter, setPrinter_setPrinter]
      show (if d < 10 then _ else _) = _
      split
      · unfold spaceFreed; rw [handout_none]
        · intro r
          show ((w.setPrinter q _).printer r).waiting = false
          rw [State.printer_setPrinter]
          split
          · have := hw q; rw [hc] at this; exact this
          · exact hw r
        · exact hf
      · rfl
    rw [hrel, startCheck_idle]
    right
    split <;> simp [reportFree, State.printer, State.setPrinter, hqu]
  by_cases h : d < 10
  · rw [if_pos h] at e
    have : t.reserved = (w.setPrinter q (c.returned resync)).reserved := by rw [e]; rfl
    rw [this, if_pos h, e]; rfl
  · rw [if_neg h] at e
    rw [if_neg h, e]; rfl

/-- The blanks passed before a sensed serial are spoiled within the allowance. -/
theorem senseSkip_eq (w : State) (q : PrinterId) (i) (k : Pack) (c : Printer) (d n : Nat) (fault : Option Nat)
    (hc : w.printer q = c) (hk : w.pack i = some k)
    (hks : k.state = .loaded) (hkp : k.printer = some q) (hd : c.allowance = some d) (hd10 : d < 10)
    (hj : c.job = none) (h1 : k.next < n) (h2 : n ≤ k.last)
    (hlow : w.params.stockLow = 0 ∨ k.last + 1 - k.next ≤ w.params.stockLow ∨ w.params.stockLow < k.last + 1 - n)
    (hf : NoFullRecord w) :
    ∃ fr, fr = 256 - (w.spoils.length + 1) - (w.setPrinter q { c with allowance := some (d + 1) }).reserved
      ∧ senseSkip q i k n fault w = { raise .serialSkip (some q) (some (n - k.next)) { w with
                  packs := put w.packs i (some { k with next := n, spoiled := k.spoiled + (n - k.next) }),
                  spoils := w.spoils ++ [{ first := k.next, count := n - k.next, cause := .skipped, printer := some q,
                                           session := none, fault := fault, day := w.day, time := w.clock }],
                  faults := w.faults.map fun y =>
                    if fault = some y.number then
                      { y with blanks := min (y.blanks + (n - k.next)) 65535 }
                    else y,
                  running := { w.running with skipped := min (w.running.skipped + (n - k.next)) 999999999 },
                  night := w.night || w.mode == .night } with
               printers := put w.printers q { c with allowance := some (d + 1) }, freeReported := fr } := by
  have hskip : skipTo n k = { k with next := n, spoiled := k.spoiled + (n - k.next) } := by
    unfold skipTo; rw [if_pos]; simp [hks, h1]; omega
  have hmove : movePack i (skipTo n) w = w.setPack i (some { k with next := n, spoiled := k.spoiled + (n - k.next) }) := by
    unfold movePack; simp only [hk, hks, hskip, beq_self_eq_true, if_true]
    unfold stockLowAfter; simp only [hkp]
    rw [if_neg]
    simp only [Pack.remaining, State.setPack, Bool.and_eq_true]
    rintro ⟨⟨a1, a2⟩, a3⟩
    have b1 := of_decide_eq_true a1
    have b2 := of_decide_eq_true a2
    have b3 := of_decide_eq_true a3
    omega
  unfold senseSkip
  rw [hmove]
  generalize hk' : ({ k with next := n, spoiled := k.spoiled + (n - k.next) } : Pack) = k'
  dsimp only
  have hlist : ∀ e, ∃ fr, fr = 256 - (w.spoils.length + 1) - (w.setPrinter q { c with allowance := some (d + 1) }).reserved ∧ listAt q e (w.setPack i (some k')) = { w with packs := put w.packs i (some k'), printers := put w.printers q { c with allowance := some (d + 1) }, spoils := w.spoils ++ [e], freeReported := fr } := by
    intro e
    have hp : State.printer (w.setPack i (some k')) q = c := hc
    unfold listAt
    simp only [hp, hd, State.modPrinter, Config.allowanceSize, hd10, if_true]
    rw [testFull_none]
    · exact ⟨_, by simp [State.unreserved, listSpoil, Config.spoilSize]; rfl, rfl⟩
    · exact hf
  obtain ⟨fr, hfr0, hfr⟩ := hlist (spoilEntry k.next (n - k.next) .skipped (some q) none fault (w.setPack i (some k')))
  refine ⟨fr, hfr0, ?_⟩
  unfold spoilAt
  rw [hfr]
  have hcount : ∀ t : State, countSpoil (spoilEntry k.next (n - k.next) .skipped (some q) none fault (w.setPack i (some k'))) t = { t with running := { t.running with skipped := min (t.running.skipped + (n - k.next)) 999999999 }, night := t.night || t.mode == .night, faults := t.faults.map fun y => if fault = some y.number then { y with blanks := min (y.blanks + (n - k.next)) 65535 } else y } := by
    intro t
    have hs : t.chargedSession (spoilEntry k.next (n - k.next) .skipped (some q) none fault (w.setPack i (some k'))) = none :=
      chargedSession_none _ _ rfl
    unfold countSpoil
    rw [hs]
    cases fault with
    | none => simp [spoilEntry, chargeSession, chargeFault, addDay, addSpoils, addTotal, satAdd, Config.maxTotal]
    | some f => 
      simp [spoilEntry, chargeSession, chargeFault, addDay, addSpoils, addTotal, satAdd, Config.maxTotal, modFault, sat16, Config.max16]
      intro y hy
      simp only [eq_comm]
  rw [hcount]
  dsimp only
  generalize hv : put w.printers q { c with allowance := some (d + 1) } = v
  have hjq : ∀ t : State, t.printers = w.printers → raiseJob (some q) { t with printers := v } = raiseJob (some q) t := by
    intro t ht
    simp only [raiseJob, Option.bind_some, State.jobInPrint]
    have h1 : (State.printer { t with printers := v } q).job = none := by rw [← hv]; simp [State.printer, hj]
    have h2 : (t.printer q).job = none := by rw [show t.printer q = w.printer q by unfold State.printer; rw [ht], hc]; exact hj
    rw [h1, h2]; rfl
  exact (raise_free .serialSkip (some q) (some (n - k.next)) { w with
                  packs := put w.packs i (some k'), printers := v,
                  spoils := w.spoils ++ [{ first := k.next, count := n - k.next, cause := .skipped, printer := some q,
                                           session := none, fault := fault, day := w.day, time := w.clock }],
                  faults := w.faults.map fun y =>
                    if fault = some y.number then
                      { y with blanks := min (y.blanks + (n - k.next)) 65535 }
                    else y,
                  running := { w.running with skipped := min (w.running.skipped + (n - k.next)) 999999999 },
                  night := w.night || w.mode == .night } fr).trans (congrArg (fun t : State => { t with freeReported := fr }) (raise_printers _ _ _ { w with
                  packs := put w.packs i (some k'), 
                  spoils := w.spoils ++ [{ first := k.next, count := n - k.next, cause := .skipped, printer := some q,
                                           session := none, fault := fault, day := w.day, time := w.clock }],
                  faults := w.faults.map fun y =>
                    if fault = some y.number then
                      { y with blanks := min (y.blanks + (n - k.next)) 65535 }
                    else y,
                  running := { w.running with skipped := min (w.running.skipped + (n - k.next)) 999999999 },
                  night := w.night || w.mode == .night } v (hjq _ rfl)))

/-! ### Entries and movements of one coupon (R5, R17, R91) -/

/-- An entry drawn from the printer's allowance. -/
theorem listAt_draws {w : State} {q : PrinterId} {d : Nat} (hd : (w.printer q).allowance = some d) (hd10 : d < 10)
    (hf : NoFullRecord w) (e : SpoilEntry) :
    ∃ fr, listAt q e w = { w with
        printers := put w.printers q { w.printer q with allowance := some (d + 1) }, spoils := w.spoils ++ [e],
        freeReported := fr }
      ∧ fr = 256 - (w.spoils.length + 1) - (w.setPrinter q { w.printer q with allowance := some (d + 1) }).reserved := by
  unfold listAt
  simp only [hd, Config.allowanceSize, hd10, if_true, State.modPrinter]
  rw [testFull_none]
  · exact ⟨_, rfl, by simp [State.unreserved, listSpoil, Config.spoilSize]; rfl⟩
  · exact hf

/-- The reserved count depends on the allowances alone. -/
theorem reserved_congr {a b : State} (h : ∀ p, (a.printer p).allowance = (b.printer p).allowance) : a.reserved = b.reserved := by
  unfold State.reserved; simp only [h]

/-- A movement that raises no STOCK_LOW. -/
theorem move_quiet {w : State} {i : PackIx} {k : Pack} (f : Pack → Pack) (hk : w.pack i = some k)
    (h : stockLowAfter k.remaining (f k) (w.setPack i (some (f k))) = w.setPack i (some (f k))) : movePack i f w = w.setPack i (some (f k)) := by
  unfold movePack; rw [hk]; simp only [h, ite_self]

/-- One blank taken that does not reach the stock-low threshold (R17). -/
theorem stock_quiet {w s : State} {k m : Pack} (hns : NoStockLow k s) (hl : k.next ≤ k.last) (hm : m.next = k.next + 1)
    (hml : m.last = k.last) (hw : w.params = s.params) : stockLowAfter k.remaining m w = w := by
  unfold stockLowAfter
  split
  · rw [if_neg]
    rw [hw]
    unfold NoStockLow at hns
    simp only [Bool.and_eq_true, decide_eq_true_eq, Pack.remaining, hm, hml]
    rintro ⟨⟨a, b⟩, c⟩
    have b := of_decide_eq_true b
    omega
  · rfl

/-! ### Fault numbers (R102) -/

theorem advanceNumber_advances (used : List Nat) (fuel : Nat) (v : Nat) (h1 : 1 ≤ v) (h2 : v ≤ 65535) :
    AdvancesPast used v (advanceNumber (fuel + 1) used v) ∨ ∀ a, a ≤ fuel → (v + a) % 65535 + 1 ∈ used := by
  have hw : ∀ v, 1 ≤ v → v ≤ 65535 → (if Config.max16 ≤ v then 1 else v + 1) = (v + 0) % 65535 + 1 := by
    intro v h1 h2
    show (if 65535 ≤ v then 1 else v + 1) = _
    by_cases h : 65535 ≤ v
    · rw [if_pos h]; omega
    · rw [if_neg h]; omega
  induction fuel generalizing v with
  | zero =>
    unfold advanceNumber
    simp only [hw v h1 h2, List.contains_eq_mem, decide_eq_true_eq]
    split
    · next h => exact .inr fun a ha => by rw [Nat.le_zero.mp ha]; exact h
    · next h => exact .inl ⟨0, rfl, h, fun a ha => absurd ha (Nat.not_lt_zero a)⟩
  | succ fuel ih =>
    rw [advanceNumber]
    simp only [hw v h1 h2, List.contains_eq_mem, decide_eq_true_eq]
    split
    · next h =>
      have e : ∀ a, ((v + 0) % 65535 + 1 + a) % 65535 + 1 = (v + (a + 1)) % 65535 + 1 := by intro a; omega
      rcases ih ((v + 0) % 65535 + 1) (by omega) (by omega) with ⟨m, hm, hn, hs⟩ | hall
      · refine .inl ⟨m + 1, by rw [hm, e], hn, fun a ha => ?_⟩
        cases a with
        | zero => exact h
        | succ a => rw [← e]; exact hs a (by omega)
      · refine .inr fun a ha => ?_
        cases a with
        | zero => exact h
        | succ a => rw [← e]; exact hall a (by omega)
    · next h => exact .inl ⟨0, rfl, h, fun a ha => absurd ha (Nat.not_lt_zero a)⟩

/-- The counter advances past the numbers in use, of which there are fewer than there are numbers. -/
theorem nextFaultNumber_advances (rs : List FaultRecord) (v : Nat) (h1 : 1 ≤ v) (h2 : v ≤ 65535)
    (hl : rs.length < 65535) : AdvancesPast (rs.map fun r => r.number) v (nextFaultNumber rs v) := by
  rcases advanceNumber_advances (rs.map fun r => r.number) rs.length v h1 h2 with h | h
  · exact h
  · exfalso
    have hnd : ((List.range (rs.length + 1)).map fun a => (v + a) % 65535 + 1).Nodup := by
      refine List.Nodup.map_on (fun a ha b hb hab => ?_) List.nodup_range
      simp only [List.mem_range] at ha hb
      omega
    have hsub : ((List.range (rs.length + 1)).map fun a => (v + a) % 65535 + 1) ⊆ rs.map fun r => r.number := by
      intro x hx
      obtain ⟨a, ha, rfl⟩ := List.mem_map.mp hx
      exact h a (by have := List.mem_range.mp ha; omega)
    have := (hnd.subperm hsub).length_le
    simp at this

/-! ### A record that becomes CLEARED (R38, R109) -/

theorem reportWait_same {t : State} {f : FaultRecord} (h : t.faults.find? isOpenFull = some f) (hs : f.state = .acknowledged) :
    reportWait t = t := by
  unfold reportWait; rw [h]; simp [hs]

/-- What the printer of a CLEARED record does. -/
theorem tellCleared_leaves (r : FaultRecord) (s u : State) (n : Nat) (printers) (free)
    (hu : ∃ v, u = { s with ports := v, faults := s.faults.map fun x => if x.number = n then { x with state := .cleared, present := false } else x })
    (hn : r.number = n) (h : ClearedLeaves r s printers free) (hop : ∀ f ∈ s.faults, f.number = n → f.state = .opened) :
    (if r.severity = .stop then (match r.printer with | some p => tellCleared p u | none => u) else u)
      = { u with printers := printers, freeReported := free } := by
  have hup : ∀ q, u.printer q = s.printer q := by obtain ⟨v, rfl⟩ := hu; intro q; rfl
  rcases h with ⟨h1, rfl, rfl⟩ | ⟨q, c, hsv, hpr, hst, hse, rfl, hrest⟩
  · have e : u = { u with printers := s.printers, freeReported := s.freeReported } := by obtain ⟨v, rfl⟩ := hu; rfl
    rw [← e]
    split
    · next hs =>
      split
      · next p hp =>
        unfold tellCleared
        rw [hup, if_neg]
        rintro ⟨a, b⟩
        rcases h1 p hs hp with h | h
        · exact h a
        · exact h b
      · rfl
    · rfl
  · rw [if_pos hsv, hpr]
    simp only
    unfold tellCleared
    rw [hup, if_pos ⟨hst, hse⟩]
    unfold resyncDue
    have hla : u.loadedAt q = s.loadedAt q := by obtain ⟨v, rfl⟩ := hu; rfl
    have hun : u.unreserved = s.unreserved := by obtain ⟨v, rfl⟩ := hu; rfl
    have hfr : u.freeReported = s.freeReported := by obtain ⟨v, rfl⟩ := hu; rfl
    have hps : u.printers = s.printers := by obtain ⟨v, rfl⟩ := hu; rfl
    have hfa : u.faults = s.faults.map fun x => if x.number = n then { x with state := .cleared, present := false } else x := by obtain ⟨v, rfl⟩ := hu; rfl
    have hset : ∀ c, u.setPrinter q c = { u with printers := put s.printers q c, freeReported := s.freeReported } := by
      intro c; unfold State.setPrinter; rw [hps, ← hfr]
    rw [hla, hup]
    rcases hrest with ⟨hl, rfl, hc⟩ | ⟨hl, rfl, hc⟩
    · obtain ⟨i, hi⟩ := Option.isSome_iff_exists.mp hl
      rw [hi]
      simp only
      rcases hc with ⟨ha, rfl⟩ | ⟨ha, hfree, rfl⟩ | ⟨ha, hfree, ⟨f, hf, hfs, hfn⟩, rfl⟩
      · rw [if_pos ha]; simp only [State.modPrinter, hup]; exact hset _
      · have h2 : u.spaceForAllowance = true := by unfold State.spaceForAllowance; rw [hun]; exact decide_eq_true hfree
        rw [if_neg (by simp [ha]), if_pos h2]
        simp only [takeAllowance, State.modPrinter, State.printer_setPrinter_same, setPrinter_setPrinter, hup]; exact hset _
      · have h2 : u.spaceForAllowance = false := by unfold State.spaceForAllowance; rw [hun]; exact decide_eq_false (by simp only [Config.allowanceSize]; omega)
        rw [if_neg (by simp [ha]), h2]
        simp only [beginWait, State.modPrinter, State.printer_setPrinter_same, setPrinter_setPrinter, hup, Bool.false_eq_true, if_false]
        split
        · next hwt => rw [← hwt]; exact hset _
        · rw [reportWait_same (f := f) _ hfs]
          · exact hset _
          · show u.faults.find? isOpenFull = some f
            rw [hfa, List.find?_map, find_congr s.faults _ isOpenFull, hf]
            · simp [hfn, ← hn]
            · intro z hz
              simp only [Function.comp]
              split
              · next hzn => simp [isOpenFull, hop z hz hzn]; rfl
              · rfl
    · rw [hl]
      simp only [releaseAllowance, State.modPrinter, State.printer_setPrinter_same, setPrinter_setPrinter, hup]
      rcases hc with ⟨ha, rfl⟩ | ⟨⟨d, ha, hd⟩, hw, hnf, rfl⟩
      · rcases ha with ha | ha
        · rw [ha]; simp only
          rw [hset, ← ha]
        · rw [ha]; simp only [Config.allowanceSize, Nat.lt_irrefl, if_false]
          exact hset _
      · rw [ha]; simp only [Config.allowanceSize, hd, if_true, spaceFreed]
        rw [handout_none]
        · unfold reportFree; rw [hset]
          simp only [State.mk.injEq, true_and, and_true]
          simp only [State.unreserved, Config.spoilSize]
          obtain ⟨v, rfl⟩ := hu; rfl
        · intro p
          have hpp : ∀ t p, (reportFree t).printer p = t.printer p := fun _ _ => rfl
          rw [hpp, State.printer_setPrinter]; split
          · exact hw q
          · rw [hup]; exact hw p
        · intro f hf hof
          have hf : f ∈ u.faults := hf
          rw [hfa] at hf
          obtain ⟨g, hg, rfl⟩ := List.mem_map.mp hf
          split
          · simp
          · next hne => rw [if_neg hne] at hof; exact hnf g hg hof

/-! ### SET PARAMETER (R195) -/

theorem tenderCode (n : Nat) (t : Tender) : (n, t) ∈ tenderCodes ↔ toTender n = some t := by
  constructor
  · intro h; simp [tenderCodes] at h; rcases h with ⟨rfl, rfl⟩ | ⟨rfl, rfl⟩ | ⟨rfl, rfl⟩ | ⟨rfl, rfl⟩ <;> rfl
  · intro h
    match n, h with
    | 0, h => cases h; simp [tenderCodes]
    | 1, h => cases h; simp [tenderCodes]
    | 2, h => cases h; simp [tenderCodes]
    | 3, h => cases h; simp [tenderCodes]
    | n + 4, h => simp [toTender] at h

theorem rateCode (n : Nat) (t : LinkRate) : (n, t) ∈ rateCodes ↔ toLinkRate n = some t := by
  constructor
  · intro h; simp [rateCodes] at h; rcases h with ⟨rfl, rfl⟩ | ⟨rfl, rfl⟩ | ⟨rfl, rfl⟩ | ⟨rfl, rfl⟩ <;> rfl
  · intro h
    match n, h with
    | 0, h => cases h; simp [rateCodes]
    | 1, h => cases h; simp [rateCodes]
    | 2, h => cases h; simp [rateCodes]
    | 3, h => cases h; simp [rateCodes]
    | n + 4, h => simp [toLinkRate] at h

/-- Each rate has one number. -/
theorem rateCode_unique (t : LinkRate) : (linkRateCode t, t) ∈ rateCodes ∧ ∀ m, (m, t) ∈ rateCodes → m = linkRateCode t := by
  cases t <;> simp [rateCodes, linkRateCode]

/-- The words of the statements and the model's own: the change is in range, and this is what it makes. -/
theorem changeMade_iff (q : Params) (c : ParamChange) (new : Params) (old : ParamChange) :
    ChangeMade q c new old ↔ changeOk c = true ∧ new = changed q c ∧ old = replacedBy q c := by
  cases c with
  | linkRate n =>
    simp only [ChangeMade, changeOk, changed, replacedBy]
    constructor
    · rintro ⟨a, m, h1, h2, rfl, rfl⟩
      have h1 := (rateCode _ _).mp h1
      exact ⟨by simp [h1], by simp [h1], by rw [(rateCode_unique _).2 _ h2]⟩
    · rintro ⟨h, rfl, rfl⟩
      obtain ⟨a, ha⟩ := Option.isSome_iff_exists.mp h
      exact ⟨a, _, (rateCode _ _).mpr ha, (rateCode_unique _).1, by simp [ha], rfl⟩
  | quota n r x =>
    simp only [ChangeMade, changeOk, changed, replacedBy, quotaOk, Bool.and_eq_true]
    constructor
    · rintro ⟨w, rfl, h1, h2, h3, rfl, rfl⟩
      have : toWindow w.val = some w := by simp [toWindow]
      simp [this, h1, h2, h3]
    · rintro ⟨⟨hw, ⟨h1, h2⟩, h3⟩, rfl, rfl⟩
      obtain ⟨w, hw⟩ := Option.isSome_iff_exists.mp hw
      have : n = w.val := by
        unfold toWindow at hw; split at hw
        · cases hw; rfl
        · cases hw
      simp only [hw]
      exact ⟨w, this, of_decide_eq_true h1, of_decide_eq_true h2, of_decide_eq_true h3, rfl, rfl⟩
  | floor n v =>
    simp only [ChangeMade, changeOk, changed, replacedBy, floorOk, Bool.and_eq_true, tenderCode, floorsWith, tenderFigure]
    constructor
    · rintro ⟨t, h1, h2, rfl, rfl⟩; simp [h1, h2]
    · rintro ⟨⟨h1, h2⟩, rfl, rfl⟩
      obtain ⟨t, ht⟩ := Option.isSome_iff_exists.mp h1
      exact ⟨t, ht, of_decide_eq_true h2, by simp [ht], by simp [ht]⟩
  | rate n v =>
    simp only [ChangeMade, changeOk, changed, replacedBy, rateOk, Bool.and_eq_true, tenderCode, floorsWith, tenderFigure]
    constructor
    · rintro ⟨t, h1, h2, rfl, rfl⟩; simp [h1, h2]
    · rintro ⟨⟨h1, h2⟩, rfl, rfl⟩
      obtain ⟨t, ht⟩ := Option.isSome_iff_exists.mp h1
      exact ⟨t, ht, of_decide_eq_true h2, by simp [ht], by simp [ht]⟩
  | stockHandling n =>
    simp only [ChangeMade, changeOk, changed, replacedBy]
    match n with
    | 0 => simp [toFlag]; cases q.stockHandling <;> simp
    | 1 => simp [toFlag]; cases q.stockHandling <;> simp
    | n + 2 => simp [toFlag]
  | other _ _ => simp [ChangeMade, changeOk]
  | authTime v => simp [ChangeMade, changeOk, changed, replacedBy, authTimeOk, and_assoc]
  | printersPresent v => simp [ChangeMade, changeOk, changed, replacedBy]
  | windowsPresent v => simp [ChangeMade, changeOk, changed, replacedBy]
  | refundLimit v => simp [ChangeMade, changeOk, changed, replacedBy, refundLimitOk]
  | voidWindow v => simp [ChangeMade, changeOk, changed, replacedBy, voidWindowOk]
  | stockLow v => simp [ChangeMade, changeOk, changed, replacedBy, stockLowOk]

end Sys2Proof.Machine
end

