-- ==== Sys2Proof/Laws/Encoding.lean ====
section
/-! SUPPORT. Each field of a request body is read back as it was written. -/

namespace Sys2Proof

set_option Elab.async false

theorem fits1_iff {n : Nat} : fits1 n = true ↔ n < 256 := by simp [fits1]
theorem fits2_iff {n : Nat} : fits2 n = true ↔ n < 65536 := by simp [fits2]
theorem fits4_iff {n : Nat} : fits4 n = true ↔ n < 4294967296 := by simp [fits4]

theorem take1_be1 {n : Nat} (h : fits1 n = true) (r : List Byte) : take1 (be1 n ++ r) = some (n, r) := by
  rw [fits1_iff] at h
  simp [take1, be1]; omega

theorem take2_be2 {n : Nat} (h : fits2 n = true) (r : List Byte) : take2 (be2 n ++ r) = some (n, r) := by
  rw [fits2_iff] at h
  simp [take2, be2]; omega

theorem take4_be4 {n : Nat} (h : fits4 n = true) (r : List Byte) : take4 (be4 n ++ r) = some (n, r) := by
  rw [fits4_iff] at h
  simp [take4, be4]; omega

theorem takeForm_encForm {p : Port} {w : Option Nat} (h : formOf p w = true) (r : List Byte) :
    takeForm p (encForm w ++ r) = some (w, r) := by
  cases p with
  | win v => cases w with
    | none => rfl
    | some n => cases h
  | sup => cases w with
    | none => cases h
    | some n => simp only [formOf] at h; simp [takeForm, encForm, take1_be1 h]

theorem takeOpt_encOpt1 {o : Option Nat} (h : optFits fits1 o = true) (r : List Byte) :
    takeOpt take1 (encOpt be1 o ++ r) = some (o, r) := by
  cases o with
  | none => rfl
  | some n =>
    simp only [optFits] at h
    have e : take1 (be1 1 ++ (be1 n ++ r)) = some (1, be1 n ++ r) := take1_be1 (by decide) _
    simp only [takeOpt, encOpt, List.append_assoc, e, take1_be1 h, Option.map_some]

theorem takeOpt_encOpt2 {o : Option Nat} (h : optFits fits2 o = true) (r : List Byte) :
    takeOpt take2 (encOpt be2 o ++ r) = some (o, r) := by
  cases o with
  | none => rfl
  | some n =>
    simp only [optFits] at h
    have e : take1 (be1 1 ++ (be2 n ++ r)) = some (1, be2 n ++ r) := take1_be1 (by decide) _
    simp only [takeOpt, encOpt, List.append_assoc, e, take2_be2 h, Option.map_some]

theorem takeTexts_encTexts {ts : List (List Byte)} (h : ts.all (fun t => fits1 t.length) = true) (r : List Byte) :
    takeTexts ts.length (encTexts ts ++ r) = some (ts, r) := by
  induction ts with
  | nil => rfl
  | cons t ts ih =>
    simp only [List.all_cons, Bool.and_eq_true] at h
    have e : take1 (be1 t.length ++ (t ++ (encTexts ts ++ r))) = some (t.length, t ++ (encTexts ts ++ r)) :=
      take1_be1 h.1 _
    simp only [takeTexts, encTexts, List.length_cons, List.append_assoc, e]
    simp [ih h.2]

theorem takeTextList_enc {ts : List (List Byte)} (h : textsFit ts = true) (r : List Byte) :
    takeTextList (be1 ts.length ++ (encTexts ts ++ r)) = some (ts, r) := by
  simp only [textsFit, Bool.and_eq_true] at h
  simp [takeTextList, take1_be1 h.1, takeTexts_encTexts h.2]

/-- The code, the flags and the tag are read back, and the parameters are what follows. -/
theorem parseRequest_head {p : Port} {h : Header} {code : Nat} (hc : code < 256) (hw : h.wf = true)
    (params : List Byte) :
    parseRequest p (be1 code ++ be1 (flagsByte h) ++ be4 h.tag ++ params) = finish (takeParams p h code params) := by
  have ht : h.tag < 4294967296 := fits4_iff.mp hw
  obtain ⟨c, q, t⟩ := h
  have e1 : (BitVec.ofNat 8 code).toNat = code := by simp; omega
  have e2 : (((BitVec.ofNat 8 (t / 16777216)).toNat * 256 + (BitVec.ofNat 8 (t / 65536)).toNat) * 256
      + (BitVec.ofNat 8 (t / 256)).toNat) * 256 + (BitVec.ofNat 8 t).toNat = t := by
    simp at ht ⊢; omega
  simp only [be1, be4, List.cons_append, List.nil_append, parseRequest, e1, e2]
  cases c <;> cases q <;> simp [flagsByte]

end Sys2Proof
end

