-- ==== Sys2Proof/Laws/PerInstr.lean ====
section
/-! SUPPORT. What holds of each command as syntax: a well-formed request has a body that a frame can announce, and the
commands with a body are exactly those with a request code. -/

namespace Sys2Proof.Laws

set_option Elab.async false

/-- R176, R177, R178: a well-formed command's request body is within the greatest announced length; it is there, with
the request's code as its first byte, exactly when the command is a request of the catalogue (R186). -/
def RequestBody.Statement (i : Instr) : Prop :=
  wellFormed i = true → (requestBody i).length ≤ Config.maxBody
    ∧ (requestBody i).head? = (requestCode i).map (BitVec.ofNat 8)

theorem length_encTexts (ts : List (List Byte)) : (encTexts ts).length = textBytes ts := by
  induction ts with
  | nil => rfl
  | cons t ts ih => simp [encTexts, textBytes, be1, ih]; omega

theorem length_encForm (w : Option Nat) : (encForm w).length = w.toList.length := by
  cases w <;> rfl

theorem length_encForm_le (w : Option Nat) : (encForm w).length ≤ 1 := by
  cases w <;> simp [encForm, be1]

theorem length_encOpt_le (f : Nat → List Byte) (k : Nat) (hf : ∀ n, (f n).length ≤ k) (o : Option Nat) :
    (encOpt f o).length ≤ 1 + k := by
  cases o with
  | none => simp [encOpt, be1]
  | some n => have := hf n; simp [encOpt, be1]; omega

/-- A request whose parameters are short enough. -/
theorem RequestBody.of_params {i : Instr} {c : Nat} {p : Port} {h : Header} (hc : requestCode i = some c)
    (hh : requestHead i = some (p, h)) (hl : (encodeParams i).length ≤ 194) :
    (requestBody i).length ≤ Config.maxBody ∧ (requestBody i).head? = (requestCode i).map (BitVec.ofNat 8) := by
  simp only [requestBody, hc, hh, be1, be4, Config.maxBody]
  exact ⟨by simp; omega, rfl⟩

theorem RequestBody.openSession (p : Port) (h : Header) (clerk float : Nat) (w : Option Nat) : RequestBody.Statement (.openSession p h clerk float w) :=
  fun _ => RequestBody.of_params rfl rfl (by
    have := length_encForm_le w
    simp [encodeParams, be2, be4]; omega)

theorem RequestBody.sell (p : Port) (h : Header) (kind coupons fare tender : Nat) (texts : List (List Byte)) (w : Option Nat) : RequestBody.Statement (.sell p h kind coupons fare tender texts w) :=
  fun hw => RequestBody.of_params rfl rfl (by
    have := length_encTexts texts; have := length_encForm w
    simp only [wellFormed, Bool.and_eq_true, decide_eq_true_eq] at hw
    have := hw.2; simp only [Config.maxBody] at this
    simp [encodeParams, be1, be4]; omega)

theorem RequestBody.cancel (p : Port) (h : Header) (ofPort : Option Nat) : RequestBody.Statement (.cancel p h ofPort) :=
  fun _ => RequestBody.of_params rfl rfl (by
    have := length_encForm_le ofPort
    simp [encodeParams]; omega)

theorem RequestBody.voidTicket (p : Port) (h : Header) (serial : Nat) : RequestBody.Statement (.voidTicket p h serial) :=
  fun _ => RequestBody.of_params rfl rfl (by simp [encodeParams, be4])

theorem RequestBody.refund (p : Port) (h : Header) (serial amount tender : Nat) (w : Option Nat) : RequestBody.Statement (.refund p h serial amount tender w) :=
  fun _ => RequestBody.of_params rfl rfl (by
    have := length_encForm_le w
    simp [encodeParams, be1, be4]; omega)

theorem RequestBody.closeSession (p : Port) (h : Header) (w : Option Nat) : RequestBody.Statement (.closeSession p h w) :=
  fun _ => RequestBody.of_params rfl rfl (by
    have := length_encForm_le w
    simp [encodeParams]; omega)

theorem RequestBody.declare (p : Port) (h : Header) (session cash card warrant voucher docs : Nat) : RequestBody.Statement (.declare p h session cash card warrant voucher docs) :=
  fun _ => RequestBody.of_params rfl rfl (by simp [encodeParams, be2, be4])

theorem RequestBody.ackFault (p : Port) (h : Header) (number : Nat) : RequestBody.Statement (.ackFault p h number) :=
  fun _ => RequestBody.of_params rfl rfl (by simp [encodeParams, be2])

theorem RequestBody.loadPack (p : Port) (h : Header) (serial printer : Nat) : RequestBody.Statement (.loadPack p h serial printer) :=
  fun _ => RequestBody.of_params rfl rfl (by simp [encodeParams, be1, be4])

theorem RequestBody.unloadPack (p : Port) (h : Header) (printer : Nat) : RequestBody.Statement (.unloadPack p h printer) :=
  fun _ => RequestBody.of_params rfl rfl (by simp [encodeParams, be1])

theorem RequestBody.queryJob (p : Port) (h : Header) (by' : Option JobName) : RequestBody.Statement (.queryJob p h by') :=
  fun _ => RequestBody.of_params rfl rfl (by
    obtain _ | (_ | _) := by' <;> simp [encodeParams, be1])

theorem RequestBody.queryPrinter (p : Port) (h : Header) (printer : Nat) : RequestBody.Statement (.queryPrinter p h printer) :=
  fun _ => RequestBody.of_params rfl rfl (by simp [encodeParams, be1])

theorem RequestBody.querySession (p : Port) (h : Header) (number : Option Nat) : RequestBody.Statement (.querySession p h number) :=
  fun _ => RequestBody.of_params rfl rfl (by
    cases p <;> cases number <;> simp [encodeParams, encOpt, be1, be2])

theorem RequestBody.queryPack (p : Port) (h : Header) (by' : PackName) : RequestBody.Statement (.queryPack p h by') :=
  fun _ => RequestBody.of_params rfl rfl (by cases by' <;> simp [encodeParams, be1, be4])

theorem RequestBody.queryOffice (p : Port) (h : Header) : RequestBody.Statement (.queryOffice p h) :=
  fun _ => RequestBody.of_params rfl rfl (by simp [encodeParams])

theorem RequestBody.receivePack (p : Port) (h : Header) (first last : Nat) : RequestBody.Statement (.receivePack p h first last) :=
  fun _ => RequestBody.of_params rfl rfl (by simp [encodeParams, be4])

theorem RequestBody.returnPack (p : Port) (h : Header) (serial : Nat) : RequestBody.Statement (.returnPack p h serial) :=
  fun _ => RequestBody.of_params rfl rfl (by simp [encodeParams, be4])

theorem RequestBody.writeOff (p : Port) (h : Header) (serial count : Nat) : RequestBody.Statement (.writeOff p h serial count) :=
  fun _ => RequestBody.of_params rfl rfl (by simp [encodeParams, be2, be4])

theorem RequestBody.serviceOut (p : Port) (h : Header) (printer : Nat) : RequestBody.Statement (.serviceOut p h printer) :=
  fun _ => RequestBody.of_params rfl rfl (by simp [encodeParams, be1])

theorem RequestBody.serviceIn (p : Port) (h : Header) (printer : Nat) : RequestBody.Statement (.serviceIn p h printer) :=
  fun _ => RequestBody.of_params rfl rfl (by simp [encodeParams, be1])

theorem RequestBody.assignPrinters (p : Port) (h : Header) (window primary : Nat) (alternate : Option Nat) : RequestBody.Statement (.assignPrinters p h window primary alternate) :=
  fun _ => RequestBody.of_params rfl rfl (by
    have := length_encOpt_le be1 1 (fun _ => Nat.le_refl _) alternate
    simp [encodeParams, be1]; omega)

theorem RequestBody.testPrint (p : Port) (h : Header) (printer : Nat) (texts : List (List Byte)) : RequestBody.Statement (.testPrint p h printer texts) :=
  fun hw => RequestBody.of_params rfl rfl (by
    have := length_encTexts texts
    simp only [wellFormed, Bool.and_eq_true, decide_eq_true_eq] at hw
    have := hw.2; simp only [Config.maxBody] at this
    simp [encodeParams, be1]; omega)

theorem RequestBody.hold (p : Port) (h : Header) (window : Nat) : RequestBody.Statement (.hold p h window) :=
  fun _ => RequestBody.of_params rfl rfl (by simp [encodeParams, be1])

theorem RequestBody.release (p : Port) (h : Header) (window : Nat) : RequestBody.Statement (.release p h window) :=
  fun _ => RequestBody.of_params rfl rfl (by simp [encodeParams, be1])

theorem RequestBody.answer (p : Port) (h : Header) (window serial decision : Nat) : RequestBody.Statement (.answer p h window serial decision) :=
  fun _ => RequestBody.of_params rfl rfl (by simp [encodeParams, be1, be4])

theorem RequestBody.faultRead (p : Port) (h : Header) (retire : Nat) (number : Option Nat) : RequestBody.Statement (.faultRead p h retire number) :=
  fun _ => RequestBody.of_params rfl rfl (by
    have := length_encOpt_le be2 2 (fun _ => Nat.le_refl _) number
    simp [encodeParams, be1]; omega)

theorem RequestBody.closeFault (p : Port) (h : Header) (number remedy : Nat) : RequestBody.Statement (.closeFault p h number remedy) :=
  fun _ => RequestBody.of_params rfl rfl (by simp [encodeParams, be1, be2])

theorem RequestBody.spoilRead (p : Port) (h : Header) (retire : Nat) : RequestBody.Statement (.spoilRead p h retire) :=
  fun _ => RequestBody.of_params rfl rfl (by simp [encodeParams, be1])

theorem RequestBody.recount (p : Port) (h : Header) (session : Nat) : RequestBody.Statement (.recount p h session) :=
  fun _ => RequestBody.of_params rfl rfl (by simp [encodeParams, be2])

theorem RequestBody.cashUpReport (p : Port) (h : Header) (session retire : Nat) : RequestBody.Statement (.cashUpReport p h session retire) :=
  fun _ => RequestBody.of_params rfl rfl (by simp [encodeParams, be1, be2])

theorem RequestBody.forceClose (p : Port) (h : Header) (session : Nat) : RequestBody.Statement (.forceClose p h session) :=
  fun _ => RequestBody.of_params rfl rfl (by simp [encodeParams, be2])

theorem RequestBody.dayClose (p : Port) (h : Header) : RequestBody.Statement (.dayClose p h) :=
  fun _ => RequestBody.of_params rfl rfl (by simp [encodeParams])

theorem RequestBody.dayOpen (p : Port) (h : Header) : RequestBody.Statement (.dayOpen p h) :=
  fun _ => RequestBody.of_params rfl rfl (by simp [encodeParams])

theorem RequestBody.dayReport (p : Port) (h : Header) (sect : Nat) (start : Option Nat) : RequestBody.Statement (.dayReport p h sect start) :=
  fun _ => RequestBody.of_params rfl rfl (by
    have := length_encForm_le start
    simp [encodeParams, be1]; omega)

theorem RequestBody.setTime (p : Port) (h : Header) (reading : Nat) : RequestBody.Statement (.setTime p h reading) :=
  fun _ => RequestBody.of_params rfl rfl (by simp [encodeParams, be4])

theorem RequestBody.setParameter (p : Port) (h : Header) (change : ParamChange) : RequestBody.Statement (.setParameter p h change) :=
  fun hw => RequestBody.of_params rfl rfl (by
    cases change with
    | other i rest =>
      simp only [wellFormed, ParamChange.wf, Bool.and_eq_true, decide_eq_true_eq] at hw
      have := hw.2.2; simp only [Config.maxBody] at this
      simp [encodeParams, encChange, be1]; omega
    | _ => simp [encodeParams, encChange, be1, be2, be4])

theorem RequestBody.saveParameters (p : Port) (h : Header) : RequestBody.Statement (.saveParameters p h) :=
  fun _ => RequestBody.of_params rfl rfl (by simp [encodeParams])

theorem RequestBody.restart (p : Port) (h : Header) : RequestBody.Statement (.restart p h) :=
  fun _ => RequestBody.of_params rfl rfl (by simp [encodeParams])

theorem RequestBody.badRequest (p : Port) (body : List Byte) : RequestBody.Statement (.badRequest p body) :=
  fun _ => ⟨Nat.zero_le _, rfl⟩

theorem RequestBody.receiveFrame (p : Port) (chars : List Char9) : RequestBody.Statement (.receiveFrame p chars) :=
  fun _ => ⟨Nat.zero_le _, rfl⟩

theorem RequestBody.strayCharacter (p : Port) (c : Char9) : RequestBody.Statement (.strayCharacter p c) :=
  fun _ => ⟨Nat.zero_le _, rfl⟩

theorem RequestBody.interCharacterTimeout (p : Port) : RequestBody.Statement (.interCharacterTimeout p) :=
  fun _ => ⟨Nat.zero_le _, rfl⟩

theorem RequestBody.portBreak (p : Port) : RequestBody.Statement (.portBreak p) :=
  fun _ => ⟨Nat.zero_le _, rfl⟩

theorem RequestBody.transmitFrame (p : Port) : RequestBody.Statement (.transmitFrame p) :=
  fun _ => ⟨Nat.zero_le _, rfl⟩

theorem RequestBody.poll (l : Line) : RequestBody.Statement (.poll l) :=
  fun _ => ⟨Nat.zero_le _, rfl⟩

theorem RequestBody.print (l : Line) : RequestBody.Statement (.print l) :=
  fun _ => ⟨Nat.zero_le _, rfl⟩

theorem RequestBody.sense (l : Line) : RequestBody.Statement (.sense l) :=
  fun _ => ⟨Nat.zero_le _, rfl⟩

theorem RequestBody.status (l : Line) (condition : Condition) : RequestBody.Statement (.status l condition) :=
  fun _ => ⟨Nat.zero_le _, rfl⟩

theorem RequestBody.coupon (l : Line) (serial : Nat) (outcome : PrintOutcome) : RequestBody.Statement (.coupon l serial outcome) :=
  fun _ => ⟨Nat.zero_le _, rfl⟩

theorem RequestBody.serial (l : Line) (serial : Nat) : RequestBody.Statement (.serial l serial) :=
  fun _ => ⟨Nat.zero_le _, rfl⟩

theorem RequestBody.badResponse (l : Line) (chars : List Char9) : RequestBody.Statement (.badResponse l chars) :=
  fun _ => ⟨Nat.zero_le _, rfl⟩

theorem RequestBody.exchangeTimeout (l : Line) : RequestBody.Statement (.exchangeTimeout l) :=
  fun _ => ⟨Nat.zero_le _, rfl⟩

theorem RequestBody.couponTimerExpiry (printer : Fin 8) : RequestBody.Statement (.couponTimerExpiry printer) :=
  fun _ => ⟨Nat.zero_le _, rfl⟩

theorem RequestBody.senseTimerExpiry (printer : Fin 8) : RequestBody.Statement (.senseTimerExpiry printer) :=
  fun _ => ⟨Nat.zero_le _, rfl⟩

theorem RequestBody.authorisationExpiry (w : Fin 12) : RequestBody.Statement (.authorisationExpiry w) :=
  fun _ => ⟨Nat.zero_le _, rfl⟩

theorem RequestBody.lineRestartBreakEnd (l : Line) : RequestBody.Statement (.lineRestartBreakEnd l) :=
  fun _ => ⟨Nat.zero_le _, rfl⟩

theorem RequestBody.saveComplete (good : Bool) : RequestBody.Statement (.saveComplete good) :=
  fun _ => ⟨Nat.zero_le _, rfl⟩

theorem RequestBody.clockTick : RequestBody.Statement .clockTick :=
  fun _ => ⟨Nat.zero_le _, rfl⟩

theorem RequestBody.resetAssert : RequestBody.Statement .resetAssert :=
  fun _ => ⟨Nat.zero_le _, rfl⟩

theorem RequestBody.resetRelease : RequestBody.Statement .resetRelease :=
  fun _ => ⟨Nat.zero_le _, rfl⟩

theorem RequestBody.coldStart : RequestBody.Statement .coldStart :=
  fun _ => ⟨Nat.zero_le _, rfl⟩

theorem RequestBody.powerFail : RequestBody.Statement .powerFail :=
  fun _ => ⟨Nat.zero_le _, rfl⟩

theorem RequestBody.backupSupplyLoss : RequestBody.Statement .backupSupplyLoss :=
  fun _ => ⟨Nat.zero_le _, rfl⟩

theorem RequestBody.frameInProgressDiscarded (p : Port) (c : Char9) : RequestBody.Statement (.frameInProgressDiscarded p c) :=
  fun _ => ⟨Nat.zero_le _, rfl⟩

theorem RequestBody.lineReturnsHigh (p : Port) : RequestBody.Statement (.lineReturnsHigh p) :=
  fun _ => ⟨Nat.zero_le _, rfl⟩

end Sys2Proof.Laws
end

