-- ==== Sys2Proof/Laws/Restarts.lean ====
section
/-! SUPPORT. What the parts of a restart do, said once: the in-print conversion, the sessions, the raises that name no
printer, the fault log's adjustments, and the ports. -/

namespace Sys2Proof.Machine
set_option Elab.async false

/-! ### The in-print conversion (R22, R88) -/

/-- No printer holds an allowance. -/
def NoAllowance (s : State) : Prop := ∀ p, (s.printer p).allowance = none

theorem reserved_none {s : State} (h : NoAllowance s) : s.reserved = 0 := by
  unfold State.reserved
  simp [h _, allPrinters]

/-- The blanks that a list of entries adds to a total. -/
def addBlanks (es : List SpoilEntry) (a : Nat) : Nat := es.foldl (fun a e => min (a + e.count) 999999999) a

/-- An ABANDONED entry that names no session and no record, made while no printer holds an allowance. -/
theorem spoilAt_free {s : State} (h : NoAllowance s) (p : PrinterId) (e : SpoilEntry) (hs : e.session = none)
    (hf : e.fault = none) (hc : e.cause = .abandoned) :
    ∃ l f, spoilAt p e s = { s with
        spoils := l, faults := f, running := { s.running with abandoned := min (s.running.abandoned + e.count) 999999999 },
        night := s.night || s.mode == .night }
      ∧ (1 ≤ s.unreserved → l = s.spoils ++ [e] ∧ f = s.faults) := by
  have hl : ∃ l f, listAt p e s = { s with spoils := l, faults := f }
      ∧ (1 ≤ s.unreserved → l = s.spoils ++ [e] ∧ f = s.faults) := by
    unfold listAt
    rw [h p]
    show ∃ l f, listUnreserved p e s = _ ∧ _
    unfold listUnreserved
    split
    · exact ⟨_, _, rfl, fun _ => ⟨rfl, rfl⟩⟩
    · next hn =>
      unfold markUnlisted
      split
      · exact ⟨_, _, rfl, fun x => absurd x hn⟩
      · exact ⟨_, _, rfl, fun x => absurd x hn⟩
  obtain ⟨l, f, hl, hfit⟩ := hl
  refine ⟨l, f, ?_, hfit⟩
  unfold spoilAt
  rw [hl]
  unfold countSpoil
  rw [chargedSession_none _ _ hs, hf, hc]
  simp [chargeSession, chargeFault, addDay, addSpoils, addTotal, satAdd, Config.maxTotal]

/-- The entry of R88 for one run. -/
def runEntry (p : PrinterId) (s : State) (r : Nat × Nat) : SpoilEntry :=
  { first := r.1, count := r.2, cause := .abandoned, printer := some p, session := none, fault := none, day := s.day,
    time := s.clock }

theorem spoilRuns_free (p : PrinterId) (runs : List (Nat × Nat)) {s : State} (h : NoAllowance s) :
    ∃ l f r n, spoilRuns p none none runs s = { s with spoils := l, faults := f, running := r, night := n }
      ∧ (s.spoils.length + runs.length ≤ 256 →
        l = s.spoils ++ runs.map (runEntry p s) ∧ f = s.faults
        ∧ r = { s.running with abandoned := addBlanks (runs.map (runEntry p s)) s.running.abandoned }
        ∧ n = (s.night || s.mode == .night && !runs.isEmpty)) := by
  induction runs generalizing s with
  | nil => exact ⟨s.spoils, s.faults, s.running, s.night, rfl, fun _ => by simp [addBlanks]⟩
  | cons a runs ih =>
    obtain ⟨l, f, hl, hfit⟩ := spoilAt_free h p (spoilEntry a.1 a.2 .abandoned (some p) none none s) rfl rfl rfl
    have e : spoilRuns p none none (a :: runs) s
        = spoilRuns p none none runs (spoilAt p (spoilEntry a.1 a.2 .abandoned (some p) none none s) s) := rfl
    rw [e]
    generalize hu : spoilAt p (spoilEntry a.1 a.2 .abandoned (some p) none none s) s = u at hl
    have hA : NoAllowance u := by rw [hl]; exact h
    obtain ⟨l', f', r', n', hl', hfit'⟩ := ih hA
    refine ⟨l', f', r', n', ?_, fun hlen => ?_⟩
    · rw [hl', hl]
    · simp only [List.length_cons] at hlen
      have h1 : 1 ≤ s.unreserved := by
        unfold State.unreserved; rw [reserved_none h]; simp [Config.spoilSize]; omega
      obtain ⟨rfl, rfl⟩ := hfit h1
      obtain ⟨rfl, rfl, rfl, rfl⟩ := hfit' (by rw [hl]; simp; omega)
      rw [hl]
      have hr : runEntry p { s with spoils := s.spoils ++ [spoilEntry a.1 a.2 .abandoned (some p) none none s] } = runEntry p s := rfl
      refine ⟨?_, rfl, ?_, ?_⟩
      · simp; exact ⟨rfl, fun _ _ _ => rfl⟩
      · rfl
      · cases s.night <;> cases (s.mode == .night) <;> simp

theorem stockLowAfter_same (k m : Pack) (s : State) (h : m.remaining = k.remaining) :
    stockLowAfter k.remaining m s = s := by
  unfold stockLowAfter
  split
  · split
    · next hc => rw [h] at hc; simp at hc; omega
    · rfl
  · rfl

theorem inPrintEntries_congr {s u : State} {i : PackIx} (hp : u.pack i = s.pack i) (hd : u.day = s.day)
    (hc : u.clock = s.clock) : inPrintEntries u i = inPrintEntries s i := by
  unfold inPrintEntries; rw [hp, hd, hc]

/-- One pack record at a restart. -/
theorem adjustPack_free (i : PackIx) {s : State} (h : NoAllowance s) :
    ∃ l f r n, adjustPack s i = { s with
        packs := put s.packs i ((s.pack i).map restartPack), spoils := l, faults := f, running := r, night := n }
      ∧ (s.spoils.length + (inPrintEntries s i).length ≤ 256 →
        l = s.spoils ++ inPrintEntries s i ∧ f = s.faults
        ∧ r = { s.running with abandoned := addBlanks (inPrintEntries s i) s.running.abandoned }
        ∧ n = (s.night || s.mode == .night && !(inPrintEntries s i).isEmpty)) := by
  have same : put s.packs i (s.pack i) = s.packs := put_look s.packs i
  unfold adjustPack inPrintEntries
  cases hk : s.pack i with
  | none =>
    refine ⟨s.spoils, s.faults, s.running, s.night, ?_, fun _ => by simp [addBlanks]⟩
    rw [hk] at same; simp [same]
  | some k =>
    rw [hk] at same
    simp only [Option.map_some]
    have keep : restartPack k = k → ∀ t : State, t = s → ∃ l f r n, t = { s with
        packs := put s.packs i (some (restartPack k)), spoils := l, faults := f, running := r, night := n }
      ∧ (s.spoils.length + ([] : List SpoilEntry).length ≤ 256 →
        l = s.spoils ++ [] ∧ f = s.faults
        ∧ r = { s.running with abandoned := addBlanks [] s.running.abandoned }
        ∧ n = (s.night || s.mode == .night && !([] : List SpoilEntry).isEmpty)) := by
      intro hr t ht
      subst ht
      exact ⟨t.spoils, t.faults, t.running, t.night, by rw [hr, same], fun _ => by simp [addBlanks]⟩
    cases hst : k.state with
    | inStore => exact keep (by simp [restartPack, hst]) s rfl
    | partUsed => exact keep (by simp [restartPack, hst]) s rfl
    | exhausted => exact keep (by simp [restartPack, hst]) s rfl
    | returned => exact keep (by simp [restartPack, hst]) s rfl
    | loading =>
      refine ⟨s.spoils, s.faults, s.running, s.night, ?_, fun _ => by simp [addBlanks]⟩
      simp [restartPack, hst, revertPack, State.setPack]
    | loaded =>
      have hmv : ∀ u : State, u.pack i = some k → movePack i abandonTicket u = u.setPack i (some (restartPack k)) := by
        intro u hu
        unfold movePack
        rw [hu]
        have : abandonTicket k = restartPack k := by simp [abandonTicket, restartPack, hst]
        simp only [hst, this]
        exact stockLowAfter_same k _ _ (by simp [restartPack, hst, Pack.remaining])
      simp only
      unfold convertRuns
      cases hp : k.printer with
      | none =>
        refine ⟨s.spoils, s.faults, s.running, s.night, ?_, fun _ => by simp [addBlanks]⟩
        rw [hmv s hk]; rfl
      | some p =>
        obtain ⟨l, f, r, n, hl, hfit⟩ := spoilRuns_free p (runsOf (ascending k.inPrint)) h
        refine ⟨l, f, r, n, ?_, fun hlen => ?_⟩
        · show movePack i abandonTicket (spoilRuns p none none (runsOf (ascending k.inPrint)) s) = _
          rw [hmv _ (by rw [hl]; exact hk), hl]; rfl
        · have := hfit (by simpa using hlen)
          show l = s.spoils ++ (runsOf (ascending k.inPrint)).map (runEntry p s) ∧ f = s.faults
            ∧ r = { s.running with
                abandoned := addBlanks ((runsOf (ascending k.inPrint)).map (runEntry p s)) s.running.abandoned }
            ∧ n = (s.night || s.mode == .night && !((runsOf (ascending k.inPrint)).map (runEntry p s)).isEmpty)
          simpa using this
theorem addBlanks_append (a b : List SpoilEntry) (n : Nat) : addBlanks (a ++ b) n = addBlanks b (addBlanks a n) := by
  simp [addBlanks]

/-- The pack records, each taken once. -/
theorem adjustPacks_free (L : List PackIx) (hL : L.Nodup) {s : State} (h : NoAllowance s) :
    ∃ v l f r n, L.foldl adjustPack s = { s with packs := v, spoils := l, faults := f, running := r, night := n }
      ∧ (∀ i, look v i = if i ∈ L then (s.pack i).map restartPack else s.pack i)
      ∧ (s.spoils.length + (L.flatMap (inPrintEntries s)).length ≤ 256 →
        l = s.spoils ++ L.flatMap (inPrintEntries s) ∧ f = s.faults
        ∧ r = { s.running with abandoned := addBlanks (L.flatMap (inPrintEntries s)) s.running.abandoned }
        ∧ n = (s.night || s.mode == .night && !(L.flatMap (inPrintEntries s)).isEmpty)) := by
  induction L generalizing s with
  | nil => exact ⟨s.packs, s.spoils, s.faults, s.running, s.night, rfl, fun _ => rfl, fun _ => by simp [addBlanks]⟩
  | cons a L ih =>
    rw [List.nodup_cons] at hL
    obtain ⟨l, f, r, n, hl, hfit⟩ := adjustPack_free a h
    rw [List.foldl_cons]
    generalize hu : adjustPack s a = u at hl
    have hA : NoAllowance u := by rw [hl]; exact h
    obtain ⟨v', l', f', r', n', hl', hv', hfit'⟩ := ih hL.2 hA
    have hpk : ∀ i, i ≠ a → u.pack i = s.pack i := by
      intro i hi
      rw [hl]; exact look_put_other _ _ _ _ (Ne.symm hi)
    have hent : L.flatMap (inPrintEntries u) = L.flatMap (inPrintEntries s) := by
      apply List.flatMap_congr
      intro i hi
      exact inPrintEntries_congr (hpk i (fun e => hL.1 (e ▸ hi))) (by rw [hl]) (by rw [hl])
    refine ⟨v', l', f', r', n', ?_, fun i => ?_, fun hlen => ?_⟩
    · rw [hl', hl]
    · rw [hv' i]
      by_cases ha : i = a
      · subst ha
        rw [if_neg hL.1, if_pos (List.mem_cons_self ..), hl]
        exact look_put_same _ _ _
      · rw [hpk i ha]; simp [ha]
    · simp only [List.flatMap_cons, List.length_append] at hlen ⊢
      obtain ⟨rfl, rfl, rfl, rfl⟩ := hfit (by omega)
      rw [hent] at hfit'
      obtain ⟨rfl, rfl, rfl, rfl⟩ := hfit' (by
        rw [hl]; show (s.spoils ++ inPrintEntries s a).length + _ ≤ 256
        rw [List.length_append]; omega)
      rw [hl]
      refine ⟨by simp, rfl, ?_, ?_⟩
      · rw [addBlanks_append]
      · have he : ∀ a b : List SpoilEntry, (a ++ b).isEmpty = (a.isEmpty && b.isEmpty) := by
          intro a b; cases a <;> rfl
        rw [he]
        cases s.night <;> cases (s.mode == .night) <;> cases (inPrintEntries s a).isEmpty
          <;> cases (L.flatMap (inPrintEntries s)).isEmpty <;> rfl

/-! ### Sessions (R144) -/

theorem countClosing_free (i : SessionIx) (s : State) :
    ∃ v, countClosing s i = { s with
        ports := v,
        sessions := put s.sessions i
          ((s.session i).map fun x => if x.state = .closing then { x with state := .counting } else x) }
      ∧ ∃ notes, Told notes s (countClosing s i) := by
  have same : put s.sessions i (s.session i) = s.sessions := put_look s.sessions i
  unfold countClosing
  cases hx : s.session i with
  | none =>
    rw [hx] at same
    exact ⟨s.ports, by simp [same], [], fun q => rfl⟩
  | some x =>
    rw [hx] at same
    simp only [Option.map_some]
    split
    · next hc =>
      unfold enterCounting
      rw [hx]
      simp only
      obtain ⟨v, hv, hq⟩ := notifyAll_spec (s.setSession i (some { x with state := .counting })) [.win x.window, .sup] (.sessionCountDue x.number x.window x.clerk x.closedAt x.forced)
      exact ⟨v, by rw [hv]; rfl, _, fun q => by rw [hq]; exact noticed_congr rfl _ _ _⟩
    · exact ⟨s.ports, by rw [same], [], fun q => rfl⟩

theorem Told.trans {a b : List (Port × Notice)} {s t u : State} (h1 : Told a s t) (hp : t.presentWindows = s.presentWindows)
    (h2 : Told b t u) : Told (a ++ b) s u := by
  intro q
  rw [h2 q, h1 q, noticed_append, noticed_congr hp]

theorem countClosings_free (L : List SessionIx) (hL : L.Nodup) (s : State) :
    ∃ v w, L.foldl countClosing s = { s with ports := v, sessions := w }
      ∧ (∀ i, look w i = if i ∈ L then (s.session i).map (fun x => if x.state = .closing then { x with state := .counting } else x) else s.session i)
      ∧ ∃ notes, Told notes s (L.foldl countClosing s) := by
  induction L generalizing s with
  | nil => exact ⟨s.ports, s.sessions, rfl, fun _ => rfl, [], fun _ => rfl⟩
  | cons a L ih =>
    rw [List.nodup_cons] at hL
    obtain ⟨v, hv, n1, hn1⟩ := countClosing_free a s
    rw [List.foldl_cons]
    generalize hu : countClosing s a = u at hv hn1
    obtain ⟨v', w', hv', hw', n2, hn2⟩ := ih hL.2 u
    refine ⟨v', w', by rw [hv', hv], fun i => ?_, n1 ++ n2, hn1.trans (by rw [hv]) hn2⟩
    rw [hw' i]
    by_cases ha : i = a
    · subst ha
      rw [if_neg hL.1, if_pos (List.mem_cons_self ..), hv]
      exact look_put_same _ _ _
    · have : u.session i = s.session i := by rw [hv]; exact look_put_other _ _ _ _ (Ne.symm ha)
      rw [this]; simp [ha]

/-! ### Fault records (R116, R119, R120) -/

/-- A raise places notices, and nothing else changes at the ports. -/
theorem raise_told (k p d) (s : State) : ∃ notes, Told notes s (raise k p d s) := by
  unfold raise
  cases s.faults.find? (mergesInto k p) with
  | some r =>
    simp only [raiseMerge]
    split
    · exact ⟨_, fun q => ((notifyAll_spec _ _ _).choose_spec.2 q).trans (noticed_congr rfl _ _ _)⟩
    · exact ⟨[], fun q => rfl⟩
  | none => exact ⟨_, fun q => ((notifyAll_spec _ _ _).choose_spec.2 q).trans (noticed_congr rfl _ _ _)⟩

/-- What a raise that names no printer does to the log depends on the log, its counter, the day and the clock alone. -/
theorem raise_office (k d) {s u : State} (hf : u.faults = s.faults) (hc : u.faultCounter = s.faultCounter)
    (ho : u.overwritten = s.overwritten) (hd : u.day = s.day) (ht : u.clock = s.clock) :
    (raise k none d u).faults = (raise k none d s).faults
      ∧ (raise k none d u).faultCounter = (raise k none d s).faultCounter
      ∧ (raise k none d u).overwritten = (raise k none d s).overwritten
      ∧ (raise k none d u).running = addFault (severityOf k) u.running
      ∧ (raise k none d s).running = addFault (severityOf k) s.running
      ∧ (raise k none d u).night = (u.night || u.mode == .night)
      ∧ (raise k none d s).night = (s.night || s.mode == .night) := by
  unfold raise
  rw [hf]
  have hj : ∀ t, raiseJob none t = none := fun _ => rfl
  rw [hj, hj]
  cases s.faults.find? (mergesInto k none) with
  | some r =>
    simp only [raiseMerge, ht]
    have e : ∀ t : State, ∀ c : Bool, ∀ x, ∃ v, (if c = true then sendRaised k x t else t) = { t with ports := v } := by
      intro t c x
      split
      · unfold sendRaised; exact notifyAll_eq _ _ t
      · exact ⟨t.ports, rfl⟩
    obtain ⟨v1, h1⟩ := e (addDay (addFault (severityOf k)) (modFault r.number (fun _ => mergeInto k none d s.clock r) u)) (severityOf k == .stop || (mergeInto k none d s.clock r).state != r.state) (mergeInto k none d s.clock r)
    obtain ⟨v2, h2⟩ := e (addDay (addFault (severityOf k)) (modFault r.number (fun _ => mergeInto k none d s.clock r) s)) (severityOf k == .stop || (mergeInto k none d s.clock r).state != r.state) (mergeInto k none d s.clock r)
    rw [h1, h2]
    refine ⟨?_, hc, ho, rfl, rfl, rfl, rfl⟩
    simp [modFault, addDay, hf]
  | none =>
    have hn : ∀ a b, newRecord k none none d a b u = newRecord k none none d a b s := by
      intro a b; simp [newRecord, hd, ht]
    simp only [raiseNew, sendRaised, hf, hc, ho, hn]
    obtain ⟨v1, h1⟩ := notifyAll_eq (raisedPorts (newRecord k none none d (freePlace (makeRoom s.faults)) s.faultCounter s).printer _) _ _
    obtain ⟨v2, h2⟩ := notifyAll_eq _ _ _
    rw [h1, h2]
    exact ⟨rfl, rfl, rfl, rfl, rfl, rfl, rfl⟩
/-- No printer is FAULTED, so that a record that becomes CLEARED sets nothing going. -/
def NoneFaulted (s : State) : Prop := ∀ p, (s.printer p).state ≠ .faulted

theorem enterCleared_told (r : FaultRecord) (s : State) :
    ∃ v, enterCleared r s = { s with
        ports := v,
        faults := s.faults.map fun y => if y.number = r.number then { y with state := .cleared, present := false } else y }
      ∧ ∃ notes, Told notes s (enterCleared r s) := by
  unfold enterCleared sendCleared
  obtain ⟨v, hv⟩ := notify_eq (modFault r.number (fun x => { x with state := .cleared, present := false }) s) .sup
    (.faultCleared r.number r.printer r.latest r.repeats r.blanks)
  refine ⟨v, ?_, _, fun q => (notify_port _ _ _ q).trans (noticed_congr rfl _ _ _)⟩
  rw [hv]; simp [modFault]

theorem recordCleared_told (r : FaultRecord) {s : State} (h : NoneFaulted s) :
    recordCleared r s = enterCleared r s := by
  obtain ⟨v, hv, -⟩ := enterCleared_told r s
  unfold recordCleared
  simp only
  split
  · split
    · next p _ =>
      unfold tellCleared
      have : ((enterCleared r s).printer p).state ≠ .faulted := by rw [hv]; exact h p
      simp [this]
    · rfl
  · rfl

/-- What the loss of its condition makes of a record (R108). -/
def conditionGone (r : FaultRecord) : FaultRecord :=
  if r.state = .opened then { r with present := false }
  else if r.state = .acknowledged ∧ r.present = true then { r with state := .cleared, present := false } else r

@[simp] theorem conditionGone_number (r : FaultRecord) : (conditionGone r).number = r.number := by
  unfold conditionGone; repeat' split
  all_goals rfl

theorem removeOne_told (m : FaultRecord → Bool) (n : Nat) {s : State} (h : NoneFaulted s) :
    ∃ v f, removeOne m s n = { s with ports := v, faults := f } ∧ (∃ notes, Told notes s (removeOne m s n))
      ∧ ((s.faults.map fun r => r.number).Nodup →
        f = s.faults.map fun r => if r.number = n ∧ m r = true then conditionGone r else r) := by
  have same : (∀ r ∈ s.faults, r.number = n → m r = true → conditionGone r = r) →
      s.faults = s.faults.map fun r => if r.number = n ∧ m r = true then conditionGone r else r := by
    intro hr
    conv_lhs => rw [← List.map_id s.faults]
    apply List.map_congr_left
    intro r hr'
    split
    · next hc => simp [hr r hr' hc.1 hc.2]
    · rfl
  unfold removeOne
  cases hf : s.faultOf n with
  | none =>
    refine ⟨s.ports, s.faults, rfl, ⟨[], fun q => rfl⟩, fun _ => same ?_⟩
    have : ∀ r ∈ s.faults, r.number ≠ n := by simpa [State.faultOf] using hf
    intro r hr hn; exact absurd hn (this r hr)
  | some r =>
    obtain ⟨hr, hrn⟩ := State.faultOf_some s hf
    have huniq : (s.faults.map fun r => r.number).Nodup → ∀ y ∈ s.faults, y.number = n → y = r := by
      intro hnd y hy hyn
      exact List.inj_on_of_nodup_map hnd hy hr (by rw [hyn, hrn])
    simp only
    by_cases hc : (m r && r.present) = true
    · rw [if_pos hc]
      rw [Bool.and_eq_true] at hc
      have keep : conditionGone r = r → ∃ v f, s = { s with ports := v, faults := f } ∧ (∃ notes, Told notes s s)
          ∧ ((s.faults.map fun r => r.number).Nodup →
            f = s.faults.map fun r => if r.number = n ∧ m r = true then conditionGone r else r) := by
        intro hk
        refine ⟨s.ports, s.faults, rfl, ⟨[], fun q => rfl⟩, fun hnd => same ?_⟩
        intro y hy hn _; rw [huniq hnd y hy hn, hk]
      cases hst : r.state with
      | opened =>
        refine ⟨s.ports, _, rfl, ⟨[], fun q => rfl⟩, fun hnd => ?_⟩
        apply List.map_congr_left
        intro y hy
        by_cases hyn : y.number = n
        · have := huniq hnd y hy hyn; subst this; simp [hyn, hc.1, conditionGone, hst]
        · simp [hyn]
      | acknowledged =>
        simp only [recordCleared_told r h]
        obtain ⟨v, hv, hn⟩ := enterCleared_told r s
        refine ⟨v, _, hv, hn, fun hnd => ?_⟩
        apply List.map_congr_left
        intro y hy
        by_cases hyn : y.number = n
        · have := huniq hnd y hy hyn; subst this; simp [hyn, hc.1, hc.2, conditionGone, hst]
        · simp [hyn, hrn]
      | cleared => exact keep (by simp [conditionGone, hst])
      | closed => exact keep (by simp [conditionGone, hst])
    · rw [if_neg hc]
      refine ⟨s.ports, s.faults, rfl, ⟨[], fun q => rfl⟩, fun hnd => same ?_⟩
      intro y hy hn hm
      have := huniq hnd y hy hn; subst this
      rw [hm] at hc
      have hp : y.present = false := by simpa using hc
      unfold conditionGone; split
      · cases y; simp at hp; simp [hp]
      · simp [hp]

theorem removeCondition_told (m : FaultRecord → Bool) {s : State} (h : NoneFaulted s)
    (hm : ∀ r, m (conditionGone r) = m r) :
    ∃ v f, removeCondition m s = { s with ports := v, faults := f } ∧ (∃ notes, Told notes s (removeCondition m s))
      ∧ ((s.faults.map fun r => r.number).Nodup →
        f = s.faults.map fun r => if m r = true then conditionGone r else r) := by
  have idem : ∀ r, conditionGone (conditionGone r) = conditionGone r := by
    intro r; unfold conditionGone
    by_cases h1 : r.state = .opened
    · simp [h1]
    · by_cases h2 : r.state = .acknowledged ∧ r.present = true
      · simp [h2]
      · simp [h1, h2]
  have key : ∀ ns : List Nat, ∀ t : State, NoneFaulted t →
      ∃ v f, ns.foldl (removeOne m) t = { t with ports := v, faults := f }
        ∧ (∃ notes, Told notes t (ns.foldl (removeOne m) t))
        ∧ ((t.faults.map fun r => r.number).Nodup →
          f = t.faults.map fun r => if r.number ∈ ns ∧ m r = true then conditionGone r else r) := by
    intro ns
    induction ns with
    | nil => intro t _; exact ⟨t.ports, t.faults, rfl, ⟨[], fun q => rfl⟩, fun _ => by simp⟩
    | cons n ns ih =>
      intro t ht
      obtain ⟨v, f, hv, ⟨n1, hn1⟩, hf⟩ := removeOne_told m n ht
      rw [List.foldl_cons]
      generalize hu : removeOne m t n = u at hv hn1
      obtain ⟨v', f', hv', ⟨n2, hn2⟩, hf'⟩ := ih u (by rw [hv]; exact ht)
      refine ⟨v', f', by rw [hv', hv], ⟨_, hn1.trans (by rw [hv]) hn2⟩, fun hnd => ?_⟩
      have hf := hf hnd
      have hnum : (u.faults.map fun r => r.number) = t.faults.map fun r => r.number := by
        rw [hv, hf]
        simp only [List.map_map]
        apply List.map_congr_left
        intro r _; simp only [Function.comp]; split <;> simp
      rw [hf' (by rw [hnum]; exact hnd), hv, hf]
      simp only [List.map_map]
      apply List.map_congr_left
      intro r _
      simp only [Function.comp]
      by_cases hmr : m r = true
      · by_cases hn : r.number = n
        · simp only [hn, hmr, and_self, if_true, conditionGone_number, hm, List.mem_cons, true_or]
          split <;> simp [idem]
        · simp [hn, hmr]
      · simp [hmr]
  unfold removeCondition
  obtain ⟨v, f, hv, hn, hf⟩ := key ((s.faults.filter m).map fun r => r.number) s h
  refine ⟨v, f, hv, hn, fun hnd => ?_⟩
  rw [hf hnd]
  apply List.map_congr_left
  intro r hr
  by_cases hmr : m r = true
  · have : r.number ∈ ((s.faults.filter m).map fun r => r.number) := List.mem_map_of_mem (List.mem_filter.mpr ⟨hr, hmr⟩)
    simp [this, hmr]
  · simp [hmr]

/-- The SPOIL_LIST_FULL condition is tested (R114). -/
theorem testFull_told (s : State) (hw : s.anyWaiting = false) :
    ∃ v f, testFull s = { s with ports := v, faults := f } ∧ (∃ notes, Told notes s (testFull s))
      ∧ ((s.faults.map fun r => r.number).Nodup → (s.faults.filter isOpenFull).length ≤ 1 →
        f = s.faults.map (restartFull s.freeReported)) := by
  have same : (∀ r ∈ s.faults, restartFull s.freeReported r = r) → s.faults = s.faults.map (restartFull s.freeReported) := by
    intro h
    conv_lhs => rw [← List.map_id s.faults]
    exact List.map_congr_left fun r hr => (h r hr).symm
  have one : ∀ r, s.faults.find? isOpenFull = some r → (s.faults.filter isOpenFull).length ≤ 1 →
      ∀ y ∈ s.faults, isOpenFull y = true → y = r := by
    intro r hr hl y hy ho
    have h1 : y ∈ s.faults.filter isOpenFull := List.mem_filter.mpr ⟨hy, ho⟩
    have h2 : r ∈ s.faults.filter isOpenFull :=
      List.mem_filter.mpr ⟨List.mem_of_find?_eq_some hr, List.find?_some hr⟩
    match he : s.faults.filter isOpenFull with
    | [] => rw [he] at h1; simp at h1
    | [z] => rw [he] at h1 h2; simp at h1 h2; rw [h1, h2]
    | _ :: _ :: _ => rw [he] at hl; simp at hl
  have full : ∀ y, y.firstKind = .spoilListFull ∧ y.state = .acknowledged → isOpenFull y = true := by
    intro y h; simp [isOpenFull, h.1, h.2]
  unfold testFull
  rw [hw]
  by_cases hfr : Config.allowanceSize ≤ s.freeReported
  · have h10 : 10 ≤ s.freeReported := hfr
    simp only [hfr, decide_true, Bool.not_false, Bool.and_self, if_true]
    cases hfind : s.faults.find? isOpenFull with
    | none =>
      refine ⟨s.ports, s.faults, rfl, ⟨[], fun q => rfl⟩, fun _ _ => same fun r hr => ?_⟩
      unfold restartFull
      rw [if_neg]
      intro hc
      have := List.find?_eq_none.mp hfind r hr
      exact this (full r ⟨hc.1, hc.2.1⟩)
    | some r =>
      simp only
      by_cases hst : r.state = .acknowledged
      · simp only [hst, beq_self_eq_true, if_true]
        obtain ⟨v, hv, hn⟩ := enterCleared_told r s
        refine ⟨v, _, hv, hn, fun hnd hl => ?_⟩
        apply List.map_congr_left
        intro y hy
        have hr := List.mem_of_find?_eq_some hfind
        have hro := List.find?_some hfind
        unfold restartFull
        by_cases hyn : y.number = r.number
        · have : y = r := List.inj_on_of_nodup_map hnd hy hr hyn
          subst this
          have hk : y.firstKind = .spoilListFull := by simp [isOpenFull] at hro; exact hro.1
          simp [hk, hst, h10]
        · have : ¬(y.firstKind = .spoilListFull ∧ y.state = .acknowledged ∧ 10 ≤ s.freeReported) := by
            intro hc
            exact hyn (by rw [one r hfind hl y hy (full y ⟨hc.1, hc.2.1⟩)])
          simp [hyn, this]
      · have hb : (r.state == .acknowledged) = false := by simpa using hst
        simp only [hb]
        refine ⟨s.ports, s.faults, rfl, ⟨[], fun q => rfl⟩, fun _ hl => same fun y hy => ?_⟩
        unfold restartFull
        rw [if_neg]
        intro hc
        have := one r hfind hl y hy (full y ⟨hc.1, hc.2.1⟩)
        subst this; exact hst hc.2.1
  · have h10 : ¬ 10 ≤ s.freeReported := hfr
    simp only [hfr, decide_false, Bool.false_and]
    refine ⟨s.ports, s.faults, rfl, ⟨[], fun q => rfl⟩, fun _ _ => same fun y hy => ?_⟩
    unfold restartFull
    rw [if_neg]
    intro hc; exact h10 hc.2.2
theorem makeRoom_sublist (rs : List FaultRecord) : (makeRoom rs).Sublist rs := by
  unfold makeRoom
  split
  · exact List.Sublist.refl _
  · split
    · exact List.eraseP_sublist
    · exact List.drop_sublist 1 rs

/-- CONFIG_DEFAULTED keeps the numbers apart, and makes no SPOIL_LIST_FULL record. -/
theorem raise_defaulted_laws (s : State) :
    ((s.faults.map fun r => r.number).Nodup → s.faultCounter ∉ s.faults.map (fun r => r.number) →
      ((raise .configDefaulted none none s).faults.map fun r => r.number).Nodup)
    ∧ ((s.faults.filter isOpenFull).length ≤ 1 →
      ((raise .configDefaulted none none s).faults.filter isOpenFull).length ≤ 1) := by
  unfold raise
  cases hf : s.faults.find? (mergesInto .configDefaulted none) with
  | some r =>
    have e : ∃ v, (raiseMerge .configDefaulted (raiseJob none s) none r s) = { (addDay (addFault .office) (modFault r.number (fun _ => mergeInto .configDefaulted none none s.clock r) s)) with ports := v } := by
      simp only [raiseMerge]
      split
      · exact (notifyAll_eq _ _ _)
      · exact ⟨s.ports, rfl⟩
    obtain ⟨v, e⟩ := e
    simp only [e]
    have hm := List.find?_some hf
    have hk : r.firstKind = .configDefaulted := by
      simp [mergesInto, severityOf] at hm; exact hm.2
    have hk' : (mergeInto .configDefaulted none none s.clock r).firstKind = .configDefaulted := by
      simp [mergeInto, severityOf, hk]
    refine ⟨fun hnd _ => ?_, fun hl => ?_⟩
    · show ((modFault _ _ s).faults.map _).Nodup
      simp only [modFault, List.map_map]
      rw [List.map_congr_left (g := fun r => r.number)]
      · exact hnd
      · intro y _
        simp only [Function.comp, beq_iff_eq]
        split
        · next hy => rw [hy]; simp [mergeInto, severityOf]
        · rfl
    · show ((modFault _ _ s).faults.filter isOpenFull).length ≤ 1
      refine Nat.le_trans ?_ hl
      simp only [modFault]
      rw [List.filter_map, List.length_map, ← List.countP_eq_length_filter, ← List.countP_eq_length_filter]
      apply List.countP_mono_left
      intro y _ hy
      simp only [Function.comp, beq_iff_eq] at hy
      split at hy
      · simp [isOpenFull, hk'] at hy
      · exact hy
  | none =>
    simp only [raiseNew, sendRaised]
    obtain ⟨v, hv⟩ := notifyAll_eq (raisedPorts (newRecord .configDefaulted none (raiseJob none s) none (freePlace (makeRoom s.faults)) s.faultCounter s).printer (addDay (addFault (severityOf .configDefaulted)) { s with
      faults := makeRoom s.faults ++ [newRecord .configDefaulted none (raiseJob none s) none (freePlace (makeRoom s.faults)) s.faultCounter s],
      faultCounter := nextFaultNumber (makeRoom s.faults ++ [newRecord .configDefaulted none (raiseJob none s) none (freePlace (makeRoom s.faults)) s.faultCounter s]) s.faultCounter,
      overwritten := s.overwritten || decide (Config.faultSize ≤ s.faults.length) })) _ (addDay (addFault (severityOf .configDefaulted)) { s with
      faults := makeRoom s.faults ++ [newRecord .configDefaulted none (raiseJob none s) none (freePlace (makeRoom s.faults)) s.faultCounter s],
      faultCounter := nextFaultNumber (makeRoom s.faults ++ [newRecord .configDefaulted none (raiseJob none s) none (freePlace (makeRoom s.faults)) s.faultCounter s]) s.faultCounter,
      overwritten := s.overwritten || decide (Config.faultSize ≤ s.faults.length) })
    rw [hv]
    simp only [addDay]
    have hs := makeRoom_sublist s.faults
    refine ⟨fun hnd hc => ?_, fun hl => ?_⟩
    · rw [List.map_append, List.map_singleton, List.nodup_append]
      refine ⟨hnd.sublist (hs.map _), by simp, ?_⟩
      intro a ha b hb
      simp [newRecord] at hb
      subst hb
      intro heq; subst heq
      exact hc ((hs.map _).subset ha)
    · rw [List.filter_append]
      have : [newRecord .configDefaulted none (raiseJob none s) none (freePlace (makeRoom s.faults)) s.faultCounter s].filter isOpenFull = [] := by
        simp [isOpenFull, newRecord]
      rw [this, List.append_nil]
      exact Nat.le_trans (hs.filter _).length_le hl

/-! ### What notices leave of a port -/

theorem noticed_frame (s : State) (notes : List (Port × Notice)) (q : Port) (x : PortState) :
    (noticed s notes q x).receiver = x.receiver ∧ (noticed s notes q x).fifo = x.fifo
      ∧ (noticed s notes q x).hand = x.hand ∧ (noticed s notes q x).previous = x.previous
      ∧ (∀ a, x.outq.head? = some a → (noticed s notes q x).outq.head? = some a)
      ∧ (s.portPresent q = false → noticed s notes q x = x) := by
  induction notes generalizing x with
  | nil => exact ⟨rfl, rfl, rfl, rfl, fun _ h => h, fun _ => rfl⟩
  | cons n notes ih =>
    have e : noticed s (n :: notes) q x = noticed s notes q (if n.1 = q ∧ s.portPresent q = true then withNotice n.2 x else x) := rfl
    rw [e]
    have hw : ∀ m, (withNotice m x).receiver = x.receiver ∧ (withNotice m x).fifo = x.fifo
        ∧ (withNotice m x).hand = x.hand ∧ (withNotice m x).previous = x.previous
        ∧ (∀ a, x.outq.head? = some a → (withNotice m x).outq.head? = some a) := by
      intro m
      unfold withNotice
      split
      · exact ⟨rfl, rfl, rfl, rfl, fun a h => by simp [h]⟩
      · exact ⟨rfl, rfl, rfl, rfl, fun _ h => h⟩
    split
    · next hc =>
      obtain ⟨a, b, c, d, f, g⟩ := ih (withNotice n.2 x)
      obtain ⟨a', b', c', d', f'⟩ := hw n.2
      exact ⟨a.trans a', b.trans b', c.trans c', d.trans d', fun z hz => f z (f' z hz), fun h => by rw [hc.2] at h; contradiction⟩
    · exact ih x

/-- Notices mark a port only where they have filled its queue (R183). -/
theorem noticed_marks (s : State) (notes : List (Port × Notice)) (q : Port) (x : PortState)
    (hx : noticeCount x.outq ≤ 31 ∧ (x.noticeLost = true → noticeCount x.outq = 31)) :
    (noticed s notes q x).sending = x.sending ∧ (noticed s notes q x).overrun = x.overrun
      ∧ (noticed s notes q x).line = x.line
      ∧ noticeCount (noticed s notes q x).outq ≤ 31
      ∧ ((noticed s notes q x).noticeLost = true → noticeCount (noticed s notes q x).outq = 31) := by
  induction notes generalizing x with
  | nil => exact ⟨rfl, rfl, rfl, hx⟩
  | cons n notes ih =>
    have e : noticed s (n :: notes) q x
        = noticed s notes q (if n.1 = q ∧ s.portPresent q = true then withNotice n.2 x else x) := rfl
    rw [e]
    split
    · have hw : (withNotice n.2 x).sending = x.sending ∧ (withNotice n.2 x).overrun = x.overrun
          ∧ (withNotice n.2 x).line = x.line ∧ noticeCount (withNotice n.2 x).outq ≤ 31
          ∧ ((withNotice n.2 x).noticeLost = true → noticeCount (withNotice n.2 x).outq = 31) := by
        obtain ⟨h1, h2⟩ := hx
        unfold withNotice
        split
        · next hc =>
          simp only [Config.noticePlaces] at hc
          refine ⟨rfl, rfl, rfl, ?_, fun h => absurd (h2 h) (by omega)⟩
          simp only [noticeCount, List.countP_append, List.countP_singleton] at hc ⊢
          split <;> omega
        · next hc =>
          simp only [Config.noticePlaces] at hc
          exact ⟨rfl, rfl, rfl, h1, fun _ => by show noticeCount x.outq = 31; omega⟩
      obtain ⟨a, b, c, d⟩ := hw
      obtain ⟨a', b', c', d'⟩ := ih _ d
      exact ⟨a'.trans a, b'.trans b, c'.trans c, d'⟩
    · exact ih x hx

/-- The first notice placed in an empty queue stands first. -/
theorem noticed_first (s : State) (L : List Port) (n : Notice) (q : Port) (hq : q ∈ L) (hp : s.portPresent q = true)
    (x : PortState) (hx : x.outq = []) :
    (noticed s (L.map fun p => (p, n)) q x).outq.head? = some (.notice n) := by
  induction L with
  | nil => simp at hq
  | cons p L ih =>
    by_cases h : p = q
    · have e : noticed s ((p :: L).map fun p => (p, n)) q x = noticed s (L.map fun p => (p, n)) q (withNotice n x) := by
        show List.foldl _ _ _ = _; simp [noticed, h, hp]
      rw [e]
      exact (noticed_frame s _ q _).2.2.2.2.1 _ (by simp [withNotice, hx, noticeCount, Config.noticePlaces])
    · have e : noticed s ((p :: L).map fun p => (p, n)) q x = noticed s (L.map fun p => (p, n)) q x := by
        simp [noticed, h]
      rw [e]
      exact ih (by simpa [Ne.symm h] using hq)

theorem mem_allPorts (q : Port) : q ∈ allPorts := by
  cases q <;> simp [allPorts]

theorem conditionGone_keeps (r : FaultRecord) :
    (conditionGone r).printer = r.printer ∧ (conditionGone r).severity = r.severity
      ∧ (conditionGone r).firstKind = r.firstKind ∧ ((conditionGone r).state = .closed ↔ r.state = .closed) := by
  unfold conditionGone
  split
  · exact ⟨rfl, rfl, rfl, Iff.rfl⟩
  · split
    · next h => exact ⟨rfl, rfl, rfl, by simp [h.1]⟩
    · exact ⟨rfl, rfl, rfl, Iff.rfl⟩

theorem ofAbsent_iff (s : State) (r : FaultRecord) {p : PrinterId} (hp : r.printer = some p) :
    ofAbsentPrinter s r = true
      ↔ s.presentPrinters.getLsbD p.val = false ∧ (r.severity = .stop ∨ r.firstKind = .stockLow) := by
  unfold ofAbsentPrinter State.printerPresent
  rw [hp]; simp only [Bool.and_eq_true, Bool.not_eq_true', Bool.or_eq_true, beq_iff_eq]

theorem restartFault_eq (s : State) (r : FaultRecord) :
    restartFault s.presentPrinters r = if ofAbsentPrinter s r = true then conditionGone r else r := by
  unfold restartFault
  cases hp : r.printer with
  | none => simp [ofAbsentPrinter, hp]
  | some p =>
    simp only [ofAbsent_iff s r hp]
    rw [← hp]; rfl

theorem ofAbsent_gone (s : State) (r : FaultRecord) : ofAbsentPrinter s (conditionGone r) = ofAbsentPrinter s r := by
  obtain ⟨a, b, c, -⟩ := conditionGone_keeps r
  unfold ofAbsentPrinter
  rw [a, b, c]

theorem openFull_gone (r : FaultRecord) : isOpenFull (conditionGone r) = isOpenFull r := by
  obtain ⟨-, -, c, d⟩ := conditionGone_keeps r
  rw [Bool.eq_iff_iff]
  simp [isOpenFull, c, d]

/-- The log's adjustments at a restart, when no printer holds an allowance, waits or is FAULTED (R119). -/
theorem adjustFaults_told {s : State} (h : NoneFaulted s) (hA : NoAllowance s) (hw : s.anyWaiting = false) :
    ∃ v f, adjustFaults s = { s with ports := v, faults := f, freeReported := 256 - s.spoils.length }
      ∧ (∃ notes, Told notes s (adjustFaults s))
      ∧ ((s.faults.map fun r => r.number).Nodup → (s.faults.filter isOpenFull).length ≤ 1 →
        f = s.faults.map fun r => restartFull (256 - s.spoils.length) (restartFault s.presentPrinters r)) := by
  obtain ⟨v, f, hv, ⟨n1, hn1⟩, hf⟩ := removeCondition_told (ofAbsentPrinter s) h (ofAbsent_gone s)
  unfold adjustFaults
  generalize hu : removeCondition (ofAbsentPrinter s) s = u at hv hn1
  have hfr : (reportFree u) = { u with freeReported := 256 - s.spoils.length } := by
    have : u.unreserved = 256 - s.spoils.length := by
      unfold State.unreserved
      rw [reserved_none (s := u) (by rw [hv]; exact hA), hv]; rfl
    unfold reportFree; rw [this]
  obtain ⟨v', f', hv', ⟨n2, hn2⟩, hf'⟩ := testFull_told (reportFree u) (by rw [hfr, hv]; exact hw)
  have hn1' : Told n1 s (reportFree u) := fun q => by rw [hfr]; exact hn1 q
  refine ⟨v', f', ?_, ⟨_, hn1'.trans (by rw [hfr, hv]) hn2⟩, fun hnd hl => ?_⟩
  · rw [hv', hfr, hv]
  · have hf := hf hnd
    have hfu : (reportFree u).faults = s.faults.map fun r => if ofAbsentPrinter s r = true then conditionGone r else r := by
      rw [hfr, hv, hf]
    have hnum : ((reportFree u).faults.map fun r => r.number) = s.faults.map fun r => r.number := by
      rw [hfu, List.map_map]
      apply List.map_congr_left
      intro r _; simp only [Function.comp]; split <;> simp
    have hfull : (((reportFree u).faults).filter isOpenFull).length ≤ 1 := by
      rw [hfu, List.filter_map, List.length_map]
      refine Nat.le_trans (Nat.le_of_eq ?_) hl
      congr 1
      apply List.filter_congr
      intro r _; simp only [Function.comp]; split
      · exact openFull_gone r
      · rfl
    rw [hf' (by rw [hnum]; exact hnd) hfull, hfu, List.map_map, hfr]
    apply List.map_congr_left
    intro r _
    simp only [Function.comp, restartFault_eq]

/-! ### The whole of a restart (R201) -/

/-- What follows the clearing of the volatile state. -/
def restartTail (cold : Bool) (cause : RestartCause) (lost dflt : Bool) (u : State) : State :=
  adjustFaults (raiseStart lost dflt (allSessions.foldl countClosing
    (announce cold cause lost dflt (settleIssues (allPacks.foldl adjustPack u)))))

/-- The ports after a restart: RESTARTED, then whatever else was placed. -/
def PortsReopened (n : Notice) (t : State) : Prop :=
  (∀ p, (t.port p).receiver = .idle ∧ (t.port p).fifo = [] ∧ (t.port p).hand = none ∧ (t.port p).previous = .none
      ∧ (t.port p).sending = [] ∧ (t.port p).overrun = false ∧ (t.port p).line = false
      ∧ ((t.port p).noticeLost = true → noticeCount (t.port p).outq = 31))
    ∧ (∀ p, t.portPresent p = true → (t.port p).outq.head? = some (.notice n))
    ∧ (∀ p, t.portPresent p = false → (t.port p).outq = [])

theorem portPresent_of_windows {s t : State} (h : s.presentWindows = t.presentWindows) (q : Port) :
    s.portPresent q = t.portPresent q := by
  cases q <;> simp [State.portPresent, State.windowPresent, h]

theorem raiseStart_told (lost dflt : Bool) (s : State) :
    (∃ v f c o r n, raiseStart lost dflt s = { s with
        ports := v, faults := f, faultCounter := c, overwritten := o, running := r, night := n })
      ∧ ∃ notes, Told notes s (raiseStart lost dflt s) := by
  have step : ∀ (b : Bool) (k : FaultKind) (s : State),
      (∃ v f c o r n, (if b = true then raise k none none s else s) = { s with
        ports := v, faults := f, faultCounter := c, overwritten := o, running := r, night := n })
      ∧ ∃ notes, Told notes s (if b = true then raise k none none s else s) := by
    intro b k s
    cases b
    · exact ⟨⟨s.ports, s.faults, s.faultCounter, s.overwritten, s.running, s.night, rfl⟩, [], fun _ => rfl⟩
    · exact ⟨raise_eq k none none s, raise_told k none none s⟩
  obtain ⟨⟨v, f, c, o, r, n, h1⟩, n1, hn1⟩ := step lost .recordsLost s
  unfold raiseStart
  simp only
  generalize (if lost = true then raise .recordsLost none none s else s) = a at h1 hn1
  obtain ⟨⟨v', f', c', o', r', n', h2⟩, n2, hn2⟩ := step dflt .configDefaulted a
  exact ⟨⟨v', f', c', o', r', n', by rw [h2, h1]⟩, _, hn1.trans (by rw [h1]) hn2⟩

theorem restartTail_told (cold : Bool) (cause : RestartCause) (lost dflt : Bool) (u : State)
    (hpr : ∀ p, ∃ st, u.printer p = restPrinter st ∧ st ≠ .faulted) (hpo : ∀ q, u.port q = restPort []) :
    ∃ d : State,
      (∃ vp vk l f r n w, d = { u with
          ports := vp, packs := vk, spoils := l, faults := f, running := r, night := n, sessions := w,
          issues := u.issues.map fun e => if e.state = .refundPending then { e with state := .issued } else e }
        ∧ (∀ i, look vk i = (u.pack i).map restartPack)
        ∧ (∀ i, look w i = (u.session i).map fun x => if x.state = .closing then { x with state := .counting } else x)
        ∧ (u.spoils.length + (conversionEntries u).length ≤ 256 →
          l = u.spoils ++ conversionEntries u ∧ f = u.faults
          ∧ r = { u.running with abandoned := addBlanks (conversionEntries u) u.running.abandoned }
          ∧ n = (u.night || u.mode == .night && !(conversionEntries u).isEmpty)))
      ∧ (∃ vp f, restartTail cold cause lost dflt u = { raiseStart lost dflt d with
            ports := vp, faults := f, freeReported := 256 - d.spoils.length }
        ∧ (((raiseStart lost dflt d).faults.map fun r => r.number).Nodup →
          ((raiseStart lost dflt d).faults.filter isOpenFull).length ≤ 1 →
          f = (raiseStart lost dflt d).faults.map fun r =>
            restartFull (256 - d.spoils.length) (restartFault u.presentPrinters r)))
      ∧ PortsReopened (.restarted cold cause lost dflt u.mode u.day u.clock u.clockSet u.params.linkRate)
          (restartTail cold cause lost dflt u) := by
  have hA : NoAllowance u := fun p => by obtain ⟨st, h, -⟩ := hpr p; rw [h]; rfl
  have hF : NoneFaulted u := fun p => by obtain ⟨st, h, hs⟩ := hpr p; rw [h]; exact hs
  have hW : u.anyWaiting = false := by
    unfold State.anyWaiting
    rw [List.any_eq_false]
    intro p _; obtain ⟨st, h, -⟩ := hpr p; rw [h]; simp [restPrinter]
  obtain ⟨vk, l, f, r, n, ha, hvk, hfit⟩ := adjustPacks_free allPacks (List.nodup_finRange 32) hA
  have hb : settleIssues (allPacks.foldl adjustPack u) = { u with
      packs := vk, spoils := l, faults := f, running := r, night := n,
      issues := u.issues.map fun e => if e.state = .refundPending then { e with state := .issued } else e } := by
    rw [ha]; rfl
  unfold restartTail
  rw [hb]
  generalize hbe : ({ u with
      packs := vk, spoils := l, faults := f, running := r, night := n,
      issues := u.issues.map fun e => if e.state = .refundPending then { e with state := .issued } else e } : State) = b
  have hbp : ∀ q, b.port q = restPort [] := by intro q; rw [← hbe]; exact hpo q
  obtain ⟨v1, h1, hn1⟩ := notifyAll_spec b allPorts
    (.restarted cold cause lost dflt u.mode u.day u.clock u.clockSet u.params.linkRate)
  have hc : announce cold cause lost dflt b = notifyAll allPorts
    (.restarted cold cause lost dflt u.mode u.day u.clock u.clockSet u.params.linkRate) b := by
    rw [← hbe]; rfl
  rw [hc]
  generalize hce : notifyAll allPorts
    (.restarted cold cause lost dflt u.mode u.day u.clock u.clockSet u.params.linkRate) b = c at h1 hn1
  obtain ⟨v2, w, h2, hw, n2, hn2⟩ := countClosings_free allSessions (List.nodup_finRange 24) c
  generalize hde : allSessions.foldl countClosing c = d at h2 hn2
  obtain ⟨⟨v3, f3, c3, o3, r3, n3, h3⟩, m3, hn3⟩ := raiseStart_told lost dflt d
  generalize hee : raiseStart lost dflt d = e at h3 hn3
  have eF : NoneFaulted e := by rw [h3, h2, h1, ← hbe]; exact hF
  have eA : NoAllowance e := by rw [h3, h2, h1, ← hbe]; exact hA
  have eW : e.anyWaiting = false := by rw [h3, h2, h1, ← hbe]; exact hW
  obtain ⟨v4, f4, h4, ⟨m4, hn4⟩, hf4⟩ := adjustFaults_told eF eA eW
  refine ⟨d, ⟨v2, vk, l, f, r, n, w, ?_, ?_, ?_, hfit⟩, ?_, ?_⟩
  · rw [h2, h1, ← hbe]
  · intro i; rw [hvk i]; exact if_pos (List.mem_finRange i)
  · intro i; refine (hw i).trans ((if_pos (List.mem_finRange i)).trans ?_); rw [h1, ← hbe]; rfl
  · rw [hee]
    have hsp : e.spoils = d.spoils := by rw [h3]
    have hpp : e.presentPrinters = u.presentPrinters := by rw [h3, h2, h1, ← hbe]
    rw [hsp, hpp] at hf4
    exact ⟨v4, f4, h4.trans (congrArg (fun l : List SpoilEntry => ({ e with ports := v4, faults := f4, freeReported := 256 - l.length } : State)) hsp), hf4⟩
  · generalize hte : adjustFaults e = t at h4 hn4
    have hpw : ∀ q, t.portPresent q = b.portPresent q := fun q => portPresent_of_windows (by rw [h4, h3, h2, h1]) q
    have hall : Told (allPorts.map (fun p => (p, Notice.restarted cold cause lost dflt u.mode u.day u.clock u.clockSet u.params.linkRate)) ++ (n2 ++ (m3 ++ m4))) b t :=
      Told.trans hn1 (by rw [h1]) (Told.trans hn2 (by rw [h2]) (Told.trans hn3 (by rw [h3]) hn4))
    refine ⟨fun p => ?_, fun p hp => ?_, fun p hp => ?_⟩
    · obtain ⟨x1, x2, x3, x4, -⟩ := noticed_frame b (allPorts.map (fun p => (p, Notice.restarted cold cause lost dflt u.mode u.day u.clock u.clockSet u.params.linkRate)) ++ (n2 ++ (m3 ++ m4))) p (b.port p)
      obtain ⟨y1, y2, y3, -, y5⟩ := noticed_marks b (allPorts.map (fun p => (p, Notice.restarted cold cause lost dflt u.mode u.day u.clock u.clockSet u.params.linkRate)) ++ (n2 ++ (m3 ++ m4))) p (b.port p) (by rw [hbp p]; exact ⟨Nat.zero_le _, fun h => by cases h⟩)
      refine ⟨?_, ?_, ?_, ?_, ?_, ?_, ?_, by rw [hall p]; exact y5⟩ <;>
        rw [hall p] <;> simp only [x1, x2, x3, x4, y1, y2, y3] <;> rw [hbp p] <;> rfl
    · rw [hall p, noticed_append]
      refine (noticed_frame b _ p _).2.2.2.2.1 _ ?_
      exact noticed_first b allPorts _ p (mem_allPorts p) (by rw [← hpw]; exact hp) _ (by rw [hbp p]; rfl)
    · rw [hall p, (noticed_frame b _ p _).2.2.2.2.2 (by rw [← hpw]; exact hp), hbp p]; rfl

theorem restartAs_eq (cold : Bool) (cause : RestartCause) (lost : Bool) (s : State) :
    restartAs cold cause lost s = restartTail cold cause lost (cutSave s).autoload.isNone
      (resetPrinters (loadParams (clearVolatile (if lost then initialRecords (cutSave s) else cutSave s)))) := rfl

/-- A write that is cut off changes the memory, byte by byte to the old or the new one, and the free values used up. -/
theorem cutSave_eq (s : State) : ∃ m i, cutSave s = { s with save := none, memory := m, freeIndex := i }
    ∧ (s.save = none → m = s.memory) ∧ ∀ image, s.save = some image → TornOf image s.memory m := by
  unfold cutSave
  split
  · next h => exact ⟨s.memory, s.freeIndex, by rw [← h], fun _ => rfl, (fun image he => by rw [h] at he; cases he)⟩
  · next new h =>
    refine ⟨_, _, rfl, (fun he => by rw [h] at he; cases he), fun image he => ?_⟩
    rw [h] at he; cases he
    cases hm : s.memory with
    | none => trivial
    | some old =>
      show (tornMemory s.freeIndex old new).length = old.length ∧ ∀ b, _
      refine ⟨by simp [tornMemory], fun b => ?_⟩
      simp only [tornMemory, List.getElem?_mapIdx]
      cases hb : old[b]? with
      | none => left; rfl
      | some x =>
        simp only [Option.map_some]
        split
        · next hc =>
          simp [imageSize] at hc
          rw [List.getD_eq_getElem?_getD]
          cases hi : new[b]? with
          | none => left; simp
          | some y => right; exact ⟨of_decide_eq_true hc.1, by simp⟩
        · left; rfl

theorem reset_printer (u : State) (p : PrinterId) :
    (resetPrinters u).printer p = restPrinter (if u.printerPresent p = true then .probe else .absent) := by
  unfold resetPrinters State.printer
  simp only [look, State.printerPresent, Vector.get_ofFn]
  rfl

theorem rest_port (q : Port) (v : Vector PortState 13) (hv : v = Vector.replicate 13 (restPort [])) :
    look v (portIx q) = restPort [] := by
  subst hv; simp [look, Vector.get]

/-- A raise that names no printer and finds no record to merge into, but for the ports. -/
theorem raise_fresh {k : FaultKind} {d : Option Nat} {s : State} (h : s.faults.find? (mergesInto k none) = none) :
    ∃ v, raise k none d s = { s with
      ports := v, faults := makeRoom s.faults ++ [newRecord k none none d (freePlace (makeRoom s.faults)) s.faultCounter s],
      faultCounter := nextFaultNumber (makeRoom s.faults ++ [newRecord k none none d (freePlace (makeRoom s.faults)) s.faultCounter s]) s.faultCounter,
      overwritten := s.overwritten || decide (Config.faultSize ≤ s.faults.length),
      running := addFault (severityOf k) s.running, night := s.night || s.mode == .night } := by
  unfold raise
  rw [h]
  simp only [raiseNew, sendRaised]
  exact notifyAll_eq _ _ _

theorem vector_none {α : Type} {n : Nat} (v : Vector (Option α) n) (h : ∀ i, look v i = none) :
    v = Vector.replicate n none := by
  apply Vector.ext
  intro i hi
  rw [Vector.getElem_replicate]
  exact h ⟨i, hi⟩

end Sys2Proof.Machine
end

