-- ==== Sys2Proof/Tests/Slice0.lean ====
section
/-! SUPPORT. Tests: ill-formed commands that the check refuses, request bodies written out from the spec, the worked cases
of the cash-up, one step of each kind on small states, and for each statement of the certificates states and operands
that meet its hypotheses. -/

namespace Sys2Proof.Tests

open Sys2Proof Sys2Proof.Machine

set_option Elab.async false

/-! ### Small states -/

/-- A header with a tag and no flags. -/
def tagged (n : Nat) : Header := { chain := false, quiet := false, tag := n }

def w0 : Port := .win 0

/-- In service: the office open, no record, no frame queued, the restart breaks over. -/
def up : State :=
  { State.reset with
    ports := Vector.replicate 13 (restPort []), lineA := { restLine with breaking := false },
    lineB := { restLine with breaking := false }, faults := [], faultCounter := 1, running := zeroSummary }

/-- A pack of 100 blanks loaded on P0, ten of them used. -/
def pack0 : Pack :=
  { first := 1000, last := 1099, next := 1010, issued := 8, spoiled := 2, returned := 0, inPrint := [], state := .loaded,
    printer := some 0, prior := none, day := 1, time := 0 }

/-- A part-used pack in the store. -/
def stored : Pack := { pack0 with first := 2000, last := 2099, next := 2010, state := .partUsed, printer := none }

/-- A session of W0. -/
def session0 (st : SessionState) : Session :=
  { number := 1, window := 0, clerk := 7, state := st, forced := false, float := 5000, openedAt := 10, closedAt := none,
    sales := allTenders 2000, refunds := allTenders 0, clamped := allTenders false, tickets := 3, coupons := 3, voids := 0,
    voidsAmount := 0, refundsCount := 0, spoiltVoided := 0, spoiltAbandoned := 0, spoiltBad := 0, declaration := none,
    results := none, recounts := 0 }

def declared0 : Declaration :=
  { amounts := { cash := 7000, card := 2000, warrant := 2000, voucher := 2000 }, docs := 0, declaredBy := w0, time := 20 }

/-- The same session counted and reconciled. -/
def balanced0 : Session := declareSession defaultParams declared0 (session0 .counting)

/-- A sale of W0 on P0. -/
def job0 (st : JobState) : Job :=
  { port := w0, window := some 0, tag := 5, session := some 1, kind := .single, coupons := 1, fare := 320,
    tender := some .cash, texts := [], urgent := false, state := st, printer := 0, nextCoupon := 1, good := [], bad := 0,
    skip := 0, restarts := 0, diverted := false, admitted := 11 }

/-- A ticket of two coupons that session 1 sold. -/
def ticket : IssueEntry :=
  { serials := [1002, 1003], kind := .returnTrip, fare := 640, tender := .cash, session := 1, window := 0, printer := 0,
    time := 0, state := .issued }

/-- A pending refund of that ticket. -/
def slot0 (kind : AuthKind) : AuthSlot :=
  { kind := kind, serial := 1002, found := true, amount := 640, tender := .cash, session := 1, raised := 0,
    duration := 120 }

/-- A fault record of P0. -/
def record0 (st : FaultState) (kind : FaultKind) : FaultRecord :=
  { place := 0, number := 1, printer := some 0, severity := severityOf kind, firstKind := kind, latest := kind, state := st,
    present := true, day := 1, time := 0, latestTime := 0, repeats := 1, window := none, session := none,
    sessionOver := false, blanks := 0, unlisted := false, detail := none, remedy := none }

def withPrinter (c : Printer) (s : State) : State := s.setPrinter 0 c

/-- P0 READY with its pack, and an OPEN session at W0. -/
def trading : State :=
  (withPrinter (restPrinter .ready) (up.setPack 0 (some pack0))).setSession 0 (some (session0 .opened))

/-- The sale in print on P0, with its allowance. -/
def printing0 : Printer := { restPrinter .printing with job := some 0, allowance := some 0 }

def selling : State := withPrinter printing0 (trading.setJob 0 (some (job0 .printing)))

/-- An exchange with P0 on line A. -/
def exchangeA (c : Sent) : Exchange := { printer := 0, command := c, chars := [] }

def onLine (c : Sent) (s : State) : State := s.setLine .a { s.line .a with exchange := some (exchangeA c) }

/-- A part in NIGHT with the report of an empty day. -/
def nightly : State :=
  { up with mode := .night, report := some { totals := zeroSummary, day := 1, time := 0, lines := [] } }

/-- The next state of a command, or the given one. -/
def after (c : Instr) (s : State) : State :=
  match exec c s with
  | .next t => t
  | _ => s

/-! ### Well-formedness: an ill-formed term for each check -/

theorem test_wf_tag : wellFormed (.queryOffice w0 (tagged 4294967296)) = false := by decide
theorem test_wf_oneByte : wellFormed (.unloadPack w0 (tagged 1) 256) = false := by decide
theorem test_wf_twoBytes : wellFormed (.ackFault w0 (tagged 1) 65536) = false := by decide
theorem test_wf_fourBytes : wellFormed (.voidTicket w0 (tagged 1) 4294967296) = false := by decide
theorem test_wf_windowForm : wellFormed (.cancel w0 (tagged 1) (some 3)) = false := by decide
theorem test_wf_supervisorForm : wellFormed (.cancel .sup (tagged 1) none) = false := by decide
theorem test_wf_optional : wellFormed (.assignPrinters .sup (tagged 1) 0 0 (some 256)) = false := by decide
theorem test_wf_texts : wellFormed (.testPrint .sup (tagged 1) 0 (List.replicate 7 (List.replicate 40 65))) = false := by
  decide +kernel
theorem test_wf_jobName : wellFormed (.queryJob w0 (tagged 1) (some (.number 1))) = false := by decide
theorem test_wf_packName : wellFormed (.queryPack w0 (tagged 1) (.index 256)) = false := by decide
theorem test_wf_session : wellFormed (.querySession .sup (tagged 1) none) = false := by decide
theorem test_wf_reportStart : wellFormed (.dayReport .sup (tagged 1) 0 (some 0)) = false := by decide
theorem test_wf_change : wellFormed (.setParameter .sup (tagged 1) (.other 4 [])) = false := by decide
theorem test_wf_body : wellFormed (.badRequest w0 (List.replicate 201 0)) = false := by decide +kernel
theorem test_wf_serial : wellFormed (.serial .a 4294967296) = false := by decide

/-! ### Request bodies, written out from R177 and R186 -/

/-- OPEN SESSION from W0: code 01, flags 00, tag 00000102, clerk 0007, float 00001388. -/
theorem test_body_openSession : parseRequest w0 [0x01, 0, 0, 0, 1, 2, 0, 7, 0, 0, 0x13, 0x88]
    = some (.openSession w0 (tagged 258) 7 5000 none) := by decide
/-- The supervisor's form names the window in one byte more. -/
theorem test_body_openSessionSup : parseRequest .sup [0x01, 0, 0, 0, 1, 2, 0, 7, 0, 0, 0x13, 0x88, 0x0B]
    = some (.openSession .sup (tagged 258) 7 5000 (some 11)) := by decide
/-- SELL: kind RETURN, 2 coupons, fare 0000 0280, CASH, one text field of 2 characters; flags CHAIN and QUIET. -/
theorem test_body_sell : parseRequest w0 [0x02, 3, 0, 0, 0, 9, 1, 2, 0, 0, 2, 0x80, 0, 1, 2, 0x41, 0x42]
    = some (.sell w0 { chain := true, quiet := true, tag := 9 } 1 2 640 0 [[0x41, 0x42]] none) := by decide
/-- QUERY SESSION with an absent number, and with number 5. -/
theorem test_body_querySession : parseRequest w0 [0x0D, 0, 0, 0, 0, 1, 0] = some (.querySession w0 (tagged 1) none)
    ∧ parseRequest w0 [0x0D, 0, 0, 0, 0, 1, 1, 0, 5] = some (.querySession w0 (tagged 1) (some 5)) := by decide
/-- A flag bit above 1, a code outside the catalogue and a byte too many are no request. -/
theorem test_body_refused : parseRequest w0 [0x0F, 4, 0, 0, 0, 1] = none ∧ parseRequest w0 [0x10, 0, 0, 0, 0, 1] = none
    ∧ parseRequest w0 [0x0F, 0, 0, 0, 0, 1, 0] = none := by decide
/-- RECEIVE PACK of 0000 03E8 to 0000 044B. -/
theorem test_body_receivePack : parseRequest .sup [0x20, 0, 0, 0, 0, 1, 0, 0, 3, 0xE8, 0, 0, 4, 0x4B]
    = some (.receivePack .sup (tagged 1) 1000 1099) := by decide
/-- SET PARAMETER: identifier 4, window 2, reserved 3, ceiling 9. -/
theorem test_body_setParameter : parseRequest .sup [0x34, 0, 0, 0, 0, 1, 4, 2, 3, 9]
    = some (.setParameter .sup (tagged 1) (.quota 2 3 9)) := by decide
theorem test_body_faultRead : parseRequest .sup [0x2A, 0, 0, 0, 0, 1, 1, 1, 0, 7]
    = some (.faultRead .sup (tagged 1) 1 (some 7)) := by decide

/-- The frame of a QUERY OFFICE: the lead marked, length 6, the body, and a check that makes length, body and check sum
to 0 modulo 256. -/
theorem test_frame : requestFrame [0x0F, 0, 0, 0, 0, 1]
    = markedChar 1 :: [0x06, 0x0F, 0, 0, 0, 0, 1, 0xEA].map plainChar := by decide

/-- A whole frame at an idle receiver is a waiting request, which the port then takes and answers. -/
theorem test_receiveFrame : (match exec (.receiveFrame w0 (requestFrame [0x0F, 0, 0, 0, 0, 1])) up with
    | .next t => (t.port w0).fifo
    | _ => []) = [[0x0F, 0, 0, 0, 0, 1]] := by decide +kernel

/-! ### Reset -/

/-- COLD_START of a part whose records are lost and whose configuration memory is blank gives the state after reset. -/
theorem test_reset : after .coldStart { State.reset with powered := false, valid := false } = State.reset := by
  decide +kernel

/-! ### The worked cases of spec/07 -/

/-- Session 46, cash: expected 31,320, variance -50, tolerance 100: BALANCED. Session 53: expected 812,400, variance
-1,700, tolerance 1,624: SHORT. -/
theorem test_cash_classes : toleranceOf 100 20 31320 = 100 ∧ classOf false (-50) 100 = .balanced
    ∧ toleranceOf 100 20 812400 = 1624 ∧ classOf false (-1700) 1624 = .short := by decide
/-- A negative expected amount: the tolerance uses its size, and a declaration above it is OVER. -/
theorem test_negative_expected : toleranceOf 0 0 (-3800) = 0 ∧ classOf false 3800 0 = .overs := by decide
/-- A clamped tender is LIMIT, and its session REFER. -/
theorem test_clamped : classOf true 0 100 = .limit
    ∧ (reconcile defaultParams { session0 .counting with clamped := { allTenders false with card := true } }
        declared0).outcome = .refer := by decide

/-! ### Steps -/

/-- A SELL to a READY printer is in print with PRINT coupon 1 pending (R56, R63). -/
theorem test_sell_starts :
    (after (.sell w0 (tagged 5) 0 1 320 0 [] none) trading).printer 0
      = { restPrinter .printing with job := some 0, command := .print 1, allowance := some 0 } := by decide +kernel
/-- The last coupon's GOOD report issues the ticket (R83). -/
theorem test_issue : (after (.coupon .a 1010 .good)
    (onLine .poll (withPrinter { printing0 with outstanding := some 1, couponTimer := true } selling))).issues.map
      (fun e => (e.serials, e.fare)) = [([1010], 320)] := by decide +kernel
/-- A serial ahead of next is a skip: two blanks SKIPPED and the ticket at the serial (R80). -/
theorem test_skip : (after (.coupon .a 1012 .good)
    (onLine .poll (withPrinter { printing0 with outstanding := some 1, couponTimer := true } selling))).spoils.map
      (fun e => (e.first, e.count, e.cause)) = [(1010, 2, .skipped)] := by decide +kernel
/-- The third miss raises NO_RESPONSE, and the job is abandoned to the queue (R27, R37, R69). -/
theorem test_third_miss :
    (fun t : State => ((t.printer 0).state, (t.printer 0).queue, t.faults.map fun r => r.latest))
      (after (.exchangeTimeout .a) (onLine .poll (withPrinter { printing0 with misses := 2 } selling)))
      = (.faulted, [0], [.lineError, .noResponse]) := by decide +kernel
/-- The first LOAD that ends with the pack's next makes the printer READY (R9). -/
theorem test_load : (fun t : State => ((t.printer 0).state, (t.pack 0).map fun k => k.state))
    (after (.serial .a 1010) (onLine .sense (withPrinter
      { restPrinter .sensing with sense := .load, command := .sense }
      (up.setPack 0 (some { pack0 with state := .loading, prior := some .inStore })))))
      = (.ready, some .loaded) := by decide +kernel
/-- A STATUS IDLE in PROBE with no pack: UNLOADED (R35). -/
theorem test_probe_idle : ((after (.status .a .idle) (onLine .poll up)).printer 0).state = .unloaded := by decide +kernel
/-- Another serial than the pack's next ends the resynchronising sense in SERIAL_ORDER, and no blank at the print position
in STOCK_OUT with the blanks left as its detail (R36, R39). -/
theorem test_resync_fails : [1009, 0].map (fun n => ((after (.serial .a n) (onLine .poll (withPrinter
    { restPrinter .faulted with sense := .resync } trading))).faults.map fun r => (r.latest, r.detail)))
      = [[(.serialOrder, some 1009)], [(.stockOut, some 90)]] := by decide +kernel
/-- A restart whose read of the memory fails takes the defaults, and the next one the image (R193). -/
theorem test_failed_read : [[true], []].map (fun l => (warmRestart .request { up with
    memory := some (imageOf { defaultParams with voidWindow := 60 }), readFails := l }).params.voidWindow)
      = [defaultParams.voidWindow, 60] := by decide +kernel
/-- An absent memory gives SAVE COMPLETE no good end (R193, R194; log entry 21). -/
theorem test_absent_memory : (after (.saveComplete true) { up with save := some [], memory := none }).memory = none := by decide +kernel
/-- A break empties the port, and S is told (R185). -/
theorem test_break : ((after (.portBreak w0) up).port .sup).outq = [.notice (.portReset 0)] := by decide +kernel
/-- The clock wraps at midnight (R197). -/
theorem test_clock : (after .clockTick { up with clock := 86399 }).clock = 0 := by decide +kernel

/-! ### Witnesses: for each statement, and each clause of it, a state and operands that meet its hypotheses -/

theorem witness_OpenSessionMakesRecord :
    Accepts w0 (tagged 1) (.openSession w0 (tagged 1) 9999 10000000 none) [] up
      ∧ up.presentWindow w0 none = some 0 ∧ up.mode = .opened ∧ up.windowSession 0 .opened = none
      ∧ up.windowSession 0 .closing = none ∧ lowestFree up.sessions = some 0 := by decide +kernel

theorem witness_CloseAndForceClose_close :
    trading.session 0 = some (session0 .opened) ∧ trading.sessionOf 1 = some 0
      ∧ Accepts w0 (tagged 1) (.closeSession w0 (tagged 1) none) [] trading ∧ requestWindow w0 none = some 0
      ∧ trading.windowSession 0 .opened = some 0 ∧ trading.slot 0 = none ∧ trading.liveJobs 1 = 0
      ∧ (∀ q, (trading.printer q).state = .ready → (trading.printer q).waiting = true →
        (trading.printer q).queue ≠ []) := by decide +kernel

theorem witness_CloseAndForceClose_force :
    Accepts .sup (tagged 1) (.forceClose .sup (tagged 1) 1) [] trading ∧ (session0 .opened).forced = false
      ∧ trading.slot 0 = none ∧ trading.liveJobs 1 = 0 := by decide +kernel

theorem witness_CloseAndForceClose_forceCounting :
    Accepts .sup (tagged 1) (.forceClose .sup (tagged 1) 1) [] (up.setSession 0 (some (session0 .counting)))
      ∧ (up.setSession 0 (some (session0 .counting))).session 0 = some (session0 .counting)
      ∧ (up.setSession 0 (some (session0 .counting))).sessionOf 1 = some 0 := by decide +kernel

/-- The ticket of two coupons in the list. -/
def sold : State := { trading with issues := [ticket] }

theorem witness_VoidPosted :
    Accepts w0 (tagged 1) (.voidTicket w0 (tagged 1) 1003) [] sold ∧ sold.mode = .opened
      ∧ sold.issueOf 1003 = some ticket ∧ ticket.state = .issued ∧ sold.lateVoidPending ticket = false
      ∧ sold.sessionOf 1 = some 0 ∧ sold.session 0 = some (session0 .opened)
      ∧ (∀ w, w0 = .win w → sold.hold w = false ∧ sold.windowSession w .opened = some 0
        ∧ ticketAge sold ticket ≤ sold.params.voidWindow)
      ∧ (voidRuns ticket).length ≤ sold.unreserved ∧ sold.packOf 1002 = some 0 ∧ sold.pack 0 = some pack0
      ∧ ticket.serials.length ≤ pack0.issued := by decide +kernel

/-- The same, one second after the void window. -/
def soldLate : State := { sold with clock := 301 }

theorem witness_LateVoidAndRefundReferred_void :
    Accepts w0 (tagged 1) (.voidTicket w0 (tagged 1) 1002) [] soldLate ∧ soldLate.hold 0 = false
      ∧ soldLate.windowSession 0 .opened = some 0 ∧ soldLate.slot 0 = none ∧ soldLate.issueOf 1002 = some ticket
      ∧ soldLate.lateVoidPending ticket = false ∧ ticket.session = (session0 .opened).number
      ∧ soldLate.params.voidWindow < ticketAge soldLate ticket := by decide +kernel

theorem witness_LateVoidAndRefundReferred_refund :
    Accepts w0 (tagged 1) (.refund w0 (tagged 1) 1002 101 0 none) [] { sold with params := { sold.params with refundLimit := 100 } }
      ∧ toTender 0 = some .cash ∧ sold.issueOf 1002 = some ticket ∧ (101 : Nat) ≤ ticket.fare
      ∧ ({ sold with params := { sold.params with refundLimit := 100 } } : State).params.refundLimit < 101 := by
  decide +kernel

theorem witness_LateVoidAndRefundReferred_unlisted :
    Accepts w0 (tagged 1) (.refund w0 (tagged 1) 999 1 0 none) [] sold ∧ sold.issueOf 999 = none := by decide +kernel

theorem witness_RefundPosted :
    Accepts w0 (tagged 1) (.refund w0 (tagged 1) 1002 640 0 none) [] sold ∧ sold.presentWindow w0 none = some 0
      ∧ sold.hold 0 = false ∧ toTender 0 = some .cash ∧ sold.windowSession 0 .opened = some 0
      ∧ sold.sessionOf 1 = some 0 ∧ sold.issueOf 1002 = some ticket ∧ ticket.state = .issued
      ∧ sold.lateVoidPending ticket = false ∧ (640 : Nat) ≤ ticket.fare ∧ (640 : Nat) ≤ sold.params.refundLimit := by
  decide +kernel

def asked : State := sold.setSlot 0 (some (slot0 .refund))

theorem witness_AnswerAndExpiry :
    asked.slot 0 = some (slot0 .refund) ∧ Accepts .sup (tagged 1) (.answer .sup (tagged 1) 0 1002 1) [] asked
      ∧ Accepts .sup (tagged 1) (.answer .sup (tagged 1) 0 1002 0) [] asked ∧ toWindow 0 = some 0
      ∧ asked.sessionOf 1 = some 0 ∧ asked.session 0 = some (session0 .opened) ∧ asked.live = true := by decide +kernel

theorem witness_QuerySessionReplies :
    trading.session 0 = some (session0 .opened)
      ∧ Accepts w0 (tagged 1) (.querySession w0 (tagged 1) (some 1)) [] trading ∧ trading.sessionOf 1 = some 0
      ∧ Accepts w0 (tagged 1) (.querySession w0 (tagged 1) none) [] trading
      ∧ (trading.windowSession 0 .opened).or (trading.windowSession 0 .closing) = some 0
      ∧ Accepts .sup (tagged 1) (.querySession .sup (tagged 1) (some 1)) [] trading := by decide +kernel

/-- A session that awaits its count. -/
def counted : State := up.setSession 0 (some (session0 .counting))

theorem witness_DeclareReconciles :
    Accepts w0 (tagged 1) (.declare w0 (tagged 1) 1 99999999 2000 0 0 999) [] counted ∧ counted.sessionOf 1 = some 0
      ∧ counted.session 0 = some (session0 .counting)
      ∧ (∀ w, w0 = .win w → (session0 .counting).window = w ∧ (session0 .counting).forced = false) := by decide +kernel

def reconciled : State := up.setSession 0 (some balanced0)

theorem witness_RecountAndRetire :
    reconciled.sessionOf 1 = some 0 ∧ reconciled.session 0 = some balanced0 ∧ balanced0.state = .reconciled
      ∧ Accepts .sup (tagged 1) (.recount .sup (tagged 1) 1) [] reconciled ∧ balanced0.recounts < 2
      ∧ Accepts .sup (tagged 1) (.cashUpReport .sup (tagged 1) 1 0) [] reconciled
      ∧ Accepts .sup (tagged 1) (.cashUpReport .sup (tagged 1) 1 1) [] reconciled
      ∧ balanced0.declaration = some declared0 ∧ balanced0.results.isSome = true := by decide +kernel

theorem witness_RecountAndRetire_refused :
    Accepts .sup (tagged 1) (.recount .sup (tagged 1) 0) [] up
      ∧ Accepts .sup (tagged 1) (.recount .sup (tagged 1) 65535) [] up ∧ up.sessionOf 65535 = none
      ∧ Accepts .sup (tagged 1) (.recount .sup (tagged 1) 1) [] counted ∧ counted.sessionOf 1 = some 0
      ∧ (session0 .counting).state ≠ .reconciled
      ∧ Accepts .sup (tagged 1) (.recount .sup (tagged 1) 1) [] (up.setSession 0 (some { balanced0 with recounts := 2 }))
      ∧ (up.setSession 0 (some { balanced0 with recounts := 2 })).sessionOf 1 = some 0 := by decide +kernel

theorem witness_BlindDeclaration : counted.session 0 = some (session0 .counting) := by decide +kernel

theorem witness_DayCloseReports :
    Accepts .sup (tagged 1) (.dayClose .sup (tagged 1)) [] up ∧ up.mode = .opened ∧ (∀ i, up.session i = none)
      ∧ (∀ j, up.job j = none) := by decide +kernel

theorem witness_DayCloseReports_packs :
    Accepts .sup (tagged 1) (.dayClose .sup (tagged 1)) [] (up.setPack 3 (some { stored with state := .returned }))
      ∧ (up.setPack 3 (some { stored with state := .returned })).mode = .opened := by decide +kernel

theorem witness_DayOpenBegins :
    Accepts .sup (tagged 1) (.dayOpen .sup (tagged 1)) [] nightly ∧ nightly.mode = .night
      ∧ Accepts .sup (tagged 1) (.dayOpen .sup (tagged 1)) [] up ∧ up.mode = .opened := by decide +kernel

theorem witness_NightRefusesTillBusiness :
    Accepts w0 (tagged 1) (.openSession w0 (tagged 1) 7 0 none) [] nightly
      ∧ Accepts w0 (tagged 1) (.sell w0 (tagged 1) 0 1 320 0 [] none) [] nightly
      ∧ Accepts w0 (tagged 1) (.voidTicket w0 (tagged 1) 1002) [] nightly
      ∧ Accepts w0 (tagged 1) (.refund w0 (tagged 1) 1002 640 0 none) [] nightly
      ∧ (nightly.presentWindow w0 none).isSome = true := by decide +kernel

theorem witness_DayReportAndQueryOffice :
    Accepts .sup (tagged 1) (.dayReport .sup (tagged 1) 0 none) [] up
      ∧ Accepts .sup (tagged 1) (.dayReport .sup (tagged 1) 0 none) [] nightly
      ∧ Accepts .sup (tagged 1) (.dayReport .sup (tagged 1) 1 (some 31)) [] nightly
      ∧ Accepts .sup (tagged 1) (.dayReport .sup (tagged 1) 2 none) [] nightly ∧ nightly.report.isSome = true
      ∧ Accepts w0 (tagged 1) (.queryOffice w0 (tagged 1)) [] up
      ∧ Accepts .sup (tagged 1) (.queryOffice .sup (tagged 1)) [] up := by
  repeat' apply And.intro
  all_goals decide +kernel

theorem witness_ClockAndSetTime :
    up.clock < 86400 ∧ Accepts .sup (tagged 1) (.setTime .sup (tagged 1) 86399) [] up
      ∧ Accepts .sup (tagged 1) (.setTime .sup (tagged 1) 86400) [] up := by decide +kernel

theorem witness_ReceivePackMakesRecord :
    Accepts .sup (tagged 1) (.receivePack .sup (tagged 1) 1 2000) [] up ∧ lowestFree up.packs = some 0
      ∧ up.spoils = [] ∧ up.issues = [] ∧ ∀ j, up.pack j = none := by decide +kernel

theorem witness_ReceivePackRefusals_range :
    Accepts .sup (tagged 1) (.receivePack .sup (tagged 1) 1 2001) [] up ∧ ¬(2001 + 1 - 1 ≤ 2000) := by decide +kernel

theorem witness_ReceivePackRefusals_overlap :
    Accepts .sup (tagged 1) (.receivePack .sup (tagged 1) 1099 1100) [] trading ∧ trading.pack 0 = some pack0
      ∧ pack0.first ≤ 1100 ∧ 1099 ≤ pack0.last := by decide +kernel

/-- A register with all 32 records in use. -/
def fullStock : State := { up with packs := Vector.replicate 32 (some { pack0 with state := .returned, printer := none }) }

theorem witness_ReceivePackRefusals_full :
    Accepts .sup (tagged 1) (.receivePack .sup (tagged 1) 1100 1100) [] fullStock
      ∧ ∀ j, (fullStock.pack j).isSome = true := by decide +kernel

/-- A pack in the store and P0 without one. -/
def toLoad : State := withPrinter (restPrinter .unloaded) (up.setPack 0 (some stored))

theorem witness_LoadPackBegins :
    Accepts .sup (tagged 1) (.loadPack .sup (tagged 1) 2099 0) [] toLoad ∧ toPrinter 0 = some 0
      ∧ toLoad.packOf 2099 = some 0 ∧ toLoad.pack 0 = some stored ∧ stored.state = .partUsed
      ∧ (toLoad.printer 0).state = .unloaded ∧ toLoad.loadedAt 0 = none ∧ toLoad.loadingAt 0 = none
      ∧ (toLoad.printer 0).sense ≠ .resync := by decide +kernel

theorem witness_UnloadPackTakesOut :
    Accepts .sup (tagged 1) (.unloadPack .sup (tagged 1) 0) [] trading ∧ (trading.printer 0).state = .ready
      ∧ (trading.printer 0).sense ≠ .resync ∧ (trading.printer 0).queue = [] ∧ (trading.printer 0).waiting = false
      ∧ trading.loadedAt 0 = some 0 ∧ trading.pack 0 = some pack0 ∧ pack0.inPrint = [] := by decide +kernel

theorem witness_ReturnAndWriteOff :
    Accepts .sup (tagged 1) (.returnPack .sup (tagged 1) 2000) [] toLoad
      ∧ Accepts .sup (tagged 1) (.writeOff .sup (tagged 1) 2000 90) [] toLoad ∧ toLoad.packOf 2000 = some 0
      ∧ toLoad.pack 0 = some stored ∧ 90 ≤ stored.last + 1 - stored.next ∧ 1 ≤ toLoad.unreserved := by decide +kernel

theorem witness_QueryRecordsReply :
    Accepts w0 (tagged 5) (.queryPack w0 (tagged 5) (.index 0)) [] selling ∧ selling.pack 0 = some pack0
      ∧ (selling.pair 0).primary = 0 ∧ Accepts w0 (tagged 5) (.queryPrinter w0 (tagged 5) 0) [] selling
      ∧ Accepts w0 (tagged 5) (.queryJob w0 (tagged 5) none) [] selling ∧ selling.jobOfTag w0 5 = some 0
      ∧ selling.job 0 = some (job0 .printing)
      ∧ Accepts .sup (tagged 5) (.queryJob .sup (tagged 5) (some (.number 0))) [] selling
      ∧ Accepts .sup (tagged 5) (.queryJob .sup (tagged 5) (some (.ofPort 0))) [] selling
      ∧ toPort 0 = some w0 := by
  repeat' apply And.intro
  all_goals decide +kernel

theorem witness_SellQueues :
    Accepts w0 (tagged 6) (.sell w0 (tagged 6) 3 4 999999 0 [] none) [] selling ∧ selling.presentWindow w0 none = some 0
      ∧ selling.mode = .opened ∧ selling.recordsLostOpen = false ∧ selling.hold 0 = false
      ∧ selling.windowSession 0 .opened = some 0 ∧ selling.session 0 = some (session0 .opened)
      ∧ toTicketKind 3 = some .reservation ∧ couponsOk .reservation 4 = true ∧ textsOk [] = true
      ∧ selling.jobOfTag w0 6 = none ∧ selling.admits w0 = true ∧ selling.route 0 = some 0
      ∧ lowestFree selling.jobs = some 1 ∧ (selling.printer 0).state = .printing
      ∧ (1 : JobNo) ∉ (selling.printer 0).queue := by decide +kernel

theorem witness_SellStarts :
    Accepts w0 (tagged 5) (.sell w0 (tagged 5) 0 1 320 0 [] none) [] trading ∧ trading.recordsLostOpen = false
      ∧ trading.jobOfTag w0 5 = none ∧ trading.admits w0 = true ∧ trading.route 0 = some 0
      ∧ lowestFree trading.jobs = some 0 ∧ (trading.printer 0).state = .ready ∧ (trading.printer 0).queue = []
      ∧ (trading.printer 0).waiting = false ∧ trading.loadedAt 0 = some 0 ∧ trading.pack 0 = some pack0
      ∧ (1 : Nat) ≤ pack0.last + 1 - pack0.next ∧ 10 ≤ trading.unreserved := by decide +kernel

theorem witness_TestPrintQueues :
    Accepts .sup (tagged 7) (.testPrint .sup (tagged 7) 0 [[65]]) [] selling ∧ toPrinter 0 = some 0
      ∧ textsOk [[65]] = true ∧ selling.jobOfTag .sup 7 = none ∧ (selling.printer 0).state ≠ .absent
      ∧ (selling.printer 0).state ≠ .ready ∧ (selling.printer 0).sense ≠ .resync ∧ selling.admits .sup = true
      ∧ (selling.printer 0).queue.length + 1 < 16 ∧ lowestFree selling.jobs = some 1 := by decide +kernel

/-- The sale waits at P0, which prints another. -/
def waitingSale : State :=
  (withPrinter { printing0 with job := some 1, queue := [0] } (trading.setJob 0 (some (job0 .queued)))).setJob 1
    (some { job0 .printing with tag := 6 })

theorem witness_CancelWithdraws :
    Accepts w0 (tagged 5) (.cancel w0 (tagged 5) none) [] waitingSale ∧ jobPort w0 none = some w0
      ∧ waitingSale.jobOfTag w0 5 = some 0 ∧ waitingSale.job 0 = some (job0 .queued)
      ∧ (waitingSale.printer 0).state ≠ .ready
      ∧ Accepts w0 (tagged 6) (.cancel w0 (tagged 6) none) [] waitingSale ∧ waitingSale.jobOfTag w0 6 = some 1
      ∧ Accepts w0 (tagged 8) (.cancel w0 (tagged 8) none) [] waitingSale ∧ waitingSale.jobOfTag w0 8 = none := by
  decide +kernel

theorem witness_CancelWithdraws_session : ∀ i y, waitingSale.session i = some y → (job0 .queued).session = some y.number →
    y.state ≠ .closing := by
  have h : ∀ i, (waitingSale.session i).all (fun y => y.state != .closing) = true := by decide +kernel
  intro i y hy _ e
  have := h i
  rw [hy] at this
  simp [e] at this

theorem witness_ServiceOutAndIn :
    Accepts .sup (tagged 1) (.serviceOut .sup (tagged 1) 0) [] trading ∧ (trading.printer 0).queue = []
      ∧ (trading.printer 0).waiting = false ∧ (trading.printer 0).outOfService = false
      ∧ Accepts .sup (tagged 1) (.serviceIn .sup (tagged 1) 0) []
        (withPrinter { restPrinter .outOfService with outOfService := true } trading) := by decide +kernel

/-- Job 0 waits at P0, whose context is `c`, and job 2 is PRINTING; P1's context is `d`, and P2 waits on space. -/
def parked (c d : Printer) : State :=
  ((withPrinter { c with queue := [0] } ((trading.setJob 0 (some (job0 .queued))).setJob 2
    (some (job0 .printing)))).setPrinter 1 d).setPrinter 2 { restPrinter .probe with waiting := true }

/-- What the statement asks of such a state. -/
abbrev ServiceOutAsks (c d : Printer) : Prop :=
  Accepts .sup (tagged 1) (.serviceOut .sup (tagged 1) 0) [] (parked c d)
    ∧ ((parked c d).printer 0).outOfService = false ∧ ((parked c d).printer 0).queue = [0]
    ∧ (parked c d).job 0 = some (job0 .queued) ∧ ((parked c d).pair 0).primary = 0
    ∧ ((parked c d).pair 0).alternate = some 1

theorem witness_ServiceOutDiverts :
    ServiceOutAsks { restPrinter .printing with job := some 2 } (restPrinter .printing)
      ∧ ServiceOutAsks { restPrinter .printing with job := some 2 } (restPrinter .unloaded)
      ∧ ServiceOutAsks (restPrinter .faulted) (restPrinter .printing)
      ∧ ServiceOutAsks { restPrinter .ready with waiting := true } (restPrinter .printing)
      ∧ ((parked (restPrinter .faulted) (restPrinter .printing)).printer 2).waiting = true := by
  repeat' apply And.intro
  all_goals decide +kernel

theorem witness_AssignHoldRelease :
    toWindow 11 = some 11 ∧ up.windowPresent 11 = true
      ∧ Accepts .sup (tagged 1) (.assignPrinters .sup (tagged 1) 11 7 (some 0)) [] up ∧ toPrinter 7 = some 7
      ∧ (up.printer 7).state ≠ .absent ∧ (up.printer 0).state ≠ .absent
      ∧ Accepts .sup (tagged 1) (.assignPrinters .sup (tagged 1) 11 7 none) [] up
      ∧ Accepts .sup (tagged 1) (.hold .sup (tagged 1) 11) [] up ∧ up.hold 11 = false
      ∧ Accepts .sup (tagged 1) (.release .sup (tagged 1) 11) [] (up.setHold 11 true)
      ∧ (up.setHold 11 true).hold 11 = true := by
  repeat' apply And.intro
  all_goals decide +kernel

theorem witness_RaiseMakesRecord :
    up.faults.length < 40 ∧ (∀ r ∈ up.faults, mergesInto .jam (some 0) r = false)
      ∧ 1 ≤ up.faultCounter ∧ up.faultCounter ≤ 65535 ∧ selling.faults.length < 40
      ∧ ((some (0 : PrinterId)).bind fun p => (selling.printer p).job).bind selling.job = some (job0 .printing) := by
  decide +kernel

/-- R102: the counter passes over a number that is held, and 1 follows 65,535. -/
theorem test_counter_skips :
    nextFaultNumber [{ record0 .closed .jam with number := 1 }, { record0 .closed .jam with number := 2 }] 65535 = 3 := by
  decide +kernel

/-- One fault record in the log. -/
def faulty (r : FaultRecord) : State := { up with faults := [r], faultCounter := 2 }

theorem witness_RaiseMerges :
    (faulty (record0 .acknowledged .jam)).faults.find? (mergesInto .cutter (some 0)) = some (record0 .acknowledged .jam)
      ∧ severityOf .cutter = .stop
      ∧ ((faulty (record0 .acknowledged .jam)).faults.map fun x => x.number).Nodup
      ∧ (faulty (record0 .cleared .stockLow)).faults.find? (mergesInto .stockLow (some 0)) = some (record0 .cleared .stockLow)
      ∧ (faulty (record0 .cleared .lineError)).faults.find? (mergesInto .lineError (some 0))
        = some (record0 .cleared .lineError) := by decide +kernel

/-- A RECORDS_LOST record. -/
def lostRecord : FaultRecord := { record0 .opened .recordsLost with printer := none }

theorem witness_AcknowledgeFault :
    Accepts w0 (tagged 1) (.ackFault w0 (tagged 1) 1) [] (faulty (record0 .opened .jam))
      ∧ (faulty (record0 .opened .jam)).faultOf 1 = some (record0 .opened .jam)
      ∧ (faulty (record0 .opened .jam)).mayAcknowledge w0 (record0 .opened .jam) = true
      ∧ (record0 .opened .jam).present = true
      ∧ FaultKind.jam ∉ [FaultKind.couponTimeout, .headFault, .serialOrder, .recordsLost]
      ∧ Accepts .sup (tagged 1) (.ackFault .sup (tagged 1) 1) [] (faulty lostRecord)
      ∧ (faulty lostRecord).faultOf 1 = some lostRecord := by decide +kernel

theorem witness_AcknowledgeFault_lost :
    ClearedLeaves lostRecord (faulty lostRecord) (faulty lostRecord).printers (faulty lostRecord).freeReported :=
  .inl ⟨fun _ h => absurd h (by decide), rfl, rfl⟩

/-- P0, whose context is `c`, with a SERIAL_ORDER record; its pack is `k`. -/
def stopped (c : Printer) (k : Option Pack) : State :=
  { (withPrinter c trading).setPack 0 k with faults := [record0 .opened .serialOrder], faultCounter := 2 }

/-- The same with 250 entries in the spoil list and SPOIL_LIST_FULL standing. -/
def dry (c : Printer) : State :=
  { stopped c (some pack0) with
    spoils := List.replicate 250 { first := 1, count := 1, cause := .test, printer := none, session := none,
                                   fault := none, day := 1, time := 0 },
    faults := [record0 .opened .serialOrder,
      { record0 .acknowledged .spoilListFull with place := 1, number := 2, printer := none }] }

theorem witness_AcknowledgeFault_stop :
    Accepts w0 (tagged 1) (.ackFault w0 (tagged 1) 1) [] (stopped (restPrinter .faulted) (some pack0))
      ∧ (stopped (restPrinter .faulted) (some pack0)).faultOf 1 = some (record0 .opened .serialOrder)
      ∧ (stopped (restPrinter .faulted) (some pack0)).mayAcknowledge w0 (record0 .opened .serialOrder) = true
      ∧ (dry (restPrinter .faulted)).faultOf 1 = some (record0 .opened .serialOrder)
      ∧ ((dry (restPrinter .faulted)).faults.map fun x => x.number).Nodup := by decide +kernel

theorem witness_AcknowledgeFault_resync :
    ∃ printers free, ClearedLeaves (record0 .opened .serialOrder) (stopped (restPrinter .faulted) (some pack0)) printers free :=
  ⟨_, _, .inr ⟨0, _, rfl, rfl, by decide +kernel, by decide +kernel, rfl,
    .inl ⟨by decide +kernel, rfl, .inr (.inl ⟨by decide +kernel, by decide +kernel, rfl⟩)⟩⟩⟩

theorem witness_AcknowledgeFault_waits :
    ∃ printers free, ClearedLeaves (record0 .opened .serialOrder) (dry (restPrinter .faulted)) printers free :=
  ⟨_, _, .inr ⟨0, _, rfl, rfl, by decide +kernel, by decide +kernel, rfl,
    .inl ⟨by decide +kernel, rfl, .inr (.inr ⟨by decide +kernel, by decide +kernel, ⟨_, rfl, rfl, by decide⟩, rfl⟩)⟩⟩⟩

theorem witness_AcknowledgeFault_unloaded :
    ∃ printers free, ClearedLeaves (record0 .opened .serialOrder)
      (stopped { restPrinter .faulted with allowance := some 3 } none) printers free :=
  ⟨_, _, .inr ⟨0, _, rfl, rfl, by decide +kernel, by decide +kernel, rfl,
    .inr ⟨by decide +kernel, rfl, .inr ⟨⟨3, by decide +kernel, by decide⟩, by decide +kernel, by decide +kernel, rfl⟩⟩⟩⟩

theorem witness_FaultAndSpoilReads :
    Accepts .sup (tagged 1) (.closeFault .sup (tagged 1) 1 255) [] (faulty (record0 .cleared .lineError))
      ∧ (faulty (record0 .cleared .lineError)).faultOf 1 = some (record0 .cleared .lineError)
      ∧ Accepts .sup (tagged 1) (.faultRead .sup (tagged 1) 0 (some 1)) [] (faulty (record0 .opened .jam))
      ∧ Accepts .sup (tagged 1) (.faultRead .sup (tagged 1) 1 (some 1)) [] (faulty (record0 .closed .jam))
      ∧ (faulty (record0 .closed .jam)).faultOf 1 = some (record0 .closed .jam)
      ∧ Accepts .sup (tagged 1) (.spoilRead .sup (tagged 1) 0) [] up
      ∧ Accepts .sup (tagged 1) (.spoilRead .sup (tagged 1) 1) [] up ∧ (∀ q, (up.printer q).waiting = false)
      ∧ NoFullRecord up := by
  repeat' apply And.intro
  all_goals decide +kernel

theorem witness_ImageReadsBack : paramsOk defaultParams = true := paramsOk_default

/-- A write in hand at S. -/
def saving : State :=
  { up with save := some (imageOf defaultParams) }.modPort .sup fun q =>
    { q with hand := some { op := .save, code := 0x35, tag := 1, quiet := false, broken := false } }

/-- NIGHT with a job still in the table. -/
def nightJob : State := nightly.setJob 0 (some (job0 .queued))

theorem witness_SetAndSaveParameters_set :
    Accepts .sup (tagged 1) (.setParameter .sup (tagged 1) (.voidWindow 3600)) [] up
      ∧ Accepts .sup (tagged 1) (.setParameter .sup (tagged 1) (.voidWindow 3601)) [] up
      ∧ Accepts .sup (tagged 1) (.setParameter .sup (tagged 1) (.floor 3 50000)) [] up
      ∧ Accepts .sup (tagged 1) (.setParameter .sup (tagged 1) (.quota 11 4 16)) [] up ∧ up.mode = .opened := by
  decide +kernel

/-- R190, R195: what three changes make of the defaults, and one that is out of range. -/
theorem witness_SetAndSaveParameters_made :
    ChangeMade defaultParams (.voidWindow 3600) { defaultParams with voidWindow := 3600 } (.voidWindow 300)
      ∧ ChangeMade defaultParams (.linkRate 3) { defaultParams with linkRate := .r115200 } (.linkRate 1)
      ∧ ChangeMade defaultParams (.floor 3 50000)
        { defaultParams with floors := { cash := 100, card := 0, warrant := 0, voucher := 50000 } } (.floor 3 0)
      ∧ ChangeMade defaultParams (.quota 11 4 16)
        { defaultParams with quotas := put defaultParams.quotas 11 { res := 4, ceil := 16 } } (.quota 11 2 8)
      ∧ ∀ new old, ¬ChangeMade defaultParams (.voidWindow 3601) new old :=
  ⟨⟨by decide, rfl, rfl⟩, ⟨.r115200, 1, by decide, by decide, rfl, rfl⟩, ⟨.voucher, by decide, by decide, rfl, rfl⟩,
    ⟨11, rfl, by decide, by decide, by decide, rfl, rfl⟩, fun _ _ h => absurd h.1 (by decide)⟩

theorem witness_SetAndSaveParameters_quota :
    Accepts .sup (tagged 1) (.setParameter .sup (tagged 1) (.quota 11 4 16)) [] nightJob ∧ nightJob.mode = .night
      ∧ nightJob.job 0 ≠ none
      ∧ Accepts .sup (tagged 1) (.setParameter .sup (tagged 1) (.quota 11 4 16)) [] nightly ∧ nightly.mode = .night
      ∧ (∀ j, nightly.job j = none) := by decide +kernel

theorem witness_SetAndSaveParameters_save :
    Accepts .sup (tagged 1) (.saveParameters .sup (tagged 1)) [] up ∧ saving.live = true
      ∧ saving.save = some (imageOf defaultParams)
      ∧ ((saving.port .sup).hand.map fun x => (x.op, x.broken)) = some (.save, false)
      ∧ (∀ w, ((saving.port (.win w)).hand).isNone = true) ∧ saving.memory.map List.length = some 81
      ∧ ({ saving with memory := none } : State).memory = none := by
  decide +kernel

theorem witness_Steps : State.reset.pending = [] ∧ step State.reset = .next State.reset
    ∧ ({ up with pending := [.clockTick] } : State).pending = .clockTick :: [] := ⟨rfl, rfl, rfl⟩

/-- A part that trades, with a command waiting. -/
def busy : State := { trading with pending := [.clockTick] }

theorem busy_pack : ∀ i, busy.pack i = if i = 0 then some pack0 else none := by decide +kernel
theorem busy_session : ∀ i, busy.session i = if i = 0 then some (session0 .opened) else none := by decide +kernel

theorem witness_StepKeeps_step : ∃ t, step busy = .next t := ⟨_, rfl⟩
theorem witness_StepKeepsPacks : busy.PacksKept := fun i k h => by
  rw [busy_pack] at h; split at h
  · cases h; unfold Pack.Kept; decide
  · cases h
theorem witness_StepKeepsRanges : busy.RangesKept := fun i j k m hij h g => by
  rw [busy_pack] at h g; split at h <;> [skip; cases h]; split at g <;> [skip; cases g]
  exact absurd (by simp_all) hij
theorem busy_ports : ∀ i, look busy.ports i = restPort [] := by decide +kernel
theorem witness_StepKeepsPorts : busy.PortsKept := fun p => by
  show (look busy.ports (portIx p)).Kept
  rw [busy_ports]; unfold PortState.Kept; decide
theorem busy_printers : ∀ q, (busy.printer q).allowance = none := by decide +kernel
theorem witness_StepKeepsSpoilSpace : busy.SpaceKept :=
  ⟨by decide +kernel, fun q d h => by rw [busy_printers] at h; cases h⟩
theorem witness_StepKeepsListsAndNumbers : busy.ListsKept ∧ busy.NumbersKept := by
  unfold State.ListsKept State.NumbersKept; decide +kernel
theorem witness_StepKeepsCountersAndParams : busy.CountersKept ∧ busy.ParamsKept :=
  ⟨by unfold State.CountersKept; decide +kernel, paramsOk_default⟩
theorem witness_StepKeepsSessions : busy.SessionsKept := fun i x h => by
  rw [busy_session] at h; split at h
  · cases h; unfold Session.Kept; decide
  · cases h

theorem witness_ParseReadsEncoding :
    requestHead (.setTime .sup (tagged 4294967295) 86399) = some (.sup, tagged 4294967295)
      ∧ wellFormed (.setTime .sup (tagged 4294967295) 86399) = true := by decide

theorem witness_NoEventWithoutSupply :
    ({ up with powered := false } : State).powered = false ∧ ({ up with resetLow := true } : State).resetLow = true :=
  ⟨rfl, rfl⟩

/-- A VOID in NIGHT is refused OFFICE_CLOSED. -/
theorem witness_RefusalLeavesRecords :
    (match (after (.voidTicket w0 (tagged 1) 1002) nightly).port w0 |>.outq with
      | [.reply r] => r.result
      | _ => .done) = .officeClosed ∧ hasReply (nightly.port w0).outq = false
      ∧ requestHead (.voidTicket w0 (tagged 1) 1002) = some (w0, tagged 1) := by decide +kernel

/-- A port whose last request was refused. -/
def refusedOnce : State := up.modPort w0 fun q => { q with previous := .refused }

theorem witness_PortChecks :
    refusedOnce.canTake w0 = true ∧ parseRequest w0 [] = none ∧ refusedOnce.offered w0 [] = some []
      ∧ wellFormed (.queryOffice w0 { tagged 1 with chain := true }) = true
      ∧ refusedOnce.offered w0 (requestBody (.queryOffice w0 { tagged 1 with chain := true })) = some []
      ∧ (refusedOnce.port w0).previous = .refused
      ∧ wellFormed (.dayClose w0 (tagged 1)) = true ∧ supervisorCode 0x30 = true
      ∧ refusedOnce.offered w0 (requestBody (.dayClose w0 (tagged 1))) = some [] := by decide +kernel

theorem witness_Receivers :
    up.hears w0 ∧ (up.port w0).receiver = .idle ∧ (List.replicate 200 (0 : Byte)).length ≤ 200
      ∧ ((up.modPort w0 fun q => { q with receiver := .inFrame [1] }).port w0).receiver = .inFrame [1]
      ∧ ((up.modPort w0 fun q => { q with receiver := .lineLow }).port w0).receiver = .lineLow
      ∧ (State.reset.port w0).outq ≠ [] := by decide +kernel

/-- P0 with a command pending, the position at P3. -/
def pendingAt (c : LineCommand) : State := withPrinter { printing0 with command := c } selling

theorem witness_ArbiterTurns :
    (pendingAt .none).live = true ∧ ((pendingAt .none).line .a).breaking = false
      ∧ ((pendingAt .none).line .a).exchange = none ∧ printerAt .a 0 = 0
      ∧ ((pendingAt .none).printer 0).state ≠ .absent
      ∧ (∀ m : Fin 4, ¬(m - (((pendingAt .none).line .a).position + 1) < 0 - (((pendingAt .none).line .a).position + 1)))
      ∧ ((pendingAt .sense).printer 0).command = .sense ∧ ((pendingAt (.print 1)).printer 0).command = .print 1
      ∧ (pendingAt (.print 1)).jobInPrint 0 = some (job0 .printing)
      ∧ (pendingAt (.print 1)).loadedPack 0 = some pack0 ∧ 1 + 1 - 1 ≤ pack0.last + 1 - pack0.next := by decide +kernel

/-- The same with the pack used up, and the sale diverted before. -/
def runOut : State :=
  ((pendingAt (.print 1)).setPack 0 (some { pack0 with next := 1100 })).setJob 0
    (some { job0 .printing with diverted := true })

theorem witness_ArbiterTurns_out :
    runOut.live = true ∧ runOut.loadedPack 0 = some { pack0 with next := 1100 } ∧ (1099 + 1 - 1100 : Nat) < 1 + 1 - 1
      ∧ runOut.jobInPrint 0 = some { job0 .printing with diverted := true } ∧ (runOut.printer 0).job = some 0
      ∧ (runOut.printer 0).state = .printing ∧ (runOut.printer 0).queue = [] ∧ (runOut.printer 0).sense = .none
      ∧ (runOut.printer 0).waiting = false ∧ (runOut.printer 0).command = .print 1
      ∧ (runOut.printer 0).unconfirmed = false ∧ runOut.faults = [] ∧ runOut.faultCounter = 1
      ∧ (∀ m, (runOut.session m).all (fun y => y.state != .closing) = true) := by decide +kernel

theorem witness_StatusDecides :
    Answers .a (exchangeA (.print 1)) (onLine (.print 1) (pendingAt (.print 1)))
      ∧ ((onLine (.print 1) (pendingAt (.print 1))).printer 0).command = .print 1
      ∧ ((onLine (.print 1) (pendingAt (.print 1))).printer 0).reported = none
      ∧ ((onLine (.print 1) (pendingAt (.print 1))).printer 0).declined < 2
      ∧ Answers .a (exchangeA .sense) (onLine .sense (pendingAt .sense))
      ∧ Answers .a (exchangeA .poll) (onLine .poll (pendingAt .none))
      ∧ Answers .a (exchangeA .poll) (onLine .poll (withPrinter { restPrinter .faulted with reported := some .jam } up))
      ∧ Answers .a (exchangeA .poll) (onLine .poll trading) ∧ (trading.printer 0).state = .ready
      ∧ (trading.printer 0).job = none := by decide +kernel

/-- A coupon outstanding on P0. -/
def outstanding0 (x : Job) : State :=
  onLine .poll (withPrinter { printing0 with outstanding := some 1, couponTimer := true } (trading.setJob 0 (some x)))

theorem witness_CouponReported :
    Answers .a (exchangeA .poll) (outstanding0 { job0 .printing with coupons := 2, kind := .returnTrip })
      ∧ ((outstanding0 (job0 .printing)).printer 0).outstanding = some 1
      ∧ (outstanding0 (job0 .printing)).job 0 = some (job0 .printing)
      ∧ (outstanding0 (job0 .printing)).loadedAt 0 = some 0 ∧ (outstanding0 (job0 .printing)).pack 0 = some pack0
      ∧ NoStockLow pack0 (outstanding0 (job0 .printing)) ∧ (job0 .printing).bad = 0
      ∧ ((outstanding0 (job0 .printing)).printer 0).allowance = some 0 ∧ NoFullRecord (outstanding0 (job0 .printing))
      ∧ (outstanding0 (job0 .printing)).sessionOf 1 = some 0
      ∧ (outstanding0 (job0 .printing)).session 0 = some (session0 .opened) := by decide +kernel

/-- P0 FAULTED after COUPON_TIMEOUT in session 1, its allowance held; whether that session has been retired since. -/
def late0 (gone : Bool) : State :=
  onLine .poll (withPrinter { restPrinter .faulted with allowance := some 0 }
    { trading with
      faults := [{ record0 .opened .couponTimeout with session := some 1, sessionOver := gone }], faultCounter := 2 })

theorem witness_CouponReported_late :
    [true, false].all (fun b => decide (Answers .a (exchangeA .poll) (late0 b)) && (late0 b).loadedAt 0 == some 0
      && (late0 b).pack 0 == some pack0 && ((late0 b).printer 0).outstanding == none
      && ((late0 b).stopRecord 0).isSome && (late0 b).session 0 == some (session0 .opened)) = true
      ∧ NoFullRecord (late0 true) ∧ NoFullRecord (late0 false) ∧ NoStockLow pack0 (late0 true)
      ∧ ((late0 true).stopRecord 0).map (fun r => (r.session, r.sessionOver)) = some (some 1, true)
      ∧ ((late0 false).stopRecord 0).map (fun r => (r.session, r.sessionOver)) = some (some 1, false) := by
  decide +kernel

/-- R93, R128, R160: the blank of a late report is charged to the session of the record, but not once that session has
been retired, although another session holds its number. -/
theorem test_late_charge : [true, false].map (fun b => (fun t : State => ((t.session 0).map fun x => x.spoiltAbandoned,
      t.spoils.map fun e => e.session, t.faults.map fun r => r.blanks)) (after (.coupon .a 1010 .good) (late0 b)))
    = [(some 0, [some 1], [1]), (some 1, [some 1], [1])] := by decide +kernel

/-- R160: the retirement of session 1 is what marks the record. -/
theorem test_retire_marks : (after (.cashUpReport .sup (tagged 1) 1 1) { reconciled with
      faults := [{ record0 .opened .couponTimeout with session := some 1 }] }).faults.map (fun r => r.sessionOver)
    = [true] := by decide +kernel

theorem witness_TicketIssued :
    Answers .a (exchangeA .poll) (outstanding0 (job0 .printing))
      ∧ ((outstanding0 (job0 .printing)).printer 0).state = .printing
      ∧ ((outstanding0 (job0 .printing)).printer 0).queue = [] ∧ (job0 .printing).coupons = 1
      ∧ (job0 .printing).kind ≠ .test ∧ (outstanding0 (job0 .printing)).issues.length < 256
      ∧ (∀ r, ((outstanding0 (job0 .printing)).printer r).waiting = false) := by decide +kernel

/-- A LOAD PACK in hand at S, the printer sensing. -/
def loading0 : State :=
  (onLine .sense (withPrinter { restPrinter .sensing with sense := .load }
    (up.setPack 0 (some { pack0 with state := .loading, prior := some .inStore })))).modPort .sup fun q =>
      { q with hand := some { op := .load 0, code := 0x09, tag := 1, quiet := false, broken := false } }

theorem witness_SerialEndsSense_load :
    loading0.live = true ∧ (loading0.line .a).exchange = some (exchangeA .sense) ∧ (loading0.printer 0).waiting = false
      ∧ (loading0.printer 0).misses ≠ 3 ∧ (loading0.printer 0).sense = .load ∧ (loading0.printer 0).state = .sensing
      ∧ loading0.loadingAt 0 = some 0 ∧ loading0.stopRecord 0 = none ∧ (loading0.printer 0).queue = []
      ∧ loading0.faults = [] ∧ loading0.params.stockLow < pack0.last + 1 - pack0.next
      ∧ ((loading0.port .sup).hand.map fun x => (x.op, x.broken)) = some (.load 0, false)
      ∧ (∀ w, ((loading0.port (.win w)).hand).isNone = true) := by decide +kernel

/-- The same at a FAULTED printer whose STOCK_OUT record is ACKNOWLEDGED. -/
def refilling : State :=
  { withPrinter { restPrinter .faulted with sense := .load, allowance := some 0 } loading0 with
    faults := [record0 .acknowledged .stockOut] }

theorem witness_SerialEndsSense_refill :
    refilling.live = true ∧ (refilling.line .a).exchange = some (exchangeA .sense) ∧ refilling.loadingAt 0 = some 0
      ∧ (refilling.printer 0).sense = .load ∧ (refilling.printer 0).state = .faulted
      ∧ refilling.stopRecord 0 = some (record0 .acknowledged .stockOut)
      ∧ ((refilling.port .sup).hand.map fun x => (x.op, x.broken)) = some (.load 0, false) := by decide +kernel

/-- The start-up sense of P0 under way. -/
def starting0 : State :=
  onLine .poll (withPrinter { restPrinter .probe with sense := .startUp, allowance := some 0 } trading)

/-- The resynchronising sense of P0 under way, at the last serial of its pack. -/
def resyncing0 : State :=
  { onLine .poll (withPrinter { restPrinter .faulted with sense := .resync, allowance := some 9 }
      (trading.setPack 0 (some { pack0 with next := 1098 }))) with
    faults := [record0 .cleared .jam] }

theorem witness_SerialEndsSense_start :
    starting0.live = true ∧ (starting0.line .a).exchange = some (exchangeA .poll)
      ∧ (starting0.printer 0).sense = .startUp ∧ (starting0.printer 0).state = .probe ∧ starting0.loadedAt 0 = some 0
      ∧ starting0.stopRecord 0 = none ∧ (starting0.printer 0).job = none ∧ (starting0.printer 0).queue = []
      ∧ (starting0.printer 0).allowance = some 0 ∧ (∀ r, (starting0.printer r).waiting = false)
      ∧ NoFullRecord starting0 ∧ pack0.next ≤ pack0.last ∧ 0 < pack0.next - 1
      ∧ starting0.params.stockLow < pack0.last + 1 - 1011 := by decide +kernel

theorem witness_SerialEndsSense_resync :
    resyncing0.live = true ∧ (resyncing0.line .a).exchange = some (exchangeA .poll)
      ∧ (resyncing0.printer 0).sense = .resync ∧ (resyncing0.printer 0).state = .faulted
      ∧ (resyncing0.printer 0).misses ≠ 3 ∧ resyncing0.loadedAt 0 = some 0 ∧ (resyncing0.printer 0).job = none
      ∧ (resyncing0.printer 0).queue = [] ∧ (resyncing0.printer 0).allowance = some 9
      ∧ (∀ r, (resyncing0.printer r).waiting = false) ∧ NoFullRecord resyncing0
      ∧ resyncing0.stopRecord 0 = some (record0 .cleared .jam)
      ∧ 1099 + 1 - 1098 ≤ resyncing0.params.stockLow := by decide +kernel

/-- R24, R25: the response is complete at its check character, and what follows it is no part of it. -/
theorem test_response_ends_at_check :
    (let c (b : Nat) : Char9 := { byte := BitVec.ofNat 8 b, mark := false, framing := false }
     readResponse 0 [c 0, c 0x60, c 0, c 0xA0, c 7] = some (.status .idle)
       ∧ readResponse 0 [c 0, c 0x60, c 2, c 1, c 0x9D] = some (.status (.fault .misfeed))
       ∧ readResponse 0 [c 0, c 0x60, c 0, c 0xA1] = none ∧ readResponse 0 [c 0, c 0x60, c 2, c 1] = none) := by
  decide +kernel

/-- R24, R25, R27: characters behind a good response make no miss of it. -/
theorem test_bad_response_good :
    (let c (b : Nat) : Char9 := { byte := BitVec.ofNat 8 b, mark := false, framing := false }
     let s := onLine .poll (withPrinter { restPrinter .ready with misses := 2 } trading)
     ((after (.badResponse .a [c 0, c 0x60, c 1, c 0x9F, c 7]) s).printer 0).misses = 0
       ∧ ((after (.badResponse .a [c 0, c 0x60, c 1, c 0x9E, c 7]) s).printer 0).misses = 3) := by decide +kernel

theorem witness_MissesCount :
    (onLine .poll trading).live = true ∧ ((onLine .poll trading).line .a).exchange = some (exchangeA .poll)
      ∧ readResponse 0 [] = none ∧ ((onLine .poll trading).printer 0).misses < 2
      ∧ ((onLine .poll (withPrinter { restPrinter .ready with misses := 2 } trading)).printer 0).misses = 2 := by
  decide +kernel

/-- A sale, diverted before, whose first coupon is outstanding. -/
def timedOut : State := outstanding0 { job0 .printing with diverted := true }

theorem witness_TimersRunOut_coupon :
    timedOut.live = true ∧ (timedOut.printer 0).couponTimer = true ∧ (timedOut.printer 0).state = .printing
      ∧ (timedOut.printer 0).job = some 0 ∧ (timedOut.printer 0).queue = [] ∧ (timedOut.printer 0).sense = .none
      ∧ (timedOut.printer 0).waiting = false ∧ timedOut.job 0 = some { job0 .printing with diverted := true }
      ∧ timedOut.loadedAt 0 = some 0 ∧ timedOut.pack 0 = some pack0 ∧ timedOut.faults = [] ∧ timedOut.faultCounter = 1
      ∧ (∀ i, (timedOut.session i).all (fun y => y.state != .closing) = true) := by decide +kernel

theorem witness_TimersRunOut_others :
    ((withPrinter { restPrinter .faulted with sense := .resync, senseTimer := true } trading).printer 0).senseTimer = true
      ∧ (State.reset.line .a).breaking = true ∧ State.reset.live = true := by decide +kernel

theorem witness_SuppliesAndReset :
    saving.resetLow = false ∧ saving.powered = true ∧ saving.save = some (imageOf defaultParams)
      ∧ ({ saving with powered := false } : State).powered = false := by decide +kernel

/-- Two runs in print on P0. -/
def inPrint0 : State := up.setPack 0 (some { pack0 with next := 1013, issued := 8, inPrint := [1010, 1012] })

/-- R85, R88: one ABANDONED entry for each run; R22: the blanks are spoiled. -/
theorem test_conversion : (fun t : State => (t.spoils.map fun e => (e.first, e.count), (t.pack 0).map fun k => k.spoiled))
    (warmRestart .request inPrint0) = ([(1010, 1), (1012, 1)], some 4) := by decide +kernel

theorem witness_RestartsRestore :
    Accepts .sup (tagged 1) (.restart .sup (tagged 1)) [] inPrint0 ∧ inPrint0.powered = true ∧ inPrint0.valid = true
      ∧ inPrint0.save = none
      ∧ ({ inPrint0 with resetLow := true } : State).resetLow = true ∧ inPrint0.coldPending = false
      ∧ (conversionEntries inPrint0).length = 2 ∧ inPrint0.spoils.length + 2 ≤ 256
      ∧ (inPrint0.faults.map fun r => r.number).Nodup ∧ inPrint0.faultCounter ∉ inPrint0.faults.map (fun r => r.number)
      ∧ (inPrint0.faults.filter isOpenFull).length ≤ 1 := by decide +kernel

theorem witness_RestartsRestore_cold :
    ({ up with resetLow := true, coldPending := true, valid := false } : State).powered = true
      ∧ ({ up with powered := false, valid := false } : State).resetLow = false := by decide +kernel

end Sys2Proof.Tests
end

