-- ==== Sys2Proof/Proofs/CashUp.lean ====
section
/-! The computation of a reconciliation (R149 to R154): what each of its definitions gives, and the statement about the
figures. The classes and the outcome are tables whose first row that applies decides, so each is said once as an `↔`. -/

namespace Sys2Proof.Machine

/-! ### Tables filled tender by tender -/

@[simp] theorem perTender_of {α : Type} (f : Tender → α) (t : Tender) : (perTender f).of t = f t := by
  cases t <;> rfl

theorem anyTender_iff (r : PerTender TenderResult) (c : TenderClass) :
    anyTender r c = true ↔ ∃ t, (r.of t).verdict = c := by
  constructor
  · intro h
    simp only [anyTender, Bool.or_eq_true, beq_iff_eq] at h
    obtain ((hcash | hcard) | hwarrant) | hvoucher := h
    · exact ⟨.cash, hcash⟩
    · exact ⟨.card, hcard⟩
    · exact ⟨.warrant, hwarrant⟩
    · exact ⟨.voucher, hvoucher⟩
  · rintro ⟨t, rfl⟩
    cases t <;> simp [anyTender, PerTender.of]

/-! ### The class of a tender (R152) -/

theorem classOf_clamped (v : Int) (tol : Nat) : classOf true v tol = .limit := rfl

theorem classOf_within {v : Int} {tol : Nat} (h : v.natAbs ≤ tol) : classOf false v tol = .balanced := by
  have hband : -(tol : Int) ≤ v ∧ v ≤ tol := by omega
  simp [classOf, hband]

theorem classOf_below {v : Int} {tol : Nat} (h : v < -(tol : Int)) : classOf false v tol = .short := by
  have hband : ¬ (-(tol : Int) ≤ v ∧ v ≤ tol) := by omega
  simp [classOf, hband, h]

theorem classOf_above {v : Int} {tol : Nat} (h : (tol : Int) < v) : classOf false v tol = .overs := by
  have hband : ¬ (-(tol : Int) ≤ v ∧ v ≤ tol) := by omega
  have hbelow : ¬ v < -(tol : Int) := by omega
  simp [classOf, hband, hbelow]

/-- The rows of R152 exclude each other: a variance is within the tolerance, below its band or above it. -/
theorem classOf_iff (b : Bool) (v : Int) (tol : Nat) :
    (classOf b v tol = .limit ↔ b = true)
      ∧ (classOf b v tol = .balanced ↔ b = false ∧ v.natAbs ≤ tol)
      ∧ (classOf b v tol = .short ↔ b = false ∧ v < -(tol : Int))
      ∧ (classOf b v tol = .overs ↔ b = false ∧ (tol : Int) < v) := by
  cases b with
  | true => simp [classOf_clamped]
  | false =>
    obtain hin | hlow | hhigh : v.natAbs ≤ tol ∨ v < -(tol : Int) ∨ (tol : Int) < v := by omega
    · simp [classOf_within hin]; omega
    · simp [classOf_below hlow]; omega
    · simp [classOf_above hhigh]; omega

/-! ### The class of the documents (R153) -/

theorem docClassOf_iff (n x : Nat) :
    (docClassOf n x = .stockOk ↔ n = x) ∧ (docClassOf n x = .stockShort ↔ n < x)
      ∧ (docClassOf n x = .stockOver ↔ x < n) := by
  obtain hlt | rfl | hgt := lt_trichotomy n x
  · simp [docClassOf, hlt, hlt.ne, hlt.le]
  · simp [docClassOf]
  · simp [docClassOf, hgt, hgt.ne', hgt.not_gt]

/-! ### The outcome of a session (R154) -/

section
variable (r : PerTender TenderResult) (d : DocClass)

theorem outcomeOf_refer_iff : outcomeOf r d = .refer ↔ ∃ t, (r.of t).verdict = .limit := by
  rw [← anyTender_iff]
  by_cases hlimit : anyTender r .limit = true
  · simp [outcomeOf, hlimit]
  · rw [outcomeOf, if_neg hlimit]
    split_ifs <;> simp [hlimit]

theorem outcomeOf_short_iff :
    outcomeOf r d = .short
      ↔ (¬ ∃ t, (r.of t).verdict = .limit) ∧ ((∃ t, (r.of t).verdict = .short) ∨ d = .stockShort) := by
  rw [← anyTender_iff, ← anyTender_iff]
  by_cases hlimit : anyTender r .limit = true
  · simp [outcomeOf, hlimit]
  by_cases hshort : anyTender r .short = true ∨ d = .stockShort
  · simp [outcomeOf, hlimit, hshort]
  · rw [outcomeOf, if_neg hlimit, if_neg (by simpa using hshort)]
    split_ifs <;> simp [hshort]

/-- Every tender is BALANCED exactly where none has one of the three other classes. -/
theorem all_balanced_iff :
    (∀ t, (r.of t).verdict = .balanced)
      ↔ anyTender r .limit = false ∧ anyTender r .short = false ∧ anyTender r .overs = false := by
  simp only [← Bool.not_eq_true, anyTender_iff, not_exists, ← forall_and]
  refine forall_congr' fun t => ?_
  cases (r.of t).verdict <;> simp

theorem outcomeOf_balanced_iff :
    outcomeOf r d = .balanced ↔ (∀ t, (r.of t).verdict = .balanced) ∧ d = .stockOk := by
  rw [all_balanced_iff]
  by_cases hlimit : anyTender r .limit = true
  · simp [outcomeOf, hlimit]
  by_cases hshort : anyTender r .short = true
  · simp [outcomeOf, hlimit, hshort]
  by_cases hover : anyTender r .overs = true <;> cases d <;> simp [outcomeOf, hlimit, hshort, hover]

end

/-! ### The results of a reconciliation -/

section
variable (q : Params) (x : Session) (d : Declaration)

@[simp] theorem reconcile_tenders_of (t : Tender) :
    (reconcile q x d).tenders.of t = reconcileTender q x d.amounts t :=
  perTender_of _ t

theorem reconcile_docs : (reconcile q x d).docs = docClassOf d.docs (reconcile q x d).expectedDocs := rfl

theorem reconcile_outcome :
    (reconcile q x d).outcome = outcomeOf (reconcile q x d).tenders (reconcile q x d).docs := rfl

/-- R152 at a tender's own figures. -/
theorem reconcileTender_verdict (a : PerTender Nat) (t : Tender) :
    (reconcileTender q x a t).verdict
      = classOf (x.clamped.of t) (reconcileTender q x a t).variance (reconcileTender q x a t).tolerance := rfl

end

/-- Settles O9: the figures are the model's by definition, and the classes and the outcome are those of the tables of
R152, R153 and R154. -/
theorem reconcileFigures : Obligations.ReconcileFigures := by
  intro q x d
  obtain ⟨hok, hshort, hover⟩ := docClassOf_iff d.docs (reconcile q x d).expectedDocs
  rw [← reconcile_docs] at hok hshort hover
  refine ⟨fun t => ?_, rfl, hok, hshort, hover, ?_⟩
  · rw [reconcile_tenders_of]
    refine ⟨rfl, rfl, rfl, ?_⟩
    rw [reconcileTender_verdict]
    exact classOf_iff _ _ _
  · rw [reconcile_outcome]
    exact ⟨outcomeOf_refer_iff _ _, outcomeOf_short_iff _ _, outcomeOf_balanced_iff _ _⟩

end Sys2Proof.Machine
end

