-- ==== Sys2Proof/Proofs/BusinessDay.lean ====
section
/-! The opening of the business day (R165, R170): what DAY OPEN answers in each office mode, what the opening changes, and
the statement about it. -/

namespace Sys2Proof.Machine

theorem exec_dayOpen (p : Port) (h : Header) (s : State) :
    exec (.dayOpen p h) s = .next (takeRequest p h (.dayOpen p h) dayOpenAct s) := rfl

/-! ### The opening -/

/-- R165, with the last day number written out. -/
theorem nextDay_eq (d : Nat) : nextDay d = if 65535 ≤ d then 1 else d + 1 := rfl

/-- The opening sends no notice (R170). -/
@[simp] theorem openDay_port (s : State) (q : Port) : (openDay s).port q = s.port q := rfl

/-- The opening does not look at the ports, so it does the same where the request has just left its FIFO. -/
theorem openDay_taken (p : Port) (rest : List (List Byte)) (s : State) :
    openDay (taken p rest s) = { openDay s with ports := (taken p rest s).ports } := rfl

/-! ### The answer in each mode -/

theorem dayOpenAct_opened {s : State} (hmode : s.mode = .opened) : dayOpenAct s = .refuse .sessionState := by
  simp [dayOpenAct, hmode]

theorem dayOpenAct_night {s : State} (hmode : s.mode = .night) :
    dayOpenAct s = .done (openDay s) (.dayOpened (nextDay s.day)) := by
  simp [dayOpenAct, hmode]

/-- Settles O13: the mode decides whether the block refuses DAY OPEN or opens the day, and the rules of a refused and of
a completed request give the reply and the frame. -/
theorem dayOpenBegins : Obligations.DayOpenBegins := by
  intro h rest s ha
  refine ⟨_, exec_dayOpen .sup h s, fun hopened => ?_, fun hnight => ?_⟩
  · have hact : dayOpenAct (taken .sup rest s) = .refuse .sessionState := dayOpenAct_opened hopened
    exact (takeRequest_refused ha hact).symm
  · have hact := dayOpenAct_night (s := taken .sup rest s) hnight
    obtain ⟨hreply, hframe⟩ := takeRequest_done (notes := []) ha hact fun q => by simp
    rw [taken_day, nextDay_eq] at hreply
    rw [openDay_taken, openDay, nextDay_eq] at hframe
    exact ⟨hreply, hframe⟩

end Sys2Proof.Machine
end

