-- ==== Sys2Proof/Proofs/StockLaws.lean ====
section
/-! The laws of the stock register (R3, R4): every single change of Laws/Moves.lean keeps them, so every step does. -/

namespace Sys2Proof.Machine

/-! ### One pack record -/

/-- R1: no movement changes the range of a pack. -/
theorem PackMove.range {k m : Pack} (h : PackMove k m) : m.first = k.first ∧ m.last = k.last := by
  cases h with
  | coupon n => unfold takeCoupon; split <;> exact ⟨rfl, rfl⟩
  | bad => unfold spoilNext; split <;> exact ⟨rfl, rfl⟩
  | skip n => unfold skipTo; split <;> exact ⟨rfl, rfl⟩
  | issue => unfold issueTicket; split <;> exact ⟨rfl, rfl⟩
  | abandon => unfold abandonTicket; split <;> exact ⟨rfl, rfl⟩
  | void n => unfold voidBlanks; split <;> exact ⟨rfl, rfl⟩
  | _ => exact ⟨rfl, rfl⟩

/-- R3, R5: what a movement adds to one count of a pack it takes from another. -/
theorem PackMove.kept {k m : Pack} (h : PackMove k m) (hk : k.Kept) : m.Kept := by
  obtain ⟨hsum, hfirst, hnext, hprint⟩ := hk
  cases h with
  | coupon n =>
    unfold takeCoupon; split
    next hc =>
      simp only [Bool.and_eq_true, beq_iff_eq, decide_eq_true_eq] at hc
      refine ⟨?_, ?_, ?_, fun hn => absurd hc.1.1 hn⟩ <;> simp <;> omega
    next => exact ⟨hsum, hfirst, hnext, hprint⟩
  | bad =>
    unfold spoilNext; split
    next hc =>
      simp only [Bool.and_eq_true, beq_iff_eq, decide_eq_true_eq] at hc
      refine ⟨?_, ?_, ?_, hprint⟩ <;> simp <;> omega
    next => exact ⟨hsum, hfirst, hnext, hprint⟩
  | skip n =>
    unfold skipTo; split
    next hc =>
      simp only [Bool.and_eq_true, beq_iff_eq, decide_eq_true_eq] at hc
      refine ⟨?_, ?_, ?_, hprint⟩ <;> simp <;> omega
    next => exact ⟨hsum, hfirst, hnext, hprint⟩
  | issue =>
    unfold issueTicket; split
    next => exact ⟨by simp; omega, hfirst, hnext, fun _ => rfl⟩
    next => exact ⟨hsum, hfirst, hnext, hprint⟩
  | abandon =>
    unfold abandonTicket; split
    next => exact ⟨by simp; omega, hfirst, hnext, fun _ => rfl⟩
    next => exact ⟨hsum, hfirst, hnext, hprint⟩
  | void n =>
    unfold voidBlanks; split
    next => exact ⟨by simp; omega, hfirst, hnext, hprint⟩
    next => exact ⟨hsum, hfirst, hnext, hprint⟩
  | loading _ p hs => exact ⟨hsum, hfirst, hnext, fun _ => hprint hs⟩
  | loaded _ hs =>
    have hnone : k.inPrint = [] := hprint (by simp [hs])
    exact ⟨by simpa [hnone] using hsum, hfirst, hnext, fun _ => rfl⟩
  | revert _ hs => exact ⟨hsum, hfirst, hnext, fun _ => hprint (by simp [hs])⟩
  | out _ hs => exact ⟨by simp [takenOut]; omega, hfirst, hnext, fun _ => rfl⟩
  | sentBack _ hs =>
    refine ⟨?_, ?_, le_rfl, fun _ => hprint hs⟩ <;> simp [returnedPack, Pack.remaining] <;> omega
  | off n _ hs hn =>
    simp only [Pack.remaining] at hn
    refine ⟨?_, ?_, ?_, fun _ => hprint hs⟩ <;> simp [writtenOffPack] <;> omega

theorem rangeOk_le {a b : Nat} (h : rangeOk a b = true) : a ≤ b := by
  simp only [rangeOk, Bool.and_eq_true, decide_eq_true_eq] at h
  exact h.1.2

/-- R6: a pack just received holds all its blanks. -/
theorem newPack_kept {a b : Nat} (h : rangeOk a b = true) (s : State) : (newPack a b s).Kept := by
  have hle := rangeOk_le h
  exact ⟨by simp [newPack], le_rfl, by simp [newPack]; omega, fun _ => rfl⟩

/-- R6: a range that meets no record is disjoint from each. -/
theorem packMeets_false {a b : Nat} {s : State} (h : s.packMeets a b = false) {i : PackIx} {k : Pack}
    (hk : s.pack i = some k) : b < k.first ∨ k.last < a := by
  have hi : i ∈ allPacks := List.mem_finRange i
  have hm := List.any_eq_false.mp h i hi
  simp only [hk, meets, Bool.and_eq_true, decide_eq_true_eq] at hm
  omega

/-! ### The register -/

theorem Steps.packsKept {s t : State} (m : Steps s t) (h : s.PacksKept) : t.PacksKept := by
  induction m with
  | trans _ _ first second => exact second (first h)
  | other s t same => intro i k hk; rw [State.pack, same.packs] at hk; exact h i k hk
  | pack s i k m hk move =>
    intro j l hl
    rw [State.pack_setPack] at hl
    split at hl
    next => cases hl; exact move.kept (h i k hk)
    next => exact h j l hl
  | packAdded s i a b hr _ =>
    intro j l hl
    rw [State.pack_setPack] at hl
    split at hl
    next => cases hl; exact newPack_kept hr s
    next => exact h j l hl
  | packsFreed s v hv => exact fun i k hk => h i k (hv i k hk)
  | _ => exact h

theorem Steps.rangesKept {s t : State} (m : Steps s t) (h : s.RangesKept) : t.RangesKept := by
  induction m with
  | trans _ _ first second => exact second (first h)
  | other s t same =>
    intro i j k m hij hk hm
    rw [State.pack, same.packs] at hk hm
    exact h i j k m hij hk hm
  | pack s i k m hk move =>
    obtain ⟨hfirst, hlast⟩ := move.range
    intro x y a b hxy ha hb
    rw [State.pack_setPack] at ha hb
    split at ha
    next hx =>
      rw [if_neg (hx ▸ hxy)] at hb
      cases ha
      rw [hfirst, hlast]
      exact h x y k b hxy (hx ▸ hk) hb
    next =>
      split at hb
      next hy => cases hb; rw [hfirst, hlast]; exact h x y a k hxy ha (hy ▸ hk)
      next => exact h x y a b hxy ha hb
  | packAdded s i p q _ hmeets =>
    intro x y a b hxy ha hb
    rw [State.pack_setPack] at ha hb
    split at ha
    next hx =>
      rw [if_neg (hx ▸ hxy)] at hb
      cases ha
      exact packMeets_false hmeets hb
    next =>
      split at hb
      next => cases hb; exact (packMeets_false hmeets ha).symm
      next => exact h x y a b hxy ha hb
  | packsFreed s v hv => exact fun i j k m hij hk hm => h i j k m hij (hv i k hk) (hv j m hm)
  | _ => exact h

/-- Settles O38: a step is a chain of single changes, and each keeps R3 of every record. -/
theorem stepKeepsPacks : Obligations.StepKeepsPacks :=
  fun s s' h hstep => (step_steps s s' hstep).packsKept h

/-- Settles O39: no movement changes a range, and a pack is received only where it meets no record. -/
theorem stepKeepsRanges : Obligations.StepKeepsRanges :=
  fun s s' h hstep => (step_steps s s' hstep).rangesKept h

end Sys2Proof.Machine
end

