-- ==== Sys2Proof/Proofs/PortLaws.lean ====
section
/-! The limits of the ports' queues (R179, R183): every single change keeps them, so every step does. -/

namespace Sys2Proof.Machine

/-! ### Counting the frames of a queue -/

theorem hasReply_false_iff (l : List OutFrame) : hasReply l = false ↔ l.countP isReply = 0 := by
  simp [hasReply, List.countP_eq_zero]

theorem countP_isReply_notice (l : List OutFrame) (n : Notice) :
    (l ++ [OutFrame.notice n]).countP isReply = l.countP isReply := by
  simp [isReply]

theorem countP_isReply_reply (l : List OutFrame) (r : Reply) :
    (l ++ [OutFrame.reply r]).countP isReply = l.countP isReply + 1 := by
  simp [isReply]

theorem noticeCount_notice (l : List OutFrame) (n : Notice) : noticeCount (l ++ [.notice n]) = noticeCount l + 1 := by
  simp [noticeCount, isNotice]

theorem noticeCount_reply (l : List OutFrame) (r : Reply) : noticeCount (l ++ [.reply r]) = noticeCount l := by
  simp [noticeCount, isNotice]

/-! ### One port -/

/-- R183: a notice joins below 31 notices only, and no reply comes with it. -/
theorem withNotice_kept (n : Notice) {q : PortState} (h : q.Kept) : (withNotice n q).Kept := by
  obtain ⟨hfifo, hnotes, hreplies, hhand⟩ := h
  unfold withNotice
  split
  next hroom =>
    refine ⟨hfifo, ?_, ?_, fun hh => ?_⟩
    · rw [noticeCount_notice]; exact hroom
    · rw [countP_isReply_notice]; exact hreplies
    · rw [countP_isReply_notice]; exact hhand hh
  next => exact ⟨hfifo, hnotes, hreplies, hhand⟩

/-- R179: a reply is placed at a port that holds none and has no request in hand. -/
theorem replyIn_kept (h : Header) (code : Nat) (rc : ResultCode) (res : Results) {q : PortState} (hq : q.Kept)
    (hhand : q.hand = none) (hnone : q.outq.countP isReply = 0) : (replyIn h code rc res q).Kept := by
  obtain ⟨hfifo, hnotes, hreplies, -⟩ := hq
  unfold replyIn
  split
  next => exact ⟨hfifo, hnotes, hreplies, by simp [hhand]⟩
  next =>
    refine ⟨hfifo, ?_, ?_, by simp [withReply, clearMarkers, hhand]⟩
    · simp only [withReply, noticeCount_reply]; exact hnotes
    · simp only [withReply, countP_isReply_reply]; omega

theorem InnerPort.kept {q r : PortState} (m : InnerPort q r) (h : q.Kept) : r.Kept := by
  cases m with
  | notice n => exact withNotice_kept n h
  | ended _ x hd code rc res hx =>
    obtain ⟨hfifo, hnotes, hreplies, hhand⟩ := h
    have hnone : q.outq.countP isReply = 0 := hhand (by simp [hx])
    exact replyIn_kept hd code rc res ⟨hfifo, hnotes, hreplies, fun _ => hnone⟩ rfl hnone
  | dropped _ x hx =>
    obtain ⟨hfifo, hnotes, hreplies, -⟩ := h
    exact ⟨hfifo, hnotes, hreplies, by simp⟩

theorem OuterPort.kept {q r : PortState} (m : OuterPort q r) (h : q.Kept) : r.Kept := by
  obtain ⟨hfifo, hnotes, hreplies, hhand⟩ := id h
  cases m with
  | inner _ _ hi => exact hi.kept h
  | marks _ _ hf ho hh => exact ⟨hf ▸ hfifo, ho ▸ hnotes, ho ▸ hreplies, by rw [hh, ho]; exact hhand⟩
  | join body =>
    unfold withRequest
    split
    next hroom =>
      have hlen : (q.fifo ++ [body]).length ≤ 4 := by simpa [Config.fifoSize] using hroom
      exact ⟨hlen, hnotes, hreplies, hhand⟩
    next => exact h
  | took rest _ hlen => exact ⟨hlen.trans hfifo, hnotes, hreplies, hhand⟩
  | replied hd code rc res _ hh hr => exact replyIn_kept hd code rc res h hh ((hasReply_false_iff _).mp hr)
  | held x _ _ hr => exact ⟨hfifo, hnotes, hreplies, fun _ => (hasReply_false_iff _).mp hr⟩
  | broke => exact ⟨by simp [breakPort], by simp [breakPort, noticeCount], by simp [breakPort], by simp [breakPort]⟩
  | sent =>
    unfold sendOldest
    split
    next f rest hq =>
      rw [hq] at hnotes hreplies hhand
      have hsub : rest.Sublist (f :: rest) := List.sublist_cons_self f rest
      exact ⟨hfifo, hsub.countP_le.trans hnotes, hsub.countP_le.trans hreplies,
        fun hh => Nat.le_zero.mp (hsub.countP_le.trans (hhand hh).le)⟩
    next => exact h
  | reset => exact ⟨by simp [restPort], by simp [restPort, noticeCount], by simp [restPort], by simp [restPort]⟩

/-! ### All ports -/

theorem Steps.portsKept {s t : State} (m : Steps s t) (h : s.PortsKept) : t.PortsKept := by
  induction m with
  | trans _ _ first second => exact second (first h)
  | other s t same => intro p; rw [State.port, same.ports]; exact h p
  | port s p q hq =>
    intro r
    rw [State.port_setPort]
    split
    next => exact hq.kept (h p)
    next => exact h r
  | portsReset s v hv => exact fun p => (hv p).kept (h p)
  | _ => exact h

/-- Settles O40: whatever a step does to a port keeps the limits of its FIFO and its outbound queue. -/
theorem stepKeepsPorts : Obligations.StepKeepsPorts :=
  fun s s' h hstep => (step_steps s s' hstep).portsKept h

end Sys2Proof.Machine
end

