-- ==== Sys2Proof/Proofs/SpaceLaws.lean ====
section
/-! The space of the spoil list (R44, R90): entries used and entries reserved are at most 256 together. -/

namespace Sys2Proof.Machine

/-! ### What one printer reserves -/

/-- R90: the entries a printer context reserves. -/
def Printer.reserves (c : Printer) : Nat :=
  match c.allowance with
  | some d => 10 - d
  | none => 0

theorem Printer.reserves_none {c : Printer} (h : c.allowance = none) : c.reserves = 0 := by
  simp [Printer.reserves, h]

theorem Printer.reserves_some {c : Printer} {d : Nat} (h : c.allowance = some d) : c.reserves = 10 - d := by
  simp [Printer.reserves, h]

theorem reserved_eq_sum (s : State) : s.reserved = ∑ p : PrinterId, (s.printer p).reserves := by
  rw [State.reserved, Fin.sum_univ_def]
  rfl

/-- The reserved count after one printer context is written: its own part changes. -/
theorem reserved_setPrinter (s : State) (p : PrinterId) (c : Printer) :
    (s.setPrinter p c).reserved + (s.printer p).reserves = s.reserved + c.reserves := by
  have hrest : ∑ q ∈ Finset.univ.erase p, ((s.setPrinter p c).printer q).reserves
      = ∑ q ∈ Finset.univ.erase p, (s.printer q).reserves :=
    Finset.sum_congr rfl fun q hq => by rw [State.printer_setPrinter, if_neg (Finset.ne_of_mem_erase hq).symm]
  rw [reserved_eq_sum, reserved_eq_sum, ← Finset.add_sum_erase _ _ (Finset.mem_univ p),
    ← Finset.add_sum_erase (a := p) _ (fun q => (s.printer q).reserves) (Finset.mem_univ p), hrest,
    State.printer_setPrinter_same]
  omega

/-! ### Used and reserved together -/

@[simp] theorem listSpoil_spoils (e : SpoilEntry) (s : State) : (listSpoil e s).spoils = s.spoils ++ [e] := rfl

@[simp] theorem listSpoil_reserved (e : SpoilEntry) (s : State) : (listSpoil e s).reserved = s.reserved := rfl

/-- A printer context written anew keeps the space where what it reserves fits. -/
theorem spaceKept_setPrinter {s : State} {p : PrinterId} {c : Printer} (h : s.SpaceKept)
    (hfit : s.spoils.length + s.reserved + c.reserves ≤ 256 + (s.printer p).reserves)
    (hdrawn : ∀ d, c.allowance = some d → d ≤ 10) : (s.setPrinter p c).SpaceKept := by
  have hsum := reserved_setPrinter s p c
  refine ⟨?_, fun q d hd => ?_⟩
  · rw [State.setPrinter_spoils]; omega
  · rw [State.printer_setPrinter] at hd
    split at hd
    next => exact hdrawn d hd
    next => exact h.2 q d hd

/-- An entry joins the list where the list and the reserved entries leave a place. -/
theorem spaceKept_listSpoil {s : State} (e : SpoilEntry) (h : s.SpaceKept) (hfit : 1 ≤ s.unreserved) :
    (listSpoil e s).SpaceKept := by
  obtain ⟨-, hdrawn⟩ := h
  refine ⟨?_, hdrawn⟩
  simp only [State.unreserved, Config.spoilSize] at hfit
  rw [listSpoil_spoils, listSpoil_reserved, List.length_append, List.length_singleton]
  omega

/-- R91: an entry drawn from an allowance takes the place that the allowance reserved. -/
theorem spaceKept_draw {s : State} {p : PrinterId} {d : Nat} (e : SpoilEntry) (h : s.SpaceKept)
    (hd : (s.printer p).allowance = some d) (hlt : d < 10) :
    (listSpoil e (s.setPrinter p { s.printer p with allowance := some (d + 1) })).SpaceKept := by
  have hsum := reserved_setPrinter s p { s.printer p with allowance := some (d + 1) }
  rw [Printer.reserves_some hd, Printer.reserves_some rfl] at hsum
  obtain ⟨hspace, hdrawn⟩ := h
  set t := s.setPrinter p { s.printer p with allowance := some (d + 1) } with ht
  have hspoils : t.spoils = s.spoils := rfl
  refine ⟨?_, fun q x hx => ?_⟩
  · rw [listSpoil_spoils, listSpoil_reserved, hspoils, List.length_append, List.length_singleton]; omega
  · have hx : (t.printer q).allowance = some x := hx
    rw [ht, State.printer_setPrinter] at hx
    split at hx
    next => cases hx; omega
    next => exact hdrawn q x hx

theorem Steps.spaceKept {s t : State} (m : Steps s t) (h : s.SpaceKept) : t.SpaceKept := by
  induction m with
  | trans _ _ first second => exact second (first h)
  | other s t same =>
    have hprinter : ∀ p, t.printer p = s.printer p := fun p => by rw [State.printer, same.printers, State.printer]
    refine ⟨?_, fun p d hd => h.2 p d (hprinter p ▸ hd)⟩
    rw [same.spoils, reserved_congr (a := t) (b := s) fun p => by rw [hprinter p]]
    exact h.1
  | printer s p c hc =>
    obtain hsame | hnone := hc
    · refine spaceKept_setPrinter h ?_ fun d hd => h.2 p d (hsame ▸ hd)
      have hpart : c.reserves = (s.printer p).reserves := by rw [Printer.reserves, hsame, Printer.reserves]
      have := h.1
      omega
    · refine spaceKept_setPrinter h ?_ (by simp [hnone])
      have := h.1
      rw [Printer.reserves_none hnone]
      omega
  | allowance s p c hspace hc =>
    refine spaceKept_setPrinter h ?_ (by simp [hc])
    have hspace : 10 ≤ s.unreserved := of_decide_eq_true hspace
    simp only [State.unreserved, Config.spoilSize] at hspace
    rw [Printer.reserves_some hc]
    omega
  | draw s p d e hd hlt => exact spaceKept_draw e h hd hlt
  | printersReset s v hv =>
    have hnone : NoAllowance { s with printers := v } := hv
    refine ⟨?_, fun p d hd => by rw [hnone p] at hd; cases hd⟩
    rw [reserved_none hnone]
    exact (Nat.le_add_right _ _).trans h.1
  | spoil s e hfit => exact spaceKept_listSpoil e h hfit
  | spoilsDropped s n =>
    refine ⟨le_trans ?_ h.1, h.2⟩
    have hres : ({ s with spoils := s.spoils.drop n } : State).reserved = s.reserved := rfl
    simp only [hres, List.length_drop]
    omega
  | _ => exact h

/-- Settles O41: an entry is listed where one is free or was reserved, and an allowance taken where ten are free. -/
theorem stepKeepsSpoilSpace : Obligations.StepKeepsSpoilSpace :=
  fun s s' h hstep => (step_steps s s' hstep).spaceKept h

end Sys2Proof.Machine
end

