-- ==== Sys2Proof/Proofs/LogLaws.lean ====
section
/-! The sizes of the issue list and the fault log, and the numbers of the fault records (R96, R99, R102, R105). -/

namespace Sys2Proof.Machine

/-- R105: after room is made one more record fits. -/
theorem makeRoom_length {rs : List FaultRecord} (h : rs.length ≤ 40) : (makeRoom rs).length < 40 := by
  unfold makeRoom
  split
  next hroom => exact hroom
  next hfull =>
    have hpos : 0 < rs.length := by simp only [Config.faultSize] at hfull; omega
    split
    next hany =>
      obtain ⟨r, hr, hclosed⟩ := List.any_eq_true.mp hany
      have hlen : (rs.eraseP fun r => r.state == .closed).length = rs.length - 1 :=
        List.length_eraseP_of_mem hr hclosed
      omega
    next => rw [List.length_drop]; omega

/-- A log whose records are among those before it, numbers and all, keeps R102. -/
theorem numbersKept_sublist {s t : State} (h : s.NumbersKept) (hc : t.faultCounter = s.faultCounter)
    (hsub : (t.faults.map fun r => r.number).Sublist (s.faults.map fun r => r.number)) : t.NumbersKept := by
  obtain ⟨hlen, hnodup, hnew, hcounter⟩ := h
  refine ⟨?_, hnodup.sublist hsub, fun hmem => hnew (hsub.subset (hc ▸ hmem)), by rw [hc]; exact hcounter⟩
  have hle := hsub.length_le
  simp only [List.length_map] at hle
  omega

/-- R102, R105: a record made with the counter's number, the counter moved past it. -/
theorem numbersKept_added {s : State} {r : FaultRecord} (h : s.NumbersKept) (hr : r.number = s.faultCounter) :
    ({ s with
      faults := makeRoom s.faults ++ [r],
      faultCounter := nextFaultNumber (makeRoom s.faults ++ [r]) s.faultCounter } : State).NumbersKept := by
  obtain ⟨hlen, hnodup, hnew, hlow, hhigh⟩ := h
  have hroom := makeRoom_length hlen
  have hsub := (makeRoom_sublist s.faults).map fun r => r.number
  have hlength : (makeRoom s.faults ++ [r]).length ≤ 40 := by simp; omega
  obtain ⟨m, hnext, hfree, -⟩ :=
    nextFaultNumber_advances (makeRoom s.faults ++ [r]) s.faultCounter hlow hhigh (by omega)
  refine ⟨hlength, ?_, hfree, ?_, ?_⟩
  · rw [List.map_append, List.map_singleton, List.nodup_append]
    refine ⟨hnodup.sublist hsub, List.nodup_singleton _, fun a ha b hb hab => ?_⟩
    rw [List.mem_singleton.mp hb, hr] at hab
    exact hnew (hsub.subset (hab ▸ ha))
  · show 1 ≤ nextFaultNumber _ _
    omega
  · show nextFaultNumber _ _ ≤ 65535
    omega

theorem Steps.numbersKept {s t : State} (m : Steps s t) (h : s.NumbersKept) : t.NumbersKept := by
  induction m with
  | trans _ _ first second => exact second (first h)
  | other s t same => exact numbersKept_sublist h same.faultCounter (same.faults ▸ List.Sublist.refl _)
  | fault s f hf =>
    refine numbersKept_sublist h rfl ?_
    simp [List.map_map, Function.comp_def, hf]
  | faultAdded s r hr => exact numbersKept_added h hr
  | faultsKept s f => exact numbersKept_sublist h rfl (List.filter_sublist.map _)
  | faultsCleared s => exact ⟨by simp, by simp, by simp, le_rfl, by simp⟩
  | _ => exact h

theorem Steps.listsKept {s t : State} (m : Steps s t) (h : s.ListsKept) : t.ListsKept := by
  induction m with
  | trans _ _ first second => exact second (first h)
  | other s t same => rw [State.ListsKept, same.issues, same.faults]; exact h
  | issues s l hl =>
    obtain hshorter | hfits := hl
    · exact ⟨hshorter.trans h.1, h.2⟩
    · exact ⟨hfits, h.2⟩
  | fault s f => exact ⟨h.1, by simpa using h.2⟩
  | faultAdded s r =>
    refine ⟨h.1, ?_⟩
    have hroom := makeRoom_length h.2
    simp; omega
  | faultsKept s f => exact ⟨h.1, List.length_filter_le _ _ |>.trans h.2⟩
  | faultsCleared s => exact ⟨h.1, by simp⟩
  | _ => exact h

/-- Settles O42: room is made before a record joins the log, and the record takes the number that no other holds. -/
theorem stepKeepsListsAndNumbers : Obligations.StepKeepsListsAndNumbers :=
  fun s s' ⟨hlists, hnumbers⟩ hstep => ⟨(step_steps s s' hstep).listsKept hlists, (step_steps s s' hstep).numbersKept hnumbers⟩

end Sys2Proof.Machine
end

