-- ==== Sys2Proof/Proofs/CounterLaws.lean ====
section
/-! The ranges of the session counter, the day number, the clock and the running parameter set (R123, R165, R190, R197). -/

namespace Sys2Proof.Machine

/-! ### Counters -/

theorem nextDay_range (d : Nat) : 1 ≤ nextDay d ∧ nextDay d ≤ 65535 := by
  rw [nextDay_eq]
  by_cases h : 65535 ≤ d
  · rw [if_pos h]; omega
  · rw [if_neg h]; omega

/-- R123: a counter that starts within 1 to 65,535 advances within it, whatever numbers are in use. One advance is the
advance of the day number (R165). -/
theorem advanceNumber_range (fuel : Nat) (used : List Nat) {v : Nat} (hlow : 1 ≤ v) (hhigh : v ≤ 65535) :
    1 ≤ advanceNumber fuel used v ∧ advanceNumber fuel used v ≤ 65535 := by
  induction fuel generalizing v with
  | zero => exact ⟨hlow, hhigh⟩
  | succ fuel ih =>
    obtain ⟨hlow', hhigh'⟩ : 1 ≤ nextDay v ∧ nextDay v ≤ 65535 := nextDay_range v
    show 1 ≤ (if used.contains (nextDay v) then advanceNumber fuel used (nextDay v) else nextDay v)
      ∧ (if used.contains (nextDay v) then advanceNumber fuel used (nextDay v) else nextDay v) ≤ 65535
    by_cases hused : used.contains (nextDay v) = true
    · rw [if_pos hused]; exact ih hlow' hhigh'
    · rw [if_neg hused]; exact ⟨hlow', hhigh'⟩

theorem Steps.countersKept {s t : State} (m : Steps s t) (h : s.CountersKept) : t.CountersKept := by
  induction m with
  | trans _ _ first second => exact second (first h)
  | other s t same => rw [State.CountersKept, same.sessionCounter, same.day, same.clock]; exact h
  | sessionNumber s n hn =>
    obtain ⟨hlow, hhigh, hrest⟩ := h
    obtain rfl | rfl := hn
    · exact ⟨le_rfl, by simp, hrest⟩
    · obtain ⟨hlow', hhigh'⟩ := advanceNumber_range (s.sessionNumbers.length + 1) s.sessionNumbers hlow hhigh
      exact ⟨hlow', hhigh', hrest⟩
  | day s n hn =>
    obtain ⟨hlow, hhigh, -, -, hclock⟩ := h
    obtain rfl | rfl := hn
    · exact ⟨hlow, hhigh, le_rfl, by simp, hclock⟩
    · obtain ⟨hlow', hhigh'⟩ := nextDay_range s.day
      exact ⟨hlow, hhigh, hlow', hhigh', hclock⟩
  | clock s n hn =>
    obtain ⟨hlow, hhigh, hday, hday', -⟩ := h
    exact ⟨hlow, hhigh, hday, hday', hn⟩
  | _ => exact h

/-! ### The running parameter set (R190) -/

theorem paramsOk_iff (q : Params) : paramsOk q = true ↔
    (∀ w, (look q.pairs w).alternate ≠ some (look q.pairs w).primary)
      ∧ (∀ w, quotaOk (look q.quotas w).res (look q.quotas w).ceil = true)
      ∧ (∀ t, floorOk (q.floors.of t) = true) ∧ (∀ t, rateOk (q.rates.of t) = true)
      ∧ refundLimitOk q.refundLimit = true ∧ voidWindowOk q.voidWindow = true ∧ authTimeOk q.authTime = true
      ∧ stockLowOk q.stockLow = true := by
  have htenders : ∀ (f : Nat → Bool) (x : PerTender Nat), tendersOk f x = true ↔ ∀ t, f (x.of t) = true := by
    intro f x
    simp only [tendersOk, Bool.and_eq_true]
    exact ⟨fun ⟨⟨⟨hcash, hcard⟩, hwarrant⟩, hvoucher⟩ t => by cases t <;> assumption,
      fun hall => ⟨⟨⟨hall .cash, hall .card⟩, hall .warrant⟩, hall .voucher⟩⟩
  have hwindows : ∀ f : Window → Bool, allWindows.all f = true ↔ ∀ w, f w = true := by
    intro f
    simp [allWindows, List.mem_finRange]
  simp only [paramsOk, Bool.and_eq_true, hwindows, htenders, and_assoc]
  refine and_congr_left fun _ => forall_congr' fun w => ?_
  cases (look q.pairs w).alternate <;> simp

theorem PerTender.of_set {α : Type} (x : PerTender α) (a b : Tender) (v : α) :
    (x.set a v).of b = if a = b then v else x.of b := by
  cases a <;> cases b <;> rfl

/-- A tender table with one figure replaced by one in range. -/
theorem floorsWith_ok {f : Nat → Bool} {x : PerTender Nat} (h : ∀ t, f (x.of t) = true) (n : Nat) {v : Nat}
    (hv : f v = true) (t : Tender) : f ((floorsWith n v x).of t) = true := by
  unfold floorsWith
  split
  next y _ =>
    rw [PerTender.of_set]
    split
    next => exact hv
    next => exact h t
  next => exact h t

/-- R195: a change within its range keeps the set within its ranges. -/
theorem changed_ok {q : Params} {c : ParamChange} (hc : changeOk c = true) (h : paramsOk q = true) :
    paramsOk (changed q c) = true := by
  rw [paramsOk_iff] at h ⊢
  obtain ⟨hpairs, hquotas, hfloors, hrates, hrest⟩ := id h
  obtain ⟨hrefund, hvoid, hauth, hlow⟩ := id hrest
  cases c with
  | quota w r x =>
    simp only [changeOk, Bool.and_eq_true] at hc
    cases hw : toWindow w with
    | none => simp [hw] at hc
    | some y =>
      simp only [changed, hw]
      refine ⟨hpairs, fun z => ?_, hfloors, hrates, hrest⟩
      rw [look_put]
      split
      next => exact hc.2
      next => exact hquotas z
  | floor n v =>
    simp only [changeOk, Bool.and_eq_true] at hc
    exact ⟨hpairs, hquotas, floorsWith_ok hfloors n hc.2, hrates, hrest⟩
  | rate n v =>
    simp only [changeOk, Bool.and_eq_true] at hc
    exact ⟨hpairs, hquotas, hfloors, floorsWith_ok hrates n hc.2, hrest⟩
  | refundLimit v => exact ⟨hpairs, hquotas, hfloors, hrates, hc, hvoid, hauth, hlow⟩
  | voidWindow v => exact ⟨hpairs, hquotas, hfloors, hrates, hrefund, hc, hauth, hlow⟩
  | authTime v => exact ⟨hpairs, hquotas, hfloors, hrates, hrefund, hvoid, hc, hlow⟩
  | stockLow v => exact ⟨hpairs, hquotas, hfloors, hrates, hrefund, hvoid, hauth, hc⟩
  | _ => exact h

theorem ParamMove.ok {q r : Params} (m : ParamMove q r) (h : paramsOk q = true) : paramsOk r = true := by
  cases m with
  | image _ hr => exact hr
  | pair w x hx =>
    rw [paramsOk_iff] at h ⊢
    obtain ⟨hpairs, hrest⟩ := h
    refine ⟨fun v => ?_, hrest⟩
    rw [look_put]
    split
    next => exact hx
    next => exact hpairs v
  | change c hc => exact changed_ok hc h

theorem Steps.paramsKept {s t : State} (m : Steps s t) (h : s.ParamsKept) : t.ParamsKept := by
  induction m with
  | trans _ _ first second => exact second (first h)
  | other s t same => rw [State.ParamsKept, same.params]; exact h
  | params s q hq => exact hq.ok h
  | _ => exact h

/-- Settles O43: a counter wraps from 65,535 to 1, and a parameter changes within its range only. -/
theorem stepKeepsCountersAndParams : Obligations.StepKeepsCountersAndParams :=
  fun s s' ⟨hcounters, hparams⟩ hstep =>
    ⟨(step_steps s s' hstep).countersKept hcounters, (step_steps s s' hstep).paramsKept hparams⟩

end Sys2Proof.Machine
end

