-- ==== Sys2Proof/Proofs/SessionLaws.lean ====
section
/-! The cash-up groups that a session holds in each state, and its recounts (R146, R157). -/

namespace Sys2Proof.Machine

theorem SessionMove.kept {x y : Session} (m : SessionMove x y) (h : x.Kept) : y.Kept := by
  obtain ⟨hresults, hnone, hcount⟩ := h
  cases m with
  | figures _ hstate hdecl hres hrec =>
    exact ⟨by rw [hstate, hres]; exact hresults, by rw [hstate, hdecl]; exact hnone, by rw [hrec]; exact hcount⟩
  | closing time hstate =>
    refine ⟨?_, fun _ => hnone (.inl hstate), hcount⟩
    rw [hstate] at hresults
    simpa using hresults
  | counting hstate =>
    refine ⟨?_, by simp, hcount⟩
    rw [hstate] at hresults
    simpa using hresults
  | declared q d hstate => exact ⟨by simp [declareSession], by simp [declareSession], hcount⟩
  | recounted hstate hlt => exact ⟨by simp [recountSession], by simp [recountSession], by simp [recountSession]; omega⟩

theorem Steps.sessionsKept {s t : State} (m : Steps s t) (h : s.SessionsKept) : t.SessionsKept := by
  induction m with
  | trans _ _ first second => exact second (first h)
  | other s t same => intro i x hx; rw [State.session, same.sessions] at hx; exact h i x hx
  | session s i x y hx move =>
    intro j z hz
    rw [State.session_setSession] at hz
    split at hz
    next => cases hz; exact move.kept (h i x hx)
    next => exact h j z hz
  | sessionAdded s i x hstate hdecl hres hrec =>
    intro j z hz
    rw [State.session_setSession] at hz
    split at hz
    next => cases hz; exact ⟨by simp [hstate, hres], fun _ => hdecl, by omega⟩
    next => exact h j z hz
  | sessionsFreed s v hv => exact fun i x hx => h i x (hv i x hx)
  | _ => exact h

/-- Settles O44: each change of a session's state brings or takes the groups that R146 gives the state. -/
theorem stepKeepsSessions : Obligations.StepKeepsSessions :=
  fun s s' h hstep => (step_steps s s' hstep).sessionsKept h

end Sys2Proof.Machine
end

