-- ==== Sys2Proof/Proofs/Requests.lean ====
section
/-! What every request row shares (R179 to R181): the block that answers it, the checks of its port, and what a refusal
leaves; and the rows that act without supply (R199, R200). -/

namespace Sys2Proof.Machine

/-! ### The block that answers a request -/

/-- What the owning block answers to a request; nothing is asked of it for a command that is no request. -/
def blockAct : Instr → State → Verdict
  | .openSession p _ clerk float w => openSessionAct p clerk float w
  | .sell p h kind coupons fare tender texts w => sellAct p h.tag kind coupons fare tender texts w
  | .cancel p h ofPort => cancelAct p h.tag ofPort
  | .voidTicket p _ serial => voidAct p serial
  | .refund p _ serial amount tender w => refundAct p serial amount tender w
  | .closeSession p _ w => closeSessionAct p w
  | .declare p _ session cash card warrant voucher docs =>
    declareAct p session { cash := cash, card := card, warrant := warrant, voucher := voucher } docs
  | .ackFault p _ number => ackFaultAct p number
  | .loadPack p h serial printer => loadPackAct p h serial printer
  | .unloadPack p _ printer => unloadPackAct p printer
  | .queryJob p h name => queryJobAct p h.tag name
  | .queryPrinter p _ printer => queryPrinterAct p printer
  | .querySession p _ number => querySessionAct p number
  | .queryPack p _ name => queryPackAct p name
  | .queryOffice p _ => queryOfficeAct p
  | .receivePack _ _ first last => receivePackAct first last
  | .returnPack _ _ serial => returnPackAct serial
  | .writeOff _ _ serial count => writeOffAct serial count
  | .serviceOut _ _ printer => serviceOutAct printer
  | .serviceIn _ _ printer => serviceInAct printer
  | .assignPrinters _ _ window primary alternate => assignPrintersAct window primary alternate
  | .testPrint _ h printer texts => testPrintAct h.tag printer texts
  | .hold _ _ window => holdAct true window
  | .release _ _ window => holdAct false window
  | .answer _ _ window serial decision => answerAct window serial decision
  | .faultRead _ _ retire number => faultReadAct retire number
  | .closeFault _ _ number remedy => closeFaultAct number remedy
  | .spoilRead _ _ retire => spoilReadAct retire
  | .recount _ _ session => recountAct session
  | .cashUpReport _ _ session retire => cashUpReportAct session retire
  | .forceClose _ _ session => forceCloseAct session
  | .dayClose _ _ => dayCloseAct
  | .dayOpen _ _ => dayOpenAct
  | .dayReport _ _ sect start => dayReportAct sect start
  | .setTime _ _ reading => setTimeAct reading
  | .setParameter _ _ change => setParameterAct change
  | .saveParameters p h => saveParametersAct p h
  | .restart _ _ => fun t => .silent (warmRestart .request t)
  | _ => fun _ => .refuse .badRequest

/-- A request row is its port's taking of the request, with the block's answer. -/
theorem exec_request {i : Instr} {p : Port} {h : Header} (hi : requestHead i = some (p, h)) (s : State) :
    exec i s = .next (takeRequest p h i (blockAct i) s) := by
  cases i <;> cases hi <;> rfl

/-- What a block may answer: a request other than RESTART is never left without an answer. -/
def Verdict.answers : Verdict → Bool
  | .silent _ => false
  | _ => true

@[simp] theorem answers_refuse (rc : ResultCode) (res : Results) : (Verdict.refuse rc res).answers = true := rfl
@[simp] theorem answers_done (s : State) (res : Results) : (Verdict.done s res).answers = true := rfl
@[simp] theorem answers_referred (s : State) (res : Results) : (Verdict.referred s res).answers = true := rfl

@[simp] theorem answers_noOpenSession (s : State) (w : Window) : (noOpenSession s w).answers = true := by
  unfold noOpenSession
  split <;> rfl

@[simp] theorem answers_voidChecked (own : Option (Window × Session)) (n : Nat) (s : State) :
    (voidChecked own n s).answers = true := by
  simp only [voidChecked]
  repeat' split
  all_goals rfl

@[simp] theorem answers_refundDecided (p : Port) (w : Window) (x : Session) (serial amount : Nat) (t : Tender)
    (e : Option IssueEntry) (s : State) : (refundDecided p w x serial amount t e s).answers = true := by
  simp only [refundDecided]
  repeat' split
  all_goals rfl

@[simp] theorem answers_sellChecked (p : Port) (tag kind coupons fare tender : Nat) (texts : List (List Byte)) (w : Window)
    (x : Session) (s : State) : (sellChecked p tag kind coupons fare tender texts w x s).answers = true := by
  simp only [sellChecked]
  repeat' split
  all_goals rfl

theorem answers_blockAct {i : Instr} (hi : ∀ p h, i ≠ .restart p h) (s : State) : (blockAct i s).answers = true := by
  cases i
  case restart p h => exact absurd rfl (hi p h)
  case voidTicket =>
    simp only [blockAct, voidAct]
    repeat' split
    all_goals simp
  case refund =>
    simp only [blockAct, refundAct]
    repeat' split
    all_goals simp
  case sell =>
    simp only [blockAct, sellAct]
    repeat' split
    all_goals simp
  case closeSession =>
    simp only [blockAct, closeSessionAct]
    repeat' split
    all_goals simp
  all_goals
    simp only [blockAct, openSessionAct, cancelAct, declareAct, ackFaultAct, loadPackAct, unloadPackAct, queryJobAct,
      queryPrinterAct, querySessionAct, querySessionNumbered, querySessionOwn, queryPackAct, queryOfficeAct,
      receivePackAct, returnPackAct, writeOffAct, serviceOutAct, serviceInAct, assignPrintersAct, testPrintAct, holdAct,
      answerAct, faultReadAct, closeFaultAct, spoilReadAct, recountAct, cashUpReportAct, forceCloseAct, dayCloseAct,
      dayOpenAct, dayReportAct, setTimeAct, setParameterAct, saveParametersAct]
    repeat' split
    all_goals rfl

/-- What the block of a request does is sound (Laws/Steps.lean). -/
theorem blockAct_sound {i : Instr} {p : Port} {h : Header} (hi : requestHead i = some (p, h)) (s : State) :
    (blockAct i s).Sound p s := by
  cases i <;> cases hi
  case openSession => exact sound_openSession ..
  case sell => exact sound_sell ..
  case cancel => exact sound_cancel ..
  case voidTicket => exact sound_void ..
  case refund => exact sound_refund ..
  case closeSession => exact sound_closeSession ..
  case declare => exact sound_declare ..
  case ackFault => exact sound_ackFault ..
  case loadPack => exact sound_loadPack ..
  case unloadPack => exact sound_unloadPack ..
  case queryJob => exact sound_queryJob ..
  case queryPrinter => exact sound_queryPrinter ..
  case querySession => exact sound_querySession ..
  case queryPack => exact sound_queryPack ..
  case queryOffice => exact sound_queryOffice ..
  case receivePack => exact sound_receivePack ..
  case returnPack => exact sound_returnPack ..
  case writeOff => exact sound_writeOff ..
  case serviceOut => exact sound_serviceOut ..
  case serviceIn => exact sound_serviceIn ..
  case assignPrinters => exact sound_assignPrinters ..
  case testPrint => exact sound_testPrint ..
  case hold => exact sound_hold ..
  case release => exact sound_hold ..
  case answer => exact sound_answer ..
  case faultRead => exact sound_faultRead ..
  case closeFault => exact sound_closeFault ..
  case spoilRead => exact sound_spoilRead ..
  case recount => exact sound_recount ..
  case cashUpReport => exact sound_cashUpReport ..
  case forceClose => exact sound_forceClose ..
  case dayClose => exact sound_dayClose ..
  case dayOpen => exact sound_dayOpen ..
  case dayReport => exact sound_dayReport ..
  case setTime => exact sound_setTime ..
  case setParameter => exact sound_setParameter ..
  case saveParameters => exact sound_saveParameters ..
  case restart => exact steps_warmRestart .request s

/-! ### What a taken request leaves -/

/-- How a port serves a request (R179 to R182): it is refused, or its block answers it, defers the reply or gives none. -/
inductive Served (p : Port) (h : Header) (code : Nat) (act : State → Verdict) (s : State) : State → Prop
  | refused (rc : ResultCode) (res : Results) : Served p h code act s (answer p h code rc res s)
  | done (t : State) (res : Results) : act s = .done t res → Served p h code act s (answer p h code .done res t)
  | referred (t : State) (res : Results) : act s = .referred t res →
      Served p h code act s (answer p h code .referred res t)
  | deferred (t : State) : act s = .deferred t → Served p h code act s t
  | silent (t : State) : act s = .silent t → Served p h code act s t

theorem serve_served (p : Port) (h : Header) (code : Nat) (act : State → Verdict) (s : State) :
    Served p h code act s (serve p h code act s) := by
  unfold serve
  split
  · exact .refused ..
  · split
    · exact .refused ..
    · split
      next rc res _ => exact .refused rc res
      next t res ht => exact .done t res ht
      next t res ht => exact .referred t res ht
      next t ht => exact .deferred t ht
      next t ht => exact .silent t ht

/-- A request that the port does not take changes nothing; one that it takes is served. -/
theorem takeRequest_served (p : Port) (h : Header) (i : Instr) (act : State → Verdict) (s : State) :
    takeRequest p h i act s = s
      ∨ ∃ rest, s.canTake p = true
        ∧ Served p h ((requestCode i).getD 0) act (taken p rest s) (takeRequest p h i act s) := by
  unfold takeRequest
  split
  next hc =>
    rw [Bool.and_eq_true] at hc
    split
    next rest _ => exact .inr ⟨rest, hc.1, serve_served ..⟩
    next => exact .inl rfl
  next => exact .inl rfl

theorem taken_free {p : Port} {rest : List (List Byte)} {s : State} (h : s.canTake p = true) :
    ((taken p rest s).port p).hand = none ∧ hasReply ((taken p rest s).port p).outq = false := by
  rw [taken_port, if_pos rfl]
  exact canTake_free h

theorem not_mem_of_hasReply {l : List OutFrame} (h : hasReply l = false) (r : Reply) : OutFrame.reply r ∉ l :=
  fun hr => absurd rfl (List.any_eq_false.mp h _ hr)

/-- A reply found at a port after an answer was there before, or is the answer. -/
theorem mem_replyIn {h : Header} {code : Nat} {rc : ResultCode} {res : Results} {q : PortState} {r : Reply}
    (hr : OutFrame.reply r ∈ (replyIn h code rc res q).outq) : OutFrame.reply r ∈ q.outq ∨ r.result = rc := by
  unfold replyIn at hr
  split at hr
  next => exact .inl hr
  next =>
    obtain hold | hnew := List.mem_append.mp hr
    · exact .inl hold
    · cases List.mem_singleton.mp hnew
      exact .inr rfl

/-- An answer to a request leaves every port but its own, and every record. -/
theorem answer_taken_frame (p : Port) (h : Header) (code : Nat) (rc : ResultCode) (res : Results)
    (rest : List (List Byte)) (s : State) :
    answer p h code rc res (taken p rest s) = { s with ports := (answer p h code rc res (taken p rest s)).ports }
      ∧ OthersSame p s (answer p h code rc res (taken p rest s)) := by
  refine ⟨rfl, fun q hq => ?_⟩
  rw [answer_eq, State.port_modPort, if_neg (Ne.symm hq), taken_port, if_neg hq]

/-! ### No reply stands after a restart (R182, R201) -/

theorem acts_restartTail (cold : Bool) (cause : RestartCause) (lost dflt : Bool) (u : State) :
    Acts u (restartTail cold cause lost dflt u) := by
  have hpacks : Acts u (settleIssues (allPacks.foldl adjustPack u)) :=
    .trans (acts_foldl _ acts_adjustPack _ u) (.issues _ _ (.inl (by simp)))
  have hfaults : ∀ t : State, Acts t (adjustFaults t) := fun t =>
    .trans (acts_removeCondition ..) (.trans (acts_reportFree _) (acts_testFull _))
  exact .trans hpacks (.trans (acts_notifyAll ..) (.trans (acts_foldl _ acts_countClosing _ _)
    (.trans (acts_raiseStart ..) (hfaults _))))

theorem restartAs_noReply (cold : Bool) (cause : RestartCause) (lost : Bool) (s : State) (p : Port) :
    hasReply ((restartAs cold cause lost s).port p).outq = false := by
  rw [restartAs_eq]
  refine ((acts_restartTail ..).port_free p ?_).2
  have hport : ∀ t : State, (resetPrinters (loadParams (clearVolatile t))).port p = restPort [] :=
    fun t => rest_port p _ rfl
  rw [hport]
  exact ⟨rfl, rfl⟩

/-- What a block leaves at the port of the request it was given: no reply, until the answer is placed. -/
theorem blockAct_noReply {i : Instr} {p : Port} {h : Header} (hi : requestHead i = some (p, h)) {s t : State}
    (hfree : (s.port p).hand = none ∧ hasReply (s.port p).outq = false)
    (ht : (∃ res, blockAct i s = .done t res) ∨ (∃ res, blockAct i s = .referred t res) ∨ blockAct i s = .deferred t
      ∨ blockAct i s = .silent t) : hasReply (t.port p).outq = false := by
  have hsound := blockAct_sound hi s
  obtain ⟨res, ht⟩ | ⟨res, ht⟩ | ht | ht := ht <;> rw [ht] at hsound
  · exact (Acts.port_free hsound p hfree).2
  · exact (Acts.port_free hsound p hfree).2
  · obtain ⟨u, x, hacts, rfl⟩ := hsound
    rw [State.port_modPort_same]
    exact (hacts.port_free p hfree).2
  · have hrestart : ∃ p h, i = .restart p h := by
      by_contra hno
      have hanswers := answers_blockAct (fun p h hih => hno ⟨p, h, hih⟩) s
      rw [ht] at hanswers
      cases hanswers
    obtain ⟨_, _, rfl⟩ := hrestart
    have hstate : warmRestart .request s = t := Verdict.silent.inj ht
    rw [← hstate]
    exact restartAs_noReply ..

/-- Settles O47: the reply of a refusal can only be the answer itself, placed on the state from which it was taken. -/
theorem refusalLeavesRecords : Obligations.RefusalLeavesRecords := by
  intro i p h s t r hi hexec hnone hr hcode
  rw [exec_request hi] at hexec
  cases hexec
  obtain hsame | ⟨rest, hcan, hserved⟩ := takeRequest_served p h i (blockAct i) s
  · rw [hsame] at hr
    exact absurd hr (not_mem_of_hasReply hnone r)
  · have hfree := taken_free (rest := rest) hcan
    have hcontra : ∀ (u : State) (rc : ResultCode) (res : Results), hasReply (u.port p).outq = false →
        resultValue rc < 16 → OutFrame.reply r ∉ ((answer p h ((requestCode i).getD 0) rc res u).port p).outq := by
      intro u rc res hu hlow hmem
      rw [answer_eq, State.port_modPort_same] at hmem
      obtain hold | hnew := mem_replyIn hmem
      · exact not_mem_of_hasReply hu r hold
      · rw [hnew] at hcode; omega
    generalize takeRequest p h i (blockAct i) s = t at hserved hr
    cases hserved with
    | refused rc res => exact answer_taken_frame ..
    | done u res hu =>
      exact absurd hr (hcontra u .done res (blockAct_noReply hi hfree (.inl ⟨res, hu⟩)) (by decide))
    | referred u res hu =>
      exact absurd hr (hcontra u .referred res (blockAct_noReply hi hfree (.inr (.inl ⟨res, hu⟩))) (by decide))
    | deferred _ hu =>
      exact absurd hr (not_mem_of_hasReply (blockAct_noReply hi hfree (.inr (.inr (.inl hu)))) r)
    | silent _ hu =>
      exact absurd hr (not_mem_of_hasReply (blockAct_noReply hi hfree (.inr (.inr (.inr hu)))) r)

/-! ### The three checks of a port (R179) -/

/-- A taken request is served on the state without it in the FIFO. -/
theorem takeRequest_serve {p : Port} {i : Instr} {rest : List (List Byte)} {s : State} (h : Header)
    (act : State → Verdict) (hc : s.canTake p = true) (hw : wellFormed i = true)
    (ho : s.offered p (requestBody i) = some rest) :
    takeRequest p h i act s = serve p h ((requestCode i).getD 0) act (taken p rest s) := by
  simp only [takeRequest, hc, hw, ho, Bool.and_self, if_true, taken]

theorem answered_refusal (p : Port) (h : Header) (code : Nat) (rc : ResultCode) (res : Results)
    (rest : List (List Byte)) (s : State) :
    Answered p h code rc res rest [] s (answer p h code rc res (taken p rest s)) := by
  refine ⟨?_, (answer_taken_frame ..).2⟩
  rw [answer_eq, State.port_modPort_same, taken_port, if_pos rfl, noticed_nil]

/-- Settles O48: each check refuses before the block is asked, and a refusal is an answer on the state as it stood. -/
theorem portChecks : Obligations.PortChecks := by
  intro p rest s hcan
  refine ⟨fun body hlen hparse hoff => ?_, fun i h hi hw hoff => ⟨fun hflush => ?_, fun hflush hsup hp => ?_⟩⟩
  · refine ⟨_, rfl, ?_⟩
    have htake : takeBad p body s = answer p { chain := false, quiet := false, tag := tagOf body } (codeOf body)
        .badRequest .none (taken p rest s) := by
      simp [takeBad, hcan, Config.maxBody, hlen, hparse, hoff, taken]
    rw [htake]
    exact ⟨(answer_taken_frame ..).1, answered_refusal ..⟩
  all_goals
    refine ⟨_, exec_request hi s, ?_⟩
    rw [takeRequest_serve h _ hcan hw hoff]
  · have hserve : serve p h ((requestCode i).getD 0) (blockAct i) (taken p rest s)
        = answer p h ((requestCode i).getD 0) .flushed .none (taken p rest s) := by
      simp [serve, hflush, taken_port]
    rw [hserve]
    exact ⟨(answer_taken_frame ..).1, answered_refusal ..⟩
  · have hwindow : Port.isWindow p = true := by
      cases p with
      | win w => rfl
      | sup => exact absurd rfl hp
    have hserve : serve p h ((requestCode i).getD 0) (blockAct i) (taken p rest s)
        = answer p h ((requestCode i).getD 0) .notPermitted .none (taken p rest s) := by
      simp [serve, hflush, taken_port, hsup, hwindow]
    rw [hserve]
    exact ⟨(answer_taken_frame ..).1, answered_refusal ..⟩

/-! ### Without supply, or in reset (R199, R200) -/

section
variable {s : State}

theorem live_false (h : s.powered = false ∨ s.resetLow = true) : s.live = false := by
  obtain h | h := h <;> simp [State.live, h]

theorem takeRequest_dead (h : s.live = false) (p : Port) (hd : Header) (i : Instr) (act : State → Verdict) :
    takeRequest p hd i act s = s := by
  simp [takeRequest, State.canTake, h]

theorem whenLive_dead (h : s.live = false) (f : State → State) : whenLive f s = s := by simp [whenLive, h]

theorem atPort_dead (h : s.live = false) (p : Port) (f : PortState → PortState) : atPort p f s = s := by
  simp [atPort, h]

end

/-- Settles O46: requests, the links' events and the lines' and timers' events are each guarded by the supply and the
reset input. -/
theorem noEventWithoutSupply : Obligations.NoEventWithoutSupply := by
  intro c s hdead hclock hassert hrelease hcold hfail hbackup
  have hlive := live_false hdead
  cases c
  case badRequest p body => exact congrArg Host.Outcome.next (by simp [takeBad, State.canTake, hlive])
  case portBreak p => exact congrArg Host.Outcome.next (by simp [hlive])
  case receiveFrame | strayCharacter | interCharacterTimeout | transmitFrame | frameInProgressDiscarded
      | lineReturnsHigh =>
    exact congrArg Host.Outcome.next (atPort_dead hlive _ _)
  case poll | print | sense | status | coupon | serial | badResponse | exchangeTimeout | couponTimerExpiry
      | senseTimerExpiry | authorisationExpiry | lineRestartBreakEnd | saveComplete =>
    exact congrArg Host.Outcome.next (whenLive_dead hlive _)
  case clockTick => exact absurd rfl hclock
  case resetAssert => exact absurd rfl hassert
  case resetRelease => exact absurd rfl hrelease
  case coldStart => exact absurd rfl hcold
  case powerFail => exact absurd rfl hfail
  case backupSupplyLoss => exact absurd rfl hbackup
  all_goals
    rw [exec_request rfl, takeRequest_dead hlive]

/-! ### One step, and reset -/

/-- Settles O36. -/
theorem stepTakesFront : Obligations.StepTakesFront := by
  refine fun s => ⟨fun c rest hpending => ?_, fun hpending => ?_⟩ <;> simp only [step, hpending]

theorem reset_port (p : Port) : State.reset.port p = restPort firstFrames := by
  simp [State.port, State.reset]

/-- Settles O37: the tables are empty, no allowance is held, and the rest is computed. -/
theorem resetIsKept : Obligations.ResetIsKept := by
  have hpack : ∀ i, State.reset.pack i = none := fun i => by simp [State.pack, State.reset]
  have hsession : ∀ i, State.reset.session i = none := fun i => by simp [State.session, State.reset]
  have hallowance : NoAllowance State.reset := fun p => by simp [State.printer, State.reset, restPrinter]
  refine ⟨fun i k hk => ?_, fun i j k m _ hk => ?_, fun p => ?_, ⟨?_, fun p d hd => ?_⟩, ⟨by decide, by decide⟩,
    ⟨by decide, by decide, by decide, by decide, by decide⟩, ⟨by decide, by decide, by decide, by decide, by decide⟩,
    fun i x hx => ?_, paramsOk_default⟩
  · rw [hpack] at hk; cases hk
  · rw [hpack] at hk; cases hk
  · rw [reset_port]; exact ⟨by decide, by decide, by decide, by decide⟩
  · rw [reserved_none hallowance]; decide
  · rw [hallowance] at hd; cases hd
  · rw [hsession] at hx; cases hx

end Sys2Proof.Machine
end

