-- ==== Sys2Proof/Proofs/RequestBodies.lean ====
section
/-! Every well-formed request is read back from its body (R177, R179): the parameters of each row in turn, then the header
before them. -/

namespace Sys2Proof.Machine

/-! ### A field that ends the body -/

theorem take1_last {n : Nat} (h : fits1 n = true) : take1 (be1 n) = some (n, []) := take1_be1 h []

theorem take2_last {n : Nat} (h : fits2 n = true) : take2 (be2 n) = some (n, []) := take2_be2 h []

theorem take4_last {n : Nat} (h : fits4 n = true) : take4 (be4 n) = some (n, []) := take4_be4 h []

theorem takeForm_last {p : Port} {w : Option Nat} (h : formOf p w = true) : takeForm p (encForm w) = some (w, []) := by
  simpa using takeForm_encForm h []

theorem takeOpt1_last {o : Option Nat} (h : optFits fits1 o = true) :
    takeOpt take1 (encOpt be1 o) = some (o, []) := by
  simpa using takeOpt_encOpt1 h []

theorem takeOpt2_last {o : Option Nat} (h : optFits fits2 o = true) :
    takeOpt take2 (encOpt be2 o) = some (o, []) := by
  simpa using takeOpt_encOpt2 h []

theorem takeTextList_last {ts : List (List Byte)} (h : textsFit ts = true) :
    takeTextList (be1 ts.length ++ encTexts ts) = some (ts, []) := by
  simpa using takeTextList_enc h []

/-! ### The parameters that have more than one form -/

/-- R195: the identifier that is read back fixes the form of the value. -/
theorem takeChange_encChange {c : ParamChange} (h : c.wf = true) : takeChange (encChange c) = some (c, []) := by
  cases c with
  | other i rest =>
    simp only [ParamChange.wf, Bool.and_eq_true, Bool.not_eq_true', Bool.and_eq_false_iff, decide_eq_false_iff_not,
      decide_eq_true_eq] at h
    obtain ⟨⟨hi, hfree⟩, -⟩ := h
    simp only [takeChange, encChange, take1_be1 hi, Option.bind_eq_bind, Option.bind_some]
    split
    case h_12 => rfl
    all_goals omega
  | _ =>
    simp only [ParamChange.wf, Bool.and_eq_true] at h
    simp [takeChange, encChange, take1_be1, take1_last, take2_last, take4_last, h, fits1_iff.mpr]

/-- R62: a window names its job by its tag alone, the supervisor by number or by port. -/
theorem takeParams_queryJob {p : Port} {h : Header} {name : Option JobName}
    (hw : wellFormed (.queryJob p h name) = true) :
    takeParams p h 0x0B (encodeParams (.queryJob p h name)) = some (.queryJob p h name, []) := by
  simp only [wellFormed, Bool.and_eq_true] at hw
  cases p with
  | win w =>
    cases name with
    | none => rfl
    | some j => exact absurd hw.2 (by simp)
  | sup =>
    obtain _ | n | n := name
    · exact absurd hw.2 (by simp)
    all_goals
      have hn : fits1 n = true := hw.2
      simp [takeParams, encodeParams, take1_be1, take1_last hn, fits1_iff.mpr]

/-- R143: a window may leave the number out, the supervisor may not. -/
theorem takeParams_querySession {p : Port} {h : Header} {n : Option Nat}
    (hw : wellFormed (.querySession p h n) = true) :
    takeParams p h 0x0D (encodeParams (.querySession p h n)) = some (.querySession p h n, []) := by
  simp only [wellFormed, Bool.and_eq_true] at hw
  obtain ⟨⟨-, hfits⟩, hform⟩ := hw
  cases p with
  | win w => simp only [takeParams, encodeParams, takeOpt2_last hfits]; rfl
  | sup =>
    cases n with
    | none => exact absurd hform (by decide)
    | some m =>
      have hm : fits2 m = true := hfits
      simp only [takeParams, encodeParams, take2_last hm]
      rfl

/-- R19: a pack is named by a serial or by its record. -/
theorem takeParams_queryPack {p : Port} {h : Header} {name : PackName} (hw : wellFormed (.queryPack p h name) = true) :
    takeParams p h 0x0E (encodeParams (.queryPack p h name)) = some (.queryPack p h name, []) := by
  simp only [wellFormed, Bool.and_eq_true] at hw
  obtain ⟨-, hname⟩ := hw
  cases name with
  | serial n =>
    have hn : fits4 n = true := hname
    simp [takeParams, encodeParams, take1_be1, take4_last hn, fits1_iff.mpr]
  | index n =>
    have hn : fits1 n = true := hname
    simp [takeParams, encodeParams, take1_be1, take1_last hn, fits1_iff.mpr]

/-- R171: only the section of the pack lines has a start. -/
theorem takeParams_dayReport {p : Port} {h : Header} {sect : Nat} {start : Option Nat}
    (hw : wellFormed (.dayReport p h sect start) = true) :
    takeParams p h 0x32 (encodeParams (.dayReport p h sect start)) = some (.dayReport p h sect start, []) := by
  simp only [wellFormed, Bool.and_eq_true, beq_iff_eq] at hw
  obtain ⟨⟨⟨-, hsect⟩, hstart⟩, hboth⟩ := hw
  cases start with
  | none =>
    have hne : sect ≠ 1 := by simpa using hboth
    simp only [takeParams, encodeParams, encForm, take1_be1 hsect, Option.bind_eq_bind, Option.bind_some]
    rfl
  | some n =>
    have hone : sect = 1 := by simpa using hboth
    have hn : fits1 n = true := hstart
    subst hone
    simp [takeParams, encodeParams, encForm, take1_be1, take1_last hn, fits1_iff.mpr]

/-! ### All rows -/

/-- The parameters of a row are read back, and nothing is left over. -/
theorem takeParams_encodeParams {i : Instr} {p : Port} {h : Header} {c : Nat} (hi : requestHead i = some (p, h))
    (hc : requestCode i = some c) (hw : wellFormed i = true) : takeParams p h c (encodeParams i) = some (i, []) := by
  cases i <;> cases hi <;> cases hc
  case queryJob => exact takeParams_queryJob hw
  case querySession => exact takeParams_querySession hw
  case queryPack => exact takeParams_queryPack hw
  case dayReport => exact takeParams_dayReport hw
  case setParameter =>
    simp only [wellFormed, Bool.and_eq_true] at hw
    simp only [takeParams, encodeParams, takeChange_encChange hw.2]
    rfl
  all_goals
    simp only [wellFormed, Bool.and_eq_true] at hw
    simp only [takeParams, encodeParams, List.append_assoc, take1_be1, take2_be2, take4_be4, takeTextList_enc,
      take1_last, take2_last, take4_last, takeForm_last, takeOpt1_last, takeOpt2_last, takeTextList_last, hw,
      Option.bind_eq_bind, Option.bind_some, Option.pure_def]

theorem requestCode_lt {i : Instr} {c : Nat} (hc : requestCode i = some c) : c < 256 := by
  cases i <;> cases hc <;> decide

theorem wellFormed_header {i : Instr} {p : Port} {h : Header} (hi : requestHead i = some (p, h))
    (hw : wellFormed i = true) : h.wf = true := by
  cases i <;> cases hi <;> simp only [wellFormed, Bool.and_eq_true, and_assoc] at hw
  all_goals simp only [hw]

theorem requestCode_isSome {i : Instr} {p : Port} {h : Header} (hi : requestHead i = some (p, h)) :
    ∃ c, requestCode i = some c := by
  cases i <;> cases hi <;> exact ⟨_, rfl⟩

/-- Settles O45: the header is read back, then the parameters of the row. -/
theorem parseReadsEncoding : Obligations.ParseReadsEncoding := by
  intro i p h hi hw
  obtain ⟨c, hc⟩ := requestCode_isSome hi
  have hbody : requestBody i = be1 c ++ be1 (flagsByte h) ++ be4 h.tag ++ encodeParams i := by
    simp only [requestBody, hc, hi]
  rw [hbody, parseRequest_head (requestCode_lt hc) (wellFormed_header hi hw), takeParams_encodeParams hi hc hw]
  rfl

end Sys2Proof.Machine
end

