-- ==== Sys2Proof/Proofs/Links.lean ====
section
/-! The events of a link (R176, R178, R183 to R185): what one character does to a receiver, what a whole frame does, and
what a break and a sending leave. -/

namespace Sys2Proof.Machine

/-! ### An event at one port -/

/-- An event at a port that hears it changes that port alone. -/
theorem atPort_hears {p : Port} {s : State} (h : s.hears p) (f : PortState → PortState) :
    ∃ t, (.next (atPort p f s) : Host.Outcome State Fault Refusal) = .next t ∧ t = { s with ports := t.ports }
      ∧ OthersSame p s t ∧ t.port p = f (s.port p) := by
  have hport : atPort p f s = s.modPort p f := by simp [atPort, h.1, h.2]
  refine ⟨s.modPort p f, by rw [hport], rfl, fun q hq => ?_, State.port_modPort_same ..⟩
  rw [State.port_modPort, if_neg (Ne.symm hq)]

/-! ### One character (R178) -/

section
variable {q : PortState} {c : Char9} {got : List Byte}

theorem receiveChar_idle (hq : q.receiver = .idle) : receiveChar q c =
    if c.framing = true then markLine .idle q
    else if c.mark = true then { q with receiver := .inFrame [c.byte] } else q := by
  simp only [receiveChar, hq]

theorem receiveChar_inFrame (hq : q.receiver = .inFrame got) : receiveChar q c =
    if c.framing = true then markLine .idle q
    else if c.mark = true then markLine (.inFrame [c.byte]) q
    else if lengthTooLong (got ++ [c.byte]) = true then markLine .idle q
    else if frameWhole (got ++ [c.byte]) = true then testFrame (got ++ [c.byte]) q
    else { q with receiver := .inFrame (got ++ [c.byte]) } := by
  simp only [receiveChar, hq]

/-- A byte of a frame in progress, in a character without mark or framing error. -/
theorem receiveChar_plain (hq : q.receiver = .inFrame got) (b : Byte) : receiveChar q (plainChar b) =
    if lengthTooLong (got ++ [b]) = true then markLine .idle q
    else if frameWhole (got ++ [b]) = true then testFrame (got ++ [b]) q
    else { q with receiver := .inFrame (got ++ [b]) } := by
  rw [receiveChar_inFrame hq]
  rfl

end

theorem lengthTooLong_iff (bytes : List Byte) :
    lengthTooLong bytes = true ↔ ∃ a n, bytes = [a, n] ∧ 200 < n.toNat := by
  obtain _ | ⟨a, _ | ⟨n, _ | ⟨b, r⟩⟩⟩ := bytes <;> simp [lengthTooLong, show Config.maxBody = 200 from rfl]

/-! ### A frame in progress, and its end -/

/-- The bytes of the body join the frame in progress while the announced length is not passed. -/
theorem receiveChars_body {lead len : Byte} (body : List Byte) {got : List Byte} {q : PortState}
    (hq : q.receiver = .inFrame (lead :: len :: got)) (hlen : got.length + body.length ≤ len.toNat) :
    receiveChars (body.map plainChar) q = { q with receiver := .inFrame (lead :: len :: got ++ body) } := by
  induction body generalizing got q with
  | nil => rw [List.append_nil, ← hq]; rfl
  | cons b body ih =>
    rw [List.length_cons] at hlen
    have hlong : lengthTooLong (lead :: len :: got ++ [b]) ≠ true := by
      rw [Ne, lengthTooLong_iff]
      rintro ⟨x, n, heq, -⟩
      have := congrArg List.length heq
      simp at this
    have hwhole : frameWhole (lead :: len :: got ++ [b]) ≠ true := by
      simp [frameWhole]; omega
    have hchar : receiveChar q (plainChar b) = { q with receiver := .inFrame (lead :: len :: (got ++ [b])) } := by
      exact (receiveChar_plain hq b).trans ((if_neg hlong).trans (if_neg hwhole))
    have hrest := ih (got := got ++ [b]) (q := { q with receiver := .inFrame (lead :: len :: (got ++ [b])) }) rfl
      (by simp; omega)
    show receiveChars (body.map plainChar) (receiveChar q (plainChar b)) = _
    rw [hchar, hrest]
    simp

/-- R178: the characters of a frame, from its lead to its check, at an idle receiver: the frame is tested. -/
theorem receiveChars_frame {q : PortState} (hq : q.receiver = .idle) {body : List Byte} (hbody : body.length ≤ 200)
    (check : Byte) :
    receiveChars (markedChar 1 :: (BitVec.ofNat 8 body.length :: body ++ [check]).map plainChar) q
      = testFrame (1 :: BitVec.ofNat 8 body.length :: body ++ [check])
          { q with receiver := .inFrame (1 :: BitVec.ofNat 8 body.length :: body) } := by
  have hlen : (BitVec.ofNat 8 body.length).toNat = body.length := by simp; omega
  set len := BitVec.ofNat 8 body.length
  have hlead : receiveChar q (markedChar 1) = { q with receiver := .inFrame [1] } := by
    rw [receiveChar_idle hq]; rfl
  have hlength : receiveChar { q with receiver := .inFrame [1] } (plainChar len)
      = { q with receiver := .inFrame [1, len] } := by
    refine (receiveChar_plain (got := [1]) rfl len).trans ((if_neg ?_).trans (if_neg ?_))
    · rw [lengthTooLong_iff]
      rintro ⟨x, n, heq, hn⟩
      cases heq
      omega
    · simp [frameWhole]
  have hall : receiveChars (body.map plainChar) { q with receiver := .inFrame [1, len] }
      = { q with receiver := .inFrame (1 :: len :: body) } := by
    rw [receiveChars_body (got := []) body rfl (by simp [hlen])]
    simp
  have hcheck : receiveChar { q with receiver := .inFrame (1 :: len :: body) } (plainChar check)
      = testFrame (1 :: len :: body ++ [check]) { q with receiver := .inFrame (1 :: len :: body) } := by
    refine (receiveChar_plain (got := 1 :: len :: body) rfl check).trans ((if_neg ?_).trans (if_pos ?_))
    · rw [lengthTooLong_iff]
      rintro ⟨x, n, heq, -⟩
      have := congrArg List.length heq
      simp at this
    · simp [frameWhole, hlen]
  rw [← hcheck, ← hall, ← hlength, ← hlead]
  simp [receiveChars]

theorem sumBytes_append (a b : List Byte) : sumBytes (a ++ b) = sumBytes a + sumBytes b := by
  induction a with
  | nil => exact (BitVec.zero_add _).symm
  | cons x a ih => simp only [List.cons_append, sumBytes, ih, BitVec.add_assoc]

/-- R176: a REQUEST frame passes exactly with its check. -/
theorem framePasses_iff (len : Byte) (body : List Byte) (check : Byte) :
    framePasses (1 :: len :: body ++ [check]) = true ↔ check = -(len + sumBytes body) := by
  have hsum : sumBytes (len :: body ++ [check]) = check + (len + sumBytes body) := by
    simp only [sumBytes_append, sumBytes]
    rw [add_zero, add_comm]
  show (1 == 1 && sumBytes (len :: body ++ [check]) == 0) = true ↔ _
  rw [hsum, Bool.and_eq_true, beq_iff_eq, beq_iff_eq]
  exact ⟨fun h => eq_neg_of_add_eq_zero_left h.2, fun h => ⟨rfl, by rw [h]; exact neg_add_cancel _⟩⟩

theorem frameBody_eq (lead len : Byte) (body : List Byte) (check : Byte) :
    frameBody (lead :: len :: body ++ [check]) = body := by
  simp [frameBody]

theorem receiver_restored {q : PortState} (hq : q.receiver = .idle) : { q with receiver := .idle } = q := by
  rw [← hq]

/-- Settles O49: the frame is received to its check, and the test decides. -/
theorem receiveFrameJoins : Obligations.ReceiveFrameJoins := by
  intro p body s hears hidle hbody
  refine ⟨?_, fun check hwrong => ?_⟩
  · obtain ⟨t, hexec, hframe, hothers, hport⟩ := atPort_hears hears (receiveChars (requestFrame body))
    refine ⟨t, hexec, hframe, hothers, hport.trans ?_⟩
    have hpass := (framePasses_iff (BitVec.ofNat 8 body.length) body _).mpr rfl
    rw [requestFrame, frameChars, show (BitVec.ofNat 8 1 : Byte) = 1 from rfl, receiveChars_frame hidle hbody, testFrame,
      if_pos hpass, frameBody_eq, receiver_restored hidle]
    rfl
  · obtain ⟨t, hexec, hframe, hothers, hport⟩ := atPort_hears hears
      (receiveChars (markedChar 1 :: (BitVec.ofNat 8 body.length :: body ++ [check]).map plainChar))
    refine ⟨t, hexec, hframe, hothers, hport.trans ?_⟩
    rw [receiveChars_frame hidle hbody, testFrame, if_neg (mt (framePasses_iff _ body check).mp hwrong)]
    show ({ s.port p with receiver := .idle, line := true } : PortState) = _
    rw [← hidle]

/-- Settles O50: each character meets the first branch of the receiver's rule that applies to it. -/
theorem receiverDiscards : Obligations.ReceiverDiscards := by
  intro p c s hears
  refine ⟨fun hidle hstray => ?_, fun got hgot => ⟨?_, fun hdiscard => ?_⟩⟩
  · obtain ⟨t, hexec, hframe, hothers, hport⟩ := atPort_hears hears
      (fun q => if q.receiver = .idle ∧ (c.framing ∨ !c.mark) then receiveChar q c else q)
    refine ⟨t, hexec, hframe, hothers, hport.trans ?_⟩
    rw [if_pos ⟨hidle, by simpa using hstray⟩, receiveChar_idle hidle]
    by_cases hframing : c.framing = true
    · rw [if_pos hframing, if_pos hframing, markLine, ← hidle]
    · have hmark : ¬ c.mark = true := by simpa using hstray.resolve_left hframing
      rw [if_neg hframing, if_neg hframing, if_neg hmark]
  · obtain ⟨t, hexec, hframe, hothers, hport⟩ := atPort_hears hears gapPassed
    refine ⟨t, hexec, hframe, hothers, hport.trans ?_⟩
    simp only [gapPassed, hgot, markLine]
  · obtain ⟨t, hexec, hframe, hothers, hport⟩ := atPort_hears hears
      (fun q => if discards q c then receiveChar q c else q)
    refine ⟨t, hexec, hframe, hothers, hport.trans ?_⟩
    have hlong : got.length = 1 ∧ 200 < c.byte.toNat → lengthTooLong (got ++ [c.byte]) = true := by
      rintro ⟨hone, hbyte⟩
      obtain ⟨a, rfl⟩ := List.length_eq_one_iff.mp hone
      exact (lengthTooLong_iff _).mpr ⟨a, c.byte, rfl, hbyte⟩
    have hdisc : discards (s.port p) c = true := by
      simp only [discards, hgot, Bool.or_eq_true]
      obtain hframing | hmark | hbad := hdiscard
      · exact .inl (.inl hframing)
      · exact .inl (.inr hmark)
      · exact .inr (hlong hbad)
    rw [if_pos hdisc, receiveChar_inFrame hgot]
    by_cases hframing : c.framing = true
    · simp [hframing, markLine]
    · by_cases hmark : c.mark = true
      · simp [hframing, hmark, markLine]
      · have hbad := hlong ((hdiscard.resolve_left hframing).resolve_left hmark)
        simp [hframing, hmark, hbad, markLine]

/-! ### Breaks and sending (R183, R185) -/

/-- The notice of a break is for S; S's own break is told to nobody. -/
def breakNotes : Port → List (Port × Notice)
  | .win w => [(.sup, .portReset w)]
  | .sup => []

theorem tellBreak_told (p : Port) (s : State) :
    tellBreak p s = { s with ports := (tellBreak p s).ports } ∧ Told (breakNotes p) s (tellBreak p s) := by
  cases p with
  | win w => exact ⟨notify_portsOnly .., notify_port s .sup (.portReset w)⟩
  | sup => exact ⟨rfl, fun q => rfl⟩

theorem noticed_other {s : State} {notes : List (Port × Notice)} {q : Port} (h : ∀ n ∈ notes, n.1 ≠ q)
    (x : PortState) : noticed s notes q x = x :=
  fold_same _ x notes fun n hn => if_neg fun hq => h n hn hq.1

/-- Settles O51. -/
theorem breakAndSend : Obligations.BreakAndSend := by
  intro p s hears
  refine ⟨fun hhigh => ?_, fun hlow => ?_, fun f rest hq => ?_⟩
  · obtain ⟨hframe, htold⟩ := tellBreak_told p (s.modPort p breakPort)
    have hexec : exec (.portBreak p) s = .next (tellBreak p (s.modPort p breakPort)) := by
      refine congrArg Host.Outcome.next (if_pos ?_)
      simp [hears.1, hears.2, hhigh]
    have hown : ∀ n ∈ breakNotes p, n.1 ≠ p := by cases p <;> simp [breakNotes]
    refine ⟨_, breakNotes p, hexec, hframe, fun w hw => hw ▸ rfl, fun hs => hs ▸ rfl, ?_, fun q hq => ?_⟩
    · rw [htold p, noticed_other hown, State.port_modPort_same]
      rfl
    · rw [htold q, State.port_modPort, if_neg (Ne.symm hq)]
      exact noticed_congr rfl ..
  · obtain ⟨t, hexec, hframe, hothers, hport⟩ := atPort_hears hears
      (fun q => if q.receiver = .lineLow then { q with receiver := .idle } else q)
    exact ⟨t, hexec, hframe, hothers, hport.trans (if_pos hlow)⟩
  · obtain ⟨t, hexec, hframe, hothers, hport⟩ := atPort_hears hears sendOldest
    refine ⟨t, hexec, hframe, hothers, hport.trans ?_⟩
    simp only [sendOldest, hq]

end Sys2Proof.Machine
end

