-- ==== Sys2Proof/Proofs/Answers.lean ====
section
/-! The outcome of a request that its port accepts, by what its block answers: the rules of Laws/Frames.lean for any
request row. -/

namespace Sys2Proof.Machine

section
variable {p : Port} {h : Header} {i : Instr} {rest : List (List Byte)} {s : State}

/-- R181: the block refuses. -/
theorem request_refused {rc : ResultCode} {res : Results} (ha : Accepts p h i rest s)
    (hact : blockAct i (taken p rest s) = .refuse rc res) :
    ∃ t, exec i s = .next t ∧ t = { s with ports := t.ports }
      ∧ Answered p h ((requestCode i).getD 0) rc res rest [] s t := by
  rw [exec_request ha.1]
  exact exec_refused ha hact

/-- The block answers DONE, and `notes` have gone first. -/
theorem request_done {u : State} {res : Results} {notes : List (Port × Notice)} (ha : Accepts p h i rest s)
    (hact : blockAct i (taken p rest s) = .done u res)
    (hu : ∀ q, u.port q = noticed s notes q ((taken p rest s).port q)) :
    ∃ t, exec i s = .next t ∧ Answered p h ((requestCode i).getD 0) .done res rest notes s t
      ∧ t = { u with ports := t.ports } := by
  rw [exec_request ha.1]
  exact exec_done u res notes ha hact hu fun t hans hframe => ⟨hans, hframe⟩

/-- The block answers REFERRED, and `notes` have gone first. -/
theorem request_referred {u : State} {res : Results} {notes : List (Port × Notice)} (ha : Accepts p h i rest s)
    (hact : blockAct i (taken p rest s) = .referred u res)
    (hu : ∀ q, u.port q = noticed s notes q ((taken p rest s).port q)) :
    ∃ t, exec i s = .next t ∧ Answered p h ((requestCode i).getD 0) .referred res rest notes s t
      ∧ t = { u with ports := t.ports } := by
  rw [exec_request ha.1]
  exact exec_referred u res notes ha hact hu fun t hans hframe => ⟨hans, hframe⟩

/-- A query: DONE with nothing changed. -/
theorem request_told {res : Results} (ha : Accepts p h i rest s)
    (hact : blockAct i (taken p rest s) = .done (taken p rest s) res) :
    ∃ t, exec i s = .next t ∧ t = { s with ports := t.ports }
      ∧ Answered p h ((requestCode i).getD 0) .done res rest [] s t := by
  obtain ⟨t, hexec, hans, hframe⟩ := request_done (notes := []) ha hact fun q => rfl
  exact ⟨t, hexec, hframe, hans⟩

end

/-- A notice to one port from a state whose ports are those after the taking. -/
theorem notify_taken {p q : Port} {n : Notice} {rest : List (List Byte)} {s u : State} (hports : u.ports = (taken p rest s).ports)
    (hwindows : u.presentWindows = s.presentWindows) (r : Port) :
    (notify q n u).port r = noticed s [(q, n)] r ((taken p rest s).port r) := by
  rw [notify_port, noticed_congr hwindows]
  simp only [State.port, hports]

end Sys2Proof.Machine
end

