-- ==== Sys2Proof/Proofs/OfficeRequests.lean ====
section
/-! The office block and the clock (R163 to R173, R197, R198): NIGHT, the reports, DAY CLOSE and the time. -/

namespace Sys2Proof.Machine

/-! ### NIGHT (R164) -/

theorem openSessionAct_night {p : Port} {clerk float : Nat} {w : Option Nat} {s : State} (hmode : s.mode = .night)
    (hw : (s.presentWindow p w).isSome = true) : openSessionAct p clerk float w s = .refuse .officeClosed := by
  obtain ⟨x, hx⟩ := Option.isSome_iff_exists.mp hw
  simp only [openSessionAct, hx, hmode, if_true]

theorem sellAct_night {p : Port} {tag kind coupons fare tender : Nat} {texts : List (List Byte)} {w : Option Nat}
    {s : State} (hmode : s.mode = .night) (hw : (s.presentWindow p w).isSome = true) :
    sellAct p tag kind coupons fare tender texts w s = .refuse .officeClosed := by
  obtain ⟨x, hx⟩ := Option.isSome_iff_exists.mp hw
  simp only [sellAct, hx, hmode, if_true]

theorem voidAct_night {p : Port} {serial : Nat} {s : State} (hmode : s.mode = .night) :
    voidAct p serial s = .refuse .officeClosed := by
  simp only [voidAct, hmode, if_true]

theorem refundAct_night {p : Port} {serial amount tender : Nat} {w : Option Nat} {s : State} (hmode : s.mode = .night)
    (hw : (s.presentWindow p w).isSome = true) : refundAct p serial amount tender w s = .refuse .officeClosed := by
  obtain ⟨x, hx⟩ := Option.isSome_iff_exists.mp hw
  simp only [refundAct, hx, hmode, if_true]

/-- Settles O14: the mode is looked at before anything but the window. -/
theorem nightRefusesTillBusiness : Obligations.NightRefusesTillBusiness := by
  intro p h c rest s ha hmode hc
  refine request_refused ha ?_
  obtain ⟨clerk, float, w, rfl, hw⟩ | ⟨kind, coupons, fare, tender, texts, w, rfl, hw⟩ | ⟨serial, rfl⟩
    | ⟨serial, amount, tender, w, rfl, hw⟩ := hc
  · exact openSessionAct_night hmode hw
  · exact sellAct_night hmode hw
  · exact voidAct_night hmode
  · exact refundAct_night hmode hw

/-! ### Reports (R171, R172) -/

theorem summaryView_opened {s : State} (h : s.mode = .opened) : summaryView s = .running s.running s.day := by
  simp only [summaryView, h]

theorem summaryView_night {s : State} {r : DayReport} (h : s.mode = .night) (hr : s.report = some r) :
    summaryView s = .final r.totals r.day r.time r.lines.length := by
  simp only [summaryView, h, hr]

theorem dayReportAct_packs {s : State} {r : DayReport} {a : Nat} (ha : a ≤ 31) (hmode : s.mode = .night)
    (hr : s.report = some r) :
    dayReportAct 1 (some a) s = .done s (.packLines ((r.lines.drop a).take 8) r.lines.length) := by
  have hlow : ¬ 31 < a := by omega
  simp [dayReportAct, reportLines, hmode, hr, hlow]

theorem dayReportAct_night {s : State} (hmode : s.mode = .night) :
    dayReportAct 2 none s = .done s (.nightFigures s.running s.night s.day) := by
  simp [dayReportAct, hmode]

/-- Settles O15. -/
theorem dayReportAndQueryOffice : Obligations.DayReportAndQueryOffice := by
  intro p h rest s
  refine ⟨fun ha => ?_, fun a r ha hlow hmode hr => request_told ha (dayReportAct_packs hlow hmode hr),
    fun ha hmode => request_told ha (dayReportAct_night hmode), fun ha => ?_⟩
  · obtain ⟨t, hexec, hframe, hans⟩ := request_told (res := summaryView s) ha rfl
    exact ⟨t, _, hexec, hframe, hans, summaryView_opened, fun r => summaryView_night⟩
  · cases p with
    | win w =>
      obtain ⟨t, hexec, hframe, hans⟩ := request_told (res := .office (officeView (.win w) s) none) ha rfl
      exact ⟨t, hexec, hans, hframe⟩
    | sup =>
      exact request_done (u := { taken .sup rest s with overwritten := false }) (notes := []) ha rfl fun q => rfl

/-! ### The clock (R197, R198) -/

/-- Settles O16. -/
theorem clockAndSetTime : Obligations.ClockAndSetTime := by
  refine fun s => ⟨fun hclock => ⟨_, rfl, ?_⟩, fun h n rest ha => ?_⟩
  · have hnext : (s.clock + 1) % Config.daySeconds = if s.clock = 86399 then 0 else s.clock + 1 := by
      simp only [Config.daySeconds]
      split <;> omega
    rw [hnext]
  · by_cases hn : n ≤ 86399
    · have hact : setTimeAct n (taken .sup rest s)
          = .done { taken .sup rest s with clock := n, clockSet := true } (.timeSet s.clock) := by
        have hlow : ¬ Config.daySeconds ≤ n := by simp only [Config.daySeconds]; omega
        simp only [setTimeAct, if_neg hlow, taken_clock]
      obtain ⟨t, hexec, hans, hframe⟩ := request_done (notes := []) ha hact fun q => rfl
      exact ⟨t, hexec, fun _ => ⟨hans, hframe⟩, fun hbad => absurd hbad (by omega)⟩
    · have hact : setTimeAct n (taken .sup rest s) = .refuse .outOfRange := by
        have hhigh : Config.daySeconds ≤ n := by simp only [Config.daySeconds]; omega
        simp only [setTimeAct, if_pos hhigh]
      obtain ⟨t, hexec, hframe, hans⟩ := request_refused ha hact
      exact ⟨t, hexec, fun hgood => absurd hgood hn, fun _ => ⟨hans, hframe⟩⟩

/-! ### The lines of the day report (R163, R169) -/

theorem insertLine_perm (x : PackLine) (l : List PackLine) : (insertLine x l).Perm (x :: l) := by
  induction l with
  | nil => exact List.Perm.refl _
  | cons y l ih =>
    simp only [insertLine]
    split
    · exact List.Perm.refl _
    · exact (ih.cons y).trans (List.Perm.swap x y l)

theorem insertLine_sorted {x : PackLine} {l : List PackLine} (h : l.Pairwise fun a b => a.first ≤ b.first) :
    (insertLine x l).Pairwise fun a b => a.first ≤ b.first := by
  induction l with
  | nil => exact List.pairwise_singleton _ _
  | cons y l ih =>
    obtain ⟨hy, hl⟩ := List.pairwise_cons.mp h
    simp only [insertLine]
    split
    next hle =>
      refine List.pairwise_cons.mpr ⟨fun z hz => ?_, h⟩
      obtain rfl | hz := List.mem_cons.mp hz
      · exact hle
      · exact hle.trans (hy z hz)
    next hgt =>
      refine List.pairwise_cons.mpr ⟨fun z hz => ?_, ih hl⟩
      obtain rfl | hz := List.mem_cons.mp ((insertLine_perm x l).mem_iff.mp hz)
      · omega
      · exact hy z hz

theorem sortLines_perm (l : List PackLine) : (l.foldr insertLine []).Perm l := by
  induction l with
  | nil => exact List.Perm.refl _
  | cons x l ih => exact (insertLine_perm x _).trans (ih.cons x)

theorem sortLines_sorted (l : List PackLine) : (l.foldr insertLine []).Pairwise fun a b => a.first ≤ b.first := by
  induction l with
  | nil => exact List.Pairwise.nil
  | cons x l ih => exact insertLine_sorted ih

theorem isFinished_iff (k : Pack) : isFinished k = true ↔ k.state = .exhausted ∨ k.state = .returned := by
  simp [isFinished]

/-- R169: the line of a pack record, if it is finished. -/
def finishedLine (s : State) (i : PackIx) : Option PackLine := ((s.pack i).filter isFinished).map packLine

theorem closingLines_perm (s : State) : (closingLines s).Perm (allPacks.filterMap (finishedLine s)) := by
  refine (sortLines_perm _).trans (List.Perm.of_eq (List.filterMap_congr fun i _ => ?_))
  unfold finishedLine
  cases s.pack i with
  | none => rfl
  | some k => by_cases hk : isFinished k = true <;> simp [hk]

theorem mem_closingLines (s : State) (l : PackLine) :
    l ∈ closingLines s ↔ ∃ i k, s.pack i = some k ∧ isFinished k = true ∧ l = packLine k := by
  rw [(closingLines_perm s).mem_iff, List.mem_filterMap]
  constructor
  · rintro ⟨i, -, hl⟩
    obtain ⟨k, hk, rfl⟩ := Option.map_eq_some_iff.mp hl
    obtain ⟨hpack, hfin⟩ := Option.filter_eq_some_iff.mp hk
    exact ⟨i, k, hpack, hfin, rfl⟩
  · rintro ⟨i, k, hpack, hfin, rfl⟩
    exact ⟨i, List.mem_finRange i, Option.map_eq_some_iff.mpr ⟨k, Option.filter_eq_some_iff.mpr ⟨hpack, hfin⟩, rfl⟩⟩

theorem closingLines_length (s : State) :
    (closingLines s).length = (List.finRange 32).countP fun i => (s.pack i).any isFinished := by
  rw [(closingLines_perm s).length_eq, List.length_filterMap_eq_countP]
  refine List.countP_congr fun i _ => ?_
  simp only [finishedLine]
  cases s.pack i with
  | none => rfl
  | some k => by_cases hk : isFinished k = true <;> simp [hk]

/-! ### DAY CLOSE (R168, R169, R21) -/

theorem countUsed_none {α : Type} {n : Nat} {v : Vector (Option α) n} (h : ∀ i, look v i = none) : countUsed v = 0 := by
  rw [countUsed, List.countP_eq_zero]
  intro i _
  simp [h i]

theorem dayCloseAct_empty {s : State} (hmode : s.mode = .opened) (hsessions : ∀ i, s.session i = none)
    (hjobs : ∀ j, s.job j = none) : dayCloseAct s = .done (closeDay s)
      (.dayClosed s.day s.clock (closingLines s).length (countUsed (closeDay s).packs)) := by
  have hs : countUsed s.sessions = 0 := countUsed_none hsessions
  have hj : countUsed s.jobs = 0 := countUsed_none hjobs
  simp [dayCloseAct, hmode, hs, hj]

theorem closeDay_pack (s : State) (i : PackIx) : (closeDay s).pack i = (s.pack i).filter fun k => !isFinished k := by
  simp [State.pack, closeDay, freeFinished, look_map]

/-- Settles O12. -/
theorem dayCloseReports : Obligations.DayCloseReports := by
  intro h rest s ha hmode hsessions hjobs
  obtain ⟨t, hexec, hans, hframe⟩ := request_done (notes := []) ha
    (dayCloseAct_empty (s := taken .sup rest s) hmode hsessions hjobs) fun q => rfl
  have hpacks : t.packs = (closeDay s).packs := by rw [hframe]; rfl
  refine ⟨t, closingLines s, hexec, hpacks ▸ hans, ?_, fun i => ?_, fun l => ?_, closingLines_length s, sortLines_sorted _⟩
  · rw [hpacks]
    exact hframe
  · rw [State.pack, hpacks]
    refine (closeDay_pack s i).trans ?_
    cases s.pack i with
    | none => rfl
    | some k =>
      by_cases hk : isFinished k = true
      · simp [hk, (isFinished_iff k).mp hk]
      · simp [hk, mt (isFinished_iff k).mpr hk]
  · simp only [mem_closingLines, isFinished_iff]
    rfl

end Sys2Proof.Machine
end

