-- ==== Sys2Proof/Proofs/TillSessions.lean ====
section
/-! Till sessions (R121 to R125, R140 to R143): opening, closing and asking. -/

namespace Sys2Proof.Machine

/-! ### Session numbers (R123) -/

theorem mem_sessionNumbers (s : State) (n : Nat) : n ∈ s.sessionNumbers ↔ ∃ i x, s.session i = some x ∧ x.number = n := by
  simp [State.sessionNumbers, allSessions, List.mem_filterMap, List.mem_finRange]

/-- R123: the counter moves on by one where no record holds the next number. -/
theorem nextSessionNumber_free {s : State} (h : nextDay s.sessionCounter ∉ s.sessionNumbers) :
    nextSessionNumber s = nextDay s.sessionCounter := by
  show (if s.sessionNumbers.contains (nextDay s.sessionCounter) then _ else nextDay s.sessionCounter) = _
  rw [if_neg (by simpa using h)]

theorem nextDay_ne (v : Nat) : nextDay v ≠ v := by
  rw [nextDay_eq]
  split <;> omega

/-! ### Opening (R121, R125) -/

theorem openSessionAct_passes {p : Port} {clerk float : Nat} {w : Option Nat} {s : State} {x : Window} {i : SessionIx}
    (hw : s.presentWindow p w = some x) (hmode : s.mode = .opened) (hclerk : clerk ≤ 9999) (hfloat : float ≤ 10000000)
    (hopen : s.windowSession x .opened = none) (hclosing : s.windowSession x .closing = none)
    (hfree : lowestFree s.sessions = some i) :
    openSessionAct p clerk float w s = .done (addSession i x clerk float s) (.opened s.sessionCounter) := by
  have hclerk' : ¬ 9999 < clerk := by omega
  have hfloat' : ¬ 10000000 < float := by omega
  simp [openSessionAct, hw, hmode, hclerk', hfloat', hopen, hclosing, hfree]

/-- Settles O1. -/
theorem openSessionMakesRecord : Obligations.OpenSessionMakesRecord := by
  intro p h clerk float w rest s x i ha hw hmode hclerk hfloat hopen hclosing hfree
  have hact := openSessionAct_passes (s := taken p rest s) hw hmode hclerk hfloat hopen hclosing hfree
  obtain ⟨t, hexec, hans, hframe⟩ := request_done (notes := []) ha hact fun q => rfl
  have hcounter : t.sessionCounter
      = nextSessionNumber ((taken p rest s).setSession i (some (newSession x clerk float (taken p rest s)))) := by
    rw [hframe]; rfl
  refine ⟨t, hexec, hans, ?_, fun hnone => ?_⟩
  · rw [hcounter]
    exact hframe
  · rw [hcounter, ← nextDay_eq]
    refine nextSessionNumber_free fun hmem => ?_
    obtain ⟨j, y, hy, hnumber⟩ := (mem_sessionNumbers _ _).mp hmem
    rw [State.session_setSession] at hy
    split at hy
    next =>
      cases hy
      exact nextDay_ne _ hnumber.symm
    next => exact hnone j y hy hnumber

/-! ### QUERY SESSION (R143) -/

/-- Settles O7. -/
theorem querySessionReplies : Obligations.QuerySessionReplies := by
  intro h rest s i x hx
  refine ⟨fun n w ha hwin hnum hown => ?_, fun n ha hn hpos hof => ?_⟩
  · have hact : querySessionAct (.win w) n (taken (.win w) rest s)
        = .done (taken (.win w) rest s) (.sessionBrief (sessionBrief x (taken (.win w) rest s))) := by
      cases n with
      | none => simp [querySessionAct, querySessionOwn, hown rfl, hx]
      | some m =>
        obtain ⟨-, hpos, hof⟩ := hnum m rfl
        have hok : numberOk m = true := by
          have hw : wellFormed (.querySession (.win w) h (some m)) = true := ha.2.2.1
          simp only [wellFormed, Bool.and_eq_true, optFits, fits2_iff] at hw
          exact numberOk_iff.mpr ⟨hpos, by omega⟩
        simp [querySessionAct, querySessionNumbered, hok, hof, hx, hwin]
    obtain ⟨t, hexec, hframe, hans⟩ := request_told ha hact
    refine ⟨t, hexec, hframe, ?_⟩
    rw [← hwin] at hans ⊢
    exact hans
  · have hok : numberOk n = true := by
      have hw : wellFormed (.querySession .sup h (some n)) = true := ha.2.2.1
      simp only [wellFormed, Bool.and_eq_true, optFits, fits2_iff] at hw
      exact numberOk_iff.mpr ⟨hpos, by omega⟩
    refine request_told ha ?_
    simp [blockAct, querySessionAct, querySessionNumbered, hok, hof, hx]

/-! ### Closing (R140 to R142) -/

theorem liveJobs_zero {s : State} {n : Nat} (h : s.liveJobs n = 0) {j : JobNo} {y : Job} (hy : s.job j = some y) :
    y.session ≠ some n := by
  have hj := List.countP_eq_zero.mp h j (List.mem_finRange j)
  simpa [hy] using hj

/-- A session record written anew under the same number is found where it was. -/
theorem sessionOf_rewritten {s : State} {i : SessionIx} {x y : Session} (hx : s.session i = some x)
    (hnumber : y.number = x.number) (n : Nat) : (s.setSession i (some y)).sessionOf n = s.sessionOf n := by
  unfold State.sessionOf
  refine find_congr _ _ _ fun j _ => ?_
  by_cases hij : i = j
  · subst hij
    rw [State.session_setSession_same, hx]
    exact congrArg (· == n) hnumber
  · rw [State.session_setSession, if_neg hij]

/-- R140: no QUEUED job of the session is in the table, so none is cancelled. -/
theorem cancelForClose_none {s : State} {n : Nat} (h : s.liveJobs n = 0) (j : JobNo) : cancelForClose n s j = s := by
  unfold cancelForClose
  split
  next => rfl
  next y hy => simp [liveJobs_zero h hy]

theorem endAuthorisation_none {w : Window} {s : State} (h : s.slot w = none) (x : AuthAnswer) :
    endAuthorisation w x s = s := by
  simp [endAuthorisation, h]

/-- R42: a printer whose queue was not shortened has nothing to look at, unless it waits for nothing. -/
theorem queueShortened_same {p : PrinterId} {s : State}
    (h : (s.printer p).state = .ready → (s.printer p).waiting = true → (s.printer p).queue ≠ []) :
    queueShortened p (s.printer p).queue.head? s = s := by
  unfold queueShortened
  by_cases hready : (s.printer p).state = .ready
  · by_cases hempty : (s.printer p).queue.isEmpty = true
    · have hwait : (s.printer p).waiting = false := by
        by_contra hw
        exact h hready (by simpa using hw) (List.isEmpty_iff.mp hempty)
      simp [hready, hempty, clearWaiting, hwait]
    · simp [hready, hempty]
  · simp [hready]

/-- A session as a close takes it first: CLOSING. -/
def closingNow (x : Session) (now : Nat) : Session := { x with state := .closing, closedAt := some now }

/-- A session as a close leaves it that finds no job of it. -/
def closedAtOnce (x : Session) (now : Nat) : Session := { x with state := .counting, closedAt := some now }

/-- R140, R141: a close that finds no job takes the session to COUNTING at once, and tells its window and S. -/
theorem closeSession_noJob {s : State} {i : SessionIx} {x : Session} (hx : s.session i = some x)
    (hof : s.sessionOf x.number = some i) (hslot : s.slot x.window = none) (hlive : s.liveJobs x.number = 0)
    (hwait : ∀ q, (s.printer q).state = .ready → (s.printer q).waiting = true → (s.printer q).queue ≠ []) :
    closeSession i s = notifyAll [.win x.window, .sup]
      (.sessionCountDue x.number x.window x.clerk (some s.clock) x.forced)
      (s.setSession i (some (closedAtOnce x s.clock))) := by
  set c := s.setSession i (some (closingNow x s.clock)) with hc
  have hclosing : modSession i (fun y => { y with state := .closing, closedAt := some s.clock }) s = c := by
    simp [modSession, hx, hc, closingNow]
  have hcancel : allJobs.foldl (cancelForClose x.number) c = c :=
    fold_same _ _ _ fun j _ => cancelForClose_none (s := c) hlive j
  have hleft : jobLeft x.number c
      = notifyAll [.win x.window, .sup] (.sessionCountDue x.number x.window x.clerk (some s.clock) x.forced)
        (s.setSession i (some (closedAtOnce x s.clock))) := by
    have hat : c.sessionOf x.number = some i := (sessionOf_rewritten (y := closingNow x s.clock) hx rfl _).trans hof
    have hci : c.session i = some (closingNow x s.clock) := State.session_setSession_same ..
    have hjobs : c.liveJobs x.number = 0 := hlive
    have hput : c.setSession i (some (closedAtOnce x s.clock)) = s.setSession i (some (closedAtOnce x s.clock)) := by
      simp [hc, State.setSession, put_put]
    simp only [jobLeft, hat, hci, hjobs, enterCounting]
    exact congrArg (notifyAll [.win x.window, .sup] (.sessionCountDue x.number x.window x.clerk (some s.clock) x.forced)) hput
  simp only [closeSession, hx, endAuthorisation_none hslot, hclosing, hcancel, hleft]
  refine fold_same _ _ _ fun q _ => ?_
  obtain ⟨v, hv⟩ := notifyAll_eq [.win x.window, .sup]
    (.sessionCountDue x.number x.window x.clerk (some s.clock) x.forced)
    (s.setSession i (some (closedAtOnce x s.clock)))
  rw [hv]
  exact queueShortened_same (s := { s.setSession i (some (closedAtOnce x s.clock)) with ports := v }) (hwait q)

theorem windowSession_session {s : State} {w : Window} {st : SessionState} {i : SessionIx} {x : Session}
    (h : s.windowSession w st = some i) (hx : s.session i = some x) : x.window = w ∧ x.state = st := by
  obtain ⟨y, hy, hwin, hst⟩ := s.windowSession_some h
  rw [hx] at hy
  cases hy
  exact ⟨hwin, hst⟩

/-- What the ports hold after the two notices of R139. -/
theorem countDue_ports {p : Port} {rest : List (List Byte)} {s u : State} (x : Session) (now : Nat)
    (hports : u.ports = (taken p rest s).ports) (hwindows : u.presentWindows = s.presentWindows) (q : Port) :
    (notifyAll [.win x.window, .sup] (.sessionCountDue x.number x.window x.clerk (some now) x.forced) u).port q
      = noticed s (countDueNotes x now) q ((taken p rest s).port q) := by
  obtain ⟨-, -, hq⟩ := notifyAll_spec u [.win x.window, .sup]
    (.sessionCountDue x.number x.window x.clerk (some now) x.forced)
  rw [hq, noticed_congr hwindows]
  simp only [State.port, hports]
  rfl

/-- The same for the session record and the number of its jobs. -/
theorem closeSession_view {s : State} {i : SessionIx} {x : Session} (hx : s.session i = some x)
    (hof : s.sessionOf x.number = some i) (hslot : s.slot x.window = none) (hlive : s.liveJobs x.number = 0)
    (hwait : ∀ q, (s.printer q).state = .ready → (s.printer q).waiting = true → (s.printer q).queue ≠ []) :
    (closeSession i s).session i = some (closedAtOnce x s.clock)
      ∧ closedView i (closeSession i s) = .closed x.number .counting 0 := by
  obtain ⟨v, hv⟩ := notifyAll_eq [.win x.window, .sup]
    (.sessionCountDue x.number x.window x.clerk (some s.clock) x.forced)
    (s.setSession i (some (closedAtOnce x s.clock)))
  have hclose : closeSession i s = { s.setSession i (some (closedAtOnce x s.clock)) with ports := v } :=
    (closeSession_noJob hx hof hslot hlive hwait).trans hv
  have hsession : (closeSession i s).session i = some (closedAtOnce x s.clock) := by
    rw [hclose]
    exact State.session_setSession_same ..
  refine ⟨hsession, ?_⟩
  have hjobs : (closeSession i s).liveJobs x.number = 0 := by rw [hclose]; exact hlive
  have hcount : (closeSession i s).liveJobs (closedAtOnce x s.clock).number = 0 := hjobs
  simp only [closedView, hsession, hcount]
  rfl

theorem forceCloseAct_passes {s : State} {n : Nat} {i : SessionIx} {x : Session} (hn : numberOk n = true)
    (hof : s.sessionOf n = some i) (hx : s.session i = some x) (hstate : x.state ≠ .reconciled)
    (hforced : x.forced = false) {y : Session} (hy : (forceCloseAt i s).session i = some y) :
    forceCloseAct n s = .done (forceCloseAt i s) (.forceClosed y.state) := by
  simp [forceCloseAct, hn, hof, hx, hstate, hforced, hy]

/-- Settles O2. -/
theorem closeAndForceClose : Obligations.CloseAndForceClose := by
  intro p h rest s i x hx hof
  have hnumber : ∀ n, Accepts p h (.forceClose p h n) rest s → 1 ≤ n → numberOk n = true := by
    intro n ha hpos
    have hw : wellFormed (.forceClose p h n) = true := ha.2.2.1
    simp only [wellFormed, Bool.and_eq_true, fits2_iff] at hw
    exact numberOk_iff.mpr ⟨hpos, by omega⟩
  refine ⟨fun w ha hwindow hopen hslot hlive hwait => ?_, fun n ha hn hpos hforced hstate hslot hlive hwait => ?_,
    fun n ha hn hpos hforced hstate => ?_⟩
  · have hact : closeSessionAct p w (taken p rest s)
        = .done (closeSession i (taken p rest s)) (closedView i (closeSession i (taken p rest s))) := by
      simp [closeSessionAct, hwindow, hopen]
    have hclose := closeSession_noJob (s := taken p rest s) hx hof hslot hlive hwait
    obtain ⟨-, hview⟩ := closeSession_view (s := taken p rest s) hx hof hslot hlive hwait
    rw [hview, hclose] at hact
    obtain ⟨t, hexec, hans, hframe⟩ := request_done ha hact (countDue_ports x s.clock rfl rfl)
    refine ⟨t, hexec, hans, hframe.trans ?_⟩
    obtain ⟨v, hv⟩ := notifyAll_eq [.win x.window, .sup]
      (.sessionCountDue x.number x.window x.clerk (some s.clock) x.forced)
      ((taken p rest s).setSession i (some (closedAtOnce x s.clock)))
    rw [taken_clock, hv]
    rfl
  · subst hn
    set u := (taken p rest s).setSession i (some { x with forced := true }) with hu
    have hux : u.session i = some { x with forced := true } := State.session_setSession_same ..
    have huof : u.sessionOf x.number = some i :=
      (sessionOf_rewritten (s := taken p rest s) (x := x) (y := { x with forced := true }) hx rfl x.number).trans hof
    have hat : forceCloseAt i (taken p rest s) = closeSession i u := by
      simp [forceCloseAt, hx, hstate, modSession, hu]
    have hclose := closeSession_noJob hux huof hslot hlive hwait
    obtain ⟨hsession, -⟩ := closeSession_view hux huof hslot hlive hwait
    have hact := forceCloseAct_passes (s := taken p rest s) (hnumber _ ha hpos) hof hx (by simp [hstate]) hforced
      (hat ▸ hsession)
    rw [hat, hclose] at hact
    obtain ⟨t, hexec, hans, hframe⟩ := request_done ha hact (countDue_ports { x with forced := true } s.clock rfl rfl)
    refine ⟨t, hexec, hans, hframe.trans ?_⟩
    obtain ⟨v, hv⟩ := notifyAll_eq [.win x.window, .sup]
      (.sessionCountDue x.number x.window x.clerk (some s.clock) true)
      (u.setSession i (some (closedAtOnce { x with forced := true } s.clock)))
    have huclock : u.clock = s.clock := rfl
    rw [huclock, hv, hu]
    simp [State.setSession, put_put, closedAtOnce, taken, State.modPort, State.setPort]
  · subst hn
    have hat : forceCloseAt i (taken p rest s) = (taken p rest s).setSession i (some { x with forced := true }) := by
      have hne : x.state ≠ .opened := by rintro hopen; simp [hopen] at hstate
      simp [forceCloseAt, hx, hne, modSession]
    have hsession : (forceCloseAt i (taken p rest s)).session i = some { x with forced := true } := by
      rw [hat]; exact State.session_setSession_same ..
    have hact := forceCloseAct_passes (s := taken p rest s) (hnumber _ ha hpos) hof hx
      (by rintro hrec; simp [hrec] at hstate) hforced hsession
    rw [hat] at hact
    exact request_done (notes := []) ha hact fun q => rfl

end Sys2Proof.Machine
end

