-- ==== Sys2Proof/Proofs/Tickets.lean ====
section
/-! Voids, refunds and the authorisations that wait for an answer (R126, R130 to R139). -/

namespace Sys2Proof.Machine

/-! ### The issue list and the session -/

theorem setIssueState_eq (serial : Nat) (st : IssueState) (s : State) : setIssueState serial st s =
    { s with issues := s.issues.map fun y => if serial ∈ y.serials then { y with state := st } else y } := by
  simp only [setIssueState, List.contains_iff_mem]

theorem modSession_eq {i : SessionIx} {x : Session} {s : State} (f : Session → Session) (hx : s.session i = some x) :
    modSession i f s = { s with sessions := put s.sessions i (some (f x)) } := by
  simp only [modSession, hx, Option.map_some, State.setSession]

theorem addRefunds_eq (t : Tender) (n : Nat) (x : Session) : addRefunds t n x = refundsAfter t n x := rfl

theorem presentWindow_win (s : State) (w : Window) (n : Option Nat) : s.presentWindow (.win w) n = some w := rfl

/-! ### Voids posted (R131, R92) -/

theorem takeVoid_eq (e : IssueEntry) (x : Session) : takeVoid e x =
    { x with
      sales := if x.clamped.of e.tender = true then x.sales else x.sales.set e.tender (x.sales.of e.tender - e.fare),
      voids := min (x.voids + 1) 65535, voidsAmount := min (x.voidsAmount + e.fare) 99999999,
      spoiltVoided := min (x.spoiltVoided + e.serials.length) 65535 } := by
  unfold takeVoid subSales
  by_cases hclamped : x.clamped.of e.tender = true
  · simp only [hclamped, if_true]
    rfl
  · simp only [hclamped]
    rfl

/-- R93, R167: a VOIDED entry is listed and counted in the day; no session and no fault record is charged by it. -/
theorem spoilUnreserved_voided (first count : Nat) (session : Option Nat) {s : State} (hmode : s.mode = .opened) :
    spoilUnreserved (spoilEntry first count .voided none session none s) s =
      { s with spoils := s.spoils ++ [spoilEntry first count .voided none session none s],
               running := { s.running with voided := min (s.running.voided + count) 999999999 } } := by
  have hnight : (s.night || s.mode == .night) = s.night := by simp [hmode]
  have hcharge : ∀ (o : Option Nat) (u : State), chargeSession .voided count o u = u := by
    intro o u
    unfold chargeSession
    cases o.bind u.sessionOf with
    | none => rfl
    | some i =>
      cases hx : u.session i with
      | none => simp only [hx]
      | some x => simp only [hx, ite_self]
  show chargeSession .voided count _ (addDay _ _) = _
  rw [hcharge]
  show ({ listSpoil _ s with running := _, night := s.night || s.mode == .night } : State) = _
  rw [hnight]
  rfl

theorem spoilVoided_runs (session : Option Nat) (runs : List (Nat × Nat)) (s : State) (hmode : s.mode = .opened) :
    runs.foldl (fun t r => spoilUnreserved (spoilEntry r.1 r.2 .voided none session none t) t) s =
      { s with spoils := s.spoils ++ runs.map (fun r => spoilEntry r.1 r.2 .voided none session none s),
               running := { s.running with
                 voided := runs.foldl (fun a r => min (a + r.2) 999999999) s.running.voided } } := by
  induction runs generalizing s with
  | nil => simp
  | cons r runs ih =>
    rw [List.foldl_cons, spoilUnreserved_voided _ _ _ hmode]
    refine (ih _ ?_).trans ?_
    · exact hmode
    · simp only [List.append_assoc, List.singleton_append, List.map_cons, List.foldl_cons]
      rfl

/-- R5, R17: a movement that leaves the remaining count raises nothing. -/
theorem movePack_sameRemaining {i : PackIx} {f : Pack → Pack} {k : Pack} {s : State} (hk : s.pack i = some k)
    (hremaining : (f k).remaining = k.remaining) : movePack i f s = s.setPack i (some (f k)) := by
  have hsame := stockLowAfter_same k (f k) (s.setPack i (some (f k))) hremaining
  simp only [movePack, hk, hsame, ite_self]

/-- R5: a void takes the ticket's blanks from issued to spoiled. -/
theorem movePack_void {i : PackIx} {k : Pack} {s : State} {n : Nat} (hk : s.pack i = some k) (hn : n ≤ k.issued) :
    movePack i (voidBlanks n) s =
      { s with packs := put s.packs i (some { k with issued := k.issued - n, spoiled := k.spoiled + n }) } := by
  have hvoid : voidBlanks n k = { k with issued := k.issued - n, spoiled := k.spoiled + n } := if_pos hn
  rw [movePack_sameRemaining hk (by rw [hvoid]; rfl), hvoid]
  rfl

theorem postVoid_eq {e : IssueEntry} {i : SessionIx} {x : Session} {k : PackIx} {pk : Pack} {s : State}
    (hmode : s.mode = .opened) (hof : s.sessionOf e.session = some i) (hx : s.session i = some x)
    (hpack : s.packOf (e.serials.headD 0) = some k) (hpk : s.pack k = some pk) (hn : e.serials.length ≤ pk.issued) :
    postVoid e s = { s with
      spoils := s.spoils ++ (voidRuns e).map (fun r => spoilEntry r.1 r.2 .voided none (some e.session) none s),
      issues := s.issues.map (fun y => if e.serials.headD 0 ∈ y.serials then { y with state := .voided } else y),
      packs := put s.packs k (some
        { pk with issued := pk.issued - e.serials.length, spoiled := pk.spoiled + e.serials.length }),
      sessions := put s.sessions i (some (takeVoid e x)),
      running := { s.running with
        voided := (voidRuns e).foldl (fun a r => min (a + r.2) 999999999) s.running.voided } } := by
  have hspoil : spoilVoided e s = { s with
      spoils := s.spoils ++ (voidRuns e).map (fun r => spoilEntry r.1 r.2 .voided none (some e.session) none s),
      issues := s.issues.map (fun y => if e.serials.headD 0 ∈ y.serials then { y with state := .voided } else y),
      packs := put s.packs k (some
        { pk with issued := pk.issued - e.serials.length, spoiled := pk.spoiled + e.serials.length }),
      running := { s.running with
        voided := (voidRuns e).foldl (fun a r => min (a + r.2) 999999999) s.running.voided } } := by
    obtain ⟨u, hu⟩ : ∃ u, u = (voidRuns e).foldl (fun t r => spoilUnreserved
      (spoilEntry r.1 r.2 .voided none (some e.session) none t) t) s := ⟨_, rfl⟩
    have hruns := hu.trans (spoilVoided_runs _ _ _ hmode)
    have hupack : u.packOf (e.serials.headD 0) = some k := by rw [hruns]; exact hpack
    have hupk : u.pack k = some pk := by rw [hruns]; exact hpk
    simp only [spoilVoided, ← hu, hupack, movePack_void hupk hn, setIssueState_eq]
    rw [hruns]
  obtain ⟨u, hu⟩ : ∃ u, u = spoilVoided e s := ⟨_, rfl⟩
  have huof : u.sessionOf e.session = some i := by rw [hu, hspoil]; exact hof
  have hux : u.session i = some x := by rw [hu, hspoil]; exact hx
  simp only [postVoid, ← hu, huof, modSession_eq _ hux]
  rw [hu, hspoil]

section
variable {serial : Nat} {s : State} {e : IssueEntry}

/-- R130: a VOID that is neither late nor without room in the spoil list is posted. -/
theorem voidChecked_posts {own : Option (Window × Session)} {i : SessionIx} {x : Session} (hissue : s.issueOf serial = some e)
    (hstate : e.state = .issued) (hpending : s.lateVoidPending e = false) (hof : s.sessionOf e.session = some i)
    (hx : s.session i = some x) (hopen : x.state = .opened) (hroom : (voidRuns e).length ≤ s.unreserved)
    (hown : ∀ w y, own = some (w, y) → e.session = y.number ∧ ticketAge s e ≤ s.params.voidWindow) :
    voidChecked own serial s
      = .done (postVoid e s) (.voided e.serials e.fare e.tender (voidRuns e).length) := by
  have hroom' : ¬ s.unreserved < (voidRuns e).length := by omega
  cases own with
  | none => simp [voidChecked, hissue, hstate, hpending, hof, hx, hopen, hroom']
  | some o =>
    obtain ⟨w, y⟩ := o
    obtain ⟨hnumber, hage⟩ := hown w y rfl
    have hlate : ¬ s.params.voidWindow < ticketAge s e := by omega
    simp [voidChecked, hissue, hstate, hpending, hroom', hnumber, hlate]

/-- R130, R135: a window's VOID after the void window is referred. -/
theorem voidChecked_refers {w : Window} {x : Session} (hissue : s.issueOf serial = some e) (hstate : e.state = .issued)
    (hpending : s.lateVoidPending e = false) (hnumber : e.session = x.number) (hslot : s.slot w = none)
    (hlate : s.params.voidWindow < ticketAge s e) :
    voidChecked (some (w, x)) serial s
      = .referred (refer w (slotFor .lateVoid serial e.fare e.tender x.number true s) (some e) s)
        (.referred serial .lateVoid s.params.authTime) := by
  simp [voidChecked, hissue, hstate, hpending, hnumber, hslot, hlate]

end

theorem voidAct_win {w : Window} {serial : Nat} {s : State} {i : SessionIx} {x : Session} (hmode : s.mode = .opened)
    (hhold : s.hold w = false) (hserial : serialOk serial = true) (hopen : s.windowSession w .opened = some i)
    (hx : s.session i = some x) : voidAct (.win w) serial s = voidChecked (some (w, x)) serial s := by
  simp [voidAct, hmode, hhold, hserial, hopen, hx]

/-- Settles O3. -/
theorem voidPosted : Obligations.VoidPosted := by
  intro p h serial rest s e i x k pk ha hmode hlow hhigh hissue hstate hpending hof hx hopen hwin hroom hpack hpk hn
  have hserial : serialOk serial = true := serialOk_iff.mpr ⟨hlow, hhigh⟩
  obtain ⟨y, hy, hnumber⟩ := s.sessionOf_some hof
  obtain rfl : x = y := Option.some.inj (hx.symm.trans hy)
  have hact : voidAct p serial (taken p rest s)
      = .done (postVoid e (taken p rest s)) (.voided e.serials e.fare e.tender (voidRuns e).length) := by
    have hchecked (own) := voidChecked_posts (s := taken p rest s) (own := own) hissue hstate hpending hof hx hopen hroom
    cases p with
    | sup =>
      have hvoid : voidAct .sup serial (taken .sup rest s) = voidChecked none serial (taken .sup rest s) := by
        simp [voidAct, hmode, hserial]
      exact hvoid.trans (hchecked none fun w y h => nomatch h)
    | win w =>
      obtain ⟨hhold, hown, hage⟩ := hwin w rfl
      rw [voidAct_win (s := taken (.win w) rest s) hmode hhold hserial hown hx]
      refine hchecked _ fun v y hvy => ?_
      cases hvy
      exact ⟨hnumber.symm, hage⟩
  rw [postVoid_eq (s := taken p rest s) hmode hof hx hpack hpk hn, takeVoid_eq] at hact
  exact request_done (notes := []) ha hact fun q => rfl

/-! ### Refunds posted (R132, R133) -/

theorem takeRefund_eq (t : Tender) (amount : Nat) (x : Session) :
    takeRefund t amount x = { refundsAfter t amount x with refundsCount := min (x.refundsCount + 1) 65535 } := by
  have hcount : sat16 (addRefunds t amount x).refundsCount 1 = min (x.refundsCount + 1) 65535 := by
    unfold addRefunds
    split_ifs <;> rfl
  show ({ addRefunds t amount x with refundsCount := sat16 (addRefunds t amount x).refundsCount 1 } : Session) = _
  rw [hcount]
  rfl

theorem postRefund_eq {n serial amount : Nat} {t : Tender} {found : Bool} {s : State} {i : SessionIx} {x : Session}
    (hof : s.sessionOf n = some i) (hx : s.session i = some x) :
    postRefund n serial amount t found s = { s with
      sessions := put s.sessions i (some { refundsAfter t amount x with refundsCount := min (x.refundsCount + 1) 65535 }),
      issues := if found = true then
          s.issues.map fun y => if serial ∈ y.serials then { y with state := .refunded } else y
        else s.issues } := by
  simp only [postRefund, hof, modSession_eq _ hx, takeRefund_eq]
  cases found
  · rfl
  · exact setIssueState_eq ..

/-- R132: what the checks of a REFUND leave to be decided. -/
theorem refundAct_checked {p : Port} {serial amount tender : Nat} {w : Option Nat} {s : State} {v : Window} {i : SessionIx}
    {x : Session} {tn : Tender} {entry : Option IssueEntry} (hw : s.presentWindow p w = some v) (hmode : s.mode = .opened)
    (hhold : s.hold v = false) (htender : toTender tender = some tn) (hserial : 1 ≤ serial ∧ serial ≤ 9999999)
    (hamount : 1 ≤ amount ∧ amount ≤ 999999) (hopen : s.windowSession v .opened = some i) (hx : s.session i = some x)
    (hissue : s.issueOf serial = entry)
    (hentry : ∀ e, entry = some e → e.state = .issued ∧ s.lateVoidPending e = false ∧ amount ≤ e.fare ∧ tn = e.tender) :
    refundAct p serial amount tender w s = refundDecided p v x serial amount tn entry s := by
  have hok : serialOk serial = true := serialOk_iff.mpr hserial
  have hzero : amount ≠ 0 := by omega
  have hhigh : ¬ 999999 < amount := by omega
  cases entry with
  | none => simp [refundAct, hw, hmode, hhold, htender, hok, hzero, hhigh, hopen, hx, hissue]
  | some e =>
    obtain ⟨hstate, hpending, hfare, rfl⟩ := hentry e rfl
    have hfare' : ¬ e.fare < amount := by omega
    simp [refundAct, hw, hmode, hhold, htender, hok, hzero, hhigh, hopen, hx, hissue, hstate, hpending, hfare']

/-- Settles O5. -/
theorem refundPosted : Obligations.RefundPosted := by
  intro p h serial amount tender w rest s v i x tn entry ha hw hmode hhold htender hlow hhigh hmin hmax hopen hx hof
    hissue hentry hlimit
  have hact : refundAct p serial amount tender w (taken p rest s)
      = .done (postRefund x.number serial amount tn entry.isSome (taken p rest s))
        (.refunded serial amount tn x.number) := by
    rw [refundAct_checked (s := taken p rest s) hw hmode hhold htender ⟨hlow, hhigh⟩ ⟨hmin, hmax⟩ hopen hx hissue hentry]
    cases p with
    | sup => rfl
    | win u => exact if_pos (hlimit nofun)
  rw [postRefund_eq (s := taken p rest s) hof hx] at hact
  exact request_done (notes := []) ha hact fun q => rfl

/-! ### Referral (R135) -/

theorem refer_eq (w : Window) (a : AuthSlot) (entry : Option IssueEntry) (s : State) :
    ∃ v, refer w a entry s = { s with
        ports := v, slots := put s.slots w (some a),
        issues := if a.kind = .refund ∧ a.found = true then
            s.issues.map fun y => if a.serial ∈ y.serials then { y with state := .refundPending } else y
          else s.issues }
      ∧ ∀ q, (refer w a entry s).port q = noticed s [(.sup, .authorisationWanted w a entry)] q (s.port q) := by
  by_cases hrefund : a.kind = .refund ∧ a.found = true
  · have hrefer : refer w a entry s
        = notify .sup (.authorisationWanted w a entry) (setIssueState a.serial .refundPending (s.setSlot w (some a))) := by
      simp [refer, hrefund]
    refine ⟨(refer w a entry s).ports, ?_, fun q => ?_⟩
    · rw [if_pos hrefund, hrefer, setIssueState_eq]
      exact notify_portsOnly ..
    · rw [hrefer, notify_port]
      rfl
  · have hrefer : refer w a entry s = notify .sup (.authorisationWanted w a entry) (s.setSlot w (some a)) := by
      have hcond : ¬ ((a.kind == .refund && a.found) = true) := by simpa using hrefund
      simp [refer, hcond]
    refine ⟨(refer w a entry s).ports, ?_, fun q => ?_⟩
    · rw [if_neg hrefund, hrefer]
      exact notify_portsOnly ..
    · rw [hrefer, notify_port]
      rfl

/-- Settles O4. -/
theorem lateVoidAndRefundReferred : Obligations.LateVoidAndRefundReferred := by
  intro w h serial rest s i x hmode hhold hlow hhigh hopen hx hslot
  refine ⟨fun e ha hissue hstate hpending hnumber hlate => ?_,
    fun amount tender tn entry ha htender hmin hmax hissue hentry => ?_⟩
  · have hact := voidAct_win (s := taken (.win w) rest s) hmode hhold (serialOk_iff.mpr ⟨hlow, hhigh⟩) hopen hx
    rw [voidChecked_refers (s := taken (.win w) rest s) hissue hstate hpending hnumber hslot hlate] at hact
    obtain ⟨v, hrefer, hports⟩ := refer_eq w (slotFor .lateVoid serial e.fare e.tender x.number true
      (taken (.win w) rest s)) (some e) (taken (.win w) rest s)
    obtain ⟨t, hexec, hans, hframe⟩ := request_referred ha hact hports
    refine ⟨t, _, rfl, hexec, hans, hframe.trans ?_⟩
    rw [hrefer]
    rfl
  · have hchecked := refundAct_checked (s := taken (.win w) rest s) (p := .win w) (w := none) rfl hmode hhold htender
      ⟨hlow, hhigh⟩ ⟨hmin, hmax⟩ hopen hx hissue fun e he => by
        obtain ⟨hstate, hpending, hfare, htn, -⟩ := hentry e he
        exact ⟨hstate, hpending, hfare, htn⟩
    have hover : ¬ (entry.isSome = true ∧ amount ≤ s.params.refundLimit) := by
      rintro ⟨hsome, hle⟩
      obtain ⟨e, he⟩ := Option.isSome_iff_exists.mp hsome
      obtain ⟨-, -, -, -, hlimit⟩ := hentry e he
      omega
    have hact : refundAct (.win w) serial amount tender none (taken (.win w) rest s)
        = .referred (refer w (slotFor .refund serial amount tn x.number entry.isSome s) entry (taken (.win w) rest s))
          (.referred serial .refund s.params.authTime) := by
      rw [hchecked]
      simp [refundDecided, hover, hslot]
      rfl
    obtain ⟨v, hrefer, hports⟩ := refer_eq w (slotFor .refund serial amount tn x.number entry.isSome s) entry
      (taken (.win w) rest s)
    obtain ⟨t, hexec, hans, hframe⟩ := request_referred ha hact hports
    refine ⟨t, _, rfl, hexec, hans, hframe.trans ?_⟩
    rw [hrefer]
    simp only [slotFor, true_and]
    rfl

/-! ### Answers and expiry (R136, R137) -/

/-- R137, R138: the slot empties, and the entry of a REFUND that was found is ISSUED again. -/
theorem emptySlot_unposted {w : Window} {a : AuthSlot} {s : State} (ha : s.slot w = some a) :
    emptySlot w false s = { s with slots := put s.slots w none, issues := issuesReturned a s.issues } := by
  by_cases hrefund : a.kind = .refund ∧ a.found = true
  · simp only [emptySlot, ha, issuesReturned, hrefund]
    exact setIssueState_eq ..
  · have hcond : ¬ ((a.kind == .refund && a.found && !false) = true) := by simpa using hrefund
    simp only [emptySlot, ha, issuesReturned, if_neg hrefund, if_neg hcond]
    rfl

theorem emptySlot_posted {w : Window} {a : AuthSlot} {s : State} (ha : s.slot w = some a) :
    emptySlot w true s = { s with slots := put s.slots w none } := by
  simp [emptySlot, ha, State.setSlot]

theorem sendAnswer_frame (w : Window) (a : AuthSlot) (x : AuthAnswer) (s : State) (v : Vector PortState 13) :
    ({ sendAnswer w a x s with ports := v } : State) = { s with ports := v } := by
  unfold sendAnswer
  rw [notify_portsOnly]

theorem sendAnswer_taken {p : Port} {rest : List (List Byte)} {s u : State} (w : Window) (a : AuthSlot) (x : AuthAnswer)
    (hports : u.ports = (taken p rest s).ports) (hwindows : u.presentWindows = s.presentWindows) (q : Port) :
    (sendAnswer w a x u).port q
      = noticed s [(.win w, .authorisationAnswer a.serial a.kind x a.session)] q ((taken p rest s).port q) :=
  notify_taken hports hwindows q

/-- Settles O6. -/
theorem answerAndExpiry : Obligations.AnswerAndExpiry := by
  intro w a s hslot
  refine ⟨fun h n rest ha hw => ?_, fun h n rest i x ha hw hkind hof hx => ?_, fun hlive => ?_⟩
  · have hact : answerAct n a.serial 1 (taken .sup rest s)
        = .done (sendAnswer w a .declined (emptySlot w false (taken .sup rest s))) (.answered w a.serial false) := by
      simp [answerAct, hw, toFlag, hslot]
    have hempty := emptySlot_unposted (s := taken .sup rest s) hslot
    obtain ⟨t, hexec, hans, hframe⟩ := request_done ha hact
      (sendAnswer_taken w a .declined (by rw [hempty]) (by rw [hempty]; rfl))
    refine ⟨t, hexec, hans, hframe.trans ?_⟩
    rw [sendAnswer_frame, hempty]
    rfl
  · have hspace : lacksVoidSpace a (taken .sup rest s) = false := by simp [lacksVoidSpace, hkind]
    have happrove := postRefund_eq (s := { taken .sup rest s with slots := put s.slots w none }) (serial := a.serial)
      (amount := a.amount) (t := a.tender) (found := a.found) hof hx
    have hposted : approve w a (taken .sup rest s)
        = postRefund a.session a.serial a.amount a.tender a.found { taken .sup rest s with slots := put s.slots w none } := by
      simp only [approve, hkind, emptySlot_posted (s := taken .sup rest s) hslot, taken_slots]
    have hact : answerAct n a.serial 0 (taken .sup rest s)
        = .done (sendAnswer w a .approved (approve w a (taken .sup rest s))) (.answered w a.serial true) := by
      simp [answerAct, hw, toFlag, hslot, hspace]
    rw [hposted, happrove] at hact
    obtain ⟨t, hexec, hans, hframe⟩ := request_done ha hact (sendAnswer_taken w a .approved rfl rfl)
    refine ⟨t, hexec, hans, hframe.trans ?_⟩
    rw [sendAnswer_frame]
    rfl
  · have hend : whenLive (endAuthorisation w .expired) s = sendAnswer w a .expired (emptySlot w false s) := by
      simp [whenLive, hlive, endAuthorisation, hslot]
    have hempty := emptySlot_unposted hslot
    refine ⟨_, rfl, fun q => ?_, ?_⟩
    · rw [hend, sendAnswer, notify_port, hempty]
      rfl
    · rw [hend, sendAnswer, notify_portsOnly, hempty]

end Sys2Proof.Machine
end

