-- ==== Sys2Proof/Proofs/CashUpRequests.lean ====
section
/-! Cash-up as requests (R147 to R161): declaring, counting again, retiring, and what a window may not learn. -/

namespace Sys2Proof.Machine

/-! ### DECLARE (R147, R148, R155) -/

/-- R147: a DECLARE that passes. -/
theorem declareAct_passes {p : Port} {n cash card warrant voucher docs : Nat} {s : State} {i : SessionIx} {x : Session}
    (hn : numberOk n = true) (hcash : cash ≤ 99999999) (hcard : card ≤ 99999999) (hwarrant : warrant ≤ 99999999)
    (hvoucher : voucher ≤ 99999999) (hdocs : docs ≤ 999) (hof : s.sessionOf n = some i) (hx : s.session i = some x)
    (hstate : x.state = .counting) (hallowed : ∀ w, p = .win w → x.window = w ∧ x.forced = false) (d : Declaration)
    (hd : d = { amounts := { cash := cash, card := card, warrant := warrant, voucher := voucher }, docs := docs,
                declaredBy := p, time := s.clock }) :
    declareAct p n { cash := cash, card := card, warrant := warrant, voucher := voucher } docs s
      = .done (postDeclare i x d s) (declareView p x d (reconcile s.params x d)) := by
  have hamounts : ¬ ((!numberOk n) = true ∨ Config.maxMoney < cash ∨ Config.maxMoney < card ∨ Config.maxMoney < warrant
      ∨ Config.maxMoney < voucher ∨ 999 < docs) := by
    simp only [hn, Config.maxMoney]
    simp
    omega
  have hbarred : declareBarred p x = false := by
    cases p with
    | sup => rfl
    | win w => simp [declareBarred, hallowed w rfl]
  subst hd
  simp only [declareAct, if_neg hamounts, hof, hx, hbarred, hstate]
  rfl

/-- Settles O8. -/
theorem declareReconciles : Obligations.DeclareReconciles := by
  intro p h n cash card warrant voucher docs rest s i x ha hn hcash hcard hwarrant hvoucher hdocs hof hx hstate hallowed
  have hnumber : numberOk n = true := by
    have hw : wellFormed (.declare p h n cash card warrant voucher docs) = true := ha.2.2.1
    simp only [wellFormed, Bool.and_eq_true, fits2_iff] at hw
    exact numberOk_iff.mpr ⟨hn, by omega⟩
  have hact := declareAct_passes (s := taken p rest s) hnumber hcash hcard hwarrant hvoucher hdocs hof hx hstate hallowed
    _ rfl
  obtain ⟨y, hy, rfl⟩ := s.sessionOf_some hof
  obtain rfl : x = y := Option.some.inj (hx.symm.trans hy)
  obtain ⟨t, hexec, hans, hframe⟩ := request_done ha hact (notify_taken rfl rfl)
  refine ⟨t, _, _, rfl, rfl, hexec, ?_, hframe.trans ?_⟩
  · cases p <;> exact hans
  · rw [postDeclare, notify_portsOnly]
    rfl

/-! ### RECOUNT and CASH-UP REPORT (R157 to R161) -/

theorem recountAct_found {n : Nat} {s : State} {i : SessionIx} {x : Session} (hn : numberOk n = true)
    (hof : s.sessionOf n = some i) (hx : s.session i = some x) : recountAct n s =
      if x.state ≠ .reconciled then .refuse .sessionState
      else if 2 ≤ x.recounts then .refuse .limit
      else .done (s.setSession i (some (recountSession x))) (.recounted n .counting (x.recounts + 1)) := by
  simp [recountAct, hn, hof, hx]

theorem zip_of {α β γ : Type} (f : α → β → γ) (x : PerTender α) (y : PerTender β) (t : Tender) :
    (PerTender.zip f x y).of t = f (x.of t) (y.of t) := by cases t <;> rfl

theorem countOutcome_eq (o : SessionOutcome) (d : Summary) : countOutcome o d = { d with
    retiredBalanced := if o = .balanced then min (d.retiredBalanced + 1) 999999999 else d.retiredBalanced,
    retiredShort := if o = .short then min (d.retiredShort + 1) 999999999 else d.retiredShort,
    retiredOver := if o = .overs then min (d.retiredOver + 1) 999999999 else d.retiredOver,
    retiredRefer := if o = .refer then min (d.retiredRefer + 1) 999999999 else d.retiredRefer } := by
  cases o <;> rfl

/-- R161: each total of a retired session's tender is added within its limits. -/
theorem retireInto_totals (x : Session) (dec : Declaration) (c : CashUp) (d : Summary) (y : Tender) :
    (retireInto x dec c d).sales.of y = min (d.sales.of y + x.sales.of y) 999999999
      ∧ (retireInto x dec c d).refunds.of y = min (d.refunds.of y + x.refunds.of y) 999999999
      ∧ (retireInto x dec c d).declared.of y = min (d.declared.of y + dec.amounts.of y) 999999999
      ∧ (retireInto x dec c d).variance.of y
          = max (-999999999) (min (d.variance.of y + (c.tenders.of y).variance) 999999999) := by
  simp only [retireInto, countOutcome_eq, zip_of]
  exact ⟨rfl, rfl, rfl, rfl⟩

theorem cashUpReportAct_read {n : Nat} {s : State} {i : SessionIx} {x : Session} (hn : numberOk n = true)
    (hof : s.sessionOf n = some i) (hx : s.session i = some x) :
    cashUpReportAct n 0 s = .done s (.cashUp x (s.liveJobs n)) := by
  simp [cashUpReportAct, toFlag, hn, hof, hx]

theorem cashUpReportAct_retires {n : Nat} {s : State} {i : SessionIx} {x : Session} (hn : numberOk n = true)
    (hof : s.sessionOf n = some i) (hx : s.session i = some x) (hstate : x.state = .reconciled) :
    cashUpReportAct n 1 s = .done (retireSession i x s) (.cashUp x (s.liveJobs n)) := by
  simp [cashUpReportAct, toFlag, hn, hof, hx, hstate]

/-- Settles O10. -/
theorem recountAndRetire : Obligations.RecountAndRetire := by
  intro h n rest s
  have hok (hfits : n < 65536) (hn : 1 ≤ n) : numberOk n = true := numberOk_iff.mpr ⟨hn, by omega⟩
  refine ⟨fun ha => ?_, fun i x hn hof hx => ⟨fun ha => ?_, fun d c ha hstate hdec hres => ?_⟩⟩
  · have hnumber (hn : 1 ≤ n) : numberOk n = true := hok (by have := ha.2.2.1; simp [wellFormed, fits2_iff] at this; omega) hn
    by_cases hzero : n = 0
    · obtain ⟨t, hexec, hframe, hans⟩ := request_refused (rc := .outOfRange) (res := .none) ha
        (by simp [blockAct, recountAct, hzero, numberOk])
      exact ⟨t, hexec, fun _ => ⟨hframe, hans⟩, fun hn => by omega, fun i x hn => by omega⟩
    · have hpos : 1 ≤ n := by omega
      cases hof : s.sessionOf n with
      | none =>
        obtain ⟨t, hexec, hframe, hans⟩ := request_refused (rc := .notFound) (res := .none) ha
          (by simp [blockAct, recountAct, hnumber hpos, hof])
        exact ⟨t, hexec, fun hn => absurd hn hzero, fun _ _ => ⟨hframe, hans⟩, fun i x _ hsome => nomatch hsome⟩
      | some i =>
        obtain ⟨x, hx, -⟩ := s.sessionOf_some hof
        have hfound := recountAct_found (s := taken .sup rest s) (hnumber hpos) hof hx
        by_cases hstate : x.state = .reconciled
        · by_cases hlimit : 2 ≤ x.recounts
          · obtain ⟨t, hexec, hframe, hans⟩ := request_refused ha
              (hfound.trans ((if_neg (not_not.mpr hstate)).trans (if_pos hlimit)))
            refine ⟨t, hexec, fun hn => absurd hn hzero, fun _ hnone => (nomatch hnone), fun j y _ hj hy => ?_⟩
            cases hj
            obtain rfl : x = y := Option.some.inj (hx.symm.trans hy)
            exact ⟨fun hne => absurd hstate hne, fun _ _ => ⟨hframe, hans⟩, fun _ hlt => by omega⟩
          · obtain ⟨t, hexec, hans, hframe⟩ := request_done (notes := []) ha
              (hfound.trans ((if_neg (not_not.mpr hstate)).trans (if_neg hlimit))) fun q => rfl
            refine ⟨t, hexec, fun hn => absurd hn hzero, fun _ hnone => (nomatch hnone), fun j y _ hj hy => ?_⟩
            cases hj
            obtain rfl : x = y := Option.some.inj (hx.symm.trans hy)
            exact ⟨fun hne => absurd hstate hne, fun _ hge => absurd hge hlimit, fun _ _ => ⟨hans, hframe⟩⟩
        · obtain ⟨t, hexec, hframe, hans⟩ := request_refused ha (hfound.trans (if_pos hstate))
          refine ⟨t, hexec, fun hn => absurd hn hzero, fun _ hnone => (nomatch hnone), fun j y _ hj hy => ?_⟩
          cases hj
          obtain rfl : x = y := Option.some.inj (hx.symm.trans hy)
          exact ⟨fun _ => ⟨hframe, hans⟩, fun hrec => absurd hrec hstate, fun hrec => absurd hrec hstate⟩
  · have hnumber := hok (by have := ha.2.2.1; simp [wellFormed, fits2_iff] at this; omega) hn
    exact request_told ha (cashUpReportAct_read (s := taken .sup rest s) hnumber hof hx)
  · have hnumber := hok (by have := ha.2.2.1; simp [wellFormed, fits2_iff] at this; omega) hn
    have hact := cashUpReportAct_retires (s := taken .sup rest s) hnumber hof hx hstate
    simp only [retireSession, hdec, hres] at hact
    obtain ⟨t, hexec, hans, hframe⟩ := request_done (notes := []) ha hact fun q => rfl
    have hrunning : t.running = retireInto x d c s.running := by
      rw [hframe]
      rfl
    refine ⟨t, hexec, hans, ?_, ?_, ?_⟩
    · rw [hrunning]
      exact hframe
    · rw [hrunning]
      exact retireInto_totals x d c s.running
    · rw [hrunning]
      simp only [retireInto, countOutcome_eq]

/-! ### What a window may not learn (R143, R148) -/

/-- The ports of the windows are the same. -/
def SameWindows (s u : State) : Prop := ∀ v, s.port (.win v) = u.port (.win v)

/-- Two answers that no window can tell apart. -/
inductive SeenAlike : Verdict → Verdict → Prop
  | refuse (rc : ResultCode) (res : Results) : SeenAlike (.refuse rc res) (.refuse rc res)
  | done (t u : State) (res : Results) : SameWindows t u → SeenAlike (.done t res) (.done u res)

theorem answer_sameWindows {t u : State} (hsame : SameWindows t u) {w : Window} {h : Header} {code : Nat} {rc : ResultCode}
    {res : Results} : SameWindows (answer (.win w) h code rc res t) (answer (.win w) h code rc res u) := by
  intro v
  simp only [answer_eq, State.port_modPort, hsame w, hsame v]

theorem serve_sameWindows {t u : State} {w : Window} {act : State → Verdict} (hsame : SameWindows t u)
    (hact : SeenAlike (act t) (act u)) (h : Header) (code : Nat) :
    SameWindows (serve (.win w) h code act t) (serve (.win w) h code act u) := by
  unfold serve
  rw [hsame w]
  split
  · exact answer_sameWindows hsame
  · split
    · exact answer_sameWindows hsame
    · generalize act t = a at hact
      generalize act u = b at hact
      cases hact with
      | refuse rc res => exact answer_sameWindows hsame
      | done t' u' res hsame' => exact answer_sameWindows hsame'

/-- R179: a request that its port cannot take leaves everything as it was. -/
theorem takeRequest_declined {p : Port} {h : Header} {c : Instr} {act : State → Verdict} {s : State}
    (hnot : ¬ (s.canTake p = true ∧ wellFormed c = true ∧ ∃ rest, s.offered p (requestBody c) = some rest)) :
    takeRequest p h c act s = s := by
  unfold takeRequest
  split
  next hcan =>
    obtain ⟨hcan, hwell⟩ := Bool.and_eq_true_iff.mp hcan
    split
    next rest hoff => exact absurd ⟨hcan, hwell, rest, hoff⟩ hnot
    next => rfl
  next => rfl

/-- A request from a window leaves the windows' ports the same, whichever session record stands at a place, if its
block's answers are alike. -/
theorem takeRequest_sameWindows {w : Window} {act : State → Verdict} {s : State} {i : SessionIx} {y : Session}
    (hact : ∀ u : State, u.session i = s.session i → SeenAlike (act u) (act (u.setSession i (some y)))) (h : Header)
    (c : Instr) :
    SameWindows (takeRequest (.win w) h c act s) (takeRequest (.win w) h c act (s.setSession i (some y))) := by
  by_cases htakes : s.canTake (.win w) = true ∧ wellFormed c = true ∧ ∃ rest, s.offered (.win w) (requestBody c) = some rest
  · obtain ⟨hcan, hwell, rest, hoff⟩ := htakes
    rw [takeRequest_serve h act hcan hwell hoff,
      takeRequest_serve (p := .win w) (s := s.setSession i (some y)) h act hcan hwell hoff]
    have hsame : SameWindows (taken (.win w) rest s) ((taken (.win w) rest s).setSession i (some y)) := fun v => rfl
    exact serve_sameWindows hsame (hact _ rfl) h _
  · rw [takeRequest_declined htakes, takeRequest_declined (p := .win w) (c := c) (s := s.setSession i (some y)) htakes]
    exact fun v => rfl

section
variable {s : State} {i : SessionIx} {x y : Session}

theorem windowSession_rewritten (hx : s.session i = some x) (hwindow : y.window = x.window) (hstate : y.state = x.state)
    (w : Window) (st : SessionState) : (s.setSession i (some y)).windowSession w st = s.windowSession w st := by
  unfold State.windowSession
  refine find_congr _ _ _ fun j _ => ?_
  by_cases hij : i = j
  · subst hij
    rw [State.session_setSession_same, hx]
    simp only [hwindow, hstate]
  · rw [State.session_setSession, if_neg hij]

/-- R143: two session records of which a window is told the same. -/
def SameBrief (x y : Session) : Prop := ∀ u : State, sessionBrief y u = sessionBrief x u

/-- The record at a place, before and after one that a window is told the same of is put there. -/
theorem session_brief (hx : s.session i = some x) (hbrief : SameBrief x y) (j : SessionIx) {z : Session}
    (hz : s.session j = some z) :
    ∃ z', (s.setSession i (some y)).session j = some z' ∧ SameBrief z z' := by
  by_cases hij : i = j
  · subst hij
    obtain rfl : x = z := Option.some.inj (hx.symm.trans hz)
    exact ⟨y, State.session_setSession_same .., hbrief⟩
  · exact ⟨z, by rw [State.session_setSession, if_neg hij, hz], fun u => rfl⟩

theorem session_brief_none (hx : s.session i = some x) {j : SessionIx} (hz : s.session j = none) :
    (s.setSession i (some y)).session j = none := by
  have hij : i ≠ j := by
    rintro rfl
    exact absurd (hx.symm.trans hz) nofun
  rw [State.session_setSession, if_neg hij, hz]

end

/-- What a window is told of a session is told of its number, window, state, forced marker and recounts. -/
theorem SameBrief.visible {x y : Session} (h : SameBrief x y) :
    y.number = x.number ∧ y.window = x.window ∧ y.state = x.state ∧ y.forced = x.forced ∧ y.recounts = x.recounts := by
  have hb := h State.reset
  exact ⟨congrArg SessionBrief.number hb, congrArg SessionBrief.window hb, congrArg SessionBrief.state hb,
    congrArg SessionBrief.forced hb, congrArg SessionBrief.recounts hb⟩

theorem postDeclare_windows (i : SessionIx) (x : Session) (d : Declaration) (s : State) (v : Window) :
    (postDeclare i x d s).port (.win v) = s.port (.win v) := by
  rw [postDeclare, notify_port]
  exact noticed_other (by simp) _

theorem querySession_alike {w : Window} {n : Option Nat} {s : State} {i : SessionIx} {x y : Session}
    (hx : s.session i = some x) (hbrief : SameBrief x y) :
    SeenAlike (querySessionAct (.win w) n s) (querySessionAct (.win w) n (s.setSession i (some y))) := by
  obtain ⟨hnumber, hwindow, hstate, -, -⟩ := hbrief.visible
  cases n with
  | none =>
    simp only [querySessionAct, querySessionOwn, windowSession_rewritten hx hwindow hstate]
    cases (s.windowSession w .opened).or (s.windowSession w .closing) with
    | none => exact .refuse ..
    | some j =>
      cases hz : s.session j with
      | none =>
        simp only [Option.bind_some, hz, session_brief_none hx hz]
        exact .refuse ..
      | some z =>
        obtain ⟨z', hz', hseen⟩ := session_brief hx hbrief j hz
        have hsame : sessionBrief z' (s.setSession i (some y)) = sessionBrief z s := hseen s
        simp only [Option.bind_some, hz, hz', hsame]
        exact .done _ _ _ fun v => rfl
  | some m =>
    simp only [querySessionAct, querySessionNumbered, sessionOf_rewritten hx hnumber]
    cases hok : numberOk m with
    | false => exact .refuse ..
    | true =>
      cases s.sessionOf m with
      | none => exact .refuse ..
      | some j =>
        cases hz : s.session j with
        | none =>
          simp only [Option.bind_some, hz, session_brief_none hx hz]
          exact .refuse ..
        | some z =>
          obtain ⟨z', hz', hseen⟩ := session_brief hx hbrief j hz
          obtain ⟨-, hzwindow, -, -, -⟩ := hseen.visible
          have hsame : sessionBrief z' (s.setSession i (some y)) = sessionBrief z s := hseen s
          simp only [Option.bind_some, hz, hz', hsame, hzwindow]
          by_cases hown : z.window = w
          · simp only [hown, if_true]
            exact .done _ _ _ fun v => rfl
          · simp only [hown, if_false]
            exact .refuse ..

theorem declare_alike {w : Window} {n : Nat} {amounts : PerTender Nat} {docs : Nat} {s : State} {i : SessionIx}
    {x y : Session} (hx : s.session i = some x) (hbrief : SameBrief x y) :
    SeenAlike (declareAct (.win w) n amounts docs s) (declareAct (.win w) n amounts docs (s.setSession i (some y))) := by
  obtain ⟨hnumber, -, -, -, -⟩ := hbrief.visible
  unfold declareAct
  rw [sessionOf_rewritten hx hnumber]
  split
  · exact .refuse ..
  · cases s.sessionOf n with
    | none => exact .refuse ..
    | some j =>
      cases hz : s.session j with
      | none =>
        simp only [hz, session_brief_none hx hz]
        exact .refuse ..
      | some z =>
        obtain ⟨z', hz', hseen⟩ := session_brief hx hbrief j hz
        obtain ⟨hznumber, hzwindow, hzstate, hzforced, hzrecounts⟩ := hseen.visible
        have hbarred : declareBarred (.win w) z' = declareBarred (.win w) z := by
          simp only [declareBarred, hzwindow, hzforced]
        simp only [hz, hz', hbarred, hzstate, declareView, hznumber, hzrecounts]
        split
        · exact .refuse ..
        · split
          · exact .refuse ..
          · refine .done _ _ _ fun v => ?_
            rw [postDeclare_windows, postDeclare_windows]
            rfl

/-- Settles O11. -/
theorem blindDeclaration : Obligations.BlindDeclaration := by
  intro w h c s i x sales refunds clamped amount a b d dec res hc hx
  have hbrief : SameBrief x
      { x with sales := sales, refunds := refunds, clamped := clamped, voidsAmount := amount, spoiltVoided := a,
               spoiltAbandoned := b, spoiltBad := d, declaration := dec, results := res } := fun u => rfl
  obtain ⟨n, cash, card, warrant, voucher, docs, rfl⟩ | ⟨n, rfl⟩ := hc
  · exact ⟨_, _, rfl, rfl, takeRequest_sameWindows (fun u hu => declare_alike (hu.trans hx) hbrief) h _⟩
  · exact ⟨_, _, rfl, rfl, takeRequest_sameWindows (fun u hu => querySession_alike (hu.trans hx) hbrief) h _⟩

end Sys2Proof.Machine
end

