-- ==== Sys2Proof/Proofs/StockRequests.lean ====
section
/-! The stock register's requests (R6 to R16, R20): receiving, loading, unloading, returning and writing off. -/

namespace Sys2Proof.Machine

/-! ### RECEIVE PACK (R6) -/

/-- The range of R6: serials in order, 2000 of them at most. -/
theorem rangeOk_iff {a b : Nat} : rangeOk a b = true ↔ 1 ≤ a ∧ a ≤ b ∧ b ≤ 9999999 ∧ b + 1 - a ≤ 2000 := by
  have hmax : Config.maxPack = 2000 := rfl
  simp only [rangeOk, Bool.and_eq_true, serialOk_iff, decide_eq_true_eq]
  omega

theorem packMeets_iff {s : State} {a b : Nat} :
    s.packMeets a b = true ↔ ∃ j k, s.pack j = some k ∧ k.first ≤ b ∧ a ≤ k.last := by
  unfold State.packMeets
  rw [List.any_eq_true]
  constructor
  · rintro ⟨j, -, hmeets⟩
    cases hk : s.pack j with
    | none => simp [hk] at hmeets
    | some k =>
      simp only [hk, meets, Bool.and_eq_true, decide_eq_true_eq] at hmeets
      exact ⟨j, k, rfl.trans hk, hmeets.2, hmeets.1⟩
  · rintro ⟨j, k, hk, hfirst, hlast⟩
    refine ⟨j, List.mem_finRange j, ?_⟩
    simp [hk, meets, hfirst, hlast]

theorem listsMeet_iff {s : State} {a b : Nat} :
    s.listsMeet a b = true ↔ (∃ e ∈ s.spoils, 0 < e.count ∧ e.first ≤ b ∧ a < e.first + e.count)
      ∨ ∃ e ∈ s.issues, ∃ n ∈ e.serials, a ≤ n ∧ n ≤ b := by
  have hspoil : ∀ e : SpoilEntry, (decide (0 < e.count) && meets a b e.first (e.first + e.count - 1)) = true
      ↔ 0 < e.count ∧ e.first ≤ b ∧ a < e.first + e.count := by
    intro e
    simp only [meets, Bool.and_eq_true, decide_eq_true_eq]
    omega
  simp only [State.listsMeet, Bool.or_eq_true, List.any_eq_true, hspoil]
  simp only [Bool.and_eq_true, decide_eq_true_eq]

theorem lowestFree_none {α : Type} {n : Nat} {v : Vector (Option α) n} :
    lowestFree v = none ↔ ∀ i, (look v i).isSome = true := by
  simp [lowestFree, List.find?_eq_none, List.mem_finRange, Option.isSome_iff_ne_none]

section
variable {s : State} {a b : Nat}

/-- R6: a range that meets nothing. -/
theorem meets_nothing (hpacks : ∀ j k, s.pack j = some k → b < k.first ∨ k.last < a)
    (hspoils : ∀ e ∈ s.spoils, b < e.first ∨ e.first + e.count ≤ a)
    (hissues : ∀ e ∈ s.issues, ∀ n ∈ e.serials, n < a ∨ b < n) :
    s.packMeets a b = false ∧ s.listsMeet a b = false := by
  refine ⟨Bool.eq_false_iff.mpr fun hmeets => ?_, Bool.eq_false_iff.mpr fun hmeets => ?_⟩
  · obtain ⟨j, k, hk, hfirst, hlast⟩ := packMeets_iff.mp hmeets
    have := hpacks j k hk
    omega
  · obtain ⟨e, he, hcount, hfirst, hlast⟩ | ⟨e, he, n, hn, hlow, hhigh⟩ := listsMeet_iff.mp hmeets
    · have := hspoils e he
      omega
    · have := hissues e he n hn
      omega

theorem receivePackAct_unmet (hrange : rangeOk a b = true) (hpack : s.packMeets a b = false) (hlist : s.listsMeet a b = false)
    {o : Option PackIx} (hfree : lowestFree s.packs = o) : receivePackAct a b s =
      o.elim (.refuse .tableFull) fun i =>
        .done (addDay (fun d => { d with packsReceived := addTotal d.packsReceived 1 })
          (s.setPack i (some (newPack a b s)))) (.received i (b + 1 - a)) := by
  subst hfree
  simp only [receivePackAct, hrange, hpack, hlist]
  cases lowestFree s.packs <;> rfl

end

/-- Settles O17. -/
theorem receivePackMakesRecord : Obligations.ReceivePackMakesRecord := by
  intro h a b rest s i ha hlow hle hhigh hsize hpacks hspoils hissues hfree
  obtain ⟨hpack, hlist⟩ := meets_nothing hpacks hspoils hissues
  exact request_done (notes := []) ha
    (receivePackAct_unmet (s := taken .sup rest s) (rangeOk_iff.mpr ⟨hlow, hle, hhigh, hsize⟩) hpack hlist hfree)
    fun q => rfl

/-- Settles O18. -/
theorem receivePackRefusals : Obligations.ReceivePackRefusals := by
  intro h a b rest s ha
  by_cases hrange : rangeOk a b = true
  · have hin := rangeOk_iff.mp hrange
    by_cases hmeets : s.packMeets a b = true ∨ s.listsMeet a b = true
    · have hact : receivePackAct a b (taken .sup rest s) = .refuse .overlap .none := by
        cases hpack : s.packMeets a b with
        | true => simp [receivePackAct, hrange, hpack]
        | false =>
          have hlist : s.listsMeet a b = true := hmeets.resolve_left (by simp [hpack])
          simp [receivePackAct, hrange, hpack, hlist]
      obtain ⟨t, hexec, hframe, hans⟩ := request_refused ha hact
      refine ⟨t, hexec, fun hout => absurd hin hout, fun _ => ⟨fun _ => ⟨hframe, hans⟩, fun hp hs hi => ?_⟩⟩
      obtain ⟨hpack, hlist⟩ := meets_nothing hp hs hi
      simp [hpack, hlist] at hmeets
    · obtain ⟨hpack, hlist⟩ : s.packMeets a b = false ∧ s.listsMeet a b = false := by simpa using hmeets
      have hnone : ∀ {P : Prop}, (∃ j k, s.pack j = some k ∧ k.first ≤ b ∧ a ≤ k.last)
          ∨ (∃ e ∈ s.spoils, 0 < e.count ∧ e.first ≤ b ∧ a < e.first + e.count)
          ∨ (∃ e ∈ s.issues, ∃ n ∈ e.serials, a ≤ n ∧ n ≤ b) → P := by
        intro P hsome
        exact absurd (hsome.imp packMeets_iff.mpr listsMeet_iff.mpr) hmeets
      cases hfree : lowestFree s.packs with
      | none =>
        obtain ⟨t, hexec, hframe, hans⟩ := request_refused ha
          (receivePackAct_unmet (s := taken .sup rest s) hrange hpack hlist hfree)
        exact ⟨t, hexec, fun hout => absurd hin hout, fun _ => ⟨hnone, fun _ _ _ _ => ⟨hframe, hans⟩⟩⟩
      | some i =>
        refine ⟨_, rfl, fun hout => absurd hin hout, fun _ => ⟨hnone, fun _ _ _ hall => ?_⟩⟩
        have hi := hall i
        rw [show s.pack i = none from lowestFree_some hfree] at hi
        exact absurd hi nofun
  · have hact : receivePackAct a b (taken .sup rest s) = .refuse .outOfRange .none := by simp [receivePackAct, hrange]
    obtain ⟨t, hexec, hframe, hans⟩ := request_refused ha hact
    exact ⟨t, hexec, fun _ => ⟨hframe, hans⟩, fun hin => absurd (rangeOk_iff.mpr hin) hrange⟩

/-! ### LOAD PACK (R7, R8) -/

/-- R182: a block that defers its reply leaves the request in hand. -/
theorem request_deferred {p : Port} {h : Header} {i : Instr} {rest : List (List Byte)} {s u : State}
    (ha : Accepts p h i rest s) (hact : blockAct i (taken p rest s) = .deferred u) : exec i s = .next u := by
  rw [exec_request ha.1, takeRequest_accepted ha, hact]

/-- R182: the request in hand at its port, and nothing else at the ports but that it was taken. -/
theorem putInHand_taken {p : Port} {rest : List (List Byte)} {s u : State} (h : Header) (code : Nat) (op : HandOp)
    (hu : u.ports = (taken p rest s).ports) :
    (putInHand p h code op u).port p = { s.port p with
        fifo := rest, hand := some { op := op, code := code, tag := h.tag, quiet := h.quiet, broken := false } }
      ∧ OthersSame p s (putInHand p h code op u)
      ∧ putInHand p h code op u = { u with ports := (putInHand p h code op u).ports } := by
  have hport : ∀ q, u.port q = if q = p then { s.port p with fifo := rest } else s.port q := fun q => by
    rw [← taken_port, State.port, hu, State.port]
  refine ⟨?_, fun q hq => ?_, rfl⟩
  · rw [putInHand, State.port_modPort_same, hport, if_pos rfl]
  · rw [putInHand, State.port_modPort, if_neg (Ne.symm hq), hport, if_neg hq]

theorem toPrinter_some {n : Nat} {q : PrinterId} (h : toPrinter n = some q) : q.val = n := by
  unfold toPrinter at h
  split at h
  · cases h; rfl
  · cases h

/-- R7, R14: a window's own primary printer, where the office lets windows handle stock. -/
theorem stockBarred_allowed {s : State} {p : Port} {n : Nat} {q : PrinterId} (hn : toPrinter n = some q)
    (hallowed : ∀ w, p = .win w → s.params.stockHandling = true ∧ (s.pair w).primary = q) : s.stockBarred p n = false := by
  cases p with
  | sup => rfl
  | win w =>
    obtain ⟨hstock, hprimary⟩ := hallowed w rfl
    simp [State.stockBarred, hstock, hprimary, toPrinter_some hn]

/-- Settles O19. -/
theorem loadPackBegins : Obligations.LoadPackBegins := by
  intro p h serial n rest s q i k ha hn hlow hhigh hallowed hof hk hstate hprinter hloaded hloading hsense
  have hload : s.loadBarred q = false := by
    rcases hprinter with hq | hq | hq <;> simp [State.loadBarred, hq, hloaded, hloading, hsense]
  have hpack : ¬ (k.state ≠ .inStore ∧ k.state ≠ .partUsed) := by tauto
  have hact : loadPackAct p h serial n (taken p rest s)
      = .deferred (putInHand p h 0x09 (.load q) (beginLoad i q (taken p rest s))) := by
    simp [loadPackAct, stockBarred_allowed hn hallowed, serialOk_iff.mpr ⟨hlow, hhigh⟩, hn, hof, hk, hpack, hload]
  have hbegin : beginLoad i q (taken p rest s) = { taken p rest s with
      packs := put s.packs i (some { k with prior := some k.state, state := .loading, printer := some q }),
      printers := put s.printers q
        { s.printer q with
          state := if (s.printer q).state = .unloaded then .sensing else (s.printer q).state,
          command := .sense, sense := .load } } := by
    simp only [beginLoad, taken_pack, hk]
    rfl
  obtain ⟨hport, hothers, hframe⟩ := putInHand_taken (u := beginLoad i q (taken p rest s)) h 0x09 (.load q)
    (by rw [hbegin])
  refine ⟨_, request_deferred ha hact, hport, hothers, hframe.trans ?_⟩
  rw [hbegin]
  rfl

/-! ### UNLOAD PACK (R14) -/

/-- R20: only an EXHAUSTED pack is counted. -/
theorem countExhausted_eq (k : Pack) (s : State) : countExhausted k s = { s with
    running := if k.state = .exhausted then
        { s.running with packsExhausted := min (s.running.packsExhausted + 1) 999999999 }
      else s.running,
    night := if k.state = .exhausted then s.night || s.mode == .night else s.night } := by
  unfold countExhausted
  split <;> rfl

theorem takenOut_eq {k : Pack} (h : k.inPrint = []) : takenOut k =
    { k with state := if k.last + 1 - k.next = 0 then .exhausted else .partUsed, printer := none } := by
  simp only [takenOut, h, List.length_nil, Nat.add_zero]
  rfl

theorem unloadAt_eq {i : PackIx} {k : Pack} {q : PrinterId} {s : State} (hwaiting : (s.printer q).waiting = false) :
    unloadAt i k q s = { countExhausted (takenOut k) (s.setPack i (some (takenOut k))) with
      printers := if (s.printer q).state = .ready then put s.printers q { s.printer q with state := .unloaded }
        else s.printers } := by
  have hcount := countExhausted_eq (takenOut k) (s.setPack i (some (takenOut k)))
  unfold unloadAt
  by_cases hready : (s.printer q).state = .ready
  · rw [if_pos hready, if_pos hready, hcount]
    have hw : ((State.modPrinter (countExhausted (takenOut k) (s.setPack i (some (takenOut k)))) q
        fun c => { c with state := .unloaded }).printer q).waiting = false := by
      rw [State.printer_modPrinter_same, hcount]
      exact hwaiting
    rw [hcount] at hw
    rw [clearWaiting, hw]
    rfl
  · rw [if_neg hready, if_neg hready, hcount]
    rfl

/-- Settles O20. -/
theorem unloadPackTakesOut : Obligations.UnloadPackTakesOut := by
  intro p h n rest s q i k ha hn hallowed hprinter hsense hqueue hwaiting hloaded hk hprint
  have hbarred : s.unloadBarred q = false := by
    rcases hprinter with hq | hq | hq <;> simp [State.unloadBarred, hq, hsense]
  have hact : unloadPackAct p n (taken p rest s)
      = .done (unloadAt i k q (taken p rest s)) (.unloaded i (takenOut k).state k.remaining) := by
    simp [unloadPackAct, stockBarred_allowed hn hallowed, hn, hbarred, hloaded, hk, hqueue]
  rw [unloadAt_eq (s := taken p rest s) hwaiting, takenOut_eq hprint, countExhausted_eq] at hact
  obtain ⟨t, hexec, hans, hframe⟩ := request_done (notes := []) ha hact fun r => rfl
  exact ⟨t, _, rfl, hexec, hans, hframe⟩

/-! ### RETURN PACK and WRITE OFF (R15, R16) -/

theorem spoilUnreserved_writtenOff (first count : Nat) (s : State) :
    spoilUnreserved (spoilEntry first count .writtenOff none none none s) s = { s with
      spoils := s.spoils ++ [spoilEntry first count .writtenOff none none none s],
      running := { s.running with writtenOff := min (s.running.writtenOff + count) 999999999 },
      night := s.night || s.mode == .night } := rfl

/-- R16, R20: both the write-off and the pack it exhausts are counted. -/
theorem writeOffAt_eq (i : PackIx) (k : Pack) (n : Nat) (s : State) : writeOffAt i k n s = { s with
    packs := put s.packs i (some (writtenOffPack n k)),
    spoils := s.spoils ++ [spoilEntry k.next n .writtenOff none none none s],
    running := { s.running with
      writtenOff := min (s.running.writtenOff + n) 999999999,
      packsExhausted := if (writtenOffPack n k).state = .exhausted then min (s.running.packsExhausted + 1) 999999999
        else s.running.packsExhausted },
    night := s.night || s.mode == .night } := by
  rw [writeOffAt, spoilUnreserved_writtenOff, countExhausted]
  split
  · simp only [addDay, State.setPack, Bool.or_assoc, Bool.or_self]
    rfl
  · rfl

/-- Settles O21. -/
theorem returnAndWriteOff : Obligations.ReturnAndWriteOff := by
  intro h serial rest s i k hlow hhigh hof hk hstate
  have hserial := serialOk_iff.mpr ⟨hlow, hhigh⟩
  refine ⟨fun ha => ?_, fun n ha hmin hmax hroom => ?_⟩
  · have hact : returnPackAct serial (taken .sup rest s)
        = .done (addDay (fun d => { d with packsReturned := addTotal d.packsReturned 1 })
          ((taken .sup rest s).setPack i (some (returnedPack k)))) (.returned i k.remaining) := by
      rcases hstate with hst | hst <;> simp [returnPackAct, hserial, hof, hk, hst]
    exact request_done (notes := []) ha hact fun q => rfl
  · have hpack : ¬ (k.state ≠ .inStore ∧ k.state ≠ .partUsed) := by tauto
    have hcount : ¬ (n = 0 ∨ k.remaining < n) := by
      show ¬ (n = 0 ∨ k.last + 1 - k.next < n)
      omega
    have hact : writeOffAct serial n (taken .sup rest s)
        = .done (writeOffAt i k n (taken .sup rest s)) (.writtenOff i k.next n (k.remaining - n)) := by
      have hlist : s.unreserved ≠ 0 := by omega
      simp only [writeOffAct, hserial, taken_packOf, hof, taken_pack, hk, if_neg hpack, if_neg hcount, taken_unreserved]
      exact if_neg hlist
    have hexhausted : (k.remaining = n) = (n = k.last + 1 - k.next) := propext ⟨Eq.symm, Eq.symm⟩
    rw [writeOffAt_eq] at hact
    simp only [writtenOffPack, hexhausted] at hact
    obtain ⟨t, hexec, hans, hframe⟩ := request_done (notes := []) ha hact fun q => rfl
    exact ⟨t, _, rfl, hexec, hans, hframe⟩

end Sys2Proof.Machine
end

