-- ==== Sys2Proof/Proofs/RecordQueries.lean ====
section
/-! QUERY PACK, QUERY PRINTER and QUERY JOB (R19, R48, R62). -/

namespace Sys2Proof.Machine

/-! ### What a window may ask about -/

theorem pairNames_iff {r : Pair} {q : PrinterId} : Pair.names r q = true ↔ r.primary = q ∨ r.alternate = some q := by
  simp [Pair.names]

theorem packHidden_allowed {s : State} {p : Port} {k : Pack}
    (hallowed : ∀ w, p = .win w → (k.state = .loading ∨ k.state = .loaded) ∧ ∃ q, k.printer = some q
      ∧ ((s.pair w).primary = q ∨ (s.pair w).alternate = some q)) : s.packHidden p k = false := by
  cases p with
  | sup => rfl
  | win w =>
    obtain ⟨hstate, q, hq, hnames⟩ := hallowed w rfl
    have hpair : Pair.names (s.pair w) q = true := pairNames_iff.mpr hnames
    rcases hstate with hst | hst <;> simp [State.packHidden, hst, hq, hpair]

theorem printerHidden_allowed {s : State} {p : Port} {q : PrinterId}
    (hallowed : ∀ w, p = .win w → (s.pair w).primary = q ∨ (s.pair w).alternate = some q) :
    s.printerHidden p q = false := by
  cases p with
  | sup => rfl
  | win w =>
    have hpair : Pair.names (s.pair w) q = true := pairNames_iff.mpr (hallowed w rfl)
    simp [State.printerHidden, hpair]

/-! ### The pack at a printer (R48) -/

theorem loadedAt_none {s : State} {q : PrinterId} (h : s.loadedAt q = none) {i : PackIx} {k : Pack} (hk : s.pack i = some k)
    (hq : k.printer = some q) : k.state ≠ .loaded := by
  have hi := List.find?_eq_none.mp h i (List.mem_finRange i)
  simpa [hk, hq] using hi

theorem loadingAt_none {s : State} {q : PrinterId} (h : s.loadingAt q = none) {i : PackIx} {k : Pack}
    (hk : s.pack i = some k) (hq : k.printer = some q) : k.state ≠ .loading := by
  have hi := List.find?_eq_none.mp h i (List.mem_finRange i)
  simpa [hk, hq] using hi

/-- The place found holds a pack LOADED or LOADING at the printer. -/
theorem placedAt_some {s : State} {q : PrinterId} {i : PackIx} (h : (s.loadedAt q).or (s.loadingAt q) = some i) :
    ∃ k, s.pack i = some k ∧ (k.state = .loaded ∨ k.state = .loading) ∧ k.printer = some q := by
  obtain hloaded | ⟨-, hloading⟩ := Option.or_eq_some_iff.mp h
  · obtain ⟨k, hk, hstate, hq⟩ := s.loadedAt_some hloaded
    exact ⟨k, hk, .inl hstate, hq⟩
  · obtain ⟨k, hk, hstate, hq⟩ := s.loadingAt_some hloading
    exact ⟨k, hk, .inr hstate, hq⟩

theorem packAt_some {s : State} {q : PrinterId} {i : PackIx} {a b : Nat} (h : packAt q s = some (i, a, b)) :
    ∃ k, s.pack i = some k ∧ (k.state = .loaded ∨ k.state = .loading) ∧ k.printer = some q ∧ a = k.next
      ∧ b = k.last + 1 - k.next := by
  obtain ⟨j, hj, hview⟩ := Option.bind_eq_some_iff.mp h
  obtain ⟨k, hk, hfields⟩ := Option.map_eq_some_iff.mp hview
  obtain ⟨m, hm, hstate, hq⟩ := placedAt_some hj
  obtain rfl : k = m := Option.some.inj (hk.symm.trans hm)
  cases hfields
  exact ⟨k, hk, hstate, hq, rfl, rfl⟩

theorem packAt_none {s : State} {q : PrinterId} (h : packAt q s = none) {i : PackIx} {k : Pack} (hk : s.pack i = some k)
    (hq : k.printer = some q) : k.state ≠ .loaded ∧ k.state ≠ .loading := by
  cases hplace : (s.loadedAt q).or (s.loadingAt q) with
  | none =>
    obtain ⟨hloaded, hloading⟩ := Option.or_eq_none_iff.mp hplace
    exact ⟨loadedAt_none hloaded hk hq, loadingAt_none hloading hk hq⟩
  | some j =>
    obtain ⟨m, hm, -⟩ := placedAt_some hplace
    simp [packAt, hplace, hm] at h

/-- Settles O22. -/
theorem queryRecordsReply : Obligations.QueryRecordsReply := by
  intro p h rest s
  refine ⟨fun name i k ha hk hname hallowed => request_told ha ?_, fun n q ha hn hallowed => ?_,
    fun name j x ha hx hname => ?_⟩
  · have hnamed : s.packNamed name = some (some i) := by
      obtain rfl | ⟨n, rfl, hlow, hhigh, hof⟩ := hname
      · simp [State.packNamed]
      · simp [State.packNamed, serialOk_iff.mpr ⟨hlow, hhigh⟩, hof]
    simp [blockAct, queryPackAct, hnamed, hk, packHidden_allowed hallowed]
  · have hact : queryPrinterAct p n (taken p rest s)
        = .done (taken p rest s) (.printer (printerView p q (taken p rest s))) := by
      simp [queryPrinterAct, hn, printerHidden_allowed hallowed]
    obtain ⟨t, hexec, hframe, hans⟩ := request_told ha hact
    refine ⟨t, printerView p q s, hexec, hframe, hans, rfl, fun i a b => packAt_some, fun hnone i k => packAt_none hnone,
      fun hidle => ?_, fun j x hj hx => ?_, ?_, fun r hr x hx => ?_⟩
    · simp [printerView, hidle]
    · simp only [printerView, hj, Option.map_some, jobRef, hx, couponOf]
      cases (s.printer q).outstanding with
      | some m => rfl
      | none => cases (s.printer q).command <;> rfl
    · simp [printerView, jobRef, Function.comp_def]
    · obtain ⟨j, -, rfl⟩ := List.mem_map.mp hr
      have hx' : s.job j = some x := hx
      simp only [jobRef, hx']
  · have hnamed : s.jobNamed p h.tag name = some (some j) := by
      obtain ⟨rfl, hof⟩ | rfl | ⟨n, r, rfl, hr, hof⟩ := hname
      · simp [State.jobNamed, hof]
      · simp [State.jobNamed, toJob]
      · simp [State.jobNamed, hr, hof]
    have hact : queryJobAct p h.tag name (taken p rest s)
        = .done (taken p rest s) (.job (jobView j x (taken p rest s))) := by
      simp [queryJobAct, hnamed, hx]
    obtain ⟨t, hexec, hframe, hans⟩ := request_told ha hact
    exact ⟨t, jobView j x s, hexec, hframe, hans, rfl, rfl⟩

end Sys2Proof.Machine
end

