-- ==== Sys2Proof/Proofs/JobRequests.lean ====
section
/-! Jobs (R42, R50 to R63): admission to a queue, the start of a job, TEST PRINT and CANCEL. -/

namespace Sys2Proof.Machine

/-! ### Counting and places -/

theorem countP_added {α : Type} [DecidableEq α] {l : List α} {a : α} {f g : α → Bool} (hnodup : l.Nodup) (ha : a ∈ l)
    (hf : f a = false) (hg : g a = true) (hothers : ∀ b, b ≠ a → g b = f b) : l.countP g = l.countP f + 1 := by
  have hrest : (l.erase a).countP g = (l.erase a).countP f := by
    refine List.countP_congr fun b hb => ?_
    rw [hothers b fun hba => hnodup.not_mem_erase (hba ▸ hb)]
  rw [(List.perm_cons_erase ha).countP_eq, (List.perm_cons_erase ha).countP_eq (p := f), List.countP_cons, List.countP_cons,
    hrest, hf, hg]
  simp

/-- R51: a job put in a free place is one more for its port. -/
theorem inUse_setJob {s : State} {j : JobNo} {x : Job} (hfree : s.job j = none) :
    (s.setJob j (some x)).inUse x.port = s.inUse x.port + 1 := by
  refine countP_added (List.nodup_finRange 64) (List.mem_finRange j) ?_ ?_ fun b hb => ?_
  · simp only [hfree]
  · simp only [State.job_setJob_same, beq_self_eq_true]
  · rw [State.job_setJob, if_neg (Ne.symm hb)]

theorem positionIn_append {j : JobNo} {l : List JobNo} (hj : j ∉ l) (r : List JobNo) :
    positionIn j (l ++ j :: r) = some (l.length + 1) := by
  induction l with
  | nil => simp [positionIn]
  | cons y l ih =>
    obtain ⟨hy, hl⟩ := not_or.mp (mt List.mem_cons.mpr hj)
    simp [positionIn, Ne.symm hy, ih hl]

theorem hasRoom_iff {c : Printer} : c.hasRoom = true ↔ c.queue.length + (if c.job.isSome = true then 1 else 0) < 16 := by
  simp only [Printer.hasRoom, decide_eq_true_eq]
  rfl

/-- R58: the sections of a queue do not depend on a job that is not in it. -/
theorem sections_setJob {s : State} {j : JobNo} (x : Option Job) {l : List JobNo} (hj : j ∉ l) :
    (s.setJob j x).urgentPart l = s.urgentPart l ∧ (s.setJob j x).ordinaryPart l = s.ordinaryPart l := by
  have hurgent : ∀ y ∈ l, (s.setJob j x).isUrgent y = s.isUrgent y := by
    intro y hy
    have hjy : j ≠ y := fun h => hj (h ▸ hy)
    simp only [State.isUrgent, State.job_setJob, if_neg hjy]
  exact ⟨List.filter_congr hurgent, List.filter_congr fun y hy => by rw [hurgent y hy]⟩

/-! ### Joining a queue (R50, R58) -/

/-- R58: an ordinary job joins the tail. -/
theorem enqueue_ordinary {j : JobNo} {x : Job} {s : State} (hurgent : x.urgent = false) : enqueue j x s = { s with
    jobs := put s.jobs j (some x),
    printers := put s.printers x.printer
      { s.printer x.printer with queue := (s.printer x.printer).queue ++ [j] } } := by
  simp only [enqueue, joinTail, hurgent]
  rfl

/-- R58: an urgent job joins the tail of the urgent section. -/
theorem enqueue_urgent {j : JobNo} {x : Job} {s : State} (hurgent : x.urgent = true)
    (hj : j ∉ (s.printer x.printer).queue) : enqueue j x s = { s with
    jobs := put s.jobs j (some x),
    printers := put s.printers x.printer { s.printer x.printer with
      queue := s.urgentPart (s.printer x.printer).queue ++ j :: s.ordinaryPart (s.printer x.printer).queue } } := by
  obtain ⟨hfirst, hlast⟩ := sections_setJob (s := s) (some x) hj
  simp only [enqueue, joinTail, hurgent, if_true, State.modPrinter, State.printer_setJob, hfirst, hlast]
  rfl

theorem enqueue_printer (j : JobNo) (x : Job) (s : State) : (enqueue j x s).printer x.printer =
    { s.printer x.printer with queue := joinTail j x.urgent (s.printer x.printer).queue (s.setJob j (some x)) } :=
  State.printer_modPrinter_same ..

/-- R50: what a reply to an admission says. -/
theorem enqueue_ordinary_figures {j : JobNo} {x : Job} {s : State} (hurgent : x.urgent = false) (hfree : s.job j = none)
    (hj : j ∉ (s.printer x.printer).queue) :
    placeOf j x.printer (enqueue j x s) = (s.printer x.printer).queue.length + 1
      ∧ (enqueue j x s).inUse x.port = s.inUse x.port + 1 := by
  refine ⟨?_, inUse_setJob hfree⟩
  simp [placeOf, enqueue_printer, hurgent, joinTail, positionIn_append hj]

theorem canHold_route {s : State} {w : Window} {q : PrinterId} (h : s.route w = some q) : s.canHold q = true := by
  unfold State.route at h
  split at h
  next hprimary => cases h; exact hprimary
  next =>
    split at h
    next r _ =>
      split at h
      next hr => cases h; exact hr
      next => cases h
    next => cases h

/-- R54: a SELL that passes every check is admitted. -/
theorem sellAct_passes {p : Port} {tag kind coupons fare tender : Nat} {texts : List (List Byte)} {w : Option Nat}
    {s : State} {v : Window} {i : SessionIx} {x : Session} {k : TicketKind} {tn : Tender} {q : PrinterId} {j : JobNo}
    (hw : s.presentWindow p w = some v) (hmode : s.mode = .opened) (hlost : s.recordsLostOpen = false)
    (hhold : s.hold v = false) (hopen : s.windowSession v .opened = some i) (hx : s.session i = some x)
    (hkind : toTicketKind kind = some k) (htender : toTender tender = some tn) (hcoupons : couponsOk k coupons = true)
    (hfare : fare ≤ 999999) (htexts : textsOk texts = true) (htag : tag ≠ 0) (hfresh : s.jobOfTag p tag = none)
    (hadmits : s.admits p = true) (hroute : s.route v = some q) (hfree : lowestFree s.jobs = some j) :
    sellAct p tag kind coupons fare tender texts w s
      = admitSale j (sellJob p v tag x k coupons fare tn texts q s) s := by
  have hfare' : ¬ 999999 < fare := by omega
  simp [sellAct, sellChecked, hw, hmode, hlost, hhold, hopen, hx, hkind, htender, hcoupons, hfare', htexts, htag, hfresh,
    hadmits, hroute, hfree]

/-- Settles O23. -/
theorem sellQueues : Obligations.SellQueues := by
  intro p h kind coupons fare tender texts w rest s v i x k tn q j ha hw hmode hlost hhold hopen hx hkind htender hcoupons
    hfare htexts htag hfresh hadmits hroute hfree hprinting hj
  set y := sellJob p v h.tag x k coupons fare tn texts q (taken p rest s) with hy
  have hact := sellAct_passes (s := taken p rest s) hw hmode hlost hhold hopen hx hkind htender hcoupons hfare htexts htag
    hfresh hadmits hroute hfree
  have hfigures := enqueue_ordinary_figures (s := taken p rest s) (x := y) rfl (lowestFree_some hfree) hj
  have hidle : startCheck q (enqueue j y (taken p rest s)) = enqueue j y (taken p rest s) := by
    refine startCheck_idle q _ (.inl ?_)
    rw [show q = y.printer from rfl, enqueue_printer]
    show (s.printer q).state ≠ .ready
    simp [hprinting]
  have hadmit : admitSale j y (taken p rest s) = .done (enqueue j y (taken p rest s))
      (.sold j q ((s.printer q).queue.length + 1) (s.inUse p + 1)) := by
    obtain ⟨hplace, hcount⟩ := hfigures
    show Verdict.done (startCheck q _) (.sold j q (placeOf j q _) ((enqueue j y _).inUse p)) = _
    rw [hidle]
    exact congrArg₂ (fun a b => Verdict.done _ (.sold j q a b)) hplace hcount
  rw [hadmit, enqueue_ordinary rfl] at hact
  exact request_done (notes := []) ha hact fun r => rfl

/-! ### The start of a job (R42, R44, R63) -/

/-- A job as the start of printing leaves it. -/
abbrev Job.started (x : Job) : Job := { x with state := .printing, nextCoupon := 1, good := [], bad := 0, skip := 0 }

theorem clearWaiting_none {q : PrinterId} {s : State} (h : (s.printer q).waiting = false) : clearWaiting q s = s := by
  simp [clearWaiting, h]

/-- R44: a change of a printer that keeps its allowance keeps the space. -/
theorem unreserved_setPrinter {q : PrinterId} {c : Printer} {s : State} (h : c.allowance = (s.printer q).allowance) :
    (s.setPrinter q c).unreserved = s.unreserved := by
  have hreserved : (s.setPrinter q c).reserved = s.reserved := by
    refine reserved_congr fun r => ?_
    rw [State.printer_setPrinter]
    split
    next hq => rw [h, hq]
    next => rfl
  simp only [State.unreserved, hreserved]
  rfl

/-- R63: the head job of a printer that does not wait becomes the job in print. -/
theorem startJob_eq {q : PrinterId} {j : JobNo} {rest : List JobNo} {x : Job} {s : State} (hx : s.job j = some x)
    (hwaiting : (s.printer q).waiting = false) : startJob q j rest s = { s with
      jobs := put s.jobs j (some x.started),
      printers := put s.printers q { s.printer q with queue := rest, job := some j, state := .printing,
                                                      command := .print 1 } } := by
  have hstill : ((s.modPrinter q fun c =>
      { c with queue := rest, job := some j, state := .printing, command := .print 1 }).printer q).waiting = false := by
    rw [State.printer_modPrinter_same]
    exact hwaiting
  unfold startJob
  rw [clearWaiting_none hstill]
  show ({ s with jobs := put s.jobs j ((s.job j).map _), printers := _ } : State) = _
  rw [hx]
  rfl

/-- R42, R44: a READY printer whose pack covers its one job starts it, with the allowance it holds or takes. -/
theorem startCheck_starts {q : PrinterId} {j : JobNo} {x : Job} {k : Pack} {s : State} {rest : List JobNo}
    (hready : (s.printer q).state = .ready) (hqueue : (s.printer q).queue = j :: rest) (hx : s.job j = some x)
    (hpack : s.loadedPack q = some k) (hblanks : x.coupons ≤ k.remaining) (hwaiting : (s.printer q).waiting = false)
    (hspace : (s.printer q).allowance.isSome = true ∨ 10 ≤ s.unreserved) : startCheck q s = { s with
      jobs := put s.jobs j (some x.started),
      printers := put s.printers q { s.printer q with
        queue := rest, job := some j, state := .printing, command := .print 1,
        allowance := if (s.printer q).allowance.isSome = true then (s.printer q).allowance else some 0 } } := by
  have hcovered : ¬ k.remaining < x.coupons := by omega
  have honce : startCheck q s = if (s.printer q).allowance.isSome then startJob q j rest s
      else if s.spaceForAllowance then startJob q j rest (takeAllowance q s) else beginWait q s := by
    show startCheckFuel (8 + 1) q s = _
    simp only [startCheckFuel, startOnce, hready, hqueue, hx, hpack, if_neg hcovered, if_true]
  rw [honce]
  by_cases hheld : (s.printer q).allowance.isSome = true
  · rw [if_pos hheld, startJob_eq hx hwaiting, if_pos hheld]
  · have hroom : s.spaceForAllowance = true := decide_eq_true (hspace.resolve_left hheld)
    have htaken : (takeAllowance q s).printer q = { s.printer q with allowance := some 0 } :=
      State.printer_modPrinter_same ..
    rw [if_neg hheld, if_pos hroom, startJob_eq (s := takeAllowance q s) hx (by rw [htaken]; exact hwaiting), htaken,
      if_neg hheld]
    simp only [takeAllowance, State.modPrinter, State.setPrinter, put_put]

/-- Settles O24. -/
theorem sellStarts : Obligations.SellStarts := by
  intro p h kind coupons fare tender texts w rest s v i x k tn q j m pk ha hw hmode hlost hhold hopen hx hkind htender
    hcoupons hfare htexts htag hfresh hadmits hroute hfree hready hqueue hwaiting hloaded hpk hblanks hspace
  set y := sellJob p v h.tag x k coupons fare tn texts q (taken p rest s) with hy
  have hact := sellAct_passes (s := taken p rest s) hw hmode hlost hhold hopen hx hkind htender hcoupons hfare htexts htag
    hfresh hadmits hroute hfree
  have hj : j ∉ ((taken p rest s).printer y.printer).queue := by
    show j ∉ (s.printer q).queue
    simp [hqueue]
  obtain ⟨hplace, hcount⟩ := enqueue_ordinary_figures (s := taken p rest s) (x := y) rfl (lowestFree_some hfree) hj
  have hprinter : (enqueue j y (taken p rest s)).printer q = { s.printer q with queue := [j] } := by
    rw [show q = y.printer from rfl, enqueue_printer]
    show ({ s.printer q with queue := (s.printer q).queue ++ [j] } : Printer) = _
    rw [hqueue]
    rfl
  have hstart := startCheck_starts (s := enqueue j y (taken p rest s)) (q := q) (j := j) (x := y) (k := pk)
    (rest := (s.printer q).queue) (by rw [hprinter]; exact hready) (by rw [hprinter, hqueue]) (State.job_setJob_same ..)
    (by show (s.loadedAt q).bind s.pack = some pk; rw [hloaded]; exact hpk) hblanks
    (by rw [hprinter]; exact hwaiting)
    (by rw [hprinter, show (enqueue j y (taken p rest s)).unreserved = s.unreserved from
      unreserved_setPrinter (s := (taken p rest s).setJob j (some y)) rfl]; exact hspace)
  have hadmit : admitSale j y (taken p rest s) = .done (startCheck q (enqueue j y (taken p rest s)))
      (.sold j q 1 (s.inUse p + 1)) := by
    have hfirst : placeOf j q (enqueue j y (taken p rest s)) = 1 :=
      hplace.trans (by show (s.printer q).queue.length + 1 = 1; rw [hqueue]; rfl)
    exact congrArg₂ (fun a b => Verdict.done _ (.sold j q a b)) hfirst hcount
  rw [hadmit, hstart, hprinter] at hact
  obtain ⟨t, hexec, hans, hframe⟩ := request_done (notes := []) ha hact fun r => rfl
  refine ⟨t, hexec, hans, hframe.trans ?_⟩
  rw [enqueue_ordinary rfl]
  simp only [show y.printer = q from rfl, put_put]
  rfl

/-! ### TEST PRINT (R60) -/

/-- Settles O25. -/
theorem testPrintQueues : Obligations.TestPrintQueues := by
  intro h n texts rest s q j ha hn htexts htag hfresh habsent hready hsense hadmits hroom hfree hj
  set y := testJob h.tag texts q (taken .sup rest s) with hy
  have hplace : placeOf j q (enqueue j y (taken .sup rest s)) = (s.urgentPart (s.printer q).queue).length + 1 := by
    have hnot : j ∉ s.urgentPart (s.printer q).queue := fun hmem => hj (List.mem_of_mem_filter hmem)
    rw [enqueue_urgent (s := taken .sup rest s) (x := y) rfl hj]
    show (positionIn j (look (put s.printers q _) q).queue).getD 0 = _
    rw [look_put_same]
    exact congrArg (Option.getD · 0) (positionIn_append hnot _)
  have hidle : startCheck q (enqueue j y (taken .sup rest s)) = enqueue j y (taken .sup rest s) := by
    refine startCheck_idle q _ (.inl ?_)
    rw [show q = y.printer from rfl, enqueue_printer]
    exact hready
  have hact : testPrintAct h.tag n texts (taken .sup rest s) = .done (enqueue j y (taken .sup rest s))
      (.tested j q ((s.urgentPart (s.printer q).queue).length + 1)) := by
    simp [testPrintAct, hn, htexts, htag, hfresh, habsent, hsense, hadmits, hasRoom_iff.mpr hroom, hfree, ← hy, hidle,
      hplace]
  rw [enqueue_urgent (s := taken .sup rest s) (x := y) rfl hj] at hact
  exact request_done (notes := []) ha hact fun r => rfl

/-! ### CANCEL (R61) -/

/-- R141: a session that is not CLOSING is not told of its jobs leaving. -/
theorem jobLeft_notClosing {s : State} {n : Nat}
    (h : ∀ i y, s.session i = some y → y.number = n → y.state ≠ .closing) : jobLeft n s = s := by
  cases hof : s.sessionOf n with
  | none => simp [jobLeft, hof]
  | some i =>
    obtain ⟨y, hy, hnumber⟩ := s.sessionOf_some hof
    simp [jobLeft, hof, hy, h i y hy hnumber]

/-- R50: the record of a job is freed; no session that is CLOSING has lost a job by it. -/
theorem freeJob_notClosing {s : State} {j : JobNo} {x : Job} (hx : s.job j = some x)
    (h : ∀ i y, s.session i = some y → x.session = some y.number → y.state ≠ .closing) :
    freeJob j s = s.setJob j none := by
  cases hsession : x.session with
  | none => simp [freeJob, hx, hsession]
  | some n =>
    have hleft := jobLeft_notClosing (s := s.setJob j none) (n := n) fun i y hy hnumber =>
      h i y hy (by rw [hsession, hnumber])
    simp [freeJob, hx, hsession, hleft]

theorem cancelAct_named {p r : Port} {tag : Nat} {o : Option Nat} {s : State} (hport : jobPort p o = some r) {j : JobNo}
    {x : Job} (hof : s.jobOfTag r tag = some j) (hx : s.job j = some x) : cancelAct p tag o s =
      if x.state = .printing then .refuse .tooLate else .done (cancelJob j x s) (.cancelled x.printer) := by
  simp [cancelAct, hport, hof, hx]

/-- Settles O26. -/
theorem cancelWithdraws : Obligations.CancelWithdraws := by
  intro p h o rest s r ha hport
  refine ⟨fun j x hof hx hstate hprinter hsession => ?_, fun j x hof hx hstate => ?_, fun hnone => ?_⟩
  · have hfree : freeJob j (leaveQueue j x.printer (taken p rest s))
        = (leaveQueue j x.printer (taken p rest s)).setJob j none := freeJob_notClosing hx hsession
    have hcancel : cancelJob j x (taken p rest s) = (leaveQueue j x.printer (taken p rest s)).setJob j none := by
      have hstays : (((leaveQueue j x.printer (taken p rest s)).setJob j none).printer x.printer).state ≠ .ready := by
        rw [State.printer_setJob, leaveQueue, State.printer_modPrinter_same]
        exact hprinter
      rw [cancelJob, hfree, queueShortened, if_neg hstays]
    have hact := cancelAct_named (s := taken p rest s) hport hof hx
    rw [if_neg (by rw [hstate]; exact nofun), hcancel] at hact
    exact request_done (notes := []) ha hact fun q => rfl
  · have hact := cancelAct_named (s := taken p rest s) hport hof hx
    exact request_refused ha (hact.trans (if_pos hstate))
  · exact request_refused ha (by simp [blockAct, cancelAct, hport, hnone])

end Sys2Proof.Machine
end

