-- ==== Sys2Proof/Proofs/PrinterRequests.lean ====
section
/-! Printers and windows (R46, R47, R71 to R73, R187, R188): SERVICE OUT and IN, pairs, HOLD and RELEASE. -/

namespace Sys2Proof.Machine

/-! ### SERVICE OUT and SERVICE IN (R46, R47) -/

/-- R71: with no job in the queue nothing is diverted. -/
theorem divert_empty {start : PrinterId → State → State} {q : PrinterId} {o : Option JobNo} {s : State}
    (h : (s.printer q).queue = []) : divert start q o s = s := by
  simp [divert, h]

/-- R46: the state a printer enters when it is taken out of service. -/
def stateOut (st : PrinterState) : PrinterState :=
  if st = .ready then .outOfService else if st = .printing then .draining else st

/-- R46: a printer that does not wait is marked, enters its state, and diverts its queue where it was at work. -/
theorem takeOut_eq {q : PrinterId} {s : State} (hqueue : (s.printer q).queue = [])
    (hwaiting : (s.printer q).waiting = false) : takeOut q s =
      s.setPrinter q { s.printer q with outOfService := true, state := stateOut (s.printer q).state } := by
  have hdivert : ∀ st, divert startCheck q none (s.setPrinter q { s.printer q with outOfService := true, state := st })
      = s.setPrinter q { s.printer q with outOfService := true, state := st } := fun st =>
    divert_empty (by rw [State.printer_setPrinter_same]; exact hqueue)
  have hclear : ∀ st, clearWaiting q (s.setPrinter q { s.printer q with outOfService := true, state := st })
      = s.setPrinter q { s.printer q with outOfService := true, state := st } := fun st =>
    clearWaiting_none (by rw [State.printer_setPrinter_same]; exact hwaiting)
  simp only [takeOut, stateOut, State.modPrinter, State.printer_setPrinter_same, setPrinter_setPrinter]
  cases hst : (s.printer q).state with
  | ready => simp only [hclear, hdivert, if_true]
  | printing => exact hdivert .draining
  | faulted => exact hdivert .faulted
  | _ => rfl

theorem serviceOutAct_passes {n : Nat} {q : PrinterId} {s u : State} (hn : toPrinter n = some q)
    (habsent : (s.printer q).state ≠ .absent) (hprobe : (s.printer q).state ≠ .probe)
    (hin : (s.printer q).outOfService = false) (hu : takeOut q s = u) :
    serviceOutAct n s = .done u (.service (u.printer q).state) := by
  simp [serviceOutAct, hn, habsent, hprobe, hin, hu]

/-- R47: the state a printer enters when it is taken into service. -/
def stateIn (loaded : Bool) (st : PrinterState) : PrinterState :=
  if st = .outOfService then (if loaded = true then .ready else .unloaded)
  else if st = .draining then .printing else st

theorem takeIn_eq {q : PrinterId} {s : State} (hqueue : (s.printer q).queue = []) : takeIn q s =
    s.setPrinter q { s.printer q with
      outOfService := false, state := stateIn (s.loadedAt q).isSome (s.printer q).state } := by
  have hidle : startCheck q (s.setPrinter q { s.printer q with outOfService := false, state := .ready })
      = s.setPrinter q { s.printer q with outOfService := false, state := .ready } :=
    startCheck_idle q _ (.inr (by rw [State.printer_setPrinter_same]; exact hqueue))
  simp only [takeIn, stateIn, State.modPrinter, State.printer_setPrinter_same, setPrinter_setPrinter]
  cases hst : (s.printer q).state with
  | outOfService =>
    cases hloaded : (s.loadedAt q).isSome with
    | true => exact hidle
    | false => rfl
  | _ => rfl

/-- Settles O27. -/
theorem serviceOutAndIn : Obligations.ServiceOutAndIn := by
  intro h n rest s q hn hqueue hwaiting
  refine ⟨fun ha habsent hprobe hin => ?_, fun ha habsent hprobe hsense hloading hout => ?_⟩
  · have hact := serviceOutAct_passes (s := taken .sup rest s) hn habsent hprobe hin
      (takeOut_eq (s := taken .sup rest s) hqueue hwaiting)
    rw [State.printer_setPrinter_same] at hact
    obtain ⟨t, hexec, hans, hframe⟩ := request_done (notes := []) ha hact fun r => rfl
    exact ⟨t, _, rfl, hexec, hans, hframe⟩
  · have hbarred : s.serviceInBarred q = false := by
      simpa [State.serviceInBarred, habsent, hprobe, hsense] using hloading
    have hact : serviceInAct n (taken .sup rest s)
        = .done (takeIn q (taken .sup rest s)) (.service ((takeIn q (taken .sup rest s)).printer q).state) := by
      simp [serviceInAct, hn, hbarred, hout]
    rw [takeIn_eq (s := taken .sup rest s) hqueue, State.printer_setPrinter_same] at hact
    obtain ⟨t, hexec, hans, hframe⟩ := request_done (notes := []) ha hact fun r => rfl
    exact ⟨t, _, rfl, hexec, hans, hframe⟩

/-! ### Diversion (R71 to R73) -/

/-- R114: the SPOIL_LIST_FULL condition stays, for want of blanks or for a printer that waits. -/
theorem testFull_stays {s : State} (h : s.freeReported < 10 ∨ ∃ p, (s.printer p).waiting = true) : testFull s = s := by
  refine if_neg fun hgone => ?_
  obtain ⟨hfree, hnone⟩ := Bool.and_eq_true_iff.mp hgone
  have hfree' : 10 ≤ s.freeReported := of_decide_eq_true hfree
  obtain hlow | ⟨p, hp⟩ := h
  · omega
  · have hany : s.anyWaiting = true := List.any_eq_true.mpr ⟨p, List.mem_finRange p, hp⟩
    rw [hany] at hnone
    exact absurd hnone nofun

/-- R46: a printer at work, or one that waits while the condition stays, diverts its queue from its new state. -/
theorem takeOut_diverts {q : PrinterId} {s : State} {st : PrinterState} {c : Printer}
    (h : (s.printer q).state = .printing ∧ st = .draining
        ∧ c = { s.printer q with outOfService := true, state := .draining }
      ∨ (s.printer q).state = .faulted ∧ st = .faulted ∧ c = { s.printer q with outOfService := true }
      ∨ (s.printer q).state = .ready ∧ (s.printer q).waiting = true
        ∧ (s.freeReported < 10 ∨ ∃ p, p ≠ q ∧ (s.printer p).waiting = true) ∧ st = .outOfService
        ∧ c = { s.printer q with outOfService := true, state := .outOfService, waiting := false }) :
    takeOut q s = divert startCheck q none (s.setPrinter q c) ∧ c.state = st ∧ c.queue = (s.printer q).queue
      ∧ (s.printer q).state ≠ .absent ∧ (s.printer q).state ≠ .probe := by
  obtain ⟨hst, rfl, rfl⟩ | ⟨hst, rfl, rfl⟩ | ⟨hst, hwaiting, hstays, rfl, rfl⟩ := h
  · refine ⟨?_, rfl, rfl, by simp [hst], by simp [hst]⟩
    simp only [takeOut, hst, State.modPrinter, State.printer_setPrinter_same, setPrinter_setPrinter]
  · refine ⟨?_, hst, rfl, by simp [hst], by simp [hst]⟩
    simp only [takeOut, hst, State.modPrinter]
  · refine ⟨?_, rfl, rfl, by simp [hst], by simp [hst]⟩
    have hfull : ∀ c : Printer, testFull (s.setPrinter q c) = s.setPrinter q c := by
      intro c
      refine testFull_stays (hstays.imp id ?_)
      rintro ⟨p, hp, hw⟩
      exact ⟨p, by rw [State.printer_setPrinter, if_neg (Ne.symm hp)]; exact hw⟩
    simp only [takeOut, hst, clearWaiting, State.modPrinter, State.printer_setPrinter_same, setPrinter_setPrinter, hwaiting,
      if_true, hfull]

theorem notify_printer (p : Port) (n : Notice) (s : State) (q : PrinterId) :
    (notify p n s).printer q = s.printer q := by
  rw [notify_portsOnly]
  rfl

/-- Settles O28. -/
theorem serviceOutDiverts : Obligations.ServiceOutDiverts := by
  intro h n rest s q j x w st c ha hn hin hstate hqueue hx hurgent hdiverted hwindow
  obtain ⟨hout, hcst, hcq, habsent, hprobe⟩ := takeOut_diverts (s := taken .sup rest s) hstate
  set v := (taken .sup rest s).setPrinter q c with hv
  have hvq : v.printer q = c := State.printer_setPrinter_same ..
  have hq : (v.printer q).queue = [j] := by
    rw [hvq, hcq]
    exact hqueue
  refine ⟨fun r hqr hpair hprinting hroom => ?_, fun hkept => ?_⟩
  · have hr : v.printer r = s.printer r := by
      rw [hv, State.printer_setPrinter, if_neg hqr]
      rfl
    have hmoves := divert_moves v q r j x w hq hx hurgent hdiverted hwindow hqr hpair
      (by rw [hr]; exact hprinting) (by rw [hr]; exact hroom) _ rfl
    have hact := serviceOutAct_passes (s := taken .sup rest s) hn habsent hprobe hin (hout.trans hmoves)
    have hst : (look (put (put v.printers q { v.printer q with queue := [] }) r
        { v.printer r with queue := (v.printer r).queue ++ [j] }) q).state = st := by
      rw [look_put_other _ _ _ _ (Ne.symm hqr), look_put_same, hvq]
      exact hcst
    rw [notify_printer] at hact
    erw [hst] at hact
    obtain ⟨t, hexec, hans, hframe⟩ := request_done ha hact (notify_taken rfl rfl)
    refine ⟨t, hexec, hans, hframe.trans ?_⟩
    rw [notify_portsOnly, hr, hvq, hv]
    simp only [State.setPrinter, put_put]
    rfl
  · have hkeeps := divert_keeps v q j x w hq hx hurgent hdiverted hwindow (by
      obtain hnone | ⟨r, hqr, hother, hfull⟩ := hkept
      · exact .inl hnone
      · refine .inr ⟨r, hqr, hother, ?_⟩
        rw [hv, State.printer_setPrinter, if_neg hqr]
        exact hfull)
    have hact := serviceOutAct_passes (s := taken .sup rest s) hn habsent hprobe hin (hout.trans hkeeps)
    simp only [heldJob, notify_printer, hvq, hcst] at hact
    obtain ⟨t, hexec, hans, hframe⟩ := request_done ha hact (notify_taken rfl rfl)
    refine ⟨t, hexec, hans, hframe.trans ?_⟩
    rw [notify_portsOnly]
    rfl

/-! ### Pairs, HOLD and RELEASE (R187, R188) -/

theorem windowHere_present {s : State} {n : Nat} {w : Window} (hn : toWindow n = some w) (hw : s.windowPresent w = true) :
    s.windowHere n = some w := by
  simp [State.windowHere, hn, hw]

/-- R187: the pair that a request names. -/
theorem pairNamed_eq {a : Nat} {o : Option Nat} {q : Pair} (ha : toPrinter a = some q.primary)
    (ho : o = none ∧ q.alternate = none
      ∨ ∃ b r, o = some b ∧ toPrinter b = some r ∧ q.alternate = some r ∧ r ≠ q.primary) : pairNamed a o = some q := by
  obtain ⟨primary, alternate⟩ := q
  obtain ⟨rfl, halt⟩ | ⟨b, r, rfl, hb, halt, hne⟩ := ho
  · cases halt
    simp only [pairNamed, ha]
  · cases halt
    simp only [pairNamed, ha, hb, if_neg (Ne.symm hne)]

/-- Settles O29. -/
theorem assignHoldRelease : Obligations.AssignHoldRelease := by
  intro h n rest s w hn hpresent
  have hhere : s.windowHere n = some w := windowHere_present hn hpresent
  refine ⟨fun a o q ha hprimary hother habsent => ?_, fun ha hhold => ?_, fun ha hhold => ?_⟩
  · have hnamed : pairNamed a o = some q := by
      refine pairNamed_eq hprimary (hother.imp id ?_)
      rintro ⟨b, r, hb, hr, halt, hne, -⟩
      exact ⟨b, r, hb, hr, halt, hne⟩
    have hthere : s.pairAbsent q = false := by
      obtain ⟨-, halt⟩ | ⟨b, r, -, -, halt, -, hr⟩ := hother
      · simp [State.pairAbsent, habsent, halt]
      · simp [State.pairAbsent, habsent, halt, hr]
    have hact : assignPrintersAct n a o (taken .sup rest s)
        = .done (setPair w q (taken .sup rest s)) (.assigned (s.pair w)) := by
      simp [assignPrintersAct, hhere, hnamed, hthere]
    exact request_done (notes := []) ha hact fun r => rfl
  · have hact : holdAct true n (taken .sup rest s)
        = .done (notify (.win w) (.hold s.clock) ((taken .sup rest s).setHold w true)) := by
      simp [holdAct, hhere, hhold]
    obtain ⟨t, hexec, hans, hframe⟩ := request_done ha hact (notify_taken rfl rfl)
    refine ⟨t, hexec, hans, hframe.trans ?_⟩
    rw [notify_portsOnly]
    rfl
  · have hact : holdAct false n (taken .sup rest s)
        = .done (notify (.win w) (.release s.clock) ((taken .sup rest s).setHold w false)) := by
      simp [holdAct, hhere, hhold]
    obtain ⟨t, hexec, hans, hframe⟩ := request_done ha hact (notify_taken rfl rfl)
    refine ⟨t, hexec, hans, hframe.trans ?_⟩
    rw [notify_portsOnly]
    rfl

end Sys2Proof.Machine
end

