-- ==== Sys2Proof/Proofs/Raising.lean ====
section
/-! The fault log takes a raise (R100 to R106, R118): a new record, or a merge into one that stands. -/

namespace Sys2Proof.Machine

/-! ### A new record (R105) -/

/-- R105: in a log with room a place below 40 is free. -/
theorem freePlace_free {rs : List FaultRecord} (h : rs.length < 40) :
    freePlace rs < 40 ∧ ∀ r ∈ rs, r.place ≠ freePlace rs := by
  have hsome : ∃ i, (List.range Config.faultSize).find? (fun i => !(rs.any fun r => r.place == i)) = some i := by
    refine Option.isSome_iff_exists.mp (List.find?_isSome.mpr ?_)
    by_contra hall
    have hsub : List.range Config.faultSize ⊆ rs.map fun r => r.place := by
      intro i hi
      by_contra hmem
      refine hall ⟨i, hi, ?_⟩
      simpa using hmem
    have hle := (List.nodup_range.subperm hsub).length_le
    rw [List.length_range, List.length_map] at hle
    have hsize : Config.faultSize = 40 := rfl
    omega
  obtain ⟨i, hi⟩ := hsome
  have hplace : freePlace rs = i := by rw [freePlace, hi]; rfl
  have hfree := List.find?_some hi
  rw [hplace]
  refine ⟨List.mem_range.mp (List.mem_of_find?_eq_some hi), fun r hr hri => ?_⟩
  simp only [Bool.not_eq_true', List.any_eq_false, beq_iff_eq] at hfree
  exact hfree r hr hri

/-- R118: FAULT RAISED leaves everything but the ports it goes to. -/
theorem sendRaised_spec (k : FaultKind) (r : FaultRecord) (s : State) :
    (∃ v, sendRaised k r s = { s with ports := v })
      ∧ ∀ q, (sendRaised k r s).port q = noticed s ((raisedPorts r.printer s).map fun p => (p,
          .faultRaised r.number r.printer k r.severity r.state r.repeats r.detail r.window)) q (s.port q) := by
  obtain ⟨v, hv, hq⟩ := notifyAll_spec s (raisedPorts r.printer s)
    (.faultRaised r.number r.printer k r.severity r.state r.repeats r.detail r.window)
  exact ⟨⟨v, hv⟩, hq⟩

/-- Settles O30. -/
theorem raiseMakesRecord : Obligations.RaiseMakesRecord := by
  intro k printer detail s x hroom hnone hx
  set r := newRecord k printer x detail (freePlace s.faults) s.faultCounter s with hr
  obtain ⟨hplace, hfree⟩ := freePlace_free hroom
  have hfind : s.faults.find? (mergesInto k printer) = none :=
    List.find?_eq_none.mpr fun y hy => by rw [hnone y hy]; exact Bool.false_ne_true
  have hjob : raiseJob printer s = x := by
    rw [hx]
    cases printer <;> rfl
  have hkept : makeRoom s.faults = s.faults := if_pos hroom
  have hover : (s.overwritten || decide (Config.faultSize ≤ s.faults.length)) = s.overwritten := by
    have hsize : ¬ Config.faultSize ≤ s.faults.length := by show ¬ 40 ≤ s.faults.length; omega
    rw [decide_eq_false hsize, Bool.or_false]
  have hraise : raise k printer detail s = sendRaised k r { s with
      faults := s.faults ++ [r], faultCounter := nextFaultNumber (s.faults ++ [r]) s.faultCounter,
      running := addFault (severityOf k) s.running, night := s.night || s.mode == .night } := by
    simp only [raise, hfind, raiseNew, hkept, hjob, hover, ← hr]
    rfl
  obtain ⟨⟨v, hv⟩, hports⟩ := sendRaised_spec k r { s with
      faults := s.faults ++ [r], faultCounter := nextFaultNumber (s.faults ++ [r]) s.faultCounter,
      running := addFault (severityOf k) s.running, night := s.night || s.mode == .night }
  refine ⟨r, by rw [hraise, hv], rfl, hfree, hplace, fun hlow hhigh => ?_, fun q => ?_, by rw [hraise, hv]; rfl⟩
  · have hcounter : (raise k printer detail s).faultCounter = nextFaultNumber (s.faults ++ [r]) s.faultCounter := by
      rw [hraise, hv]
    rw [hcounter]
    exact nextFaultNumber_advances _ _ hlow hhigh (by simp; omega)
  · rw [hraise]
    exact hports q

/-! ### A merge (R103, R104) -/

theorem mergesInto_iff {k : FaultKind} {printer : Option PrinterId} {r : FaultRecord} : mergesInto k printer r = true ↔
    r.state ≠ .closed ∧ r.printer = printer ∧ (severityOf k = .stop → r.severity = .stop)
      ∧ (severityOf k ≠ .stop → r.firstKind = k) := by
  by_cases hstop : severityOf k = .stop <;> simp [mergesInto, hstop, and_assoc]

/-- R103, R104: the record after a merge. -/
theorem mergeInto_eq {k : FaultKind} {x : Option Job} {detail : Option Nat} {now : Nat} {r : FaultRecord} {again : Bool}
    (hagain : again = decide (r.state = .cleared ∧ (k = .stockLow ∨ k = .spoilListFull))) :
    mergeInto k x detail now r = { r with
      latest := k, latestTime := now, repeats := min 255 (r.repeats + 1),
      detail := if detail.isSome = true then detail else r.detail,
      window := if x.isSome = true then x.bind fun z => z.window else r.window,
      session := if x.isSome = true then x.bind fun z => z.session else r.session,
      sessionOver := r.sessionOver && x.isNone,
      state := if severityOf k = .stop then .opened else if again = true then .acknowledged else r.state,
      present := if severityOf k = .stop ∨ again = true then true else r.present } := by
  have hcond : (r.state == .cleared && (k == .stockLow || k == .spoilListFull)) = again := by
    rw [hagain, Bool.eq_iff_iff]
    simp
  by_cases hstop : severityOf k = .stop
  · cases x <;> simp [mergeInto, hstop]
  · cases again with
    | true => cases x <;> simp [mergeInto, hstop, hcond]
    | false => cases x <;> simp [mergeInto, hstop, hcond]

/-- Settles O31. -/
theorem raiseMerges : Obligations.RaiseMerges := by
  intro k printer detail s r y x again hfind hnodup hfull hx hagain hy
  obtain ⟨hopen, hprinter, hstop, hkind⟩ := mergesInto_iff.mp (List.find?_some hfind)
  have hjob : raiseJob printer s = x := by
    rw [hx]
    cases printer <;> rfl
  have hmerged : mergeInto k x detail s.clock r = y := (mergeInto_eq hagain).trans hy.symm
  have hnumber : y.number = r.number := by rw [hy]
  have hsame : y.printer = printer ∧ y.severity = r.severity := by rw [hy]; exact ⟨hprinter, rfl⟩
  have hsent : (severityOf k == .stop || y.state != r.state) = true ↔ severityOf k = .stop ∨ again = true := by
    rw [Bool.or_eq_true, beq_iff_eq]
    refine or_congr_right' fun hnote => ?_
    have hstate : y.state = if again = true then .acknowledged else r.state := by rw [hy]; exact if_neg hnote
    cases hag : again with
    | false => simp [hstate, hag]
    | true =>
      have hcleared : r.state = .cleared := (of_decide_eq_true (hagain.symm.trans hag)).1
      simp [hstate, hag, hcleared]
  set t : State := { s with
    faults := s.faults.map fun z => if z.number = r.number then y else z,
    running := addFault (severityOf k) s.running, night := s.night || s.mode == .night } with ht
  have hraise : raise k printer detail s = if severityOf k = .stop ∨ again = true then sendRaised k y t else t := by
    have hmod : addDay (addFault (severityOf k)) (modFault r.number (fun _ => y) s) = t := by
      simp only [modFault, beq_iff_eq]
      rfl
    simp only [raise, hfind, raiseMerge, hjob, hmerged, hsent, hmod]
  obtain ⟨⟨v, hv⟩, hports⟩ := sendRaised_spec k y t
  refine ⟨hprinter, hopen, hstop, hkind, fun q => ?_, ?_⟩
  · by_cases hsend : severityOf k = .stop ∨ again = true
    · rw [hraise, if_pos hsend, if_pos hsend, hports, hsame.1, hsame.2, hnumber]
      rfl
    · rw [hraise, if_neg hsend, if_neg hsend]
      rfl
  · by_cases hsend : severityOf k = .stop ∨ again = true
    · rw [hraise, if_pos hsend, hv]
    · rw [hraise, if_neg hsend]

end Sys2Proof.Machine
end

