-- ==== Sys2Proof/Proofs/FaultRequests.lean ====
section
/-! ACK FAULT, CLOSE FAULT, FAULT READ and SPOIL READ (R94, R110 to R113). -/

namespace Sys2Proof.Machine

/-! ### ACK FAULT (R110) -/

theorem modFault_eq (n : Nat) (f : FaultRecord → FaultRecord) (s : State) :
    modFault n f s = { s with faults := s.faults.map fun x => if x.number = n then f x else x } := by
  simp only [modFault, beq_iff_eq]

/-- R102: the record of a number is found again after a change that keeps the numbers. -/
theorem faultOf_changed {n : Nat} {f : FaultRecord → FaultRecord} (hf : ∀ r, (f r).number = r.number) {s u : State}
    (hu : u.faults = s.faults.map fun x => if x.number = n then f x else x) : u.faultOf n = (s.faultOf n).map f := by
  have hfind : u.faultOf n = (s.faultOf n).map fun x => if x.number = n then f x else x := by
    unfold State.faultOf
    rw [hu, List.find?_map]
    congr 1
    refine find_congr _ _ _ fun r _ => ?_
    by_cases hr : r.number = n <;> simp [hr, hf]
  rw [hfind]
  cases hr : s.faultOf n with
  | none => rfl
  | some r => simp [(s.faultOf_some hr).2]

/-- R102: numbers stand once, so that the record found is the only one. -/
theorem faultOf_unique {s : State} {n : Nat} {r f : FaultRecord} (hnodup : (s.faults.map fun x => x.number).Nodup)
    (hr : s.faultOf n = some r) (hf : f ∈ s.faults) (hn : f.number = n) : f = r := by
  obtain ⟨hmem, hnumber⟩ := s.faultOf_some hr
  exact List.inj_on_of_nodup_map hnodup hf hmem (hn.trans hnumber.symm)

theorem ackFaultAct_opened {p : Port} {n : Nat} {s : State} {r : FaultRecord} (hn : numberOk n = true)
    (hr : s.faultOf n = some r) (hmay : s.mayAcknowledge p r = true) (hstate : r.state = .opened) {x : FaultRecord}
    (hx : (acknowledge r s).faultOf n = some x) :
    ackFaultAct p n s = .done (acknowledge r s) (.acknowledged n x.state) := by
  simp [ackFaultAct, hn, hr, hmay, hstate, hx]

theorem ackRemoves_iff {k : FaultKind} :
    ackRemoves k = true ↔ k ∈ [.couponTimeout, .headFault, .serialOrder, .recordsLost] := by cases k <;> decide

/-- R109: a record that becomes CLEARED, S told of it, and what its printer does. -/
theorem recordCleared_leaves {r : FaultRecord} {s : State} {n : Nat} {printers : Vector Printer 8} {free : Nat}
    (hn : r.number = n) (hleaves : ClearedLeaves r s printers free)
    (hopen : ∀ f ∈ s.faults, f.number = n → f.state = .opened) :
    ∃ v, recordCleared r s = { s with
        ports := v, printers := printers, freeReported := free,
        faults := s.faults.map fun x => if x.number = n then { x with state := .cleared, present := false } else x }
      ∧ ∀ q, (recordCleared r s).port q
        = noticed s [(.sup, .faultCleared n r.printer r.latest r.repeats r.blanks)] q (s.port q) := by
  have henter : enterCleared r s = notify .sup (.faultCleared n r.printer r.latest r.repeats r.blanks) { s with
      faults := s.faults.map fun x => if x.number = n then { x with state := .cleared, present := false } else x } := by
    rw [enterCleared, sendCleared, modFault_eq, hn]
  have hu := tellCleared_leaves r s (enterCleared r s) n printers free
    ⟨(enterCleared r s).ports, by rw [henter]; exact notify_portsOnly ..⟩ hn hleaves hopen
  have hcleared : recordCleared r s = { enterCleared r s with printers := printers, freeReported := free } := hu
  refine ⟨(enterCleared r s).ports, ?_, fun q => ?_⟩
  · rw [hcleared, henter, notify_portsOnly]
  · rw [hcleared]
    show (enterCleared r s).port q = _
    rw [henter, notify_port]
    rfl

/-- Settles O32. -/
theorem acknowledgeFault : Obligations.AcknowledgeFault := by
  intro p h n rest s r ha hpos hr hstate hnodup hmay
  have hn : numberOk n = true := by
    have hw : wellFormed (.ackFault p h n) = true := ha.2.2.1
    simp only [wellFormed, Bool.and_eq_true, fits2_iff] at hw
    exact numberOk_iff.mpr ⟨hpos, by omega⟩
  obtain ⟨-, hnumber⟩ := s.faultOf_some hr
  refine ⟨fun hpresent hlatest => ?_, fun printers free hgone hleaves => ?_⟩
  · have hack : acknowledge r (taken p rest s) = { taken p rest s with
        faults := s.faults.map fun x => if x.number = n then { x with state := .acknowledged } else x } := by
      have hstays : ¬ ((!r.present || ackRemoves r.latest) = true) := by
        simp [hpresent, mt ackRemoves_iff.mp hlatest]
      rw [acknowledge, if_neg hstays, modFault_eq, hnumber]
      rfl
    have hfound : (acknowledge r (taken p rest s)).faultOf n = some { r with state := .acknowledged } := by
      rw [faultOf_changed (s := s) (f := fun x => { x with state := .acknowledged }) (fun _ => rfl) (by rw [hack]), hr]
      rfl
    have hact := ackFaultAct_opened (s := taken p rest s) hn hr hmay hstate hfound
    rw [hack] at hact
    exact request_done (notes := []) ha hact fun q => rfl
  · have hopen : ∀ f ∈ s.faults, f.number = n → f.state = .opened := fun f hf hfn => by
      rw [faultOf_unique hnodup hr hf hfn]
      exact hstate
    have hack : acknowledge r (taken p rest s) = recordCleared r (taken p rest s) := by
      refine if_pos ?_
      rw [Bool.or_eq_true, Bool.not_eq_true', ackRemoves_iff]
      exact hgone
    obtain ⟨v, hcleared, hports⟩ := recordCleared_leaves (s := taken p rest s) hnumber hleaves hopen
    have hfound : (acknowledge r (taken p rest s)).faultOf n = some { r with state := .cleared, present := false } := by
      rw [faultOf_changed (s := s) (f := fun x => { x with state := .cleared, present := false }) (fun _ => rfl)
        (by rw [hack, hcleared]; rfl), hr]
      rfl
    have hact := ackFaultAct_opened (s := taken p rest s) hn hr hmay hstate hfound
    rw [hack] at hact
    obtain ⟨t, hexec, hans, hframe⟩ := request_done ha hact hports
    refine ⟨t, hexec, hans, hframe.trans ?_⟩
    rw [hcleared]
    rfl

/-! ### CLOSE FAULT and FAULT READ (R112, R113) -/

theorem stopStands_iff {s : State} {r : FaultRecord} : s.stopStands r = true
    ↔ r.severity = .stop ∧ ∃ q, r.printer = some q ∧ (s.printer q).state = .faulted := by
  cases hp : r.printer with
  | none => simp [State.stopStands, hp]
  | some q => simp [State.stopStands, hp]

theorem closeFaultAct_closes {n remedy : Nat} {s : State} {r : FaultRecord} (hn : numberOk n = true) (hremedy : remedy ≤ 255)
    (hr : s.faultOf n = some r) (hstate : r.state = .cleared) (hstands : s.stopStands r = false) :
    closeFaultAct n remedy s
      = .done (modFault n (fun x => { x with state := .closed, remedy := some remedy }) s) (.faultClosed n) := by
  have hnumbers : ¬ ((!numberOk n) = true ∨ 255 < remedy) := by
    simp [hn]
    omega
  simp only [closeFaultAct, if_neg hnumbers, hr, hstate, hstands]
  rfl

theorem faultReadAct_numbered {out : Bool} {retire n : Nat} {s : State} {r : FaultRecord} (hout : toFlag retire = some out)
    (hn : numberOk n = true) (hr : s.faultOf n = some r) (hclosed : out = true → r.state = .closed) :
    faultReadAct retire (some n) s
      = .done (retireFault out r s) (faultReadView (some r) (retireFault out r s)) := by
  cases out with
  | false => simp [faultReadAct, hout, hn, hr]
  | true => simp [faultReadAct, hout, hn, hr, hclosed rfl]

/-! ### SPOIL READ (R94) -/

/-- R94, R90: the entries leave the list, and no printer waits for the space they free. -/
theorem retireSpoils_eq {s : State} (hwaiting : ∀ q, (s.printer q).waiting = false) (hfull : NoFullRecord s) :
    retireSpoils s = { s with
      spoils := s.spoils.drop 8,
      freeReported := if s.spoils = [] then s.freeReported else 256 - (s.spoils.drop 8).length - s.reserved } := by
  by_cases hempty : s.spoils = []
  · have hdrop : s.spoils.drop 8 = s.spoils := by rw [hempty]; rfl
    rw [retireSpoils, if_pos (by simp [hempty]), if_pos hempty, hdrop]
  · have hhandout := handout_none (reportFree { s with spoils := s.spoils.drop 8 }) hwaiting hfull
    rw [retireSpoils, if_neg (by simpa using hempty), if_neg hempty, spaceFreed, hhandout]
    rfl

/-- Settles O33. -/
theorem faultAndSpoilReads : Obligations.FaultAndSpoilReads := by
  intro h rest s
  have hnumber {n : Nat} (hpos : 1 ≤ n) (hfits : n < 65536) : numberOk n = true := numberOk_iff.mpr ⟨hpos, by omega⟩
  refine ⟨fun n remedy r ha hpos hr hstate hstands => ?_, fun n r ha hpos hr => ?_, fun n r ha hpos hr hstate => ?_,
    fun ha => ?_, fun ha hwaiting hfull => ?_⟩
  · have hw : wellFormed (.closeFault .sup h n remedy) = true := ha.2.2.1
    simp only [wellFormed, Bool.and_eq_true, fits2_iff, fits1_iff] at hw
    have hact := closeFaultAct_closes (s := taken .sup rest s) (hnumber hpos (by omega)) (remedy := remedy) (by omega) hr hstate
      (Bool.eq_false_iff.mpr (mt stopStands_iff.mp hstands))
    rw [modFault_eq] at hact
    exact request_done (notes := []) ha hact fun q => rfl
  · have hw : wellFormed (.faultRead .sup h 0 (some n)) = true := ha.2.2.1
    simp only [wellFormed, Bool.and_eq_true, optFits, fits2_iff] at hw
    have hact := faultReadAct_numbered (s := taken .sup rest s) (retire := 0) (out := false) rfl
      (hnumber hpos (by omega)) hr nofun
    exact request_told ha hact
  · have hw : wellFormed (.faultRead .sup h 1 (some n)) = true := ha.2.2.1
    simp only [wellFormed, Bool.and_eq_true, optFits, fits2_iff] at hw
    have hact := faultReadAct_numbered (s := taken .sup rest s) (retire := 1) (out := true) rfl (hnumber hpos (by omega)) hr
      fun _ => hstate
    have hretire : retireFault true r (taken .sup rest s)
        = { taken .sup rest s with faults := s.faults.filter fun x => x.number != n } := by
      rw [retireFault, if_pos rfl, (s.faultOf_some hr).2]
      rfl
    rw [hretire] at hact
    obtain ⟨t, hexec, hans, hframe⟩ := request_done (notes := []) ha hact fun q => rfl
    have hfaults : t.faults = s.faults.filter fun x => x.number != n := by rw [hframe]
    refine ⟨t, hexec, ?_, hframe⟩
    rw [hfaults]
    exact hans
  · exact request_told ha (by rfl)
  · have hact : spoilReadAct 1 (taken .sup rest s) = .done (retireSpoils (taken .sup rest s))
        (.spoils (s.spoils.take 8) (retireSpoils (taken .sup rest s)).spoils.length
          (retireSpoils (taken .sup rest s)).reserved (retireSpoils (taken .sup rest s)).unreserved) := rfl
    rw [retireSpoils_eq (s := taken .sup rest s) hwaiting hfull] at hact
    obtain ⟨t, hexec, hans, hframe⟩ := request_done (notes := []) ha hact fun q => rfl
    have hspoils : t.spoils = s.spoils.drop 8 := by rw [hframe]; rfl
    have hprinters : t.printers = s.printers := by rw [hframe]; rfl
    have hreserved : t.reserved = s.reserved := reserved_congr fun q => by simp only [State.printer, hprinters]
    have hfree : t.unreserved = 256 - (s.spoils.drop 8).length - s.reserved := by
      simp only [State.unreserved, hspoils, hreserved]
      rfl
    refine ⟨t, hexec, ?_, ?_⟩
    · rw [hspoils, hreserved, hfree]
      exact hans
    · rw [hspoils, hreserved]
      exact hframe

end Sys2Proof.Machine
end

