-- ==== Sys2Proof/Proofs/ParameterImage.lean ====
section
/-! The image of a parameter set (R192, R193): its size, its check byte, and that it reads back. -/

namespace Sys2Proof.Machine

/-! ### Bytes that stand in a memory -/

/-- The bytes `l` stand in the memory from place `i` on. -/
def StandsAt (m : List Byte) (i : Nat) (l : List Byte) : Prop := l <+: m.drop i

section
variable {m a b : List Byte} {i : Nat}

/-- The two parts of bytes that stand somewhere; `j` is the place where the second begins. -/
theorem StandsAt.split (h : StandsAt m i (a ++ b)) (n j : Nat) (hn : a.length = n) (hj : i + n = j) :
    StandsAt m i a ∧ StandsAt m j b := by
  obtain ⟨t, ht⟩ := h
  refine ⟨⟨b ++ t, by rw [← ht, List.append_assoc]⟩, ⟨t, ?_⟩⟩
  rw [← hj, ← hn, ← List.drop_drop, ← ht, List.append_assoc, List.drop_left]

/-- A table of rows of `k` bytes: row `j` stands `k * j` bytes on. -/
theorem StandsAt.row {α : Type} {f : α → List Byte} {k : Nat} (hf : ∀ x, (f x).length = k) {l : List α} {i j : Nat}
    (h : StandsAt m i (l.flatMap f)) {x : α} (hx : l[j]? = some x) : StandsAt m (i + k * j) (f x) := by
  induction l generalizing i j with
  | nil => cases hx
  | cons y l ih =>
    rw [List.flatMap_cons] at h
    obtain ⟨hfirst, hrest⟩ := h.split k (i + k) (hf y) rfl
    cases j with
    | zero =>
      cases hx
      exact hfirst
    | succ j =>
      have hnext := ih hrest hx
      rwa [show i + k + k * j = i + k * (j + 1) by ring] at hnext

theorem StandsAt.byte {x : Byte} (h : StandsAt m i [x]) : byteAt m i = x.toNat := by
  obtain ⟨t, ht⟩ := h
  have hget : m[i]? = some x := by
    have hdrop : (m.drop i)[0]? = some x := by rw [← ht]; rfl
    rwa [List.getElem?_drop, Nat.add_zero] at hdrop
  simp [byteAt, hget]

theorem StandsAt.read1 {n : Nat} (h : StandsAt m i (be1 n)) (hn : n < 256) : byteAt m i = n := by
  rw [StandsAt.byte h, BitVec.toNat_ofNat]
  exact Nat.mod_eq_of_lt hn

theorem StandsAt.read2 {n : Nat} (h : StandsAt m i (be2 n)) (hn : n < 65536) : pairAt m i = n := by
  obtain ⟨hhigh, hlow⟩ := StandsAt.split (a := [_]) (b := [_]) h 1 (i + 1) rfl rfl
  rw [pairAt, hhigh.byte, hlow.byte, BitVec.toNat_ofNat, BitVec.toNat_ofNat]
  omega

theorem StandsAt.read4 {n : Nat} (h : StandsAt m i (be4 n)) (hn : n < 4294967296) : quadAt m i = n := by
  obtain ⟨hb3, h⟩ := StandsAt.split (a := [_]) (b := [_, _, _]) h 1 (i + 1) rfl rfl
  obtain ⟨hb2, h⟩ := StandsAt.split (a := [_]) (b := [_, _]) h 1 (i + 2) rfl rfl
  obtain ⟨hb1, hb0⟩ := StandsAt.split (a := [_]) (b := [_]) h 1 (i + 3) rfl rfl
  rw [quadAt, pairAt, pairAt, hb3.byte, hb2.byte, hb1.byte, hb0.byte]
  simp only [BitVec.toNat_ofNat]
  omega

end

/-! ### The fields of the image (R192) -/

/-- The byte of the image for a window's alternate printer, or for none. -/
def alternateByte : Option PrinterId → Nat
  | some a => a.val
  | none => 255

/-- The row of the image for a window's pair. -/
def pairBytes (q : Params) (w : Window) : List Byte :=
  be1 (look q.pairs w).primary.val ++ be1 (alternateByte (look q.pairs w).alternate)

/-- The row of the image for a window's quota. -/
def quotaBytes (q : Params) (w : Window) : List Byte := be1 (look q.quotas w).res ++ be1 (look q.quotas w).ceil

theorem flatMap_rows_length {f : Window → List Byte} (hf : ∀ w, (f w).length = 2) :
    ((List.finRange 12).flatMap f).length = 24 := by
  simp [List.length_flatMap, hf]

/-- The bytes of the image, in the order of R192. -/
theorem imageBytes_eq (q : Params) : imageBytes q = be1 3 ++ (be1 (linkRateCode q.linkRate) ++ (be1 q.printers.toNat
    ++ (be2 q.windows.toNat ++ ((List.finRange 12).flatMap (pairBytes q) ++ ((List.finRange 12).flatMap (quotaBytes q)
    ++ (be2 q.floors.cash ++ (be2 q.floors.card ++ (be2 q.floors.warrant ++ (be2 q.floors.voucher ++ (be2 q.rates.cash
    ++ (be2 q.rates.card ++ (be2 q.rates.warrant ++ (be2 q.rates.voucher ++ (be4 q.refundLimit ++ (be2 q.voidWindow
    ++ (be2 q.authTime ++ (be2 q.stockLow ++ be1 q.stockHandling.toNat))))))))))))))))) := by
  simp only [imageBytes, List.append_assoc]
  rfl

theorem pairRows_length (q : Params) : ((List.finRange 12).flatMap (pairBytes q)).length = 24 :=
  flatMap_rows_length fun _ => rfl

theorem quotaRows_length (q : Params) : ((List.finRange 12).flatMap (quotaBytes q)).length = 24 :=
  flatMap_rows_length fun _ => rfl

theorem imageBytes_length (q : Params) : (imageBytes q).length = 80 := by
  simp only [imageBytes_eq, List.length_append, pairRows_length, quotaRows_length, be1, be2, be4, List.length_cons,
    List.length_nil]

/-- Every field of the image, where the memory begins with it. -/
structure ImageFields (q : Params) (m : List Byte) : Prop where
  format : byteAt m 0 = 3
  rate : byteAt m 1 = linkRateCode q.linkRate
  printers : byteAt m 2 = q.printers.toNat
  windows : pairAt m 3 = q.windows.toNat
  windowsHigh : byteAt m 3 < 16
  pairs : ∀ w, pairIn m w = some (look q.pairs w)
  quotas : ∀ w, quotaAt m w = look q.quotas w
  floors : tendersAt m 53 = q.floors
  rates : tendersAt m 61 = q.rates
  refundLimit : quadAt m 69 = q.refundLimit
  voidWindow : pairAt m 73 = q.voidWindow
  authTime : pairAt m 75 = q.authTime
  stockLow : pairAt m 77 = q.stockLow
  stockHandling : byteAt m 79 = q.stockHandling.toNat

theorem pairOf_self {x : Pair} (h : x.alternate ≠ some x.primary) : 
    pairOf x.primary.val (alternateByte x.alternate) = some x := by
  obtain ⟨primary, alternate⟩ := x
  have hself : ∀ p : PrinterId, toPrinter p.val = some p := fun p => dif_pos p.isLt
  cases alternate with
  | none => simp [pairOf, alternateByte, hself]
  | some a =>
    have hne : primary ≠ a := fun hpa => h (hpa ▸ rfl)
    have hnot : a.val ≠ 255 := by omega
    simp [pairOf, alternateByte, hself, hne, hnot]

theorem tendersAt_stands {m : List Byte} {i : Nat} {x : PerTender Nat} (hcash : StandsAt m i (be2 x.cash))
    (hcard : StandsAt m (i + 2) (be2 x.card)) (hwarrant : StandsAt m (i + 4) (be2 x.warrant))
    (hvoucher : StandsAt m (i + 6) (be2 x.voucher)) (hx : ∀ t, x.of t < 65536) : tendersAt m i = x := by
  rw [tendersAt, hcash.read2 (hx .cash), hcard.read2 (hx .card), hwarrant.read2 (hx .warrant),
    hvoucher.read2 (hx .voucher)]

theorem imageFields {q : Params} {m : List Byte} (hq : paramsOk q = true) (h : StandsAt m 0 (imageBytes q)) :
    ImageFields q m := by
  obtain ⟨hpairs, hquotas, hfloors, hrates, hrefund, hvoid, hauth, hlow⟩ := (paramsOk_iff q).mp hq
  have hfloor : ∀ t, q.floors.of t < 65536 := fun t => by have := of_decide_eq_true (hfloors t); omega
  have hrate : ∀ t, q.rates.of t < 65536 := fun t => by have := of_decide_eq_true (hrates t); omega
  have hrefund := of_decide_eq_true hrefund
  have hvoid := of_decide_eq_true hvoid
  have hauth := of_decide_eq_true (Bool.and_eq_true_iff.mp hauth).2
  have hlow := of_decide_eq_true hlow
  have hwindows : q.windows.toNat < 4096 := q.windows.isLt
  have hprinters : q.printers.toNat < 256 := q.printers.isLt
  have hplace : ∀ w : Window, (List.finRange 12)[w.val]? = some w := fun w => by simp
  rw [imageBytes_eq] at h
  obtain ⟨atFormat, h⟩ := h.split 1 1 rfl rfl
  obtain ⟨atRate, h⟩ := h.split 1 2 rfl rfl
  obtain ⟨atPrinters, h⟩ := h.split 1 3 rfl rfl
  obtain ⟨atWindows, h⟩ := h.split 2 5 rfl rfl
  obtain ⟨atPairs, h⟩ := h.split 24 29 (pairRows_length q) rfl
  obtain ⟨atQuotas, h⟩ := h.split 24 53 (quotaRows_length q) rfl
  obtain ⟨atFloorCash, h⟩ := h.split 2 55 rfl rfl
  obtain ⟨atFloorCard, h⟩ := h.split 2 57 rfl rfl
  obtain ⟨atFloorWarrant, h⟩ := h.split 2 59 rfl rfl
  obtain ⟨atFloorVoucher, h⟩ := h.split 2 61 rfl rfl
  obtain ⟨atRateCash, h⟩ := h.split 2 63 rfl rfl
  obtain ⟨atRateCard, h⟩ := h.split 2 65 rfl rfl
  obtain ⟨atRateWarrant, h⟩ := h.split 2 67 rfl rfl
  obtain ⟨atRateVoucher, h⟩ := h.split 2 69 rfl rfl
  obtain ⟨atRefund, h⟩ := h.split 4 73 rfl rfl
  obtain ⟨atVoid, h⟩ := h.split 2 75 rfl rfl
  obtain ⟨atAuth, h⟩ := h.split 2 77 rfl rfl
  obtain ⟨atLow, atHandling⟩ := h.split 2 79 rfl rfl
  refine
    { format := atFormat.read1 (by omega), rate := atRate.read1 (by cases q.linkRate <;> decide),
      printers := atPrinters.read1 hprinters, windows := atWindows.read2 (by omega), windowsHigh := ?_,
      pairs := fun w => ?_, quotas := fun w => ?_,
      floors := tendersAt_stands atFloorCash atFloorCard atFloorWarrant atFloorVoucher hfloor,
      rates := tendersAt_stands atRateCash atRateCard atRateWarrant atRateVoucher hrate,
      refundLimit := atRefund.read4 (by omega), voidWindow := atVoid.read2 (by omega), authTime := atAuth.read2 (by omega),
      stockLow := atLow.read2 (by omega), stockHandling := atHandling.read1 (by cases q.stockHandling <;> decide) }
  · obtain ⟨hhigh, -⟩ := StandsAt.split (a := [_]) (b := [_]) atWindows 1 4 rfl rfl
    rw [hhigh.byte, BitVec.toNat_ofNat]
    omega
  · have hrow := atPairs.row (k := 2) (fun _ => rfl) (hplace w)
    obtain ⟨hprimary, halternate⟩ := hrow.split 1 (6 + 2 * w.val) rfl (by omega)
    have hbyte : alternateByte (look q.pairs w).alternate < 256 := by
      cases (look q.pairs w).alternate with
      | none => decide
      | some a => exact a.isLt.trans (by decide)
    rw [pairIn, hprimary.read1 (by omega), halternate.read1 hbyte]
    exact pairOf_self (hpairs w)
  · have hrow := atQuotas.row (k := 2) (fun _ => rfl) (hplace w)
    obtain ⟨hres, hceil⟩ := hrow.split 1 (30 + 2 * w.val) rfl (by omega)
    have hquota := hquotas w
    simp only [quotaOk, Bool.and_eq_true, decide_eq_true_eq] at hquota
    rw [quotaAt, hres.read1 (by omega), hceil.read1 (by omega)]

/-- R192: every field of the image names its value again. -/
theorem imageParams_of_fields {q : Params} {m : List Byte} (f : ImageFields q m) : imageParams m = some q := by
  have hrate : toLinkRate (linkRateCode q.linkRate) = some q.linkRate := by cases q.linkRate <;> rfl
  have hhandling : toFlag q.stockHandling.toNat = some q.stockHandling := by cases q.stockHandling <;> rfl
  have hall : allWindows.all (fun w => (pairIn m w).isSome) = true :=
    List.all_eq_true.mpr fun w _ => by rw [f.pairs w]; rfl
  have hpairs : (Vector.ofFn fun w => (pairIn m w).getD { primary := 0, alternate := none }) = q.pairs := by
    refine Vector.ext fun i hi => ?_
    simp only [Vector.getElem_ofFn, f.pairs]
    rfl
  have hquotas : Vector.ofFn (quotaAt m) = q.quotas := by
    refine Vector.ext fun i hi => ?_
    simp only [Vector.getElem_ofFn, f.quotas]
    rfl
  simp only [imageParams, f.rate, f.stockHandling, hrate, hhandling, f.windowsHigh, hall, hpairs, hquotas, f.printers,
    f.windows, f.floors, f.rates, f.refundLimit, f.voidWindow, f.authTime, f.stockLow, BitVec.ofNat_toNat,
    BitVec.setWidth_eq, and_self, if_true]

theorem imageOf_length (q : Params) : (imageOf q).length = 81 := by
  rw [imageOf, List.length_append, imageBytes_length]
  rfl

/-- R192: the check byte makes the sum 0. -/
theorem imageOf_sum (q : Params) : sumBytes (imageOf q) = 0 := by
  rw [imageOf, sumBytes_append]
  show sumBytes (imageBytes q) + (-(sumBytes (imageBytes q)) + 0#8) = 0#8
  rw [BitVec.add_zero, BitVec.add_right_neg]

/-- Settles O34. -/
theorem imageReadsBack : Obligations.ImageReadsBack := by
  intro q tail hq
  refine ⟨imageOf_length q, imageOf_sum q, ?_⟩
  have hstands : StandsAt (imageOf q ++ tail) 0 (imageBytes q) := by
    refine ⟨[-(sumBytes (imageBytes q))] ++ tail, ?_⟩
    rw [imageOf, List.append_assoc]
    rfl
  have hfields := imageFields hq hstands
  have htake : (imageOf q ++ tail).take imageSize = imageOf q := List.take_left' (imageOf_length q)
  have hpasses : imageSize ≤ (imageOf q ++ tail).length ∧ byteAt (imageOf q ++ tail) 0 = 3
      ∧ sumBytes ((imageOf q ++ tail).take imageSize) = 0 := by
    refine ⟨?_, hfields.format, by rw [htake, imageOf_sum]⟩
    rw [List.length_append, imageOf_length]
    exact Nat.le_add_right 81 _
  rw [readImage, if_pos hpasses, imageParams_of_fields hfields]
  simp [hq]

end Sys2Proof.Machine
end

