-- ==== Sys2Proof/Proofs/ParameterRequests.lean ====
section
/-! SET PARAMETER, SAVE PARAMETERS and the end of its write (R190 to R195). -/

namespace Sys2Proof.Machine

/-! ### SET PARAMETER (R195) -/

theorem countUsed_pos {α : Type} {n : Nat} {v : Vector (Option α) n} (h : ∃ i, look v i ≠ none) : 0 < countUsed v := by
  obtain ⟨i, hi⟩ := h
  exact List.countP_pos_iff.mpr ⟨i, List.mem_finRange i, Option.isSome_iff_ne_none.mpr hi⟩

theorem changeBarred_of_free {c : ParamChange} {s : State}
    (h : ∀ w r x, c = .quota w r x → s.mode = .night ∧ ∀ j, s.job j = none) : changeBarred c s = false := by
  cases c with
  | quota w r x =>
    obtain ⟨hmode, hjobs⟩ := h w r x rfl
    simp [changeBarred, hmode, countUsed_none hjobs]
  | _ => rfl

theorem changeBarred_quota {w r x : Nat} {s : State} (h : s.mode = .opened ∨ ∃ j, s.job j ≠ none) :
    changeBarred (.quota w r x) s = true := by
  obtain hmode | hjobs := h
  · simp [changeBarred, hmode]
  · simp only [changeBarred, Bool.or_eq_true, decide_eq_true_eq]
    exact .inr (countUsed_pos hjobs)

/-! ### The end of a write (R194) -/

/-- The memory holds the bytes of an image. -/
theorem memoryTakes_iff {s : State} : s.memoryTakes = true ↔ ∃ m, s.memory = some m ∧ 81 ≤ m.length := by
  cases hm : s.memory with
  | none => simp [State.memoryTakes, hm]
  | some m =>
    simp only [State.memoryTakes, hm, decide_eq_true_eq, Option.some.injEq, exists_eq_left']
    rfl

section
variable {image : List Byte} {good : Bool} {s : State}

/-- R194: a write ends well when the memory takes the image. -/
theorem endSave_well {m : List Byte} (hsave : s.save = some image) (hgood : good = true) (hm : s.memory = some m)
    (hroom : 81 ≤ m.length) : endSave good s
      = finishHand .save .done .none { s with save := none, memory := some (image ++ m.drop 81) } := by
  have htakes : s.memoryTakes = true := memoryTakes_iff.mpr ⟨m, hm, hroom⟩
  simp only [endSave, hsave, hgood, htakes, writeImage, hm]
  rfl

theorem endSave_badly (hsave : s.save = some image) (hbad : good = false ∨ ∀ m, s.memory = some m → m.length < 81) :
    endSave good s = finishHand .save .noResponse .none (cutSave s) := by
  have hnot : ¬ ((good && s.memoryTakes) = true) := by
    rw [Bool.and_eq_true, memoryTakes_iff]
    rintro ⟨hgood, m, hm, hroom⟩
    obtain hfalse | hshort := hbad
    · exact absurd (hgood.symm.trans hfalse) nofun
    · have := hshort m hm
      omega
  simp only [endSave, hsave, if_neg hnot]

end

/-- Settles O35. -/
theorem setAndSaveParameters : Obligations.SetAndSaveParameters := by
  intro h rest s
  refine ⟨fun c ha => ⟨fun new old hmade => ⟨fun hfree => ?_, fun w r x hquota hbusy => ?_⟩, fun hnone => ?_⟩, fun ha => ?_,
    fun good image hand hlive hsave hhand hop hbroken hothers =>
      ⟨fun m hgood hm hroom => ?_, fun hbad => ?_⟩⟩
  · obtain ⟨hok, rfl, rfl⟩ := (changeMade_iff ..).mp hmade
    have hact : setParameterAct c (taken .sup rest s)
        = .done { taken .sup rest s with params := changed s.params c } (.parameter (replacedBy s.params c)) := by
      simp [setParameterAct, hok, changeBarred_of_free (s := taken .sup rest s) hfree]
    exact request_done (notes := []) ha hact fun q => rfl
  · obtain ⟨hok, -, -⟩ := (changeMade_iff ..).mp hmade
    subst hquota
    have hact : setParameterAct (.quota w r x) (taken .sup rest s) = .refuse .busy := by
      simp [setParameterAct, hok, changeBarred_quota (s := taken .sup rest s) hbusy]
    exact request_refused ha hact
  · have hbad : changeOk c = false := Bool.eq_false_iff.mpr fun hok =>
      hnone _ _ ((changeMade_iff ..).mpr ⟨hok, rfl, rfl⟩)
    exact request_refused ha (by simp [blockAct, setParameterAct, hbad])
  · obtain ⟨hport, hsame, hframe⟩ := putInHand_taken (p := .sup) (rest := rest) (s := s)
      (u := { taken .sup rest s with save := some (imageOf s.params) }) h 0x35 .save rfl
    exact ⟨_, request_deferred ha rfl, hport, hsame, hframe⟩
  · obtain ⟨v, hframe, hport, hsame⟩ := finishHand_one (op := .save) (rc := .done) (res := .none)
      (t := { s with save := none, memory := some (image ++ m.drop 81) }) hhand hop hbroken
      fun r x hr hx => hothers r hr x hx
    refine ⟨_, rfl, ?_⟩
    rw [whenLive, if_pos hlive, endSave_well hsave hgood hm hroom]
    refine ⟨hport, hsame, ?_⟩
    rw [hframe]
  · obtain ⟨memory, i, hcut, -, htorn⟩ := cutSave_eq s
    obtain ⟨v, hframe, hport, hsame⟩ := finishHand_one (op := .save) (rc := .noResponse) (res := .none)
      (t := { s with save := none, memory := memory, freeIndex := i }) hhand hop hbroken
      fun r x hr hx => hothers r hr x hx
    refine ⟨_, rfl, ?_⟩
    rw [whenLive, if_pos hlive, endSave_badly hsave hbad, hcut]
    refine ⟨hport, hsame, ?_, ?_⟩
    · rw [hframe]
    · rw [hframe]
      exact htorn image hsave

end Sys2Proof.Machine
end

