-- ==== Sys2Proof/Proofs/FaultedStays.lean ====
section
/-! A FAULTED printer stays FAULTED through a STOP fault and the diversions and start checks that follow it (R37, R42,
R71): what a printer was FAULTED for is left by an acknowledgement alone. -/

namespace Sys2Proof.Machine

/-- A printer that is FAULTED is FAULTED afterwards. -/
structure StaysFaulted (q : PrinterId) (s t : State) : Prop where
  stays : (s.printer q).state = .faulted → (t.printer q).state = .faulted

section
variable {q : PrinterId} {s t u : State}

theorem StaysFaulted.refl (s : State) : StaysFaulted q s s := ⟨id⟩

theorem StaysFaulted.trans (h : StaysFaulted q s t) (k : StaysFaulted q t u) : StaysFaulted q s u :=
  ⟨fun hs => k.stays (h.stays hs)⟩

theorem StaysFaulted.of_printers (h : t.printers = s.printers) : StaysFaulted q s t := by
  refine ⟨fun hs => ?_⟩
  rw [State.printer, h]
  exact hs

/-- One printer's record was written anew, FAULTED where it was. -/
theorem StaysFaulted.of_put {p : PrinterId} {c : Printer} (h : t.printers = put s.printers p c)
    (hc : (s.printer p).state = .faulted → c.state = .faulted) : StaysFaulted q s t := by
  refine ⟨fun hs => ?_⟩
  rw [State.printer, h, look_put]
  split
  next hp => exact hc (hp ▸ hs)
  next => exact hs

theorem StaysFaulted.ite {c : Prop} [Decidable c] (h : c → StaysFaulted q s t) (k : ¬c → StaysFaulted q s u) :
    StaysFaulted q s (if c then t else u) := by
  split
  next hc => exact h hc
  next hc => exact k hc

end

variable (q : PrinterId)

theorem staysFaulted_foldl {α : Type} (f : State → α → State) (h : ∀ s a, StaysFaulted q s (f s a)) (l : List α) (s : State) :
    StaysFaulted q s (l.foldl f s) := by
  induction l generalizing s with
  | nil => exact .refl s
  | cons a l ih => exact (h s a).trans (ih _)

/-! ### What leaves the printers as they are -/

theorem notify_printers_same (p : Port) (n : Notice) (s : State) : (notify p n s).printers = s.printers := by
  rw [notify_portsOnly]

theorem notifyAll_printers_same (ps : List Port) (n : Notice) (s : State) : (notifyAll ps n s).printers = s.printers := by
  obtain ⟨v, hv⟩ := notifyAll_eq ps n s
  rw [hv]

theorem raise_printers_same (k : FaultKind) (p : Option PrinterId) (d : Option Nat) (s : State) :
    (raise k p d s).printers = s.printers := by
  obtain ⟨v, f, c, o, r, n, h⟩ := raise_eq k p d s
  rw [h]

theorem testFull_printers (s : State) : (testFull s).printers = s.printers := by
  unfold testFull
  split
  · split
    · split
      · exact notify_printers_same ..
      · rfl
    · rfl
  · rfl

theorem reportWait_printers (s : State) : (reportWait s).printers = s.printers := by
  unfold reportWait
  split
  · exact raise_printers_same ..
  · split
    · exact raise_printers_same ..
    · rfl

theorem movePack_printers (i : PackIx) (f : Pack → Pack) (s : State) : (movePack i f s).printers = s.printers := by
  unfold movePack
  split
  · split
    · unfold stockLowAfter
      split
      · dsimp only
        split
        · exact raise_printers_same ..
        · rfl
      · rfl
    · rfl
  · rfl

theorem countSpoil_printers (e : SpoilEntry) (s : State) : (countSpoil e s).printers = s.printers := by
  have hfault : ∀ n o (t : State), (chargeFault n o t).printers = t.printers := fun n o t => by cases o <;> rfl
  have hsession : ∀ c n o (t : State), (chargeSession c n o t).printers = t.printers := by
    intro c n o t
    unfold chargeSession
    split
    · rfl
    · split
      · rfl
      · split
        · rfl
        · cases c <;> rfl
  rw [countSpoil, hfault, hsession]
  rfl

theorem markUnlisted_printers (p : PrinterId) (s : State) : (markUnlisted p s).printers = s.printers := by
  unfold markUnlisted
  split <;> rfl

theorem listUnreserved_printers (p : PrinterId) (e : SpoilEntry) (s : State) :
    (listUnreserved p e s).printers = s.printers := by
  unfold listUnreserved
  split
  · rfl
  · exact markUnlisted_printers ..

theorem jobLeft_printers (n : Nat) (s : State) : (jobLeft n s).printers = s.printers := by
  unfold jobLeft
  split
  · rfl
  · split
    · rfl
    · split
      · unfold enterCounting
        split
        · rfl
        · exact notifyAll_printers_same ..
      · rfl

theorem freeJob_printers (j : JobNo) (s : State) : (freeJob j s).printers = s.printers := by
  unfold freeJob
  split
  · rfl
  · dsimp only
    split
    · exact jobLeft_printers ..
    · rfl

theorem finishHand_printers (op : HandOp) (rc : ResultCode) (res : Results) (s : State) :
    (finishHand op rc res s).printers = s.printers := by
  have hport : ∀ p (t : State), (finishPort op rc res p t).printers = t.printers := by
    intro p t
    unfold finishPort
    split
    · split
      · dsimp only
        split <;> rfl
      · rfl
    · rfl
  unfold finishHand
  generalize allPorts = l
  induction l generalizing s with
  | nil => rfl
  | cons p l ih => exact (ih _).trans (hport p s)

theorem failLoad_printers (p : PrinterId) (rc : ResultCode) (res : Results) (s : State) :
    (failLoad p rc res s).printers = s.printers := by
  unfold failLoad
  rw [finishHand_printers]
  split <;> rfl

/-! ### What leaves a FAULTED printer FAULTED -/

theorem staysFaulted_clearWaiting (p : PrinterId) (s : State) : StaysFaulted q s (clearWaiting p s) :=
  .ite (fun _ => .of_put (testFull_printers _) id) fun _ => .refl s

theorem staysFaulted_beginWait (p : PrinterId) (s : State) : StaysFaulted q s (beginWait p s) :=
  .ite (fun _ => .refl s) fun _ => .of_put (reportWait_printers _) id

theorem staysFaulted_spoilAt (p : PrinterId) (e : SpoilEntry) (s : State) : StaysFaulted q s (spoilAt p e s) := by
  refine StaysFaulted.trans (t := listAt p e s) ?_ (.of_printers (countSpoil_printers ..))
  unfold listAt
  split
  · exact .ite (fun _ => .of_put (testFull_printers _) id) fun _ => .of_printers (listUnreserved_printers ..)
  · exact .of_printers (listUnreserved_printers ..)

theorem staysFaulted_spoilRuns (p : PrinterId) (n f : Option Nat) (runs : List (Nat × Nat)) (s : State) :
    StaysFaulted q s (spoilRuns p n f runs s) := staysFaulted_foldl q _ (fun _ _ => staysFaulted_spoilAt q ..) runs s

theorem staysFaulted_abandonAttempt (p : PrinterId) (j : JobNo) (n : Nat) (s : State) :
    StaysFaulted q s (abandonAttempt p j n s) := by
  unfold abandonAttempt
  dsimp only
  split
  · split
    · exact (staysFaulted_spoilRuns q ..).trans (.of_printers (movePack_printers ..))
    · exact .of_printers rfl
  · exact .of_printers rfl

theorem staysFaulted_settleAbandoned (p : PrinterId) (j : JobNo) (n : Nat) (s : State) :
    StaysFaulted q s (settleAbandoned p j n s).1 := by
  unfold settleAbandoned
  split
  · exact .refl s
  · split
    · exact .of_printers ((freeJob_printers ..).trans (notify_printers_same ..))
    · split
      · exact .of_printers ((freeJob_printers ..).trans (notify_printers_same ..))
      · exact .of_put rfl id

theorem staysFaulted_abandonJob (p : PrinterId) (n : Nat) (s : State) : StaysFaulted q s (abandonJob p n s).1 := by
  unfold abandonJob
  split
  · exact .refl s
  next j _ =>
    have hout : StaysFaulted q s (s.modPrinter p fun c => { c with job := none }) := .of_put rfl id
    exact hout.trans ((staysFaulted_abandonAttempt q ..).trans (staysFaulted_settleAbandoned q ..))

theorem staysFaulted_moveJob (p r : PrinterId) (j : JobNo) (x : Job) (b : Bool) (s : State) :
    StaysFaulted q s (moveJob p r j x b s) := by
  have hleaves : StaysFaulted q s (s.modPrinter p fun c => { c with queue := c.queue.filter fun y => y != j }) :=
    .of_put rfl id
  exact hleaves.trans (.of_put (notify_printers_same ..) id)

theorem staysFaulted_divertOne (p : PrinterId) (o : Option JobNo) (st : State × List PrinterId) (j : JobNo) :
    StaysFaulted q st.1 (divertOne p o st j).1 := by
  have hheld : ∀ x, StaysFaulted q st.1 (heldJob p j x st.1) := fun x => .of_printers (notify_printers_same ..)
  unfold divertOne
  split
  · exact .refl _
  · split
    · exact .refl _
    · split
      · exact hheld _
      · split
        · split
          · exact staysFaulted_moveJob q ..
          · exact hheld _
        · exact hheld _

/-- R71: a diversion, with start checks that leave the printer FAULTED. -/
theorem staysFaulted_divert {start : PrinterId → State → State} (hstart : ∀ p s, StaysFaulted q s (start p s))
    (p : PrinterId) (o : Option JobNo) (s : State) : StaysFaulted q s (divert start p o s) := by
  have hjobs : ∀ (l : List JobNo) (st : State × List PrinterId),
      StaysFaulted q st.1 (l.foldl (divertOne p o) st).1 := by
    intro l
    induction l with
    | nil => exact fun st => .refl _
    | cons j l ih => exact fun st => (staysFaulted_divertOne q p o st j).trans (ih _)
  exact (hjobs _ (s, [])).trans (staysFaulted_foldl q _ (fun t r => hstart r t) _ _)

theorem staysFaulted_quiet (p : PrinterId) (s : State) : StaysFaulted q s (quiet p s) := by
  have hstops : StaysFaulted q s (s.modPrinter p fun c => { c with
      couponTimer := false, senseTimer := false, command := .none, unconfirmed := false, outstanding := none,
      declined := 0 }) := .of_put rfl id
  exact hstops.trans (staysFaulted_clearWaiting q ..)

theorem staysFaulted_endSenseByFault (p : PrinterId) (k : FaultKind) (s : State) :
    StaysFaulted q s (endSenseByFault p k s) :=
  .ite (fun _ => .of_put (failLoad_printers ..) id) fun _ => .of_put rfl id

/-- Steps 1 to 3 of R37. -/
theorem staysFaulted_stopped (p : PrinterId) (k : FaultKind) (d : Option Nat) (s : State) :
    StaysFaulted q s (endSenseByFault p k (quiet p (raise k (some p) d s))) :=
  (StaysFaulted.of_printers (raise_printers_same ..)).trans
    ((staysFaulted_quiet q ..).trans (staysFaulted_endSenseByFault q ..))

/-- Steps 5 and 6 of R37. -/
theorem staysFaulted_abandonment {start : PrinterId → State → State} (hstart : ∀ p s, StaysFaulted q s (start p s))
    (p : PrinterId) (n : Nat) (s : State) :
    StaysFaulted q s (divert start p (abandonJob p n s).2 (abandonJob p n s).1) :=
  (staysFaulted_abandonJob q ..).trans (staysFaulted_divert q hstart ..)

theorem staysFaulted_stopFaultWith {start : PrinterId → State → State} (hstart : ∀ p s, StaysFaulted q s (start p s))
    (p : PrinterId) (k : FaultKind) (d : Option Nat) (s : State) : StaysFaulted q s (stopFaultWith start p k d s) := by
  refine .ite (fun _ => .refl s) fun _ => .ite (fun _ => staysFaulted_stopped q ..) fun _ => ?_
  have hstate : ∀ t : State, StaysFaulted q t (t.modPrinter p fun c => { c with state := .faulted }) :=
    fun t => .of_put rfl fun _ => rfl
  exact (staysFaulted_stopped q ..).trans ((hstate _).trans (staysFaulted_abandonment q hstart ..))

/-- R63: a job starts at a READY printer, which is not FAULTED. -/
theorem staysFaulted_startJob (p : PrinterId) (j : JobNo) (rest : List JobNo) {s : State}
    (h : (s.printer p).state = .ready) : StaysFaulted q s (startJob p j rest s) := by
  have hprints : StaysFaulted q s (s.modPrinter p fun c =>
      { c with queue := rest, job := some j, state := .printing, command := .print 1 }) :=
    .of_put rfl fun hf => absurd (h.symm.trans hf) nofun
  exact hprints.trans ((staysFaulted_clearWaiting q ..).trans (.of_printers rfl))

theorem staysFaulted_startOnce {start : PrinterId → State → State} (hstart : ∀ p s, StaysFaulted q s (start p s))
    (p : PrinterId) (s : State) : StaysFaulted q s (startOnce start p s) := by
  refine .ite (fun hready => ?_) fun _ => .refl s
  split
  · exact .refl s
  · split
    · refine .ite (fun _ => staysFaulted_stopFaultWith q hstart ..) fun _ => .ite (fun _ => ?_) fun _ =>
        .ite (fun _ => ?_) fun _ => staysFaulted_beginWait q ..
      · exact staysFaulted_startJob q _ _ _ hready
      · have htaken : StaysFaulted q s (takeAllowance p s) := .of_put rfl id
        refine htaken.trans (staysFaulted_startJob q _ _ _ ?_)
        rw [takeAllowance, State.printer_modPrinter_same]
        exact hready
    · exact .refl s

theorem staysFaulted_startCheckFuel (n : Nat) (p : PrinterId) (s : State) : StaysFaulted q s (startCheckFuel n p s) := by
  induction n generalizing p s with
  | zero => exact .refl s
  | succ n ih => exact staysFaulted_startOnce q ih p s

/-- R37: a STOP fault leaves its printer FAULTED. -/
theorem stopFault_faulted {s : State} (h : (s.printer q).state ≠ .absent) (k : FaultKind) (d : Option Nat) :
    ((stopFault q k d s).printer q).state = .faulted := by
  have hstart : ∀ p t, StaysFaulted q t (startCheck p t) := staysFaulted_startCheckFuel q 9
  unfold stopFault stopFaultWith
  rw [if_neg h]
  dsimp only
  split
  next hwas => exact (staysFaulted_stopped q q k d s).stays hwas
  next =>
    refine (staysFaulted_abandonment q hstart q _ _).stays ?_
    rw [State.printer_modPrinter_same]

end Sys2Proof.Machine
end

