-- ==== Sys2Proof/Proofs/ArbiterTurn.lean ====
section
/-! The arbiter's turn (R18, R26): the printer served, and what its exchange carries. -/

namespace Sys2Proof.Machine

/-! ### The round robin (R26) -/

/-- The four addresses in the order they are served after position `p`: the one `k` places on is `p + 1 + k`. -/
theorem roundRobin_order : ∀ p n : Fin 4, [p + 1, p + 2, p + 3, p][(n - (p + 1)).val]? = some n := by decide

theorem roundRobin_place : ∀ p : Fin 4, ∀ k : Fin 4, ∀ m : Fin 4,
    [p + 1, p + 2, p + 3, p][k.val]? = some m → m - (p + 1) = k := by decide

/-- The first address that satisfies `f`, when none before it in the order does. -/
theorem roundRobin_first {p n : Fin 4} {f : Fin 4 → Bool} (hn : f n = true)
    (hbefore : ∀ m, m - (p + 1) < n - (p + 1) → f m = false) : [p + 1, p + 2, p + 3, p].find? f = some n := by
  rw [List.find?_eq_some_iff_getElem]
  have horder := roundRobin_order p n
  obtain ⟨hlt, hget⟩ := List.getElem?_eq_some_iff.mp horder
  refine ⟨hn, (n - (p + 1)).val, hlt, hget, fun j hj => ?_⟩
  have hj4 : j < 4 := hj.trans (n - (p + 1)).isLt
  have hplace := roundRobin_place p ⟨j, hj4⟩ _ (List.getElem?_eq_getElem (hj.trans hlt))
  rw [hbefore _ (by rw [hplace]; exact hj)]
  rfl

/-- R26, R32: whose turn it is at a line that is neither breaking nor in an exchange. -/
theorem turn_eq {l : Line} {s : State} {n : Fin 4} (hbreak : (s.line l).breaking = false)
    (hexchange : (s.line l).exchange = none) (hpresent : (s.printer (printerAt l n)).state ≠ .absent)
    (hbefore : ∀ m : Fin 4, m - ((s.line l).position + 1) < n - ((s.line l).position + 1) →
      (s.printer (printerAt l m)).state = .absent) : s.turn l = some (n, printerAt l n) := by
  have hnext : s.nextAddress l = some n := by
    refine roundRobin_first (f := fun m => s.answersAt l m) ?_ fun m hm => ?_
    · simpa [State.answersAt] using hpresent
    · simpa [State.answersAt] using hbefore m hm
  simp [State.turn, hbreak, hexchange, hnext]

/-! ### The exchange (R18, R26) -/

section
variable {l : Line} {s : State} {n : Fin 4} {q : PrinterId}

theorem plainTurn_begins {c : Sent} (hturn : s.turn l = some (n, q)) (hc : commandFor (s.printer q) = c) :
    plainTurn l c s = beginExchange l n q c s := by
  simp [plainTurn, hturn, hc]

variable {k : Nat} {x : Job} {pk : Pack}

theorem commandFor_print {c : Printer} (hconfirmed : c.unconfirmed = false) (hcommand : c.command = .print k) :
    commandFor c = .print k := by
  simp [commandFor, hconfirmed, hcommand]

/-- R18: a PRINT that the pack's blanks cover goes. -/
theorem printTurn_covered (hturn : s.turn l = some (n, q)) (hc : commandFor (s.printer q) = .print k)
    (hx : s.jobInPrint q = some x) (hpk : s.loadedPack q = some pk) (hcovered : x.coupons + 1 - k ≤ pk.remaining) :
    printTurn l s = beginExchange l n q (.print k) s := by
  have hblanks : lacksBlanks x pk k = false := decide_eq_false (by omega)
  simp [printTurn, hturn, hc, hx, hpk, hblanks]

/-- R18: in place of one that they do not cover, STOCK_OUT is raised and a POLL goes. -/
theorem printTurn_lacking (hturn : s.turn l = some (n, q)) (hc : commandFor (s.printer q) = .print k)
    (hx : s.jobInPrint q = some x) (hpk : s.loadedPack q = some pk) (hlacks : pk.remaining < x.coupons + 1 - k) :
    printTurn l s = beginExchange l n q .poll (stopFault q .stockOut (some pk.remaining) s) := by
  have hblanks : lacksBlanks x pk k = true := decide_eq_true hlacks
  simp [printTurn, hturn, hc, hx, hpk, hblanks]

end

theorem setLine_printers_jobs (l : Line) (e : LineEngine) (u : State) (v : Vector PortState 13)
    (jobs : Vector (Option Job) 64) (printers : Vector Printer 8) :
    ({ u with ports := v, jobs := jobs, printers := printers } : State).setLine l e
      = { u.setLine l e with ports := v, jobs := jobs, printers := printers } := by cases l <;> rfl

/-- Settles O52. -/
theorem arbiterTurns : Obligations.ArbiterTurns := by
  intro l s n q hlive hbreak hexchange hq hpresent hbefore
  subst hq
  have hturn := turn_eq hbreak hexchange hpresent hbefore
  have hrun : ∀ f : State → State, whenLive f s = f s := fun f => if_pos hlive
  refine ⟨fun hpoll => ?_, fun hconfirmed hcommand => ?_, fun k x pk hconfirmed hcommand hx hpk => ?_⟩
  · have hc : commandFor (s.printer (printerAt l n)) = .poll := by
      unfold commandFor
      obtain hunconfirmed | hnone := hpoll
      · rw [if_pos hunconfirmed]
      · simp [hnone]
    exact ⟨_, rfl, (hrun _).trans (plainTurn_begins hturn hc)⟩
  · have hc : commandFor (s.printer (printerAt l n)) = .sense := by simp [commandFor, hconfirmed, hcommand]
    exact ⟨_, rfl, (hrun _).trans (plainTurn_begins hturn hc)⟩
  · have hc := commandFor_print hconfirmed hcommand
    refine ⟨fun hcovered => ⟨_, rfl, ?_⟩, fun hlacks => ⟨_, rfl, ?_⟩,
      fun j hlacks hj hprinting hqueue hsense hwaiting hgood hurgent hdiverted hrestarts hprint hsession hnodup _ hroom =>
        ⟨_, rfl, ?_⟩⟩
    · rw [hrun, printTurn_covered hturn hc hx hpk hcovered, ← hx]
      rfl
    · rw [hrun, printTurn_lacking hturn hc hx hpk hlacks]
      refine ⟨?_, State.line_setLine_same ..⟩
      rw [beginExchange, State.printer_setLine]
      exact stopFault_faulted _ hpresent ..
    · have hxj : s.job j = some x := by
        rw [State.jobInPrint, hj] at hx
        exact hx
      have hpacks : ∀ i p, s.loadedAt (printerAt l n) = some i → s.pack i = some p → p.inPrint = [] := by
        intro i p hi hp
        rw [State.loadedPack, hi, Option.bind_some, hp] at hpk
        cases hpk
        exact hprint
      obtain ⟨v, hstop, htold⟩ := stopFault_holds s (printerAt l n) .stockOut (some pk.remaining) rfl _ j x rfl hj hxj
        hprinting hqueue hsense hwaiting hurgent hdiverted hrestarts hpacks hsession hnodup hroom
      rw [hrun, printTurn_lacking hturn hc hx hpk hlacks]
      refine ⟨?_, fun r => ?_⟩
      · rw [beginExchange, hstop, setLine_printers_jobs]
        cases l <;> rfl
      · rw [beginExchange, State.port_setLine]
        exact htold r

end Sys2Proof.Machine
end

