-- ==== Sys2Proof/Proofs/PrinterStatus.lean ====
section
/-! What a STATUS response does (R27, R28, R30, R31, R37). -/

namespace Sys2Proof.Machine

/-! ### An exchange that is over -/

section
variable (l : Line) (s : State)

@[simp] theorem printer_exchangeOver (q : PrinterId) : (exchangeOver l s).printer q = s.printer q :=
  State.printer_setLine ..

theorem exchangeOver_setPrinter (q : PrinterId) (c : Printer) :
    exchangeOver l (s.setPrinter q c) = (exchangeOver l s).setPrinter q c := by cases l <;> rfl

/-- The end of an exchange and a raise come to the same in either order. -/
theorem raise_exchangeOver (k : FaultKind) (p : Option PrinterId) (d : Option Nat) :
    raise k p d (exchangeOver l s) = exchangeOver l (raise k p d s) := by
  cases l
  · exact (raise_lines k p d s { s.lineA with exchange := none } s.lineB).trans (by
      obtain ⟨v, f, c, o, r, n, h⟩ := raise_eq k p d s
      rw [h]
      rfl)
  · exact (raise_lines k p d s s.lineA { s.lineB with exchange := none }).trans (by
      obtain ⟨v, f, c, o, r, n, h⟩ := raise_eq k p d s
      rw [h]
      rfl)

end

section
variable {s : State} {q : PrinterId} {c : Printer}

/-- A raise at a printer reads nothing of its record but which job is in print. -/
theorem raise_setPrinter (k : FaultKind) (d : Option Nat) (hjob : c.job = (s.printer q).job) :
    raise k (some q) d (s.setPrinter q c) = (raise k (some q) d s).setPrinter q c := by
  have hsame : raiseJob (some q) (s.setPrinter q c) = raiseJob (some q) s := by
    simp only [raiseJob, Option.bind_some, State.jobInPrint, State.printer_setPrinter_same, hjob]
    rfl
  refine (raise_printers k (some q) d s (put s.printers q c) hsame).trans ?_
  rw [State.setPrinter, raise_printers_same]

/-- R37: a STOP fault on a printer with no job to abandon or to divert, in no load and waiting on no space. -/
theorem stopFault_resting (k : FaultKind) (d : Option Nat) (hc : s.printer q = c) (hpresent : c.state ≠ .absent)
    (hidle : c.state = .faulted ∨ c.job = none ∧ c.queue = []) (hsense : c.sense ≠ .load) (hwaiting : c.waiting = false) :
    stopFault q k d s = (raise k (some q) d s).setPrinter q { c.stopped with sense := .none, state := .faulted } := by
  obtain ⟨r, hr⟩ : ∃ r, r = raise k (some q) d s := ⟨_, rfl⟩
  have hrq : r.printer q = c := by rw [hr, raise_printer, hc]
  have hquiet : quiet q r = r.setPrinter q c.stopped := by
    simp [quiet, clearWaiting, State.modPrinter, hrq, hwaiting, Printer.stopped]
  have hended : endSenseByFault q k (r.setPrinter q c.stopped) = r.setPrinter q { c.stopped with sense := .none } := by
    simp [endSenseByFault, State.modPrinter, setPrinter_setPrinter, hsense]
  unfold stopFault stopFaultWith
  rw [hc, if_neg hpresent, ← hr]
  dsimp only
  rw [hquiet, hended]
  split
  next hfaulted => rw [← hfaulted]
  next hnot =>
    obtain ⟨hjob, hqueue⟩ := hidle.resolve_left hnot
    rw [State.modPrinter, State.printer_setPrinter_same, setPrinter_setPrinter, abandonJob]
    simp only [State.printer_setPrinter_same, hjob]
    rw [divert_empty (by simpa using hqueue)]

end

/-! ### STATUS -/

section
variable {l : Line} {x : Exchange} {s : State}

theorem onExchange_some {f : Exchange → State → State} (h : (s.line l).exchange = some x) : onExchange l f s = f x s := by
  rw [onExchange, h]

/-- R27: the state in which a response is taken, from a printer that is neither in PROBE nor at three misses. -/
theorem goodResponse_answers (h : Answers l x s) :
    goodResponse l x.printer s = (exchangeOver l s).setPrinter x.printer { s.printer x.printer with misses := 0 } :=
  goodResponse_eq l s x.printer (.inl ⟨h.2.2.1, h.2.2.2⟩)

variable {q : PrinterId}

/-- R30: a printer that reported no fault, and is not in PROBE, goes on as it was. -/
theorem idleReported_none (hreported : (s.printer q).reported = none) (hprobe : (s.printer q).state ≠ .probe) :
    idleReported q s = s := by
  simp [idleReported, hreported, hprobe]

/-- A PRINT that stands unconfirmed is not taken to have reached a printer that answers a POLL with IDLE (R28). -/
abbrev Printer.confirmed (c : Printer) : Printer :=
  { c with unconfirmed := if c.command = .none ∨ c.command = .sense then c.unconfirmed else false }

theorem Printer.confirmed_print {c : Printer} {k : Nat} (h : c.command = .print k) :
    c.confirmed = { c with unconfirmed := false } := by simp [Printer.confirmed, h]

theorem Printer.confirmed_same {c : Printer} (h : (∀ k, c.command ≠ .print k) ∨ c.unconfirmed = false) :
    c.confirmed = c := by
  obtain h | h := h
  · cases hcommand : c.command with
    | print k => exact absurd hcommand (h k)
    | none => rw [Printer.confirmed, if_pos (.inl hcommand)]
    | sense => rw [Printer.confirmed, if_pos (.inr hcommand)]
  · rw [Printer.confirmed, h, ite_self, ← h]

theorem awaitsDecision_false {c : Printer} (hprobe : c.state ≠ .probe) : awaitsDecision c = false := by
  simp [awaitsDecision, hprobe]

theorem statusIdle_poll (hreported : (s.printer q).reported = none) (hprobe : (s.printer q).state ≠ .probe) :
    statusIdle q .poll s = s.setPrinter q (s.printer q).confirmed := by
  have hkeeps : ∀ c : Printer, c = s.printer q → s = s.setPrinter q c := by
    rintro c rfl
    rw [State.setPrinter, State.printer, put_look]
  unfold statusIdle
  rw [idleReported_none hreported hprobe]
  simp only [awaitsDecision_false hprobe]
  cases hcommand : (s.printer q).command with
  | print k =>
    cases hunconfirmed : (s.printer q).unconfirmed with
    | true => simp [Printer.confirmed_print hcommand, State.modPrinter]
    | false => exact hkeeps _ (Printer.confirmed_same (.inr hunconfirmed))
  | none => exact hkeeps _ (Printer.confirmed_same (.inl (by simp [hcommand])))
  | sense => exact hkeeps _ (Printer.confirmed_same (.inl (by simp [hcommand])))

end

/-- Settles O53, with the good response first and then each condition of the STATUS. -/
theorem statusDecides : Obligations.StatusDecides := by
  intro l x s q c hanswers hq hc
  subst hq
  obtain ⟨hlive, hexchange, _, hprobe⟩ := id hanswers
  have hgood := goodResponse_answers hanswers
  rw [← hc] at hgood
  have hcprobe : c.state ≠ .probe := by rw [hc]; exact hprobe
  obtain ⟨t, ht⟩ : ∃ t, t = (exchangeOver l s).setPrinter x.printer c := ⟨_, rfl⟩
  have htq : t.printer x.printer = c := by rw [ht, State.printer_setPrinter_same]
  have hset : ∀ d, t.setPrinter x.printer d = (exchangeOver l s).setPrinter x.printer d := fun d => by
    rw [ht, setPrinter_setPrinter]
  rw [← ht] at hgood
  have hrun : ∀ cond, whenLive (onExchange l (takeStatus l cond)) s = takeStatus l cond x s := fun cond =>
    (if_pos hlive).trans (onExchange_some hexchange)
  have hidle : c.reported = none → idleReported x.printer t = t := fun hreported =>
    idleReported_none (by rw [htq, hreported]) (by rw [htq]; exact hcprobe)
  refine ⟨fun k hsent hcommand => ⟨⟨_, rfl, ?_⟩, fun hreported hdeclined => ⟨_, rfl, ?_⟩⟩,
    fun hsent hcommand => ⟨_, rfl, ?_⟩, fun hsent hreported => ⟨_, rfl, ?_⟩,
    fun k hreported hfaulted hsense => ⟨_, rfl, ?_⟩,
    fun k hready hjob hqueue hsense hwaiting => ⟨_, rfl, ?_⟩⟩
  · rw [hrun, takeStatus, hgood]
    simp [statusBusy, hsent, htq, hcommand, couponBegins, State.modPrinter, hset]
  · rw [hrun, takeStatus, hgood]
    have hfew : ¬3 ≤ c.declined + 1 := by omega
    simp [statusIdle, hidle hreported, htq, awaitsDecision_false hcprobe, hsent, hcommand, declineOne, hfew,
      State.modPrinter, hset]
  · rw [hrun, takeStatus, hgood]
    simp [statusBusy, hsent, htq, hcommand, State.modPrinter, hset]
  · rw [hrun, takeStatus, hgood]
    rw [hsent, statusIdle_poll (by rw [htq, hreported]) (by rw [htq]; exact hcprobe), htq, hset]
  · rw [hrun, takeStatus, hgood]
    simp [statusFault, hreported, hfaulted, hsense, ht]
  · rw [hrun, takeStatus, hgood]
    have hnew : ¬(c.reported = some k ∧ c.state = .faulted ∧ c.sense = .none) := by simp [hready]
    have hstop := stopFault_resting (s := (exchangeOver l s).setPrinter x.printer { c with reported := some k })
      (ofPrinterKind k) none (State.printer_setPrinter_same ..) (by simp [hready]) (.inr ⟨hjob, hqueue⟩) (by simp [hsense])
      hwaiting
    have hraise := raise_setPrinter (s := exchangeOver l s) (q := x.printer) (c := { c with reported := some k })
      (ofPrinterKind k) none (by simp [hc])
    rw [hraise, setPrinter_setPrinter, raise_exchangeOver] at hstop
    simp only [statusFault, htq, if_neg hnew, State.modPrinter, hset]
    rw [hstop, hsense]

end Sys2Proof.Machine
end

