-- ==== Sys2Proof/Proofs/MissesAndTimers.lean ====
section
/-! Misses, the timers of the printers and the end of the restart break (R27 to R29, R31, R32, R37). -/

namespace Sys2Proof.Machine

/-! ### Misses (R27, R28) -/

section
variable {l : Line} {e : Exchange} {s : State}

/-- R28: what is known of the pending PRINT after an exchange that gave no answer. -/
theorem markUnconfirmed_eq (q : PrinterId) (c : Sent) (t : State) : markUnconfirmed q c t = t.setPrinter q
    { t.printer q with unconfirmed := (t.printer q).unconfirmed || c.isPending (t.printer q) } := by
  have hkeeps : ∀ b, (t.printer q).unconfirmed = b → t = t.setPrinter q { t.printer q with unconfirmed := b } := by
    rintro _ rfl
    exact (congrArg (fun v => { t with printers := v }) (put_look t.printers q)).symm
  cases c with
  | print k =>
    by_cases hpending : (t.printer q).command = .print k
    · simp [markUnconfirmed, Sent.isPending, hpending, State.modPrinter]
    · simp only [markUnconfirmed, if_neg hpending]
      exact hkeeps _ (by simp [Sent.isPending, hpending])
  | poll => exact hkeeps _ (by simp [Sent.isPending])
  | sense => exact hkeeps _ (by simp [Sent.isPending])

/-- R27: the first two misses in a row. -/
theorem countMiss_lineError {q : PrinterId} {t : State} {c : Printer} (hc : t.printer q = c) (hfew : c.misses < 2) :
    countMiss q t = (raise .lineError (some q) none t).setPrinter q { c with misses := c.misses + 1 } := by
  have h3 : c.misses < 3 := by omega
  have h2 : c.misses ≠ 2 := by omega
  simp only [countMiss, hc, if_pos h3, if_neg h2, State.modPrinter]
  exact raise_setPrinter _ _ (by rw [hc])

/-- R27: the third. -/
theorem countMiss_noResponse {q : PrinterId} {t : State} {c : Printer} (hc : t.printer q = c) (hmisses : c.misses = 2) :
    countMiss q t =
      stopFault q .noResponse none ((raise .lineError (some q) none t).setPrinter q { c with misses := 3 }) := by
  simp only [countMiss, hc, hmisses, State.modPrinter, Nat.reduceLT, if_true]
  rw [raise_setPrinter _ _ (by rw [hc])]

end

/-- Settles O57. -/
theorem missesCount : Obligations.MissesCount := by
  intro l e s q c i hlive hexchange hq hi hc
  subst hq
  have hrun : ∃ t, exec i s = .next t ∧ t = miss l e s := by
    refine ⟨_, ?_, rfl⟩
    obtain rfl | ⟨chars, rfl, hchars⟩ := hi
    · exact congrArg _ ((if_pos hlive).trans (onExchange_some hexchange))
    · refine congrArg _ ((if_pos hlive).trans ((onExchange_some hexchange).trans ?_))
      rw [takeChars, hchars]
  obtain ⟨t, hexec, ht⟩ := hrun
  obtain ⟨d, hd⟩ : ∃ d : Printer, d = { s.printer e.printer with
      unconfirmed := (s.printer e.printer).unconfirmed || e.command.isPending (s.printer e.printer) } := ⟨_, rfl⟩
  have hmarked : markUnconfirmed e.printer e.command (endExchange l s) = exchangeOver l (s.setPrinter e.printer d) := by
    refine (markUnconfirmed_eq ..).trans ?_
    rw [exchangeOver_setPrinter, hd, ← printer_exchangeOver l s]
    rfl
  have hdq : (exchangeOver l (s.setPrinter e.printer d)).printer e.printer = d := by
    rw [printer_exchangeOver, State.printer_setPrinter_same]
  have hcd : c = { d with misses := d.misses + 1 } := by rw [hc, hd]
  have hraised : raise .lineError (some e.printer) none (exchangeOver l (s.setPrinter e.printer d))
      = (exchangeOver l (raise .lineError (some e.printer) none s)).setPrinter e.printer d := by
    rw [raise_exchangeOver, raise_setPrinter _ _ (by rw [hd]), exchangeOver_setPrinter]
  refine ⟨fun hfew => ⟨t, hexec, ?_⟩, fun hmisses hpresent hrunning hjob hqueue hsense hwaiting => ⟨t, hexec, ?_⟩⟩
  · rw [ht, miss, hmarked, countMiss_lineError hdq (by rw [hd]; exact hfew), hraised, setPrinter_setPrinter, hcd]
  · have hd3 : { d with misses := 3 } = c := by rw [hcd, hd, hmisses]
    have hcjob : c.job = none := by rw [hc]; exact hjob
    rw [ht, miss, hmarked, countMiss_noResponse hdq (by rw [hd]; exact hmisses), hraised, setPrinter_setPrinter, hd3,
      stopFault_resting _ _ (State.printer_setPrinter_same ..) (by rw [hc]; exact hpresent)
        (.inr ⟨hcjob, by rw [hc]; exact hqueue⟩) (by rw [hc]; simp [hsense]) (by rw [hc]; exact hwaiting),
      raise_setPrinter _ _ (by rw [printer_exchangeOver, raise_printer, hc]), raise_exchangeOver, setPrinter_setPrinter]
    have hcsense : c.sense = .none := by rw [hc]; exact hsense
    rw [← hcsense]

/-! ### Timers and the restart break (R29, R31, R32) -/

/-- Settles O58. -/
theorem timersRunOut : Obligations.TimersRunOut := by
  intro q l s hlive
  have hrun : ∀ f : State → State, whenLive f s = f s := fun f => if_pos hlive
  refine ⟨fun j x htimer hprinting hjob hqueue hsense hwaiting hx _ hurgent hdiverted hrestarts hprint hsession hnodup _
    hroom => ?_, fun htimer hfaulted hsense hwaiting => ⟨_, rfl, ?_⟩, fun hbreaking => ⟨_, rfl, ?_⟩⟩
  · obtain ⟨v, hstop, htold⟩ := stopFault_holds s q .couponTimeout none rfl _ j x rfl hjob hx hprinting hqueue hsense
      hwaiting hurgent hdiverted hrestarts hprint hsession hnodup hroom
    have hexec : exec (.couponTimerExpiry q) s = .next (stopFault q .couponTimeout none s) :=
      congrArg _ ((hrun _).trans (if_pos htimer))
    refine ⟨_, hexec, ?_, htold⟩
    rw [hstop]
  · refine ((hrun _).trans (if_pos htimer)).trans ?_
    rw [stopFault_resting _ _ rfl (by simp [hfaulted]) (.inl hfaulted) (by simp [hsense]) hwaiting, ← hfaulted]
  · exact (hrun _).trans (if_pos hbreaking)

end Sys2Proof.Machine
end

