-- ==== Sys2Proof/Proofs/CouponReports.lean ====
section
/-! What a COUPON report does (R41, R64, R78, R79, R81, R86): a blank put in print, one spoiled PRINT_BAD, and a late
report. -/

namespace Sys2Proof.Machine

/-! ### One blank of a pack (R5, R17) -/

section
variable {s : State} {i : PackIx} {k : Pack}

/-- A movement that takes one blank, not to the stock-low threshold. -/
theorem movePack_oneBlank {f : Pack → Pack} (hk : s.pack i = some k) (hleft : k.next ≤ k.last) (hlow : NoStockLow k s)
    (hnext : (f k).next = k.next + 1) (hlast : (f k).last = k.last) : movePack i f s = s.setPack i (some (f k)) :=
  move_quiet f hk (stock_quiet hlow hleft hnext hlast rfl)

theorem movePack_takeCoupon (hk : s.pack i = some k) (hloaded : k.state = .loaded) (hleft : k.next ≤ k.last)
    (hlow : NoStockLow k s) : movePack i (takeCoupon k.next) s =
      s.setPack i (some { k with next := k.next + 1, inPrint := k.inPrint ++ [k.next] }) := by
  have htake : takeCoupon k.next k = { k with next := k.next + 1, inPrint := k.inPrint ++ [k.next] } :=
    if_pos (by simp [hloaded, hleft])
  rw [movePack_oneBlank hk hleft hlow (by rw [htake]) (by rw [htake]), htake]

theorem movePack_spoilNext (hk : s.pack i = some k) (hloaded : k.state = .loaded) (hleft : k.next ≤ k.last)
    (hlow : NoStockLow k s) : movePack i spoilNext s =
      s.setPack i (some { k with next := k.next + 1, spoiled := k.spoiled + 1 }) := by
  have hspoil : spoilNext k = { k with next := k.next + 1, spoiled := k.spoiled + 1 } :=
    if_pos (by simp [hloaded, hleft])
  rw [movePack_oneBlank hk hleft hlow (by rw [hspoil]) (by rw [hspoil]), hspoil]

end

/-! ### What a spoil counts (R93, R117, R128, R167) -/

section
variable {s : State} {c : SpoilCause} {n : Nat}

theorem chargeSession_addDay (o : Option Nat) (f : Summary → Summary) : chargeSession c n o (addDay f s) =
    { addDay f s with sessions := (chargeSession c n o s).sessions } := by
  unfold chargeSession
  rw [show o.bind (addDay f s).sessionOf = o.bind s.sessionOf from rfl]
  split
  · rfl
  next i _ =>
    rw [show (addDay f s).session i = s.session i from rfl]
    split
    · rfl
    · split
      · rfl
      · cases c <;> rfl

theorem chargeSession_none : chargeSession c n none s = s := rfl

/-- A session that no record holds is not charged. -/
theorem chargeSession_unheld {m : Nat} (h : s.sessionOf m = none) : chargeSession c n (some m) s = s := by
  simp [chargeSession, h]

theorem chargeSession_reconciled {m : Nat} {i : SessionIx} {x : Session} (hi : s.sessionOf m = some i)
    (hx : s.session i = some x) (hstate : x.state = .reconciled) : chargeSession c n (some m) s = s := by
  simp [chargeSession, hi, hx, hstate]

theorem chargeSession_printBad {m : Nat} {i : SessionIx} {x : Session} (hi : s.sessionOf m = some i)
    (hx : s.session i = some x) (hstate : x.state ≠ .reconciled) : chargeSession .printBad n (some m) s =
      s.setSession i (some { x with spoiltBad := min (x.spoiltBad + n) 65535 }) := by
  simp [chargeSession, hi, hx, hstate]
  rfl

theorem chargeSession_abandoned {m : Nat} {i : SessionIx} {x : Session} (hi : s.sessionOf m = some i)
    (hx : s.session i = some x) (hstate : x.state ≠ .reconciled) : chargeSession .abandoned n (some m) s =
      s.setSession i (some { x with spoiltAbandoned := min (x.spoiltAbandoned + n) 65535 }) := by
  simp [chargeSession, hi, hx, hstate]
  rfl

/-- The charge reads and writes the session table alone. -/
theorem chargeSession_sessions {a b : State} (o : Option Nat) (h : a.sessions = b.sessions) :
    (chargeSession c n o a).sessions = (chargeSession c n o b).sessions := by
  have hof : o.bind a.sessionOf = o.bind b.sessionOf := by
    have hsame : a.sessionOf = b.sessionOf := by
      funext m
      simp only [State.sessionOf, State.session, h]
    rw [hsame]
  unfold chargeSession
  rw [hof]
  split
  · exact h
  next i _ =>
    rw [show a.session i = b.session i by simp only [State.session, h]]
    cases b.session i with
    | none => exact h
    | some x =>
      dsimp only
      split
      · exact h
      · cases c <;> simp only [State.setSession, h]

theorem chargeFault_faults {a b : State} (o : Option Nat) (h : a.faults = b.faults) :
    (chargeFault n o a).faults = (chargeFault n o b).faults := by
  cases o
  · exact h
  · exact congrArg (List.map _) h

/-- What an entry counts: in its fault record, in its session and in the day. -/
theorem countSpoil_eq (e : SpoilEntry) (s : State) : countSpoil e s = { s with
    faults := (chargeFault e.count e.fault s).faults,
    sessions := (chargeSession e.cause e.count (s.chargedSession e) s).sessions,
    running := addSpoils e.cause e.count s.running,
    night := s.night || s.mode == .night } := by
  rw [countSpoil, chargeSession_addDay]
  cases e.fault <;> rfl

/-- R90, R91: an entry made within the printer's allowance, and what it counts. -/
theorem spoilAt_draws {t : State} {q : PrinterId} {e : SpoilEntry} {d : Nat} (ht : t = spoilAt q e s)
    (hd : (s.printer q).allowance = some d) (hd10 : d < 10) (hfull : NoFullRecord s) : t = { s with
      printers := put s.printers q { s.printer q with allowance := some (d + 1) },
      spoils := s.spoils ++ [e],
      faults := (chargeFault e.count e.fault s).faults,
      sessions := (chargeSession e.cause e.count (s.chargedSession e) s).sessions,
      running := addSpoils e.cause e.count s.running,
      night := s.night || s.mode == .night,
      freeReported := 256 - t.spoils.length - t.reserved } := by
  obtain ⟨free, hlist, hfree⟩ := listAt_draws hd hd10 hfull e
  have hcount : t = { s with
      printers := put s.printers q { s.printer q with allowance := some (d + 1) },
      spoils := s.spoils ++ [e],
      faults := (chargeFault e.count e.fault s).faults,
      sessions := (chargeSession e.cause e.count (s.chargedSession e) s).sessions,
      running := addSpoils e.cause e.count s.running,
      night := s.night || s.mode == .night,
      freeReported := free } := by
    obtain ⟨w, hw⟩ : ∃ w, w = listAt q e s := ⟨_, rfl⟩
    rw [hlist] at hw
    have hcharged : w.chargedSession e = s.chargedSession e := by rw [hw]; rfl
    have hsessions : w.sessions = s.sessions := by rw [hw]
    have hfaults : w.faults = s.faults := by rw [hw]
    rw [ht, spoilAt, hlist, ← hw, countSpoil_eq, hcharged, chargeSession_sessions _ hsessions, chargeFault_faults _ hfaults,
      hw]
  have hspoils : t.spoils.length = s.spoils.length + 1 := by rw [hcount]; simp
  have hreserved : t.reserved = (s.setPrinter q { s.printer q with allowance := some (d + 1) }).reserved := by
    rw [hcount]; rfl
  rw [hspoils, hreserved, ← hfree]
  exact hcount

end

/-! ### A COUPON response (R29, R41) -/

section
variable {l : Line} {e : Exchange} {s : State}

theorem exchangeOver_eq (l : Line) (s : State) : ∃ a b, exchangeOver l s = { s with lineA := a, lineB := b } := by
  cases l
  · exact ⟨_, _, rfl⟩
  · exact ⟨_, _, rfl⟩

/-- R29: the printer once the coupon outstanding is reported. -/
abbrev Printer.reportedOn (c : Printer) : Printer :=
  { c with misses := 0, couponTimer := false, outstanding := none, unconfirmed := false, command := .none, declined := 0 }

theorem couponReport_eq {w : State} {q : PrinterId} {k n : Nat} {good : Bool} {j : JobNo} {x : Job} {i : PackIx} {pk : Pack}
    (hj : (w.printer q).job = some j) (hx : w.job j = some x) (hi : w.loadedAt q = some i) (hpk : w.pack i = some pk) :
    couponReport q k n good w =
      accountReport { printer := q, pack := i, job := j, record := x, coupon := k } pk n good
        (w.setPrinter q { w.printer q with
          couponTimer := false, outstanding := none, unconfirmed := false, command := .none, declined := 0 }) := by
  simp only [couponReport, hj, hi, hx, hpk, State.modPrinter]

variable {n k : Nat} {o : PrintOutcome}

theorem takeCouponReport_outstanding {j : JobNo} {x : Job} {i : PackIx} {pk : Pack} (hanswers : Answers l e s)
    (hpoll : e.command = .poll) (hn : n ≤ 9999999) (hk : (s.printer e.printer).outstanding = some k)
    (hj : (s.printer e.printer).job = some j) (hx : s.job j = some x) (hi : s.loadedAt e.printer = some i)
    (hpk : s.pack i = some pk) : takeCouponReport l n o e s =
      accountReport { printer := e.printer, pack := i, job := j, record := x, coupon := k } pk n (o == .good)
        ((exchangeOver l s).setPrinter e.printer (s.printer e.printer).reportedOn) := by
  have hpermitted : (couponPermitted e s && decide (n ≤ Config.maxSerial)) = true := by
    simp [couponPermitted, hpoll, hk, Config.maxSerial, hn]
  obtain ⟨w, hw⟩ : ∃ w, w = (exchangeOver l s).setPrinter e.printer { s.printer e.printer with misses := 0 } := ⟨_, rfl⟩
  have hwq : w.printer e.printer = { s.printer e.printer with misses := 0 } := by rw [hw, State.printer_setPrinter_same]
  obtain ⟨a, b, hover⟩ := exchangeOver_eq l s
  rw [takeCouponReport, if_pos hpermitted, goodResponse_answers hanswers, ← hw, reportedCoupon, hk]
  dsimp only
  rw [couponReport_eq (j := j) (x := x) (i := i) (pk := pk) (by rw [hwq]; exact hj) (by rw [hw, hover]; exact hx)
    (by rw [hw, hover]; exact hi) (by rw [hw, hover]; exact hpk), hwq, hw, setPrinter_setPrinter]

theorem takeCouponReport_late (hanswers : Answers l e s) (hpoll : e.command = .poll) (hn : n ≤ 9999999)
    (hfaulted : (s.printer e.printer).state = .faulted) (hnone : (s.printer e.printer).outstanding = none)
    (hconfirmed : (s.printer e.printer).unconfirmed = false) : takeCouponReport l n o e s =
      lateReport e.printer n (o == .good)
        ((exchangeOver l s).setPrinter e.printer { s.printer e.printer with misses := 0 }) := by
  have hpermitted : (couponPermitted e s && decide (n ≤ Config.maxSerial)) = true := by
    simp [couponPermitted, hpoll, hfaulted, Config.maxSerial, hn]
  have hreported : reportedCoupon (s.printer e.printer) = none := by simp [reportedCoupon, hnone, hconfirmed]
  simp only [takeCouponReport, if_pos hpermitted, goodResponse_answers hanswers, hreported]

end

/-! ### Serial accounting at the pack's next serial (R78, R79, R81) -/

section
variable {r : Report} {s : State} {k : Pack}

theorem accountReport_next {good : Bool} (hpositive : 1 ≤ k.next) (hleft : k.next ≤ k.last) :
    accountReport r k k.next good s = if good = true then couponTaken r k.next s else badPrint r k.next s := by
  have h0 : k.next ≠ 0 := by omega
  rw [accountReport, if_neg h0, if_pos ⟨rfl, hleft⟩]

variable (hk : s.pack r.pack = some k) (hloaded : k.state = .loaded) (hleft : k.next ≤ k.last) (hlow : NoStockLow k s)
  (hx : s.job r.job = some r.record)
include hk hloaded hleft hlow hx

/-- R79: a coupon with more to come. -/
theorem couponTaken_more (hmore : r.coupon < r.record.coupons) : couponTaken r k.next s = { s with
    packs := put s.packs r.pack (some { k with next := k.next + 1, inPrint := k.inPrint ++ [k.next] }),
    jobs := put s.jobs r.job (some { r.record with good := r.record.good ++ [k.next], nextCoupon := r.coupon + 1 }),
    printers := put s.printers r.printer
      { s.printer r.printer with command := .print (r.coupon + 1), declined := 0 } } := by
  simp only [couponTaken, movePack_takeCoupon hk hloaded hleft hlow, if_pos hmore]
  have hjob : ∀ v, (s.setPack r.pack v).job r.job = some r.record := fun _ => hx
  simp only [printNext, State.modJob, State.modPrinter, hjob, Option.map_some, State.job_setJob_same]
  simp only [State.setJob, put_put]
  rfl

omit hx in
/-- R81: the blank of a BAD report is spoiled PRINT_BAD within the printer's allowance. -/
theorem spoilBad_draws {u : State} {d n : Nat} {m : SessionIx} {y : Session} (hu : u = spoilBad r k.next s)
    (hd : (s.printer r.printer).allowance = some d) (hd10 : d < 10) (hfull : NoFullRecord s)
    (hsession : r.record.session = some n) (hm : s.sessionOf n = some m) (hy : s.session m = some y)
    (hstate : y.state ≠ .reconciled) : u = { s with
      packs := put s.packs r.pack (some { k with next := k.next + 1, spoiled := k.spoiled + 1 }),
      printers := put s.printers r.printer { s.printer r.printer with allowance := some (d + 1) },
      spoils := s.spoils ++ [{ first := k.next, count := 1, cause := .printBad, printer := some r.printer,
                               session := some n, fault := none, day := s.day, time := s.clock }],
      sessions := put s.sessions m (some { y with spoiltBad := min (y.spoiltBad + 1) 65535 }),
      running := { s.running with printBad := min (s.running.printBad + 1) 999999999 },
      night := s.night || s.mode == .night, freeReported := 256 - u.spoils.length - u.reserved } := by
  obtain ⟨v, hv⟩ : ∃ v, v = s.setPack r.pack (some { k with next := k.next + 1, spoiled := k.spoiled + 1 }) := ⟨_, rfl⟩
  obtain ⟨e, he⟩ : ∃ e, e = spoilEntry k.next 1 .printBad (some r.printer) (some n) none v := ⟨_, rfl⟩
  have hat : u = spoilAt r.printer e v := by
    rw [hu, spoilBad, movePack_spoilNext hk hloaded hleft hlow, hsession, ← hv, ← he]
  have hcharged : v.chargedSession e = some n := by rw [chargedSession_free e v (by rw [he]; rfl), he]; rfl
  have hsessions : (chargeSession e.cause e.count (v.chargedSession e) v).sessions =
      put s.sessions m (some { y with spoiltBad := min (y.spoiltBad + 1) 65535 }) := by
    have hcount : e.cause = .printBad ∧ e.count = 1 := by rw [he]; exact ⟨rfl, rfl⟩
    rw [hcharged, hcount.1, hcount.2, chargeSession_printBad (i := m) (x := y) (by rw [hv]; exact hm) (by rw [hv]; exact hy)
      hstate, hv]
    rfl
  have hdraws := spoilAt_draws hat (d := d) (by rw [hv]; exact hd) hd10 (by rw [hv]; exact hfull)
  rw [hsessions] at hdraws
  refine hdraws.trans ?_
  rw [he, hv]
  rfl

/-- R81: the first BAD report of a coupon. -/
theorem badPrint_first {t : State} {d n : Nat} {m : SessionIx} {y : Session} (ht : t = badPrint r k.next s)
    (hbad : r.record.bad = 0) (hd : (s.printer r.printer).allowance = some d) (hd10 : d < 10) (hfull : NoFullRecord s)
    (hsession : r.record.session = some n) (hm : s.sessionOf n = some m) (hy : s.session m = some y)
    (hstate : y.state ≠ .reconciled) : t = { s with
      packs := put s.packs r.pack (some { k with next := k.next + 1, spoiled := k.spoiled + 1 }),
      jobs := put s.jobs r.job (some { r.record with bad := 1 }),
      printers := put s.printers r.printer
        { s.printer r.printer with command := .print r.coupon, declined := 0, allowance := some (d + 1) },
      spoils := s.spoils ++ [{ first := k.next, count := 1, cause := .printBad, printer := some r.printer,
                               session := some n, fault := none, day := s.day, time := s.clock }],
      sessions := put s.sessions m (some { y with spoiltBad := min (y.spoiltBad + 1) 65535 }),
      running := { s.running with printBad := min (s.running.printBad + 1) 999999999 },
      night := s.night || s.mode == .night, freeReported := 256 - t.spoils.length - t.reserved } := by
  obtain ⟨u, hu⟩ : ∃ u, u = spoilBad r k.next s := ⟨_, rfl⟩
  have hspoil := spoilBad_draws hk hloaded hleft hlow hu hd hd10 hfull hsession hm hy hstate
  have hux : u.job r.job = some r.record := by rw [hspoil]; exact hx
  have hagain : t = { u with
      jobs := put u.jobs r.job (some { r.record with bad := 1 }),
      printers := put u.printers r.printer { u.printer r.printer with command := .print r.coupon, declined := 0 } } := by
    rw [ht, badPrint, ← hu]
    simp only [hbad, if_true, printNext, State.modJob, hux]
    rfl
  have hspoils : t.spoils = u.spoils := by rw [hagain]
  have hreserved : t.reserved = u.reserved := by
    refine reserved_congr fun p => ?_
    rw [hagain, State.printer, look_put]
    split
    next hp => rw [hp]
    next => rfl
  have huq : u.printer r.printer = { s.printer r.printer with allowance := some (d + 1) } := by
    rw [hspoil, State.printer, look_put_same]
  rw [hspoils, hreserved]
  generalize 256 - u.spoils.length - u.reserved = free at hspoil ⊢
  rw [hagain, huq, hspoil]
  simp only [put_put]

end

/-! ### A late report at the pack's next serial (R86) -/

section
variable {s : State} {q : PrinterId} {i : PackIx} {k : Pack} {r : FaultRecord}

theorem lateReport_next {good : Bool} (hrecord : s.stopRecord q = some r) (hi : s.loadedAt q = some i)
    (hk : s.pack i = some k) (hpositive : 1 ≤ k.next) (hleft : k.next ≤ k.last) :
    lateReport q k.next good s = lateBlank q i k.next good r.session (some r.number) s := by
  have h0 : k.next ≠ 0 := by omega
  simp [lateReport, hrecord, hi, hk, hleft.not_gt, h0]

/-- R102: numbers stand once, so that a record of the log is the one found under its number. -/
theorem faultOf_mem (hnodup : (s.faults.map fun x => x.number).Nodup) (hr : r ∈ s.faults) : s.faultOf r.number = some r := by
  cases hof : s.faultOf r.number with
  | none => simpa using List.find?_eq_none.mp hof r hr
  | some f => rw [faultOf_unique hnodup hof hr rfl]

/-- A GOOD late report: the blank is spoiled ABANDONED within the printer's allowance. -/
theorem lateBlank_good {t : State} {d : Nat} (ht : t = lateBlank q i k.next true r.session (some r.number) s)
    (hk : s.pack i = some k) (hloaded : k.state = .loaded) (hleft : k.next ≤ k.last) (hlow : NoStockLow k s)
    (hd : (s.printer q).allowance = some d) (hd10 : d < 10) (hfull : NoFullRecord s)
    (hrecord : s.faultOf r.number = some r) : t = { s with
      packs := put s.packs i (some { k with next := k.next + 1, spoiled := k.spoiled + 1 }),
      printers := put s.printers q { s.printer q with allowance := some (d + 1) },
      spoils := s.spoils ++ [{ first := k.next, count := 1, cause := .abandoned, printer := some q,
                               session := r.session, fault := some r.number, day := s.day, time := s.clock }],
      faults := s.faults.map fun x =>
        if x.number = r.number then { x with blanks := min (x.blanks + 1) 65535 } else x,
      sessions := (chargeSession .abandoned 1 (if r.sessionOver = true then none else r.session) s).sessions,
      running := { s.running with abandoned := min (s.running.abandoned + 1) 999999999 },
      night := s.night || s.mode == .night, freeReported := 256 - t.spoils.length - t.reserved } := by
  obtain ⟨v, hv⟩ : ∃ v, v = s.setPack i (some { k with next := k.next + 1, spoiled := k.spoiled + 1 }) := ⟨_, rfl⟩
  obtain ⟨e, he⟩ : ∃ e, e = spoilEntry k.next 1 .abandoned (some q) r.session (some r.number) v := ⟨_, rfl⟩
  have hat : t = spoilAt q e v := by
    rw [ht, lateBlank, movePack_spoilNext hk hloaded hleft hlow, ← hv, he]
    rfl
  have hunder : e.fault.bind v.faultOf = some r := by rw [he, hv]; exact hrecord
  have hcharged : v.chargedSession e = if r.sessionOver = true then none else r.session := by
    rw [chargedSession_record hunder (by rw [he]; rfl), he]
    rfl
  have hsessions : (chargeSession e.cause e.count (v.chargedSession e) v).sessions =
      (chargeSession .abandoned 1 (if r.sessionOver = true then none else r.session) s).sessions := by
    have hcount : e.cause = .abandoned ∧ e.count = 1 := by rw [he]; exact ⟨rfl, rfl⟩
    rw [hcharged, hcount.1, hcount.2]
    exact chargeSession_sessions _ (by rw [hv]; rfl)
  have hfaults : (chargeFault e.count e.fault v).faults = s.faults.map fun x =>
      if x.number = r.number then { x with blanks := min (x.blanks + 1) 65535 } else x := by
    rw [he, hv]
    refine (congrArg State.faults (modFault_eq ..)).trans ?_
    rfl
  have hdraws := spoilAt_draws hat (d := d) (by rw [hv]; exact hd) hd10 (by rw [hv]; exact hfull)
  rw [hsessions, hfaults] at hdraws
  refine hdraws.trans ?_
  rw [he, hv]
  rfl

end

/-- Settles O54. -/
theorem couponReported : Obligations.CouponReported := by
  intro l e s q i pk hanswers hpoll hq hi hpk hpositive hleft hserial hlow
  subst hq
  obtain ⟨a, b, hover⟩ := exchangeOver_eq l s
  obtain ⟨hloaded, _⟩ := loaded_pack hi hpk
  have hrun : ∀ o, exec (.coupon l pk.next o) s = .next (takeCouponReport l pk.next o e s) := fun o =>
    congrArg _ ((if_pos hanswers.1).trans (onExchange_some hanswers.2.1))
  refine ⟨fun c k j x hc hk hj hx => ?_,
    fun d r hfaulted hnone hconfirmed hd hd10 hfull hrecord hnodup => ?_⟩
  · have hreport : ∀ o, takeCouponReport l pk.next o e s =
        accountReport { printer := e.printer, pack := i, job := j, record := x, coupon := k } pk pk.next (o == .good)
          ((exchangeOver l s).setPrinter e.printer (s.printer e.printer).reportedOn) := fun o =>
      takeCouponReport_outstanding hanswers hpoll hserial hk hj hx hi hpk
    obtain ⟨w, hw⟩ : ∃ w, w = (exchangeOver l s).setPrinter e.printer (s.printer e.printer).reportedOn := ⟨_, rfl⟩
    rw [← hw] at hreport
    have hwpk : w.pack i = some pk := by rw [hw, hover]; exact hpk
    have hwlow : NoStockLow pk w := by rw [hw, hover]; exact hlow
    have hwx : w.job j = some x := by rw [hw, hover]; exact hx
    have hwq : w.printer e.printer = (s.printer e.printer).reportedOn := by rw [hw, State.printer_setPrinter_same]
    refine ⟨fun hmore => ⟨_, hrun _, ?_⟩, fun d n m y hbad hd hd10 hfull hsession hm hy hstate => ⟨_, hrun _, ?_⟩⟩
    · rw [hreport, accountReport_next hpositive hleft, if_pos (by decide),
        couponTaken_more hwpk hloaded hleft hwlow hwx hmore, hwq, hw, hover, hc]
      simp only [State.setPrinter, put_put]
    · obtain ⟨t, ht⟩ : ∃ t, t = takeCouponReport l pk.next .bad e s := ⟨_, rfl⟩
      have hbadPrint := ht.trans (hreport .bad)
      rw [accountReport_next hpositive hleft, if_neg (by decide)] at hbadPrint
      have hfirst := badPrint_first hwpk hloaded hleft hwlow hwx hbadPrint hbad (by rw [hwq]; exact hd) hd10
        (by rw [hw, hover]; exact hfull) hsession (by rw [hw, hover]; exact hm) (by rw [hw, hover]; exact hy) hstate
      rw [← ht]
      generalize 256 - t.spoils.length - t.reserved = free at hfirst ⊢
      rw [hfirst, hwq, hw, hover, hc]
      simp only [State.setPrinter, put_put]
  · obtain ⟨w, hw⟩ : ∃ w, w = (exchangeOver l s).setPrinter e.printer { s.printer e.printer with misses := 0 } := ⟨_, rfl⟩
    have hwpk : w.pack i = some pk := by rw [hw, hover]; exact hpk
    have hwq : w.printer e.printer = { s.printer e.printer with misses := 0 } := by rw [hw, State.printer_setPrinter_same]
    have hwfaults : w.faults = s.faults := by rw [hw, hover]; rfl
    have hwrecord : w.stopRecord e.printer = some r := by rw [State.stopRecord, hwfaults]; exact hrecord
    have hrof : w.faultOf r.number = some r :=
      faultOf_mem (by rw [hwfaults]; exact hnodup) (w.stopRecord_some hwrecord).1
    obtain ⟨t, ht⟩ : ∃ t, t = takeCouponReport l pk.next .good e s := ⟨_, rfl⟩
    have hlate := ht.trans (takeCouponReport_late hanswers hpoll hserial hfaulted hnone hconfirmed)
    rw [← hw, lateReport_next hwrecord (by rw [hw, hover]; exact hi) hwpk hpositive hleft] at hlate
    have hblank := lateBlank_good hlate hwpk hloaded hleft (by rw [hw, hover]; exact hlow) (by rw [hwq]; exact hd) hd10
      (by rw [hw, hover]; exact hfull) hrof
    have hsessions : t.sessions =
        (chargeSession .abandoned 1 (if r.sessionOver = true then none else r.session) s).sessions := by
      rw [hblank]
      exact chargeSession_sessions _ (by rw [hw, hover]; rfl)
    refine ⟨_, hrun _, ?_, ?_, ?_⟩
    · rw [← ht]
      generalize 256 - t.spoils.length - t.reserved = free at hblank ⊢
      rw [hblank, hwq, hw, hover]
      simp only [State.setPrinter, put_put]
    · rw [← ht, hsessions]
      rintro (hnone | hretired | ⟨n, hn, hunheld⟩)
      · rw [hnone, ite_self, chargeSession_none]
      · rw [if_pos hretired, chargeSession_none]
      · rw [hn]
        split
        · rfl
        · rw [chargeSession_unheld hunheld]
    · intro n m y hn hstands hm hy
      have hcharged : (if r.sessionOver = true then none else r.session) = some n := by rw [hstands, hn]; rfl
      rw [← ht, hsessions, hcharged]
      refine ⟨fun hstate => ?_, fun hstate => ?_⟩
      · rw [chargeSession_reconciled hm hy hstate]
      · rw [chargeSession_abandoned hm hy hstate]
        rfl

end Sys2Proof.Machine
end

