-- ==== Sys2Proof/Proofs/TicketIssue.lean ====
section
/-! The last GOOD coupon of a sale (R43, R45, R66, R83): the ticket is issued and the printer is free again. -/

namespace Sys2Proof.Machine

/-! ### The printer is free again (R43, R45) -/

section
variable {s t : State} {q : PrinterId} {d : Nat}

/-- R45, R90: an allowance given back, where no printer waits for the space. -/
theorem releaseAllowance_eq (ht : t = releaseAllowance q s) (hd : (s.printer q).allowance = some d)
    (hwaiting : ∀ r, (s.printer r).waiting = false) (hfull : NoFullRecord s) : t = { s with
      printers := put s.printers q { s.printer q with allowance := none },
      freeReported := if d < 10 then 256 - s.spoils.length - t.reserved else s.freeReported } := by
  obtain ⟨u, hu⟩ : ∃ u, u = s.setPrinter q { s.printer q with allowance := none } := ⟨_, rfl⟩
  have hbranch : t = if d < 10 then spaceFreed u else u := by
    rw [ht, releaseAllowance, hd, hu]
    rfl
  have hwaiting' : ∀ r, (u.printer r).waiting = false := by
    intro r
    rw [hu, State.printer_setPrinter]
    split
    · exact hwaiting q
    · exact hwaiting r
  by_cases hdrawn : d < 10
  · rw [if_pos hdrawn, spaceFreed, handout_none (reportFree u) hwaiting' (by rw [hu]; exact hfull)] at hbranch
    have hreserved : t.reserved = u.reserved := by rw [hbranch]; rfl
    rw [if_pos hdrawn, hreserved, hbranch, hu]
    rfl
  · rw [if_neg hdrawn] at hbranch
    rw [if_neg hdrawn, hbranch, hu]
    rfl

/-- R43: a PRINTING printer with nothing waiting in its queue is READY. -/
theorem printEnds_eq {c : Printer} (ht : t = printEnds q s) (hc : s.printer q = c) (hprinting : c.state = .printing)
    (hqueue : c.queue = []) (hd : c.allowance = some d) (hwaiting : ∀ r, (s.printer r).waiting = false)
    (hfull : NoFullRecord s) : t = { s with
      printers := put s.printers q { c with job := none, allowance := none, state := .ready },
      freeReported := if d < 10 then 256 - s.spoils.length - t.reserved else s.freeReported } := by
  obtain ⟨v, hv⟩ : ∃ v, v = s.setPrinter q { c with job := none } := ⟨_, rfl⟩
  obtain ⟨u, hu⟩ : ∃ u, u = releaseAllowance q v := ⟨_, rfl⟩
  have hvq : v.printer q = { c with job := none } := by rw [hv, State.printer_setPrinter_same]
  have hout : ∀ r, (v.printer r).waiting = false := by
    intro r
    rw [hv, State.printer_setPrinter]
    split
    · exact hc ▸ hwaiting q
    · exact hwaiting r
  have hreleased := releaseAllowance_eq (d := d) hu (by rw [hvq]; exact hd) hout (by rw [hv]; exact hfull)
  have hfree : u = { s with
      printers := put s.printers q { c with job := none, allowance := none },
      freeReported := if d < 10 then 256 - s.spoils.length - u.reserved else s.freeReported } := by
    refine hreleased.trans ?_
    rw [hvq, hv]
    simp only [State.setPrinter, put_put]
  have huq : u.printer q = { c with job := none, allowance := none } := by
    rw [hfree, State.printer, look_put_same]
  have hready : t = u.setPrinter q { c with job := none, allowance := none, state := .ready } := by
    have hleaves : (s.modPrinter q fun c => { c with job := none }) = v := by rw [hv, State.modPrinter, hc]
    rw [ht, printEnds, hleaves, ← hu, hc, hprinting]
    dsimp only
    rw [startCheck_idle q _ (.inr (by rw [State.printer_modPrinter_same, huq]; exact hqueue)), State.modPrinter, huq]
  have hreserved : t.reserved = u.reserved := by
    refine reserved_congr fun p => ?_
    rw [hready, State.printer_setPrinter]
    split
    next hp => rw [← hp, huq]
    next => rfl
  rw [hreserved]
  generalize 256 - s.spoils.length - u.reserved = free at hfree ⊢
  rw [hready, hfree]
  simp only [State.setPrinter, put_put]

end

/-! ### The ticket (R66, R83, R96, R127) -/

section
variable {s t : State} {q : PrinterId} {i : PackIx} {j : JobNo} {x : Job} {k : Pack} {n : Nat} {tn : Tender} {w : Window}
  {m : SessionIx} {y : Session} {serials : List Nat}

theorem issueTicket_eq (hloaded : k.state = .loaded) :
    issueTicket k = { k with issued := k.issued + k.inPrint.length, inPrint := [] } := if_pos (by simp [hloaded])

theorem salesAfter_keeps (fare : Nat) : (salesAfter tn fare y).number = y.number ∧
    (salesAfter tn fare y).state = y.state ∧ (salesAfter tn fare y).tickets = y.tickets ∧
    (salesAfter tn fare y).coupons = y.coupons := by
  unfold salesAfter
  split
  · exact ⟨rfl, rfl, rfl, rfl⟩
  · split <;> exact ⟨rfl, rfl, rfl, rfl⟩

/-- R126, R127: the sale of a ticket, posted to its session. -/
theorem postSale_eq (hm : s.sessionOf n = some m) (hy : s.session m = some y) (fare coupons : Nat) :
    postSale n tn fare coupons s = { s with
      sessions := put s.sessions m (some
        { salesAfter tn fare y with
          tickets := min (y.tickets + 1) 65535, coupons := min (y.coupons + coupons) 65535 }) } := by
  obtain ⟨_, _, htickets, hcoupons⟩ := salesAfter_keeps (tn := tn) (y := y) fare
  rw [postSale, hm, ← htickets, ← hcoupons]
  exact modSession_eq _ hy

/-- R50: the record of a job is freed, of a session that is not CLOSING. -/
theorem freeJob_opened (hx : s.job j = some x) (hsession : x.session = some n) (hm : s.sessionOf n = some m)
    (hy : s.session m = some y) (hstate : y.state ≠ .closing) : freeJob j s = s.setJob j none := by
  have hm' : (s.setJob j none).sessionOf n = some m := hm
  have hy' : (s.setJob j none).session m = some y := hy
  simp [freeJob, hx, hsession, jobLeft, hm', hy', hstate]

/-- R66, R83: a ticket that is issued. -/
theorem issueJob_eq (hk : s.pack i = some k) (hloaded : k.state = .loaded) (hn : x.session = some n)
    (htn : x.tender = some tn) (hw : x.window = some w) (hm : s.sessionOf n = some m) (hy : s.session m = some y)
    (hstate : y.state = .opened) (hroom : s.issues.length < 256) {z : Job} (hz : s.job j = some z)
    (hzn : z.session = some n) (ht : t = issueJob q i j x serials s) :
    Told [(x.port, .jobIssued x.tag j serials q)] s t ∧ t = { s with
      ports := t.ports,
      packs := put s.packs i (some { k with issued := k.issued + k.inPrint.length, inPrint := [] }),
      jobs := put s.jobs j none,
      sessions := put s.sessions m (some
        { salesAfter tn x.fare y with
          tickets := min (y.tickets + 1) 65535, coupons := min (y.coupons + x.coupons) 65535 }),
      issues := s.issues ++ [{ serials := serials, kind := x.kind, fare := x.fare, tender := tn, session := n, window := w,
                               printer := q, time := s.clock, state := .issued }],
      running := { s.running with
        tickets := min (s.running.tickets + 1) 999999999, coupons := min (s.running.coupons + x.coupons) 999999999 },
      night := s.night || s.mode == .night } := by
  obtain ⟨u, hu⟩ : ∃ u : State, u = { s with
      packs := put s.packs i (some { k with issued := k.issued + k.inPrint.length, inPrint := [] }),
      sessions := put s.sessions m (some
        { salesAfter tn x.fare y with
          tickets := min (y.tickets + 1) 65535, coupons := min (y.coupons + x.coupons) 65535 }),
      issues := s.issues ++ [{ serials := serials, kind := x.kind, fare := x.fare, tender := tn, session := n, window := w,
                               printer := q, time := s.clock, state := .issued }],
      running := { s.running with
        tickets := min (s.running.tickets + 1) 999999999, coupons := min (s.running.coupons + x.coupons) 999999999 },
      night := s.night || s.mode == .night } := ⟨_, rfl⟩
  obtain ⟨v, hv⟩ := notify_eq u x.port (.jobIssued x.tag j serials q)
  have hissued : t = freeJob j (notify x.port (.jobIssued x.tag j serials q) u) := by
    obtain ⟨p, hp⟩ : ∃ p, p = postSale n tn x.fare x.coupons s := ⟨_, rfl⟩
    have hsale := hp.trans (postSale_eq hm hy x.fare x.coupons)
    obtain ⟨o, ho⟩ : ∃ o, o = movePack i issueTicket p := ⟨_, rfl⟩
    have hmove : o = p.setPack i (some { k with issued := k.issued + k.inPrint.length, inPrint := [] }) := by
      rw [ho, movePack_sameRemaining (k := k) (by rw [hsale]; exact hk) (by rw [issueTicket_eq hloaded]; rfl),
        issueTicket_eq hloaded]
    have hlist : ∀ e, addIssue e o = { o with issues := o.issues ++ [e] } := fun e =>
      if_pos (by rw [hmove, hsale]; exact hroom)
    simp only [ht, issueJob, hn, htn, hw, ← hp, ← ho, hlist]
    rw [hmove, hsale, hu]
    rfl
  obtain ⟨hnumber, hsame, _, _⟩ := salesAfter_keeps (tn := tn) (y := y) x.fare
  have hm' : ({ u with ports := v } : State).sessionOf n = some m := by
    rw [hu]
    exact (sessionOf_rewritten hy (y := { salesAfter tn x.fare y with
      tickets := min (y.tickets + 1) 65535, coupons := min (y.coupons + x.coupons) 65535 }) hnumber n).trans hm
  have hfreed : t = ({ u with ports := v } : State).setJob j none := by
    rw [hissued, hv]
    refine freeJob_opened (x := z) (by rw [hu]; exact hz) hzn hm' (by rw [hu]; exact look_put_same ..) ?_
    show (salesAfter tn x.fare y).state ≠ .closing
    rw [hsame, hstate]
    decide
  refine ⟨fun r => ?_, ?_⟩
  · have hport : t.port r = (notify x.port (.jobIssued x.tag j serials q) u).port r := by rw [hfreed, hv]; rfl
    rw [hport, notify_port, hu]
    rfl
  · rw [hfreed, hu]
    rfl

end

/-- R79, R83: the last coupon of a sale. -/
theorem couponTaken_last {r : Report} {s : State} {k : Pack} (hk : s.pack r.pack = some k) (hloaded : k.state = .loaded)
    (hleft : k.next ≤ k.last) (hlow : NoStockLow k s) (hx : s.job r.job = some r.record)
    (hlast : r.coupon = r.record.coupons) (hkind : r.record.kind ≠ .test) : couponTaken r k.next s =
      printEnds r.printer (issueJob r.printer r.pack r.job r.record (r.record.good ++ [k.next]) { s with
        packs := put s.packs r.pack (some { k with next := k.next + 1, inPrint := k.inPrint ++ [k.next] }),
        jobs := put s.jobs r.job (some { r.record with good := r.record.good ++ [k.next] }) }) := by
  have hjob : ∀ v, (s.setPack r.pack v).job r.job = some r.record := fun _ => hx
  simp only [couponTaken, movePack_takeCoupon hk hloaded hleft hlow, if_neg hlast.not_lt, if_neg hkind, State.modJob, hjob]
  rfl

/-- Settles O55. -/
theorem ticketIssued : Obligations.TicketIssued := by
  intro l e s q k j x i pk d n tn w m y hanswers hpoll hq hprinting hk hj hqueue hd hx hi hpk hpositive hleft hserial hlow
    hlast hkind hn htn hw hm hy hopen hroom hwaiting hfull
  subst hq
  obtain ⟨a, b, hover⟩ := exchangeOver_eq l s
  obtain ⟨hloaded, _⟩ := loaded_pack hi hpk
  obtain ⟨o, ho⟩ : ∃ o, o = (exchangeOver l s).setPrinter e.printer (s.printer e.printer).reportedOn := ⟨_, rfl⟩
  obtain ⟨v, hv⟩ : ∃ v : State, v = { o with
      packs := put o.packs i (some { pk with next := pk.next + 1, inPrint := pk.inPrint ++ [pk.next] }),
      jobs := put o.jobs j (some { x with good := x.good ++ [pk.next] }) } := ⟨_, rfl⟩
  obtain ⟨u, hu⟩ : ∃ u, u = issueJob e.printer i j x (x.good ++ [pk.next]) v := ⟨_, rfl⟩
  obtain ⟨t, ht⟩ : ∃ t, t = printEnds e.printer u := ⟨_, rfl⟩
  have hexec : exec (.coupon l pk.next .good) s = .next t := by
    refine congrArg _ (((if_pos hanswers.1).trans (onExchange_some hanswers.2.1)).trans ?_)
    rw [takeCouponReport_outstanding hanswers hpoll hserial hk hj hx hi hpk, accountReport_next hpositive hleft,
      if_pos (by decide), ← ho, couponTaken_last (k := pk) (by rw [ho, hover]; exact hpk) hloaded hleft
        (by rw [ho, hover]; exact hlow) (by rw [ho, hover]; exact hx) hlast hkind, ht, hu, hv]
  rw [hover] at ho
  have hvpk : v.pack i = some { pk with next := pk.next + 1, inPrint := pk.inPrint ++ [pk.next] } := by
    rw [hv]; exact look_put_same ..
  have hvjob : v.job j = some { x with good := x.good ++ [pk.next] } := by
    rw [hv]; exact look_put_same ..
  obtain ⟨htold, hissued⟩ := issueJob_eq hvpk hloaded hn htn hw
    (by rw [hv, ho]; exact hm) (by rw [hv, ho]; exact hy) hopen (by rw [hv, ho]; exact hroom)
    hvjob hn hu
  have huq : u.printer e.printer = (s.printer e.printer).reportedOn := by
    rw [hissued, hv, ho]
    exact look_put_same ..
  have hwaits : ∀ r, (u.printer r).waiting = false := by
    intro r
    rw [hissued, hv, ho]
    show (look (put s.printers e.printer _) r).waiting = false
    rw [look_put]
    split
    · exact hwaiting e.printer
    · exact hwaiting r
  have hends := printEnds_eq ht huq hprinting hqueue hd hwaits (by rw [hissued, hv, ho]; exact hfull)
  refine ⟨t, hexec, fun r => ?_, ?_⟩
  · have hport : t.port r = u.port r := by rw [hends]; rfl
    rw [hport, htold r, hv, ho]
    rfl
  · have hports : t.ports = u.ports := by rw [hends]
    have hspoils : u.spoils.length = s.spoils.length := by rw [hissued, hv, ho]; rfl
    have hfree : u.freeReported = s.freeReported := by rw [hissued, hv, ho]; rfl
    rw [hspoils, hfree] at hends
    rw [hports]
    generalize (if d < 10 then 256 - s.spoils.length - t.reserved else s.freeReported) = free at hends ⊢
    rw [hends, hissued, hv, ho, hover]
    simp [State.setPrinter, put_put]

end Sys2Proof.Machine
end

