-- ==== Sys2Proof/Proofs/SenseEnds.lean ====
section
/-! What a SERIAL does that ends a sense (R9, R10, R13, R31, R36 to R39, R87, R108, R109, R182). -/

namespace Sys2Proof.Machine

/-! ### The sense that ends (R31) -/

section
variable {l : Line} {e : Exchange} {s : State} {n : Nat}

/-- R31: the printer whose sense has ended with a serial. -/
abbrev Printer.sensed (c : Printer) : Printer :=
  { c with misses := 0, senseTimer := false, sense := .none, command := .none, declined := 0 }

theorem takeSerial_senseEnds (hcommand : e.command = .poll ∨ e.command = .sense) (hn : n ≤ 9999999)
    (hsense : (s.printer e.printer).sense ≠ .none)
    (hgood : (s.printer e.printer).misses ≠ 3 ∧ (s.printer e.printer).state ≠ .probe ∨ s.stopRecord e.printer = none) :
    takeSerial l n e s = senseEnds e.printer n
      ((exchangeOver l s).setPrinter e.printer { s.printer e.printer with misses := 0 }) := by
  have hpermitted : (serialPermitted e s && decide (n ≤ Config.maxSerial)) = true := by
    obtain h | h := hcommand <;> simp [serialPermitted, h, hsense, Config.maxSerial, hn]
  rw [takeSerial, if_pos hpermitted, goodResponse_eq l s e.printer hgood]

variable {w : State} {q : PrinterId} {c : Printer}

/-- The sense is over, and its serial goes where its use says. -/
theorem senseEnds_eq (hc : w.printer q = c) (hwaiting : c.waiting = false) {v : State}
    (hv : v = w.setPrinter q { c with sense := .none, senseTimer := false, command := .none, declined := 0 }) :
    (c.sense = .load → senseEnds q n w = loadSensed q n v) ∧
    (c.sense = .startUp → senseEnds q n w = serialSensed q false n v) ∧
    (c.sense = .resync → senseEnds q n w = serialSensed q true n v) := by
  have hended : endSense q w = v := by rw [endSense_eq q w (by rw [hc]; exact hwaiting), hc, hv]
  refine ⟨fun h => ?_, fun h => ?_, fun h => ?_⟩ <;>
  · rw [senseEnds, hc, h, ← hended]

end

/-! ### A start-up or resynchronising sense (R36, R39) -/

section
variable {v : State} {q : PrinterId} {i : PackIx} {k : Pack} {b : Bool} {n : Nat}

/-- R36, R39, R87: the serial compared with the pack's next. -/
theorem serialSensed_eq (hi : v.loadedAt q = some i) (hk : v.pack i = some k) :
    (n = k.next → serialSensed q b n v = senseReturns q b v) ∧
    (k.next < n → n ≤ k.last → serialSensed q b n v = senseReturns q b
      (senseSkip q i k n (if b = true then (v.stopRecord q).map fun r => r.number else none) v)) ∧
    (0 < n → n < k.next ∨ k.last < n ∧ n ≠ k.next → serialSensed q b n v = stopFault q .serialOrder (some n) v) ∧
    (n = 0 → 0 < k.next → serialSensed q b n v = stopFault q .stockOut (some k.remaining) v) := by
  have hcases : serialSensed q b n v =
      if n = k.next then senseReturns q b v
      else if k.next < n ∧ n ≤ k.last then
        senseReturns q b (senseSkip q i k n (if b = true then (v.stopRecord q).map fun r => r.number else none) v)
      else if n = 0 then stopFault q .stockOut (some k.remaining) v
      else stopFault q .serialOrder (some n) v := by
    simp only [serialSensed, hi, hk]
  refine ⟨fun hnext => ?_, fun hlater hlast => ?_, fun hpositive hother => ?_, fun hzero hpositive => ?_⟩
  · rw [hcases, if_pos hnext]
  · rw [hcases, if_neg (by omega), if_pos ⟨hlater, hlast⟩]
  · rw [hcases, if_neg (by omega), if_neg (by omega), if_neg (by omega)]
  · rw [hcases, if_neg (by omega), if_neg (by omega), if_pos hzero]

/-- R36, R39, R45: a printer with an empty queue returns to service and gives back its allowance. -/
theorem senseReturns_released {t : State} {c : Printer} {d : Nat} (ht : t = senseReturns q b v) (hc : v.printer q = c)
    (hd : c.allowance = some d) (hqueue : c.queue = []) (hwaiting : ∀ r, (v.printer r).waiting = false)
    (hfull : NoFullRecord v) : t = { v with
      printers := put v.printers q (c.returned b),
      freeReported := if d < 10 then 256 - v.spoils.length - t.reserved else v.freeReported } := by
  rw [ht]
  exact senseReturns_eq v q c b d hc hd hqueue hwaiting hfull

/-- The reserved count does not tell an allowance used up from none. -/
theorem reserved_usedUp {c : Printer} (hd : c.allowance = some 10) :
    (v.setPrinter q c).reserved = (v.setPrinter q { c with allowance := none }).reserved := by
  unfold State.reserved
  refine congrArg List.sum (List.map_congr_left fun p _ => ?_)
  rw [State.printer_setPrinter, State.printer_setPrinter]
  by_cases hp : q = p
  · rw [if_pos hp, if_pos hp, hd]
    rfl
  · rw [if_neg hp, if_neg hp]

/-- R87, R93, R117: the state once the blanks that a printer has passed are in the spoil list and counted. -/
abbrev passedOver (q : PrinterId) (i : PackIx) (k : Pack) (n : Nat) (fault : Option Nat) (s : State) : State := { s with
  packs := put s.packs i (some { k with next := n, spoiled := k.spoiled + (n - k.next) }),
  spoils := s.spoils ++ [{ first := k.next, count := n - k.next, cause := .skipped, printer := some q,
                           session := none, fault := fault, day := s.day, time := s.clock }],
  faults := s.faults.map fun y =>
    if fault = some y.number then { y with blanks := min (y.blanks + (n - k.next)) 65535 } else y,
  running := { s.running with skipped := min (s.running.skipped + (n - k.next)) 999999999 },
  night := s.night || s.mode == .night }

/-- The blanks counted in a record are none of what a report of free space looks at. -/
theorem passedOver_noFull {fault : Option Nat} {s : State} (h : NoFullRecord s) :
    NoFullRecord (passedOver q i k n fault s) := by
  intro r hr hopen
  obtain ⟨y, hy, rfl⟩ := List.mem_map.mp hr
  by_cases hnamed : fault = some y.number
  · rw [if_pos hnamed] at hopen ⊢
    exact h y hy hopen
  · rw [if_neg hnamed] at hopen ⊢
    exact h y hy hopen

variable {l : Line} {s : State} {c : Printer} {d : Nat} (hv : v = (exchangeOver l s).setPrinter q c)
  (hk : s.pack i = some k)
include hv

/-- No printer of `v` waits where none of `s` does. -/
theorem sensed_waiting (hcw : c.waiting = false) (hwaiting : ∀ r, (s.printer r).waiting = false) (r : PrinterId) :
    (v.printer r).waiting = false := by
  rw [hv, State.printer_setPrinter, printer_exchangeOver]
  split
  · exact hcw
  · exact hwaiting r

/-- R36, R39, R45: a printer with an empty queue returns to service. -/
theorem senseReturns_sensed {t : State} (ht : t = senseReturns q b v) (hqueue : c.queue = [])
    (hd : c.allowance = some d) (hcw : c.waiting = false) (hwaiting : ∀ r, (s.printer r).waiting = false)
    (hfull : NoFullRecord s) : t = { exchangeOver l s with
      printers := put s.printers q (c.returned b),
      freeReported := if d < 10 then 256 - s.spoils.length - t.reserved else s.freeReported } := by
  obtain ⟨a, a', hover⟩ := exchangeOver_eq l s
  refine (senseReturns_released ht (by rw [hv, State.printer_setPrinter_same]) hd hqueue
    (sensed_waiting hv hcw hwaiting) (by rw [hv, hover]; exact hfull)).trans ?_
  rw [hv, hover]
  simp only [State.setPrinter, put_put]

/-- R37: what a sense brings to light at a printer with no job. -/
theorem stopFault_sensed (kind : FaultKind) (detail : Option Nat) (hsame : c.job = (s.printer q).job) (hjob : c.job = none)
    (hqueue : c.queue = []) (hstate : c.state = .faulted ∨ c.state = .probe) (hsense : c.sense = .none) (hcw : c.waiting = false)
    (htimer : c.senseTimer = false) (hcommand : c.command = .none) (hdeclined : c.declined = 0) :
    stopFault q kind detail v = (exchangeOver l (raise kind (some q) detail s)).setPrinter q
      { c with state := .faulted, couponTimer := false, unconfirmed := false, outstanding := none } := by
  rw [stopFault_idle v q c kind detail (by rw [hv, State.printer_setPrinter_same]) hstate hjob hqueue hsense hcw htimer
    hcommand hdeclined, hv, raise_setPrinter kind detail (by rw [printer_exchangeOver, hsame]), raise_exchangeOver,
    setPrinter_setPrinter]

include hk

/-- R87, R93: the blanks passed are spoiled SKIPPED within the printer's allowance, and SERIAL_SKIP is raised. -/
theorem senseSkip_sensed {u : State} {fault : Option Nat} (hu : u = senseSkip q i k n fault v)
    (hloaded : k.state = .loaded) (hprinter : k.printer = some q) (hlater : k.next < n) (hlast : n ≤ k.last)
    (hlow : s.params.stockLow = 0 ∨ k.last + 1 - k.next ≤ s.params.stockLow ∨ s.params.stockLow < k.last + 1 - n)
    (hsame : c.job = (s.printer q).job) (hjob : c.job = none) (hd : c.allowance = some d) (hd10 : d < 10)
    (hfull : NoFullRecord s) :
    u = { exchangeOver l (raise .serialSkip (some q) (some (n - k.next)) (passedOver q i k n fault s)) with
      printers := put s.printers q { c with allowance := some (d + 1) },
      freeReported := 256 - (s.spoils.length + 1) - (s.setPrinter q { c with allowance := some (d + 1) }).reserved } := by
  obtain ⟨a, a', hover⟩ := exchangeOver_eq l s
  obtain ⟨free, hfree, hskip⟩ := senseSkip_eq v q i k c d n fault (by rw [hv, State.printer_setPrinter_same])
    (by rw [hv, hover]; exact hk) hloaded hprinter hd hd10 hjob hlater hlast (by rw [hv, hover]; exact hlow)
    (by rw [hv, hover]; exact hfull)
  have hspoiled : passedOver q i k n fault v = (exchangeOver l (passedOver q i k n fault s)).setPrinter q c := by
    rw [hv]
    cases l <;> rfl
  have hsamejob : c.job = ((passedOver q i k n fault s).printer q).job := hsame
  have hreserved : (v.setPrinter q { c with allowance := some (d + 1) }).reserved =
      (s.setPrinter q { c with allowance := some (d + 1) }).reserved := by
    rw [hv, setPrinter_setPrinter, hover]
    rfl
  have hspoils : v.spoils = s.spoils := by rw [hv, hover]; rfl
  rw [hreserved, hspoils] at hfree
  rw [hu, ← hfree]
  refine hskip.trans ?_
  rw [show raise .serialSkip (some q) (some (n - k.next)) _ = _ from congrArg _ hspoiled,
    raise_setPrinter _ _ (by rw [printer_exchangeOver]; exact hsamejob), raise_exchangeOver, hv, hover]
  simp only [State.setPrinter, put_put]

/-- R36, R39, R87: the blanks the printer has passed are spoiled SKIPPED before it returns to service. -/
theorem senseSkips_sensed {t : State} {fault : Option Nat} (ht : t = senseReturns q b (senseSkip q i k n fault v))
    (hloaded : k.state = .loaded) (hprinter : k.printer = some q) (hlater : k.next < n) (hlast : n ≤ k.last)
    (hlow : s.params.stockLow = 0 ∨ k.last + 1 - k.next ≤ s.params.stockLow ∨ s.params.stockLow < k.last + 1 - n)
    (hsame : c.job = (s.printer q).job) (hjob : c.job = none) (hqueue : c.queue = []) (hd : c.allowance = some d)
    (hd10 : d < 10) (hcw : c.waiting = false) (hwaiting : ∀ r, (s.printer r).waiting = false) (hfull : NoFullRecord s) :
    t = { exchangeOver l (raise .serialSkip (some q) (some (n - k.next)) (passedOver q i k n fault s)) with
      printers := put s.printers q (c.returned b), freeReported := 256 - t.spoils.length - t.reserved } := by
  obtain ⟨u, hu⟩ : ∃ u, u = senseSkip q i k n fault v := ⟨_, rfl⟩
  rw [← hu] at ht
  have hskipped := senseSkip_sensed hv hk hu hloaded hprinter hlater hlast hlow hsame hjob hd hd10 hfull
  obtain ⟨r, hr⟩ : ∃ r, r = raise .serialSkip (some q) (some (n - k.next)) (passedOver q i k n fault s) := ⟨_, rfl⟩
  obtain ⟨a, a', hover⟩ := exchangeOver_eq l r
  rw [← hr, hover] at hskipped ⊢
  have huq : u.printer q = { c with allowance := some (d + 1) } := by rw [hskipped]; exact look_put_same ..
  have huwaiting : ∀ p, (u.printer p).waiting = false := by
    intro p
    rw [hskipped]
    show (look (put s.printers q _) p).waiting = false
    rw [look_put]
    split
    · exact hcw
    · exact hwaiting p
  have hufull : NoFullRecord u := by
    have hrfull := raise_serialSkip_noFull (some q) (some (n - k.next)) _
      (passedOver_noFull (q := q) (i := i) (k := k) (n := n) (fault := fault) hfull)
    rw [hskipped]
    rw [← hr] at hrfull
    exact hrfull
  have hreturns := senseReturns_released (d := d + 1) ht huq rfl hqueue huwaiting hufull
  have hrspoils : r.spoils = (passedOver q i k n fault s).spoils := by
    obtain ⟨_, _, _, _, _, _, hraise⟩ := raise_eq .serialSkip (some q) (some (n - k.next)) (passedOver q i k n fault s)
    rw [hr, hraise]
  have hspoils : u.spoils.length = s.spoils.length + 1 := by
    rw [hskipped]
    show r.spoils.length = _
    rw [hrspoils, List.length_append]
    rfl
  have htspoils : t.spoils.length = s.spoils.length + 1 := by rw [hreturns]; exact hspoils
  have hfree : (if d + 1 < 10 then 256 - u.spoils.length - t.reserved else u.freeReported)
      = 256 - t.spoils.length - t.reserved := by
    rw [hspoils, htspoils]
    split
    · rfl
    next hdrawn =>
      have hten : some (d + 1) = some 10 := by rw [show d + 1 = 10 by omega]
      have hreserved : t.reserved = (s.setPrinter q { c with allowance := some (d + 1) }).reserved := by
        rw [reserved_usedUp (v := s) (c := { c with allowance := some (d + 1) }) hten]
        refine reserved_congr fun p => ?_
        rw [hreturns, hskipped]
        simp only [State.printer, State.setPrinter, put_put, look_put]
        split <;> rfl
      rw [hreserved, hskipped]
  rw [hfree] at hreturns
  generalize 256 - t.spoils.length - t.reserved = free at hreturns ⊢
  rw [hreturns, hskipped]
  simp only [put_put]

end

/-! ### A LOAD sense (R9, R10) -/

/-- Notices leave what a port has in hand as it is, and do not look at it. -/
theorem noticed_hand (s : State) (notes : List (Port × Notice)) (q : Port) (x : PortState) (h : Option Hand) :
    noticed s notes q { x with hand := h } = { noticed s notes q x with hand := h } := by
  have hone : ∀ n (y : PortState), withNotice n { y with hand := h } = { withNotice n y with hand := h } := by
    intro n y
    unfold withNotice
    split <;> rfl
  induction notes generalizing x with
  | nil => rfl
  | cons n notes ih =>
    unfold noticed at ih ⊢
    rw [List.foldl_cons, List.foldl_cons]
    split
    · rw [hone, ih]
    · rw [ih]

section
variable {v : State} {q : PrinterId} {i : PackIx} {k : Pack} {n : Nat} {c : Printer}

theorem loadSensed_eq (hi : v.loadingAt q = some i) (hk : v.pack i = some k) :
    loadSensed q n v = if n = k.next then loadSucceeds q i n v else loadMismatch q k.next n v := by
  simp only [loadSensed, hi, hk]

variable {p : Port} {hand : Hand} (hhand : (v.port p).hand = some hand) (hop : hand.op = .load q)
  (hbroken : hand.broken = false) (hothers : ∀ r x, r ≠ p → (v.port r).hand = some x → x.op ≠ .load q)

include hhand hop hbroken hothers in
/-- R10: the load fails; the pack goes back, and the request in hand is answered. -/
theorem loadMismatch_undone {prior : PackState} {expected : Nat} (hc : v.printer q = c) (hsensing : c.state = .sensing)
    (hi : v.loadingAt q = some i) (hk : v.pack i = some k) (hprior : k.prior = some prior) (hstop : v.stopRecord q = none)
    {t : State} (ht : t = loadMismatch q expected n v) :
    t = { v with
      ports := t.ports, printers := put v.printers q { c with state := .unloaded },
      packs := put v.packs i (some { k with state := prior, prior := none, printer := none }) } ∧
    t.port p = replyIn { chain := false, quiet := hand.quiet, tag := hand.tag } hand.code .serialMismatch
      (.mismatch expected n) { v.port p with hand := none } ∧ OthersSame p v t := by
  obtain ⟨u, hu⟩ : ∃ u : State, u = { v with
      printers := put v.printers q { c with state := .unloaded },
      packs := put v.packs i (some { k with state := prior, prior := none, printer := none }) } := ⟨_, rfl⟩
  have hport : ∀ r, u.port r = v.port r := fun r => by rw [hu]; rfl
  obtain ⟨ports, hfinish, hreply, hsame⟩ := finishHand_one (rc := .serialMismatch) (res := .mismatch expected n) (t := u)
    (by rw [hport]; exact hhand) hop hbroken (fun r x hr hx => hothers r x hr (by rw [← hport]; exact hx))
  have hfailed : t = finishHand (.load q) .serialMismatch (.mismatch expected n) u := by
    have hi' : (v.setPrinter q { c with state := .unloaded }).loadingAt q = some i := hi
    have hk' : (v.setPrinter q { c with state := .unloaded }).pack i = some k := hk
    have hrevert : revertPack k = { k with state := prior, prior := none, printer := none } := by
      rw [revertPack, hprior]
      rfl
    have hended : loadEnded q (finishHand (.load q) .serialMismatch (.mismatch expected n) u) =
        finishHand (.load q) .serialMismatch (.mismatch expected n) u := by
      refine loadEnded_idle q _ (.inr (.inr fun r hr => ?_))
      have hnone : (finishHand (.load q) .serialMismatch (.mismatch expected n) u).stopRecord q = none := by
        rw [hfinish, hu]
        exact hstop
      rw [hnone] at hr
      cases hr
    rw [ht, loadMismatch, hc, if_pos hsensing, State.modPrinter, hc]
    simp only [failLoad, hi', hk', Option.map_some, hrevert]
    exact (congrArg (loadEnded q) (by rw [hu]; rfl)).trans hended
  refine ⟨?_, ?_, fun r hr => ?_⟩
  · rw [hfailed, hfinish, hu]
  · rw [hfailed, hreply, hport]
  · rw [hfailed, hsame r hr, hport]

omit hhand hop hbroken hothers

/-- R9: the pack LOADED, and its printer out of SENSING. -/
abbrev loadPlaced (q : PrinterId) (i : PackIx) (k : Pack) (c : Printer) (v : State) : State := { v with
  printers := put v.printers q
    { c with state := if c.state ≠ .sensing then c.state else if c.outOfService = true then .outOfService else .ready },
  packs := put v.packs i (some { k with state := .loaded, prior := none, inPrint := [] }) }

theorem loadSucceeds_steps (hc : v.printer q = c) (hk : v.pack i = some k) {u : State}
    (hu : u = loadEvent q (loadPlaced q i k c v))
    (hpack : u.pack i = some { k with state := .loaded, prior := none, inPrint := [] }) (hparams : u.params = v.params)
    (hlow : v.params.stockLow = 0 ∨ v.params.stockLow < k.last + 1 - k.next) : loadSucceeds q i n v =
      startCheck q (loadEnded q (finishHand (.load q) .done (.loaded i q n) u)) := by
  have hplaced : (let t := v.setPack i ((v.pack i).map fun k => { k with state := .loaded, prior := none, inPrint := [] })
      if (v.printer q).state = .sensing then
        t.modPrinter q fun c => { c with state := if c.outOfService then .outOfService else .ready }
      else t) = loadPlaced q i k c v := by
    have hsame : put v.printers q c = v.printers := by rw [← hc]; exact put_look ..
    simp only [hk, Option.map_some, hc]
    by_cases hsensing : c.state = .sensing
    · rw [if_pos hsensing, loadPlaced, if_neg (not_not.mpr hsensing)]
      simp only [State.modPrinter, State.printer_setPack, hc]
      rfl
    · rw [if_neg hsensing, loadPlaced, if_pos hsensing]
      refine Eq.trans ?_ (congrArg (fun printers => { v.setPack i _ with printers := printers }) hsame.symm)
      rfl
  have hquiet : ¬((decide (0 < u.params.stockLow) && decide (Pack.remaining
      { k with state := .loaded, prior := none, inPrint := [] } ≤ u.params.stockLow)) = true) := by
    rw [hparams, Bool.and_eq_true, decide_eq_true_eq, decide_eq_true_eq]
    show ¬(0 < v.params.stockLow ∧ k.last + 1 - k.next ≤ v.params.stockLow)
    omega
  unfold loadSucceeds
  dsimp only at hplaced ⊢
  rw [hplaced, ← hu, hpack]
  dsimp only
  rw [if_neg hquiet]

include hhand hop hbroken hothers in
/-- R9, R182: what follows the removal of the conditions where nothing becomes due at the printer. -/
theorem loadSucceeds_answered {notes : List (Port × Notice)} {w t u : State} (hc : w.printer q = c) (hk : w.pack i = some k)
    (hu : u = loadEvent q (loadPlaced q i k c w)) (hports : ∀ r, u.port r = noticed v notes r (v.port r))
    (hpack : u.pack i = some { k with state := .loaded, prior := none, inPrint := [] }) (hparams : u.params = w.params)
    (hlow : w.params.stockLow = 0 ∨ w.params.stockLow < k.last + 1 - k.next) (hqueue : (u.printer q).queue = [])
    (hended : (u.printer q).state ≠ .faulted ∨ (u.printer q).sense ≠ .none ∨
      ∀ r, u.stopRecord q = some r → r.state ≠ .cleared) (ht : t = loadSucceeds q i n w) :
    t = { u with ports := t.ports } ∧
    t.port p = replyIn { chain := false, quiet := hand.quiet, tag := hand.tag } hand.code .done (.loaded i q n)
      (noticed v notes p { v.port p with hand := none }) ∧
    ∀ r, r ≠ p → t.port r = noticed v notes r (v.port r) := by
  have hhands : ∀ r, (u.port r).hand = (v.port r).hand := fun r => by
    rw [hports, (noticed_frame v notes r (v.port r)).2.2.1]
  obtain ⟨ports, hfinish, hreply, hsame⟩ := finishHand_one (rc := .done) (res := .loaded i q n) (t := u)
    (by rw [hhands]; exact hhand) hop hbroken (fun r x hr hx => hothers r x hr (by rw [← hhands]; exact hx))
  have hfinal : t = finishHand (.load q) .done (.loaded i q n) u := by
    rw [ht, loadSucceeds_steps hc hk hu hpack hparams hlow, loadEnded_idle q _ (by rw [hfinish]; exact hended),
      startCheck_idle q _ (.inr (by rw [hfinish]; exact hqueue))]
  refine ⟨?_, ?_, fun r hr => ?_⟩
  · rw [hfinal, hfinish]
  · rw [hfinal, hreply, hports, noticed_hand v notes p (v.port p) none]
  · rw [hfinal, hsame r hr, hports]

end

section
variable {q : PrinterId} {w : State}

/-- R9, R108: the event of a successful load names the records of the printer's stock. -/
theorem loadEvent_eq (q : PrinterId) (w : State) : ∃ matching : FaultRecord → Bool,
    (∀ r, matching r = true ↔ NamesStock q r) ∧ loadEvent q w = removeCondition matching w := by
  refine ⟨_, fun r => ?_, rfl⟩
  rw [Bool.or_eq_true, stopMatches]
  simp only [Bool.and_eq_true, beq_iff_eq]
  constructor
  · rintro (⟨⟨hstop, hprinter⟩, hlatest⟩ | ⟨hprinter, hlatest⟩)
    · exact ⟨hprinter, .inr ⟨hstop, hlatest⟩⟩
    · exact ⟨hprinter, .inl hlatest⟩
  · rintro ⟨hprinter, hlatest | ⟨hstop, hlatest⟩⟩
    · exact .inr ⟨hprinter, hlatest⟩
    · exact .inl ⟨⟨hstop, hprinter⟩, hlatest⟩

/-- R108: where no record concerned stands ACKNOWLEDGED, those that are OPEN lose their condition. -/
theorem loadEvent_open (hnodup : (w.faults.map fun r => r.number).Nodup)
    (hopen : ∀ r ∈ w.faults, NamesStock q r → ¬(r.state = .acknowledged ∧ r.present = true)) :
    loadEvent q w = { w with
      faults := w.faults.map fun r =>
        if NamesStock q r ∧ r.state = .opened then { r with present := false } else r } := by
  obtain ⟨matching, hmatching, hevent⟩ := loadEvent_eq q w
  rw [hevent, removeCondition_open matching w hnodup fun r hr hm => hopen r hr ((hmatching r).mp hm)]
  simp only [hmatching]

theorem nodup_singleton {α : Type} {l : List α} {a : α} (hnodup : l.Nodup) (ha : a ∈ l) (honly : ∀ b ∈ l, b = a) : l = [a] := by
  have hreplicate := List.eq_replicate_of_mem honly
  rw [hreplicate, List.nodup_replicate] at hnodup
  have hlength : l.length = 1 := le_antisymm hnodup (List.length_pos_of_mem ha)
  rw [hreplicate, hlength]
  rfl

/-- R38, R108, R109: the STOP record of a printer whose stock is loaded again is CLEARED, and the resynchronising sense
is due under the allowance that the printer holds. -/
theorem loadEvent_clears {r : FaultRecord} {d : Nat} (hnodup : (w.faults.map fun r => r.number).Nodup)
    (hrecord : w.stopRecord q = some r) (hlatest : r.latest = .stockOut) (hstate : r.state = .acknowledged)
    (hpresent : r.present = true) (honly : ∀ y ∈ w.faults, NamesStock q y → y.number = r.number)
    (hfaulted : (w.printer q).state = .faulted) (hsense : (w.printer q).sense = .none)
    (hd : (w.printer q).allowance = some d) (hloaded : (w.loadedAt q).isSome = true) :
    (∃ ports, loadEvent q w = { w with
      ports := ports, printers := put w.printers q { w.printer q with sense := .resync, command := .sense },
      faults := w.faults.map fun y =>
        if y.number = r.number then { y with state := .cleared, present := false } else y }) ∧
    ∀ y, (loadEvent q w).port y =
      noticed w [(.sup, .faultCleared r.number r.printer r.latest r.repeats r.blanks)] y (w.port y) := by
  obtain ⟨matching, hmatching, hevent⟩ := loadEvent_eq q w
  obtain ⟨hr, hstop, hprinter, _⟩ := w.stopRecord_some hrecord
  have hnames : NamesStock q r := ⟨hprinter, .inr ⟨hstop, hlatest⟩⟩
  have hfilter : w.faults.filter matching = [r] := by
    refine nodup_singleton (hnodup.of_map.filter _) (List.mem_filter.mpr ⟨hr, (hmatching r).mpr hnames⟩) fun y hy => ?_
    obtain ⟨hy, hm⟩ := List.mem_filter.mp hy
    exact List.inj_on_of_nodup_map hnodup hy hr (honly y hy ((hmatching y).mp hm))
  have hcleared : loadEvent q w = recordCleared r w := by
    have hof := faultOf_mem hnodup hr
    have hmatch := (hmatching r).mpr hnames
    rw [hevent, removeCondition, hfilter]
    simp [removeOne, hof, hmatch, hpresent, hstate]
  obtain ⟨u, hu⟩ : ∃ u, u = enterCleared r w := ⟨_, rfl⟩
  have hentered : u = notify .sup (.faultCleared r.number r.printer r.latest r.repeats r.blanks) { w with
      faults := w.faults.map fun x => if x.number = r.number then { x with state := .cleared, present := false } else x } := by
    rw [hu, enterCleared, sendCleared, modFault_eq]
  have huprinter : u.printer q = w.printer q := by rw [hentered, notify_portsOnly]; rfl
  have huloaded : u.loadedAt q = w.loadedAt q := by rw [hentered, notify_portsOnly]; rfl
  have hresync : loadEvent q w = u.setPrinter q { w.printer q with sense := .resync, command := .sense } := by
    obtain ⟨i, hi⟩ := Option.isSome_iff_exists.mp hloaded
    rw [hcleared, recordCleared, if_pos hstop, hprinter, ← hu]
    simp only [tellCleared, resyncDue, huprinter, huloaded, hfaulted, hsense, hd, hi, State.modPrinter]
    rfl
  refine ⟨⟨u.ports, ?_⟩, fun y => ?_⟩
  · rw [hresync, hentered, notify_portsOnly]
    rfl
  · rw [hresync, State.port_setPrinter, hentered, notify_port]
    rfl

end

/-! ### The sense of a printer, from the SERIAL that ends it -/

section
variable {l : Line} {e : Exchange} {s v t : State} {q : PrinterId} {i : PackIx} {k : Pack} {c : Printer} {n : Nat}

/-- R27, R31: a SERIAL ends the sense, and its use decides what follows. -/
theorem takeSerial_use (hcommand : e.command = .poll ∨ e.command = .sense) (hn : n ≤ 9999999)
    (hwaiting : (s.printer e.printer).waiting = false) (hc : c = (s.printer e.printer).sensed)
    (hv : v = (exchangeOver l s).setPrinter e.printer c)
    (hgood : (s.printer e.printer).misses ≠ 3 ∧ (s.printer e.printer).state ≠ .probe ∨ s.stopRecord e.printer = none) :
    ((s.printer e.printer).sense = .load → takeSerial l n e s = loadSensed e.printer n v) ∧
    ((s.printer e.printer).sense = .startUp → takeSerial l n e s = serialSensed e.printer false n v) ∧
    ((s.printer e.printer).sense = .resync → takeSerial l n e s = serialSensed e.printer true n v) := by
  obtain ⟨w, hw⟩ : ∃ w, w = (exchangeOver l s).setPrinter e.printer { s.printer e.printer with misses := 0 } := ⟨_, rfl⟩
  have hwq : w.printer e.printer = { s.printer e.printer with misses := 0 } := by rw [hw, State.printer_setPrinter_same]
  obtain ⟨hload, hstart, hresync⟩ := senseEnds_eq (n := n) hwq hwaiting (v := v) (by rw [hv, hw, setPrinter_setPrinter, hc])
  have hends : (s.printer e.printer).sense ≠ .none → takeSerial l n e s = senseEnds e.printer n w := fun hsense =>
    (takeSerial_senseEnds hcommand hn hsense hgood).trans (by rw [hw])
  exact ⟨fun h => (hends (by rw [h]; decide)).trans (hload h), fun h => (hends (by rw [h]; decide)).trans (hstart h),
    fun h => (hends (by rw [h]; decide)).trans (hresync h)⟩

variable {p : Port} {hand : Hand} (hv : v = (exchangeOver l s).setPrinter q c) (hloading : s.loadingAt q = some i)
  (hk : s.pack i = some k) (hhand : (s.port p).hand = some hand) (hop : hand.op = .load q) (hbroken : hand.broken = false)
  (hothers : ∀ r x, r ≠ p → (s.port r).hand = some x → x.op ≠ .load q) (ht : t = loadSensed q n v)
include hv hloading hk hhand hop hbroken hothers ht

/-- R10, R182: another serial than the pack's next. -/
theorem loadSensed_mismatch {prior : PackState} (hsensing : c.state = .sensing) (hprior : k.prior = some prior)
    (hother : n ≠ k.next) (hstop : s.stopRecord q = none) :
    t.port p = replyIn { chain := false, quiet := hand.quiet, tag := hand.tag } hand.code .serialMismatch
      (.mismatch k.next n) { s.port p with hand := none } ∧ OthersSame p s t ∧ t = { exchangeOver l s with
        ports := t.ports, printers := put s.printers q { c with state := .unloaded },
        packs := put s.packs i (some { k with state := prior, prior := none, printer := none }) } := by
  obtain ⟨a, b, hover⟩ := exchangeOver_eq l s
  have hports : ∀ r, v.port r = s.port r := fun r => by rw [hv, hover]; rfl
  have hvi : v.loadingAt q = some i := by rw [hv, hover]; exact hloading
  have hvk : v.pack i = some k := by rw [hv, hover]; exact hk
  rw [loadSensed_eq hvi hvk, if_neg hother] at ht
  obtain ⟨hframe, hreply, hsame⟩ := loadMismatch_undone (v := v) (by rw [hports]; exact hhand) hop hbroken
    (fun r x hr hx => hothers r x hr (by rw [← hports]; exact hx)) (by rw [hv, State.printer_setPrinter_same]) hsensing hvi
    hvk hprior (by rw [hv, hover]; exact hstop) ht
  refine ⟨by rw [hreply, hports], fun r hr => by rw [hsame r hr, hports], ?_⟩
  refine hframe.trans ?_
  rw [hv, hover]
  simp only [State.setPrinter, put_put]

variable (hnext : n = k.next) (hnodup : (s.faults.map fun r => r.number).Nodup) (hqueue : c.queue = [])
  (hlow : s.params.stockLow = 0 ∨ s.params.stockLow < k.last + 1 - k.next)
include hnext hnodup hqueue hlow

/-- R9, R13, R108: the pack's next, where the conditions that go belong to OPEN records alone. -/
theorem loadSensed_placed (hstop : ∀ r, s.stopRecord q = some r → r.state ≠ .cleared)
    (hopen : ∀ r ∈ s.faults, NamesStock q r → ¬(r.state = .acknowledged ∧ r.present = true)) :
    t.port p = replyIn { chain := false, quiet := hand.quiet, tag := hand.tag } hand.code .done (.loaded i q n)
      { s.port p with hand := none } ∧ OthersSame p s t ∧ t = { exchangeOver l s with
        ports := t.ports,
        printers := put s.printers q
          { c with state := if c.state ≠ .sensing then c.state
                            else if c.outOfService = true then .outOfService else .ready },
        packs := put s.packs i (some { k with state := .loaded, prior := none, inPrint := [] }),
        faults := s.faults.map fun r =>
          if NamesStock q r ∧ r.state = .opened then { r with present := false } else r } := by
  obtain ⟨a, b, hover⟩ := exchangeOver_eq l s
  have hvk : v.pack i = some k := by rw [hv, hover]; exact hk
  rw [loadSensed_eq (by rw [hv, hover]; exact hloading) hvk, if_pos hnext] at ht
  obtain ⟨o, ho⟩ : ∃ o, o = loadPlaced q i k c v := ⟨_, rfl⟩
  have hofaults : o.faults = s.faults := by rw [ho, hv, hover]; rfl
  obtain ⟨u, hu⟩ : ∃ u, u = loadEvent q o := ⟨_, rfl⟩
  have hevent := hu.trans (loadEvent_open (by rw [hofaults]; exact hnodup) (by rw [hofaults]; exact hopen))
  rw [hofaults] at hevent
  have hended : ∀ r, u.stopRecord q = some r → r.state ≠ .cleared := by
    intro r hr
    have hkept := stopRecord_map (fun r => if NamesStock q r ∧ r.state = .opened then { r with present := false } else r)
      (fun r => by split <;> exact ⟨rfl, rfl, rfl⟩) q s
    have hsame : (s.stopRecord q).map _ = some r := hkept.symm.trans (by rw [← hr, hevent]; rfl)
    obtain ⟨y, hy, rfl⟩ := Option.map_eq_some_iff.mp hsame
    split
    · exact hstop y hy
    · exact hstop y hy
  obtain ⟨hframe, hreply, hsame⟩ := loadSucceeds_answered (v := s) (notes := []) hhand hop hbroken hothers
    (by rw [hv, State.printer_setPrinter_same]) hvk (hu.trans (by rw [ho])) (fun r => by rw [hevent, ho, hv, hover]; rfl)
    (by rw [hevent, ho]; exact look_put_same ..) (by rw [hevent, ho]) (by rw [hv, hover]; exact hlow)
    (by rw [hevent, ho]; exact (congrArg Printer.queue (look_put_same ..)).trans hqueue) (.inr (.inr hended)) ht
  refine ⟨hreply, hsame, hframe.trans ?_⟩
  rw [hevent, ho, hv, hover]
  simp only [State.setPrinter, put_put]

/-- R9, R38, R108, R109: the pack's next, where the printer's STOCK_OUT record stands ACKNOWLEDGED. -/
theorem loadSensed_clears {r : FaultRecord} {d : Nat} (hfaulted : c.state = .faulted) (hsense : c.sense = .none)
    (hd : c.allowance = some d) (hrecord : s.stopRecord q = some r) (hlatest : r.latest = .stockOut)
    (hstate : r.state = .acknowledged) (hpresent : r.present = true)
    (honly : ∀ y ∈ s.faults, NamesStock q y → y.number = r.number) :
    t.port p = replyIn { chain := false, quiet := hand.quiet, tag := hand.tag } hand.code .done (.loaded i q n)
      (noticed s [(.sup, .faultCleared r.number r.printer r.latest r.repeats r.blanks)] p { s.port p with hand := none }) ∧
    (∀ y, y ≠ p →
      t.port y = noticed s [(.sup, .faultCleared r.number r.printer r.latest r.repeats r.blanks)] y (s.port y)) ∧
    t = { exchangeOver l s with
      ports := t.ports, printers := put s.printers q { c with sense := .resync, command := .sense },
      packs := put s.packs i (some { k with state := .loaded, prior := none, inPrint := [] }),
      faults := s.faults.map fun y =>
        if y.number = r.number then { y with state := .cleared, present := false } else y } := by
  obtain ⟨a, b, hover⟩ := exchangeOver_eq l s
  have hvi : v.loadingAt q = some i := by rw [hv, hover]; exact hloading
  have hvk : v.pack i = some k := by rw [hv, hover]; exact hk
  rw [loadSensed_eq hvi hvk, if_pos hnext] at ht
  obtain ⟨o, ho⟩ : ∃ o, o = loadPlaced q i k c v := ⟨_, rfl⟩
  have hofaults : o.faults = s.faults := by rw [ho, hv, hover]; rfl
  have hkeeps : ({ c with state :=
      if c.state ≠ .sensing then c.state else if c.outOfService = true then .outOfService else .ready } : Printer) = c := by
    rw [if_pos (by rw [hfaulted]; decide)]
  have hoq : o.printer q = c := by
    rw [ho]
    exact (look_put_same ..).trans hkeeps
  have holoaded : (o.loadedAt q).isSome = true := by
    have hoi : o.pack i = some { k with state := .loaded, prior := none, inPrint := [] } := by
      rw [ho]
      exact look_put_same ..
    refine List.find?_isSome.mpr ⟨i, List.mem_finRange i, ?_⟩
    rw [hoi]
    simp [(loading_pack hvi hvk).2]
  obtain ⟨⟨ports, hclears⟩, hclearsPorts⟩ := loadEvent_clears (q := q) (w := o) (r := r) (d := d)
    (by rw [hofaults]; exact hnodup) (by rw [State.stopRecord, hofaults]; exact hrecord) hlatest hstate hpresent
    (by rw [hofaults]; exact honly) (by rw [hoq]; exact hfaulted) (by rw [hoq]; exact hsense) (by rw [hoq]; exact hd) holoaded
  obtain ⟨u, hu⟩ : ∃ u, u = loadEvent q o := ⟨_, rfl⟩
  rw [← hu, hoq] at hclears
  have huq : u.printer q = { c with sense := .resync, command := .sense } := by
    rw [hclears]
    exact look_put_same ..
  obtain ⟨hframe, hreply, hsame⟩ := loadSucceeds_answered (v := s)
    (notes := [(.sup, .faultCleared r.number r.printer r.latest r.repeats r.blanks)]) hhand hop hbroken hothers
    (by rw [hv, State.printer_setPrinter_same]) hvk (hu.trans (by rw [ho]))
    (fun y => by rw [hu, hclearsPorts, ho, hv, hover]; rfl) (by rw [hclears, ho]; exact look_put_same ..)
    (by rw [hclears, ho]) (by rw [hv, hover]; exact hlow) (by rw [huq]; exact hqueue)
    (.inr (.inl (by rw [huq]; exact nofun))) ht
  refine ⟨hreply, hsame, hframe.trans ?_⟩
  rw [hclears, ho, hv, hover]
  simp only [State.setPrinter, put_put]

end

/-- Settles O56: first a LOAD sense, then one of the other two. -/
theorem serialEndsSense : Obligations.SerialEndsSense := by
  intro l e s q i k n c hlive hexchange hcommand hq hk hn hwaiting hc
  subst hq
  have hrun : exec (.serial l n) s = .next (takeSerial l n e s) :=
    congrArg _ ((if_pos hlive).trans (onExchange_some hexchange))
  obtain ⟨v, hv⟩ : ∃ v, v = (exchangeOver l s).setPrinter e.printer c := ⟨_, rfl⟩
  obtain ⟨t, ht⟩ : ∃ t, t = takeSerial l n e s := ⟨_, rfl⟩
  have hcw : c.waiting = false := by rw [hc]; exact hwaiting
  have huse := takeSerial_use (l := l) hcommand hn hwaiting hc hv
  rw [← ht] at hrun huse
  refine ⟨fun p hand hmisses hload hloading hhand hop hbroken hothers => ?_, fun d hsensed hloaded hjob hqueue hd => ?_⟩
  · have hsensed : (s.printer e.printer).state ≠ .probe → t = loadSensed e.printer n v := fun hprobe =>
      (huse (.inl ⟨hmisses, hprobe⟩)).1 hload
    refine ⟨fun prior hsensing hprior hother hstop => ⟨t, hrun, ?_⟩, fun hnext hlast hnodup hqueue hlow =>
      ⟨fun hstate hstop hopen => ⟨t, hrun, ?_⟩, fun r d hfaulted hd hrecord hlatest hstate hpresent honly => ⟨t, hrun, ?_⟩⟩⟩
    · exact loadSensed_mismatch hv hloading hk hhand hop hbroken hothers (hsensed (by rw [hsensing]; decide))
        (by rw [hc]; exact hsensing) hprior hother hstop
    · exact loadSensed_placed hv hloading hk hhand hop hbroken hothers
        (hsensed (by obtain h | h | h := hstate <;> rw [h] <;> decide)) hnext hnodup (by rw [hc]; exact hqueue) hlow hstop
        hopen
    · exact loadSensed_clears hv hloading hk hhand hop hbroken hothers (hsensed (by rw [hfaulted]; decide)) hnext hnodup
        (by rw [hc]; exact hqueue) hlow (by rw [hc]; exact hfaulted) (by rw [hc]) (by rw [hc]; exact hd) hrecord hlatest
        hstate hpresent honly
  · obtain ⟨b, hresync, hstate, hunder, hserial⟩ : ∃ b : Bool, (b = true ↔ (s.printer e.printer).sense = .resync) ∧
        (c.state = .faulted ∨ c.state = .probe) ∧
        ((if b = true then (s.stopRecord e.printer).map fun r => r.number else none)
          = (s.stopRecord e.printer).map fun r => r.number) ∧ t = serialSensed e.printer b n v := by
      obtain ⟨hsense, hstate, hstop⟩ | ⟨hsense, hstate, hmisses⟩ := hsensed
      · exact ⟨false, by simp [hsense], .inr (by rw [hc]; exact hstate), by simp [hstop], (huse (.inr hstop)).2.1 hsense⟩
      · exact ⟨true, by simp [hsense], .inl (by rw [hc]; exact hstate), if_pos rfl,
          (huse (.inl ⟨hmisses, by rw [hstate]; decide⟩)).2.2 hsense⟩
    obtain ⟨a, a', hover⟩ := exchangeOver_eq l s
    obtain ⟨hkloaded, hkprinter⟩ := loaded_pack hloaded hk
    obtain ⟨hatNext, hlater, hother, hzero⟩ := serialSensed_eq (v := v) (q := e.printer) (i := i) (k := k) (b := b) (n := n)
      (by rw [hv, hover]; exact hloaded) (by rw [hv, hover]; exact hk)
    have hvstop : v.stopRecord e.printer = s.stopRecord e.printer := by rw [hv, hover]; rfl
    rw [hvstop, hunder] at hlater
    have hcd : c.allowance = some d := by rw [hc]; exact hd
    have hcjob : c.job = none := by rw [hc]; exact hjob
    have hcqueue : c.queue = [] := by rw [hc]; exact hqueue
    have hsame : c.job = (s.printer e.printer).job := by rw [hc]
    have hfails : ∀ kind detail, stopFault e.printer kind detail v =
        (exchangeOver l (raise kind (some e.printer) detail s)).setPrinter e.printer
          { c with state := .faulted, couponTimer := false, unconfirmed := false, outstanding := none } :=
      fun kind detail => stopFault_sensed hv kind detail hsame hcjob hcqueue hstate (by rw [hc]) hcw (by rw [hc])
        (by rw [hc]) (by rw [hc])
    intro back failed
    have hback : c.returned b = back := by simp only [back, Printer.returned, hresync]
    refine ⟨fun hwaits hfull => ⟨fun hnext hlast => ⟨t, hrun, ?_⟩, fun hnext hlast hd10 hlow => ⟨t, hrun, ?_⟩⟩,
      fun hpositive hne => ⟨t, hrun, ?_⟩, fun hn0 hpositive => ⟨t, hrun, ?_⟩⟩
    · rw [← hback]
      exact senseReturns_sensed hv (hserial.trans (hatNext hnext)) hcqueue hcd hcw hwaits hfull
    · rw [← hback]
      exact senseSkips_sensed hv hk (hserial.trans (hlater hnext hlast)) hkloaded hkprinter hnext hlast hlow hsame hcjob
        hcqueue hcd hd10 hcw hwaits hfull
    · exact hserial.trans ((hother hpositive hne).trans (hfails ..))
    · exact hserial.trans ((hzero hn0 hpositive).trans (hfails ..))

end Sys2Proof.Machine
end

