-- ==== Sys2Proof/Proofs/SuppliesAndRestarts.lean ====
section
/-! The supplies, the reset input and the three causes of a restart (R22, R88, R98, R119, R120, R144, R193, R194, R199 to
R203). -/

namespace Sys2Proof.Machine

/-! ### The supplies and the reset input (R194, R199, R200) -/

/-- Settles O59. -/
theorem suppliesAndReset : Obligations.SuppliesAndReset := by
  intro s
  obtain ⟨m, n, hcut, hkept, htorn⟩ := cutSave_eq s
  have hindex : s.save = none → n = s.freeIndex := by
    intro hnone
    have hsame : cutSave s = s := by rw [cutSave, hnone]
    exact congrArg State.freeIndex (hcut.symm.trans hsame)
  refine ⟨fun hhigh => ?_, fun hpowered => ?_, fun hunpowered => ?_⟩
  · refine ⟨{ cutSave s with resetLow := true }, ?_, by rw [hcut], fun hnone => ?_, fun image himage => ?_⟩
    · show execResetAssert s = _
      rw [execResetAssert, hhigh]
      rfl
    · rw [hcut]
      exact ⟨hkept hnone, hindex hnone⟩
    · rw [hcut]
      exact htorn image himage
  · refine ⟨{ cutSave s with powered := false, coldPending := false }, congrArg _ (if_pos hpowered), by rw [hcut],
      fun hnone => ?_, fun image himage => ?_⟩
    · rw [hcut]
      exact ⟨hkept hnone, hindex hnone⟩
    · rw [hcut]
      exact htorn image himage
  · refine ⟨_, ?_, rfl⟩
    show execBackupSupplyLoss s = _
    rw [execBackupSupplyLoss, hunpowered]
    rfl

/-! ### The state that a restart begins from (R201, R202) -/

/-- The volatile state cleared, the parameters loaded and the printers at rest, before the records are adjusted. -/
abbrev restartBase (lost : Bool) (s : State) : State :=
  resetPrinters (loadParams (clearVolatile (if lost = true then initialRecords (cutSave s) else cutSave s)))

section
variable (lost : Bool) (s : State)

theorem restartBase_printer (p : PrinterId) : (restartBase lost s).printer p =
    restPrinter (if (restartBase lost s).printerPresent p = true then .probe else .absent) := reset_printer _ p

theorem restartBase_resting (p : PrinterId) :
    ∃ st, (restartBase lost s).printer p = restPrinter st ∧ st ≠ .faulted := by
  refine ⟨_, restartBase_printer lost s p, ?_⟩
  split <;> decide

theorem restartBase_port (q : Port) : (restartBase lost s).port q = restPort [] := rest_port q _ rfl

/-- R193: the restart reads the image of the memory as the write it cuts off has left it. -/
theorem restartBase_params : (restartBase lost s).params = (cutSave s).autoload.getD defaultParams ∧
    (restartBase lost s).readFails = s.readFails.tail := by
  obtain ⟨m, n, hcut, _⟩ := cutSave_eq s
  cases lost <;> exact ⟨rfl, by simp [restartBase, resetPrinters, loadParams, clearVolatile, initialRecords, hcut]⟩

/-- What a restart leaves of the base but the records, whichever it keeps. -/
theorem restartAs_frame (cold : Bool) (cause : RestartCause) {t : State} (ht : t = restartAs cold cause lost s) :
    ∃ vp vk sp f c o fr ss r n is, t = { restartBase lost s with
      ports := vp, packs := vk, spoils := sp, faults := f, faultCounter := c, overwritten := o, freeReported := fr,
      sessions := ss, running := r, night := n, issues := is } := by
  obtain ⟨d, ⟨vp, vk, l, f, r, n, w, hd, _⟩, ⟨vp', f', htail, _⟩, _⟩ := restartTail_told cold cause lost
    (cutSave s).autoload.isNone (restartBase lost s) (restartBase_resting lost s) (restartBase_port lost s)
  obtain ⟨⟨v3, f3, c3, o3, r3, n3, hraise⟩, _⟩ := raiseStart_told lost (cutSave s).autoload.isNone d
  rw [ht, restartAs_eq, htail, hraise, hd]
  exact ⟨_, _, _, _, _, _, _, _, _, _, _, rfl⟩

end

/-- R193: the image that a restart reads, after the write that it cuts off. -/
theorem restartAs_image (cold : Bool) (cause : RestartCause) (lost : Bool) {s t : State}
    (ht : t = restartAs cold cause lost s) :
    t.memory = (cutSave s).memory ∧ imageReadAt s t = (cutSave s).autoload := by
  obtain ⟨m, n, hcut, _⟩ := cutSave_eq s
  obtain ⟨vp, vk, sp, f, c, o, fr, ss, r, ni, is, hframe⟩ := restartAs_frame lost s cold cause ht
  have hmemory : t.memory = (cutSave s).memory := by
    rw [hframe]
    cases lost <;> rfl
  refine ⟨hmemory, ?_⟩
  rw [imageReadAt, hmemory, hcut]
  rfl

/-- R201, R203: what every restart leaves. -/
theorem restartAs_restarted (cold : Bool) (cause : RestartCause) (lost : Bool) {s t : State}
    (ht : t = restartAs cold cause lost s) : Restarted cold cause lost s t := by
  obtain ⟨m, n, hcut, hkept, htorn⟩ := cutSave_eq s
  obtain ⟨vp, vk, sp, f, c, o, fr, ss, r, ni, is, hframe⟩ := restartAs_frame lost s cold cause ht
  obtain ⟨_, _, _, hports⟩ := restartTail_told cold cause lost
    (cutSave s).autoload.isNone (restartBase lost s) (restartBase_resting lost s) (restartBase_port lost s)
  rw [← restartAs_eq, ← ht] at hports
  obtain ⟨hparams, _⟩ := restartBase_params lost s
  obtain ⟨hcutMemory, himage⟩ := restartAs_image cold cause lost ht
  have hmemory : t.memory = m := by rw [hcutMemory, hcut]
  obtain ⟨hreopened, hfirst, hempty⟩ := hports
  have htparams : t.params = (cutSave s).autoload.getD defaultParams := by
    rw [hframe]
    exact hparams
  refine ⟨⟨fun hnone => hmemory.trans (hkept hnone), fun image hsave => hmemory ▸ htorn image hsave⟩, ?_⟩
  rw [himage]
  refine ⟨by rw [hframe]; rfl, by rw [hframe]; rfl, by rw [hframe]; rfl, by rw [hframe]; rfl, ?_, htparams, ?_, ?_,
    fun p => ?_, hreopened, fun p hp => ?_, hempty⟩
  · rw [hframe]
    cases lost <;> simp [restartBase, resetPrinters, loadParams, clearVolatile, initialRecords, hcut]
  · rw [hframe]
    rfl
  · rw [hframe]
    rfl
  · rw [hframe]
    exact restartBase_printer lost s p
  · rw [hfirst p hp, hframe]

/-! ### The records that a restart keeps (R22, R88, R98, R119, R144) -/

/-- Without a loss of the records, the base differs from the state before in the volatile items and the parameters
alone. -/
theorem restartBase_kept (s : State) : ∃ ports jobs slots a b q pp pw m n printers, restartBase false s = { s with
    ports := ports, jobs := jobs, slots := slots, lineA := a, lineB := b, params := q, presentPrinters := pp,
    presentWindows := pw, readFails := s.readFails.tail, save := none, memory := m, freeIndex := n,
    printers := printers } := by
  obtain ⟨m, n, hcut, _⟩ := cutSave_eq s
  obtain ⟨u, hu⟩ : ∃ u, u = restartBase false s := ⟨_, rfl⟩
  refine ⟨u.ports, u.jobs, u.slots, u.lineA, u.lineB, u.params, u.presentPrinters, u.presentWindows, m, n, u.printers, ?_⟩
  rw [hu, restartBase, if_neg (by decide), hcut]
  rfl

/-- The records of two states that a restart would convert alike. -/
theorem conversionEntries_congr {s u : State} (hp : u.packs = s.packs) (hd : u.day = s.day) (hc : u.clock = s.clock) :
    conversionEntries u = conversionEntries s := by
  refine List.flatMap_congr fun i _ => inPrintEntries_congr ?_ hd hc
  rw [State.pack, hp]
  rfl

/-- R116: CONFIG_DEFAULTED on a log that differs in nothing the raise looks at. -/
theorem raiseDefaulted_alike {d s : State} (dflt : Bool) (hf : d.faults = s.faults) (hc : d.faultCounter = s.faultCounter)
    (ho : d.overwritten = s.overwritten) (hday : d.day = s.day) (hclock : d.clock = s.clock) (hmode : d.mode = s.mode)
    {es : List SpoilEntry} (hr : d.running = { s.running with abandoned := addBlanks es s.running.abandoned })
    (hn : d.night = (s.night || s.mode == .night && !es.isEmpty)) {e a : State} (he : e = raiseStart false dflt d)
    (ha : a = if dflt = true then raise .configDefaulted none none s else s) :
    e.faults = a.faults ∧ e.faultCounter = a.faultCounter ∧ e.overwritten = a.overwritten ∧
      e.running = { a.running with abandoned := addBlanks es s.running.abandoned } ∧
      e.night = (a.night || s.mode == .night && !es.isEmpty) := by
  cases dflt with
  | false =>
    have he' : e = d := he
    have ha' : a = s := ha
    rw [he', ha']
    exact ⟨hf, hc, ho, hr, hn⟩
  | true =>
    obtain ⟨h1, h2, h3, h4, h5, h6, h7⟩ := raise_office .configDefaulted none hf hc ho hday hclock
    have he' : e = raise .configDefaulted none none d := he
    have ha' : a = raise .configDefaulted none none s := ha
    rw [he', ha', h1, h2, h3, h4, h5, h6, h7, hr, hn, hmode]
    refine ⟨rfl, rfl, rfl, rfl, ?_⟩
    exact Bool.or_right_comm ..

/-- R22, R88, R98, R119, R144: what a restart leaves of the records it keeps. -/
theorem restartAs_kept (cold : Bool) (cause : RestartCause) {s t : State} (ht : t = restartAs cold cause false s) :
    RecordsKept s t := by
  obtain ⟨dflt, hdflt⟩ : ∃ dflt, dflt = (cutSave s).autoload.isNone := ⟨_, rfl⟩
  obtain ⟨ports, jobs, slots, la, lb, q, pp, pw, m, n, printers, hbase⟩ := restartBase_kept s
  obtain ⟨d, ⟨vp, vk, l, f, r, ni, w, hd, hpacks, hsessions, hfits⟩, ⟨vp', f', htail, hfaults⟩, _⟩ := restartTail_told cold
    cause false dflt (restartBase false s) (restartBase_resting false s) (restartBase_port false s)
  obtain ⟨v3, f3, c3, o3, r3, n3, hraise⟩ := (raiseStart_told false dflt d).1
  rw [hdflt, ← restartAs_eq, ← ht, ← hdflt] at htail
  obtain ⟨e, he⟩ : ∃ e, e = raiseStart false dflt d := ⟨_, rfl⟩
  rw [← he] at htail hraise hfaults
  have hshape := htail
  rw [hraise, hd, hbase] at hshape
  refine ⟨by rw [hshape], by rw [hshape], by rw [hshape], by rw [hshape], by rw [hshape], by rw [hshape], by rw [hshape],
    by rw [hshape], by rw [hshape], by rw [hshape], fun i => ?_, by rw [hshape], fun i => ?_, fun hroom => ?_⟩
  · rw [hshape]
    exact (hpacks i).trans (by rw [hbase]; rfl)
  · rw [hshape]
    exact (hsessions i).trans (by rw [hbase]; rfl)
  · have hentries : conversionEntries (restartBase false s) = conversionEntries s :=
      conversionEntries_congr (by rw [hbase]) (by rw [hbase]) (by rw [hbase])
    rw [hentries] at hfits
    obtain ⟨hl, hf, hr, hn⟩ := hfits (by rw [hbase]; exact hroom)
    obtain ⟨a, ha⟩ : ∃ a, a = defaultedAt s t := ⟨_, rfl⟩
    have hdefaulted : a = if dflt = true then raise .configDefaulted none none s else s := by
      rw [ha, defaultedAt, (restartAs_image cold cause false ht).2, hdflt]
      cases (cutSave s).autoload <;> rfl
    obtain ⟨h1, h2, h3, h4, h5⟩ := raiseDefaulted_alike (es := conversionEntries s) dflt (d := d) (s := s)
      (by rw [hd, hf, hbase]) (by rw [hd, hbase]) (by rw [hd, hbase]) (by rw [hd, hbase]) (by rw [hd, hbase])
      (by rw [hd, hbase]) (by rw [hd, hr, hbase]) (by rw [hd, hn, hbase]) he hdefaulted
    have htspoils : t.spoils = s.spoils ++ conversionEntries s := by rw [hshape, hl, hbase]
    rw [← ha]
    refine ⟨htspoils, ?_, ?_, ?_, ?_, fun hnodup hcounter hone => ?_⟩
    · rw [htail]
      exact h4
    · rw [htail]
      exact h5
    · rw [htail]
      exact h3
    · rw [htail]
      exact h2
    · obtain ⟨hnumbers, hfull⟩ := raise_defaulted_laws s
      have hdspoils : d.spoils = t.spoils := by rw [htspoils, hd, hl, hbase]
      have hpresent : t.presentPrinters = (restartBase false s).presentPrinters := by rw [hshape, hbase]
      have hafaults : (a.faults.map fun r => r.number).Nodup ∧ (a.faults.filter isOpenFull).length ≤ 1 := by
        rw [hdefaulted]
        split
        · exact ⟨hnumbers hnodup hcounter, hfull hone⟩
        · exact ⟨hnodup, hone⟩
      have htfaults : t.faults = f' := by rw [htail]
      rw [htfaults, hfaults (by rw [h1]; exact hafaults.1) (by rw [h1]; exact hafaults.2), h1, hdspoils, hpresent]

/-! ### A start that finds the records lost (R116, R120, R202) -/

theorem restartBase_initial (s : State) : ∃ ports jobs slots a b q pp pw m n printers, restartBase true s = {
    initialRecords s with
    ports := ports, jobs := jobs, slots := slots, lineA := a, lineB := b, params := q, presentPrinters := pp,
    presentWindows := pw, readFails := s.readFails.tail, save := none, memory := m, freeIndex := n,
    printers := printers } := by
  obtain ⟨m, n, hcut, _⟩ := cutSave_eq s
  obtain ⟨u, hu⟩ : ∃ u, u = restartBase true s := ⟨_, rfl⟩
  refine ⟨u.ports, u.jobs, u.slots, u.lineA, u.lineB, u.params, u.presentPrinters, u.presentWindows, m, n, u.printers, ?_⟩
  rw [hu, restartBase, if_pos rfl, hcut]
  rfl

theorem conversionEntries_none {u : State} (h : ∀ i, u.pack i = none) : conversionEntries u = [] := by
  refine List.flatMap_eq_nil_iff.mpr fun i _ => ?_
  simp [inPrintEntries, h]

/-- R101, R120: RECORDS_LOST in an empty log, and CONFIG_DEFAULTED after it. -/
theorem raiseStart_initial {d : State} (dflt : Bool) (hfaults : d.faults = []) (hcounter : d.faultCounter = 1)
    (hover : d.overwritten = false) (hday : d.day = 1) (hclock : d.clock = 0) (hmode : d.mode = .opened)
    (hrunning : d.running = zeroSummary) (hnight : d.night = false) {e : State} (he : e = raiseStart true dflt d) :
    e.faults = officeRecord 0 1 .recordsLost .opened true ::
        (if dflt = true then [officeRecord 1 2 .configDefaulted .cleared false] else []) ∧
      e.faultCounter = (if dflt = true then 3 else 2) ∧ e.overwritten = false ∧
      e.running = { zeroSummary with officeFaults := if dflt = true then 2 else 1 } ∧ e.night = false := by
  obtain ⟨a, ha⟩ : ∃ a, a = raise .recordsLost none none d := ⟨_, rfl⟩
  obtain ⟨v, hlost⟩ := raise_fresh (k := .recordsLost) (d := none) (s := d) (by rw [hfaults]; rfl)
  rw [← ha, hfaults, hcounter, hover, hrunning, hnight, hmode] at hlost
  have hafaults : a.faults = [officeRecord 0 1 .recordsLost .opened true] := by
    rw [hlost]
    simp only [newRecord, hday, hclock]
    rfl
  have hacounter : a.faultCounter = 2 := by rw [hlost]; rfl
  cases dflt with
  | false =>
    have he' : e = a := he.trans ha.symm
    rw [he', hafaults, hacounter, hlost]
    exact ⟨rfl, rfl, rfl, rfl, rfl⟩
  | true =>
    have he' : e = raise .configDefaulted none none a := by rw [he, ha]; rfl
    obtain ⟨v', hdefaulted⟩ := raise_fresh (k := .configDefaulted) (d := none) (s := a) (by rw [hafaults]; rfl)
    have haday : a.day = 1 ∧ a.clock = 0 ∧ a.mode = .opened ∧ a.overwritten = false ∧ a.night = false
        ∧ a.running = { zeroSummary with officeFaults := 1 } := by
      rw [hlost]
      exact ⟨hday, hclock, rfl, rfl, rfl, rfl⟩
    obtain ⟨haday, haclock, hamode, haover, hanight, harunning⟩ := haday
    rw [← he', hafaults, hacounter, haover, hanight, harunning, hamode] at hdefaulted
    rw [hdefaulted]
    refine ⟨?_, rfl, rfl, rfl, rfl⟩
    simp only [newRecord, haday, haclock]
    rfl

/-- R202: what a start that finds the marker lost leaves of the records. -/
theorem restartAs_initial (cold : Bool) (cause : RestartCause) {s t : State} (ht : t = restartAs cold cause true s) :
    RecordsInitial s t := by
  obtain ⟨dflt, hdflt⟩ : ∃ dflt, dflt = (cutSave s).autoload.isNone := ⟨_, rfl⟩
  obtain ⟨ports, jobs, slots, la, lb, q, pp, pw, m, n, printers, hbase⟩ := restartBase_initial s
  obtain ⟨d, ⟨vp, vk, l, f, r, ni, w, hd, hpacks, hsessions, hfits⟩, ⟨vp', f', htail, hfaults⟩, _⟩ := restartTail_told cold
    cause true dflt (restartBase true s) (restartBase_resting true s) (restartBase_port true s)
  obtain ⟨v3, f3, c3, o3, r3, n3, hraise⟩ := (raiseStart_told true dflt d).1
  rw [hdflt, ← restartAs_eq, ← ht, ← hdflt] at htail
  obtain ⟨e, he⟩ : ∃ e, e = raiseStart true dflt d := ⟨_, rfl⟩
  rw [← he] at htail hraise hfaults
  have hnopack : ∀ i, (restartBase true s).pack i = none := fun i => by
    rw [hbase]
    exact look_replicate ..
  have hnosession : ∀ i, (restartBase true s).session i = none := fun i => by
    rw [hbase]
    exact look_replicate ..
  rw [conversionEntries_none hnopack] at hfits
  obtain ⟨hl, hf, hr, hn⟩ := hfits (by rw [hbase]; exact Nat.zero_le _)
  have hvk : vk = Vector.replicate 32 none := vector_none vk fun i => by rw [hpacks i, hnopack]; rfl
  have hw : w = Vector.replicate 24 none := vector_none w fun i => by rw [hsessions i, hnosession]; rfl
  obtain ⟨h1, h2, h3, h4, h5⟩ := raiseStart_initial (d := d) dflt (by rw [hd, hf, hbase]; rfl) (by rw [hd, hbase]; rfl)
    (by rw [hd, hbase]; rfl) (by rw [hd, hbase]; rfl) (by rw [hd, hbase]; rfl) (by rw [hd, hbase]; rfl)
    (by rw [hd, hr, hbase]; rfl) (by rw [hd, hn, hbase]; rfl) he
  have hshape := htail
  rw [hraise, hd, hbase] at hshape
  have himage : (imageReadAt s t = none) = (dflt = true) := by
    rw [(restartAs_image cold cause true ht).2, hdflt, Option.isNone_iff_eq_none]
  have htfaults : t.faults = e.faults := by
    have hmap := hfaults (by rw [h1]; cases dflt <;> decide) (by rw [h1]; cases dflt <;> decide)
    rw [htail, hmap, h1]
    cases dflt <;> simp [restartFault, restartFull, officeRecord]
  simp only [RecordsInitial, himage]
  refine ⟨by rw [hshape, hvk], by rw [hshape, hl, hbase]; rfl, by rw [hshape]; rfl, by rw [hshape, hw],
    by rw [hshape]; rfl, by rw [hshape]; rfl, by rw [hshape]; rfl, by rw [hshape]; rfl, by rw [hshape]; rfl,
    by rw [htail]; exact h5, by rw [hshape]; rfl, by rw [hshape]; rfl, by rw [hshape]; rfl, by rw [htail]; exact h3,
    by rw [htfaults]; exact h1, by rw [htail]; exact h2, by rw [htail]; exact h4, by rw [hshape], by rw [hshape]; rfl⟩

/-! ### The three causes (R199, R200) -/

/-- A restart looks at nothing of the ports, the supply and the reset input. -/
theorem restart_congr {s v t : State} {ports : Vector PortState 13} {a b c : Bool}
    (hv : v = { s with ports := ports, powered := a, resetLow := b, coldPending := c }) :
    (∀ cold cause lost, Restarted cold cause lost v t → Restarted cold cause lost s t) ∧
    (RecordsKept v t → RecordsKept s t) ∧ (RecordsInitial v t → RecordsInitial s t) := by
  have hsame : (defaultedAt v t).faults = (defaultedAt s t).faults ∧
      (defaultedAt v t).faultCounter = (defaultedAt s t).faultCounter ∧
      (defaultedAt v t).overwritten = (defaultedAt s t).overwritten ∧
      (defaultedAt v t).running = (defaultedAt s t).running ∧ (defaultedAt v t).night = (defaultedAt s t).night := by
    have himage : imageReadAt v t = imageReadAt s t := by rw [hv]; rfl
    rw [defaultedAt, defaultedAt, himage]
    split
    · obtain ⟨h1, h2, h3, h4, h5, h6, h7⟩ := raise_office .configDefaulted none (s := s) (u := v) (by rw [hv]) (by rw [hv])
        (by rw [hv]) (by rw [hv]) (by rw [hv])
      exact ⟨h1, h2, h3, by rw [h4, h5, hv], by rw [h6, h7, hv]⟩
    · rw [hv]
      exact ⟨rfl, rfl, rfl, rfl, rfl⟩
  obtain ⟨hf, hc, ho, hr, hn⟩ := hsame
  refine ⟨fun _ _ _ h => by rw [hv] at h; exact h, fun h => ?_, fun h => by rw [hv] at h; exact h⟩
  unfold RecordsKept at h ⊢
  rw [hf, hc, ho, hr, hn, hv] at h
  exact h

/-- A restart leaves the supply and the reset input as they are. -/
theorem restartAs_supplies (cold : Bool) (cause : RestartCause) (lost : Bool) {s t : State}
    (ht : t = restartAs cold cause lost s) :
    t.powered = s.powered ∧ t.resetLow = s.resetLow ∧ t.coldPending = s.coldPending := by
  obtain ⟨m, n, hcut, _⟩ := cutSave_eq s
  obtain ⟨vp, vk, sp, f, c, o, fr, ss, r, ni, is, hframe⟩ := restartAs_frame lost s cold cause ht
  rw [hframe]
  cases lost <;> simp [restartBase, resetPrinters, loadParams, clearVolatile, initialRecords, hcut]

/-- What a restart leaves, told from a state that differs in the ports, the supply and the reset input alone. -/
theorem restartAs_result {cold : Bool} {cause : RestartCause} {lost : Bool} {s v t : State} {ports : Vector PortState 13}
    {a b c : Bool} (hv : v = { s with ports := ports, powered := a, resetLow := b, coldPending := c })
    (ht : t = restartAs cold cause lost v) : Restarted cold cause lost s t ∧ (lost = false → RecordsKept s t) ∧
      (lost = true → RecordsInitial s t) ∧ t.powered = a ∧ t.resetLow = b ∧ t.coldPending = c := by
  obtain ⟨hrestarted, hkept, hinitial⟩ := restart_congr (t := t) hv
  obtain ⟨hpowered, hlow, hcold⟩ := restartAs_supplies cold cause lost ht
  refine ⟨hrestarted _ _ _ (restartAs_restarted cold cause lost ht), ?_, ?_, by rw [hpowered, hv], by rw [hlow, hv],
    by rw [hcold, hv]⟩
  · rintro rfl
    exact hkept (restartAs_kept cold cause ht)
  · rintro rfl
    exact hinitial (restartAs_initial cold cause ht)

section
variable {s : State} {lost : Bool}

theorem exec_resetRelease_warm (hpowered : s.powered = true) (hlow : s.resetLow = true) (hwarm : s.coldPending = false) :
    exec .resetRelease s =
      .next (restartAs false .resetInput false { s with resetLow := false, coldPending := false }) := by
  show execResetRelease s = _
  rw [execResetRelease, if_pos hlow, releaseReset, if_neg (by simp [hpowered]), if_neg (by simp [hwarm])]
  rfl

theorem exec_resetRelease_cold (hpowered : s.powered = true) (hlow : s.resetLow = true) (hcold : s.coldPending = true)
    (hvalid : s.valid = !lost) : exec .resetRelease s =
      .next (restartAs true .power lost { s with resetLow := false, coldPending := false }) := by
  have hlost : (!s.valid) = lost := by rw [hvalid, Bool.not_not]
  show execResetRelease s = _
  rw [execResetRelease, if_pos hlow, releaseReset, if_neg (by simp [hpowered]), if_pos hcold, ← hlost]
  rfl

theorem exec_coldStart (hunpowered : s.powered = false) (hhigh : s.resetLow = false) (hvalid : s.valid = !lost) :
    exec .coldStart s = .next (restartAs true .power lost { s with powered := true }) := by
  have hlost : (!s.valid) = lost := by rw [hvalid, Bool.not_not]
  show execColdStart s = _
  rw [execColdStart, if_neg (by simp [hunpowered]), applySupply, if_neg (by simp [hhigh]), ← hlost]
  rfl

end

/-- Settles O60. -/
theorem restartsRestore : Obligations.RestartsRestore := by
  intro s
  refine ⟨fun h rest ha => ?_, fun hpowered hlow => ⟨fun hwarm => ?_, fun hcold hvalid => ?_, fun hcold hvalid => ?_⟩,
    fun hunpowered hhigh => ⟨fun hvalid => ?_, fun hvalid => ?_⟩, fun hunpowered hlow => ?_⟩
  · have hexec : exec (.restart .sup h) s = .next (restartAs false .request false (taken .sup rest s)) := by
      rw [exec_request rfl, takeRequest_accepted ha]
      rfl
    obtain ⟨hrestarted, hkept, _⟩ := restartAs_result (s := s) (v := taken .sup rest s) rfl rfl
    exact ⟨_, hexec, hrestarted, hkept rfl⟩
  · obtain ⟨hrestarted, hkept, _, _, hreset, _⟩ := restartAs_result (s := s)
      (v := { s with resetLow := false, coldPending := false }) rfl rfl
    exact ⟨_, exec_resetRelease_warm hpowered hlow hwarm, hrestarted, hkept rfl, hreset⟩
  · obtain ⟨hrestarted, hkept, _, _, hreset, hpending⟩ := restartAs_result (s := s)
      (v := { s with resetLow := false, coldPending := false }) rfl rfl
    exact ⟨_, exec_resetRelease_cold (lost := false) hpowered hlow hcold hvalid, hrestarted, hkept rfl, hreset, hpending⟩
  · obtain ⟨hrestarted, _, hinitial, _, hreset, hpending⟩ := restartAs_result (s := s)
      (v := { s with resetLow := false, coldPending := false }) rfl rfl
    exact ⟨_, exec_resetRelease_cold (lost := true) hpowered hlow hcold hvalid, hrestarted, hinitial rfl, hreset, hpending⟩
  · obtain ⟨hrestarted, hkept, _, hsupplied, _⟩ := restartAs_result (s := s) (v := { s with powered := true }) rfl rfl
    exact ⟨_, exec_coldStart (lost := false) hunpowered hhigh hvalid, hrestarted, hkept rfl, hsupplied⟩
  · obtain ⟨hrestarted, _, hinitial, hsupplied, _⟩ := restartAs_result (s := s) (v := { s with powered := true }) rfl rfl
    exact ⟨_, exec_coldStart (lost := true) hunpowered hhigh hvalid, hrestarted, hinitial rfl, hsupplied⟩
  · refine ⟨{ s with powered := true, coldPending := true }, ?_, rfl⟩
    show execColdStart s = _
    rw [execColdStart, if_neg (by simp [hunpowered]), applySupply, if_pos hlow]

end Sys2Proof.Machine
end
